-- ==== Sys2Proof/Word.lean ====
section
/-!
DEFINITION. The word types of the CK4160: the octet, the unit of the link, of the array and of every
field (00_scope, Terms), the four-bit sequence number (00_scope, Ranges and arithmetic) and the
three-octet address parameter (R109).
-/

namespace Sys2Proof

/-- Eight bits (00_scope, Terms). -/
abbrev Byte := BitVec 8

/-- A sequence number: four bits, arithmetic modulo 16 (00_scope, Ranges and arithmetic). -/
abbrev Seq := BitVec 4

/-- Two octets: a counter, a serial, a mask of sixteen groups or a CRC. -/
abbrev Word16 := BitVec 16

/-- A three-octet address or length parameter (R109). -/
abbrev Word24 := BitVec 24

end Sys2Proof
end

