-- ==== Sys2Proof/Syntax.lean ====
section
/-!
DEFINITION. The commands of the CK4160, one constructor of `Instr` for each row of
spec/opcode_table.json, and the data they carry. The table gives no operand fields; each operand here is
what the rule of the row says arrives from outside (a parcel's fields, a pin's level, what the silicon
reads back after a pulse).
-/

namespace Sys2Proof.Machine

/-- The fields of a valid parcel the framer hands over besides class and payload (R48). -/
structure ParcelHead where
  ns : Seq
  nr : Seq
  tag : Byte
  deriving DecidableEq, Repr

/-- The configuration record of section 10.1, its twelve fields in octet order; the default of each field
is that section's. -/
structure Settings where
  linkRate : Byte := 4
  retransmitTimeout : Byte := 25
  retryLimit : Byte := 6
  holdLimit : Byte := 10
  keepalive : Byte := 0
  gatherWindow : Byte := 10
  yieldEnable : Byte := 1
  yieldBudget : Byte := 4
  yieldSpacing : Byte := 5
  strictProgram : Byte := 1
  dozeEnable : Byte := 1
  attnEnable : Byte := 3
  deriving DecidableEq, Repr

/-- VDD against the thresholds of section 1.1: below 1.9 V, from there to below 2.55 V, from 2.55 V to
2.65 V, above 2.65 V. -/
inductive SupplyBand where
  | off
  | low
  | middle
  | good
  deriving DecidableEq, Repr

/-- A request as section 5.1 gives it: the code and its parameters. `unknown` carries a payload that has
no entry there (R84). -/
inductive Request where
  | unknown (payload : List Byte)
  | read (addr : Word24) (count : Byte)
  | program (mode : Byte) (addr : Word24) (data : List Byte)
  | checkRegion (addr : Word24) (len : Word24)
  | eraseSectors (sectors : List Byte)
  | eraseAll
  | parkErase
  | unparkErase
  | cancel (target : Byte)
  | sectorInfo (sector : Byte)
  | protectGroup (group : Byte)
  | unprotectAll
  | lockGroups (mask : Word16)
  | configGet
  | configSet (pairs : List (Byte × Byte))
  | configStore (record : Settings)
  | status (flags : Byte)
  | identify
  | attnControl (clearMask writeEnable enableMask : Byte)
  | logTake (maximum : Byte)
  | ping (data : List Byte)
  deriving DecidableEq, Repr

end Sys2Proof.Machine

namespace Sys2Proof

open Machine

/-- The rows of spec/opcode_table.json, in the table's order but for the two last rows' place. A pin
level is `true` for high. -/
inductive Instr where
  | powerOn (rstn : Bool)
  | powerOff
  | pinReset
  | resetRelease
  | initialisationComplete (maint rxd : Bool) (vdd : SupplyBand)
  | supplyLowEntry (rxd : Bool)
  | supplyLowExit (rxd : Bool)
  | dozeEntry
  | dozeWake
  | settleComplete
  | framingError (stillLow : Bool)
  | longBreak
  | hold
  | go
  | abort (octets : List Byte)
  | escapeViolation (octets : List Byte) (follower : Byte)
  | overlong (octets : List Byte)
  | parcelDiscarded (octets : List Byte)
  | hail (h : ParcelHead) (payload : List Byte)
  | ackReceived (h : ParcelHead) (payload : List Byte)
  | rejReceived (h : ParcelHead) (payload : List Byte)
  | unknownRequest (h : ParcelHead) (payload : List Byte)
  | read (h : ParcelHead) (addr : Word24) (count : Byte)
  | program (h : ParcelHead) (mode : Byte) (addr : Word24) (data : List Byte)
  | checkRegion (h : ParcelHead) (addr : Word24) (len : Word24)
  | eraseSectors (h : ParcelHead) (sectors : List Byte)
  | eraseAll (h : ParcelHead)
  | parkErase (h : ParcelHead)
  | unparkErase (h : ParcelHead)
  | cancel (h : ParcelHead) (target : Byte)
  | sectorInfo (h : ParcelHead) (sector : Byte)
  | protectGroup (h : ParcelHead) (group : Byte)
  | unprotectAll (h : ParcelHead)
  | lockGroups (h : ParcelHead) (mask : Word16)
  | configGet (h : ParcelHead)
  | configSet (h : ParcelHead) (pairs : List (Byte × Byte))
  | configStore (h : ParcelHead) (record : Settings)
  | status (h : ParcelHead) (flags : Byte)
  | identify (h : ParcelHead)
  | attnControl (h : ParcelHead) (clearMask writeEnable enableMask : Byte)
  | logTake (h : ParcelHead) (maximum : Byte)
  | ping (h : ParcelHead) (data : List Byte)
  | readComplete
  | programStep (pulses : List Byte)
  | checkRegionStep
  | protectGroupStep (verified : Bool)
  | unprotectAllStep (bits cells : Word16)
  | configStoreStep (erased : Bool) (pulses : List Byte)
  | sectorEraseStep (allErased : Bool)
  | holdLimitExpiry
  | keepaliveExpiry (rxd : Bool)
  | retransmitExpiry
  | gatherExpiry
  | spacingExpiry
  | debouncedMaintChange (rxd : Bool)
  | transmitterFree
  | openingFence
  | shortBreak
  deriving DecidableEq, Repr

end Sys2Proof
end

