-- ==== Sys2Proof/Decode.lean ====
section
/-!
DEFINITION. The commands spelled by words: spec/opcode_table.json gives no row any bits, so no word spells one
(assumption 21).
-/

namespace Sys2Proof

/-- The command a word of the opcode table spells: none, since no row of the table has bits. -/
def decodeTableWord (_nbits _w : Nat) : Option Instr := none

end Sys2Proof
end

