-- ==== Sys2Proof/Config.lean ====
section
/-!
DEFINITION. What one part fixes and what the spec leaves open: constants with no body, so that no
proof can see their values.
-/

namespace Sys2Proof

/-- The unique serial written once during manufacture (R207): it differs from part to part. -/
opaque Config.uniqueSerial : BitVec 64

/-- DESIGN CHOICE (assumption 9): the `n`th undefined octet the device hands out. Read for the content of a
Torn or Faulted sector (R117) and for what an interrupted write leaves (R130, R173, R206). -/
opaque Config.freeByte : Nat → Byte

/-- The ticks initialisation takes before its step 6 (R180) and before its step 9 (section 1.3). The spec says
only that neither is more than 30; where the model reads them it takes the smaller of the constant and 30
(assumption 32). -/
opaque Config.loadTicks : Nat
/-- See `Config.loadTicks`. -/
opaque Config.readyTicks : Nat

end Sys2Proof
end

