-- ==== Sys2Proof/Machine/State.lean ====
section
/-!
DEFINITION. The state of the CK4160 as plain data, block by block as the block table of 00_scope names
them, the reasons a step can stop, and the state after reset. INVENTORY.md lists every field with its rule.
-/

namespace Sys2Proof.Machine

/-! ### Supply & Reset and the pins (chapter 1) -/

/-- The five top-level states of R2. -/
inductive TopState where
  | off
  | resetHeld
  | initialising
  | active
  | doze
  deriving DecidableEq, Repr

/-- The recorded cause of the last reset (R2): 1 power-on, 2 pin. -/
inductive ResetCause where
  | powerOn
  | pin
  deriving DecidableEq, Repr

/-- The supply monitor's two states (R7). -/
inductive Monitor where
  | normal
  | inhibit
  deriving DecidableEq, Repr

/-- A timer of the device, in ticks: stopped, or running with the ticks still to count. -/
inductive Timer where
  | stopped
  | running (left : Nat)
  deriving DecidableEq, Repr

/-- Section 1.2: what the Supply & Reset block holds. `phase` is the time since the last tick, in units of the
oscillator (assumption 6); `started` says, in Initialising, that step 8 of R4 has been taken; `idleTimer` is mature
at 50 (R10). -/
structure SupplyReset where
  top : TopState := .active
  heldFromOff : Bool := false
  cause : ResetCause := .powerOn
  monitor : Monitor := .normal
  tick : Word16 := 0
  phase : Nat := 0
  started : Bool := false
  idleTimer : Nat := 0
  deriving DecidableEq, Repr

/-- The input pins as last seen (section 1.1); `true` is high. The outputs are functions of the state. -/
structure Pins where
  rxd : Bool := true
  rstn : Bool := true
  maint : Bool := false
  vdd : SupplyBand := .good
  deriving DecidableEq, Repr

/-- What can happen at an input pin: a level, or a supply voltage. -/
inductive PinEvent where
  | rxd (high : Bool)
  | rstn (high : Bool)
  | maint (high : Bool)
  | vdd (band : SupplyBand)
  deriving DecidableEq, Repr

/-- An input pin that changes `after` so many units of the oscillator. -/
structure PinChange where
  after : Nat
  event : PinEvent
  deriving DecidableEq, Repr

/-! ### Character Link (chapter 2) -/

/-- The five receiver states of section 2.2. Inside a character the samples taken so far, the start bit's first,
and the units left to the next sample (R21). -/
inductive Receiver where
  | idle
  | inCharacter (samples : List Bool) (left : Nat)
  | inBreak
  | settling
  | dormant
  deriving DecidableEq, Repr

/-- The transmitter (section 2.4), with the octets of its parcel that have not been sent completely. While Sending
the first of them is on TXD, with `left` units of its character still to go; while Paused none is. -/
inductive Transmitter where
  | free
  | sending (octets : List Byte) (left : Nat)
  | paused (octets : List Byte)
  deriving DecidableEq, Repr

/-- Chapter 2: what the Character Link holds. The settle count is in units of the oscillator. -/
structure CharacterLink where
  rate : Byte := 4
  receiver : Receiver := .settling
  breakTimer : Timer := .stopped
  settleCount : Nat := 0
  lostCharacter : Bool := false
  held : Bool := false
  holdTimer : Timer := .stopped
  tx : Transmitter := .free
  deriving DecidableEq, Repr

/-! ### Parcel Framer (chapter 3) -/

/-- The assembly state: Hunting or Open (section 3.2). -/
inductive FramerPhase where
  | hunting
  | opened
  deriving DecidableEq, Repr

/-- The nine discard counters of R51. -/
structure DiscardCounters where
  runt : Word16 := 0
  length : Word16 := 0
  check : Word16 := 0
  unknownClass : Word16 := 0
  wrongDirection : Word16 := 0
  abort : Word16 := 0
  escapeViolation : Word16 := 0
  overlong : Word16 := 0
  framing : Word16 := 0
  deriving DecidableEq, Repr

/-- Chapter 3: what the Parcel Framer holds. -/
structure ParcelFramer where
  phase : FramerPhase := .hunting
  assembly : List Byte := []
  shieldPending : Bool := false
  counters : DiscardCounters := {}
  deriving DecidableEq, Repr

/-! ### Session Unit (chapter 4) -/

/-- The link state. -/
inductive LinkState where
  | detached
  | attached
  deriving DecidableEq, Repr

/-- The teardown reasons of section 4.8. -/
inductive TeardownReason where
  | none
  | rehail
  | retryExhausted
  | holdExpired
  | keepalive
  | protocol
  | break_
  deriving DecidableEq, Repr

/-- What a window entry carries: a response, or a notice with the serial of its log record (R69). -/
inductive WindowKind where
  | rsp
  | ntc (serial : Word16)
  deriving DecidableEq, Repr

/-- One parcel of the send window (R69). -/
structure WindowEntry where
  kind : WindowKind
  ns : Seq
  tag : Byte
  payload : List Byte
  deriving DecidableEq, Repr

/-- The HAIL_REPLY status of section 4.2. -/
inductive ReplyStatus where
  | attached
  | refused
  | noSession
  deriving DecidableEq, Repr

/-- An entry of the reply list, its fields fixed when it is appended (R57). -/
structure Reply where
  tag : Byte
  status : ReplyStatus
  epoch : Byte
  fresh : Bool
  cause : ResetCause
  previous : TeardownReason
  effWindow : Nat
  deriving DecidableEq, Repr

/-- Chapter 4: what the Session Unit holds. -/
structure SessionUnit where
  link : LinkState := .detached
  epoch : Byte := 0
  attachCount : Nat := 0
  reason : TeardownReason := .none
  vs : Seq := 0
  va : Seq := 0
  vr : Seq := 0
  effWindow : Nat := 0
  noticesWanted : Bool := false
  window : List WindowEntry := []
  pass : List Seq := []
  retry : Nat := 0
  retransmit : Timer := .stopped
  keepalive : Timer := .stopped
  ackOwed : Bool := false
  rejectSent : Bool := false
  rejPending : Bool := false
  busyReported : Bool := false
  busyNotePending : Bool := false
  hostBusy : Bool := false
  replies : List Reply := []
  unattached : Word16 := 0
  wild : Word16 := 0
  retransmitted : Word16 := 0
  rejSent : Word16 := 0
  rejReceived : Word16 := 0
  busyAcks : Word16 := 0
  deriving DecidableEq, Repr

/-! ### Request Dispatcher (chapter 5) -/

/-- The status codes of section 5.1. -/
inductive Status where
  | ok
  | badRequest
  | badParam
  | range
  | protected_
  | locked
  | maintRequired
  | sectorInErase
  | eraseBusy
  | sectorNeedsErase
  | wouldNeedErase
  | programFault
  | eraseIncomplete
  | allSkipped
  | supplyLow
  | cancelled
  | notFound
  | notCancellable
  | noBatch
  | noticesActive
  | storeFault
  | duplicateTag
  deriving DecidableEq, Repr

/-- The slot states of R87. -/
inductive SlotState where
  | free
  | queued
  | running
  | batched
  | answered
  deriving DecidableEq, Repr

/-- A slot record (R87). -/
structure Slot where
  state : SlotState := .free
  tag : Byte := 0
  request : Request := .unknown []
  completion : Word16 := 0
  orphaned : Bool := false
  response : List Byte := []
  deriving DecidableEq, Repr

/-- Chapter 5: what the Request Dispatcher holds. `queue` lists slot places, the head first. -/
structure Dispatcher where
  slots : List Slot := [{}, {}, {}, {}, {}, {}, {}, {}]
  queue : List Nat := []
  nextCompletion : Word16 := 0
  deriving DecidableEq, Repr

/-! ### Array Engine and Sector Ledger (chapter 6) -/

/-- The array, as its octets that differ from FFh: addresses strictly rising. -/
abbrev Memory := List Host.Cell

/-- The condition of a sector (R126). -/
inductive Condition where
  | normal
  | torn
  | faulted
  deriving DecidableEq, Repr

/-- A ledger entry (R126). -/
structure LedgerEntry where
  condition : Condition := .normal
  wear : Nat := 0
  deriving DecidableEq, Repr

/-- The record of a running READ (R111): `got` holds the octets read so far. -/
structure ReadOp where
  slot : Nat
  addr : Nat
  count : Nat
  condition : Byte
  got : List Byte := []
  deriving DecidableEq, Repr

/-- The record of a running PROGRAM (R111). -/
structure ProgramOp where
  slot : Nat
  addr : Nat
  data : List Byte
  strict : Bool
  next : Nat := 0
  pulseCount : Nat := 0
  pulsed : Nat := 0
  shortfall : Nat := 0
  deriving DecidableEq, Repr

/-- The record of a running CHECK_REGION (R111). -/
structure CheckOp where
  slot : Nat
  addr : Nat
  len : Nat
  next : Nat
  crc : Word16
  condition : Byte
  deriving DecidableEq, Repr

/-- Which of the two stored configuration copies (R199). -/
inductive CopyId where
  | zero
  | one
  deriving DecidableEq, Repr

/-- The four stages of a CONFIG_STORE (R205). -/
inductive CopyStage where
  | clearMark
  | eraseCopy (pulses : Nat)
  | programOctet (index pulseCount : Nat)
  | commit
  deriving DecidableEq, Repr

/-- A Storing operation: CONFIG_STORE (R204, R205), PROTECT_GROUP (R170) or UNPROTECT_ALL (R172). -/
inductive StoreOp where
  | config (slot : Nat) (record : Settings) (target : CopyId) (generation : Byte) (stage : CopyStage)
  | protect (slot group : Nat) (bitRead : Bool) (pulses : Nat)
  | unprotect (slot : Nat) (opened : Bool) (pulses : Nat)
  deriving DecidableEq, Repr

/-- The two phases of a sector's erase (R144). -/
inductive ErasePhase where
  | preProgram
  | erase
  deriving DecidableEq, Repr

/-- The sector in hand and its erase progress (R136). -/
structure EraseOp where
  sector : Nat
  phase : ErasePhase := .preProgram
  line : Nat := 0
  pulses : Nat := 0
  deriving DecidableEq, Repr

/-- The engine state with its current operation record (R111). -/
inductive Engine where
  | idle
  | reading (op : ReadOp)
  | programming (op : ProgramOp)
  | checking (op : CheckOp)
  | storing (op : StoreOp)
  | erasingSector (op : EraseOp)
  deriving DecidableEq, Repr

/-- Chapter 6: what the Array Engine holds. -/
structure ArrayEngine where
  engine : Engine := .idle
  supplyLow : Bool := false
  deriving DecidableEq, Repr

/-! ### Batch Controller (chapter 7) -/

/-- The batch states of R137. -/
inductive BatchState where
  | none
  | gathering
  | erasing
  | yielded
  | parked
  deriving DecidableEq, Repr

/-- The outcomes a sector of the set can have (R136). -/
inductive SectorOutcome where
  | erased
  | failed
  | skippedProtected
  | abortedSupply
  deriving DecidableEq, Repr

/-- A sector's role in the batch (R136). -/
inductive Role where
  | pending
  | erasing
  | done (o : SectorOutcome)
  deriving DecidableEq, Repr

/-- A member: its slot and its own sector list, ascending (R136). -/
structure Member where
  slot : Nat
  sectors : List Nat
  deriving DecidableEq, Repr

/-- The spacing timer (R150). -/
inductive Spacing where
  | stopped
  | running (left : Nat)
  | mature
  deriving DecidableEq, Repr

/-- Chapter 7: what the Batch Controller holds. `set` is the sector set in ascending sector order; `held`
is the sector in hand while its work is suspended. -/
structure Batch where
  state : BatchState := .none
  set : List (Nat × Role) := []
  members : List Member := []
  held : Option EraseOp := .none
  gather : Timer := .stopped
  spacing : Spacing := .stopped
  yieldCount : Nat := 0
  deriving DecidableEq, Repr

/-! ### Protection Unit (chapter 8) -/

/-- Chapter 8: what the Protection Unit holds. A write cell's bit is 1 while the cell does not read clear
(assumption 28). -/
structure ProtectionUnit where
  protectBits : Word16 := 0
  writeCells : Word16 := 0
  marker : Bool := false
  lockMask : Word16 := 0
  maintLevel : Bool := false
  candidate : Nat := 0
  deriving DecidableEq, Repr

/-! ### Event Unit (chapter 9) -/

/-- An event with its detail (R181, R182). -/
inductive Event where
  | resetDone (cause : ResetCause) (defaulted : Bool) (torn faulted : Nat) (protectOpen : Bool)
  | sessionEnded (reason : TeardownReason) (epoch : Byte) (dropped : Nat)
  | orphanResult (code tag : Byte) (status : Status) (erased failed : Nat)
  | supplyLow
  | supplyOk
  | maintAsserted
  | maintReleased
  | lostEvents (count : Nat)
  deriving DecidableEq, Repr

/-- A record of the log (section 9.1), undelivered or in flight (section 9.3). -/
structure LogRecord where
  serial : Word16
  event : Event
  time : Word16
  inFlight : Bool := false
  deriving DecidableEq, Repr

/-- Chapter 9: what the Event Unit holds. `latched` is the raw set without NOTICE_WAITING, which R190
computes. -/
structure EventUnit where
  log : List LogRecord := []
  lost : Nat := 0
  nextSerial : Word16 := 0
  latched : Byte := 0
  enable : Byte := 0
  deriving DecidableEq, Repr

/-! ### Configuration Store (chapter 10) -/

/-- A stored copy (R199): twelve fields, generation and two check octets, in that order, and the commit
mark. -/
structure StoredCopy where
  octets : List Byte := List.replicate 15 0xFF
  committed : Bool := false
  deriving DecidableEq, Repr

/-- Chapter 10: what the Configuration Store holds. -/
structure ConfigStore where
  copy0 : StoredCopy := {}
  copy1 : StoredCopy := {}
  active : Settings := {}
  defaulted : Bool := true
  deriving DecidableEq, Repr

/-! ### The machine -/

/-- The whole device: its eleven blocks, the array and the ledger, its input pins; and the model's own three
fields, what the input pins will do, the queue of waiting commands and the count of free values handed out
(assumptions 14, 24 and 9). -/
structure State where
  sr : SupplyReset := {}
  pins : Pins := {}
  cl : CharacterLink := {}
  pf : ParcelFramer := {}
  su : SessionUnit := {}
  rd : Dispatcher := {}
  ae : ArrayEngine := {}
  array : Memory := []
  ledger : List LedgerEntry := List.replicate 64 {}
  bc : Batch := {}
  pu : ProtectionUnit := {}
  eu : EventUnit := {}
  cs : ConfigStore := {}
  inputs : List PinChange := []
  pending : List Instr := []
  freeCount : Nat := 0
  deriving DecidableEq, Repr

/-- Why the machine stops. The spec stops it nowhere. -/
inductive Fault where
  /-- Raised by READ_COMPLETE, PROGRAM_STEP and CHECK_REGION_STEP when the operation record names an array
  address beyond 7FFFFh, which does not exist (R109). Safe: the static range checks keep every request from it. -/
  | outsideArray (address : Nat)
  deriving DecidableEq, Repr

/-- Why a command has no meaning. -/
inductive Refusal where
  /-- Raised by an arm of `exec` whose command has no meaning yet. Safe. -/
  | notModelled (mnemonic : String)
  deriving DecidableEq, Repr

/-- What a command answers. -/
abbrev Result := Host.Outcome State Fault Refusal

/-- The device right after the first power-on reset of a delivered part (R17, R33, R52, R82, R108, R133,
R165, R178, R197, R200): nonvolatile state as delivered (R110, R168, R199), the log holding RESET_DONE alone,
RESET_SEEN raised, the enable set at the default field 11. Assumption 8 names the pin levels and tick taken. -/
def State.reset : State where
  eu :=
    { log := [{ serial := 0, event := .resetDone .powerOn true 0 0 false, time := 0 }]
      nextSerial := 1
      latched := 0x01
      enable := 0x03 }

end Sys2Proof.Machine
end

