-- ==== Sys2Proof/Machine/Operands.lean ====
section
/-!
DEFINITION. The octet forms of everything the device reads from and writes to a parcel: codes, payloads,
the form check, the static checks, responses, records and the configuration record. Numbers wider than
an octet travel high octet first (00_scope, Numbers).
-/

namespace Sys2Proof.Machine

/-! ### Octets of numbers -/

/-- The octet of a count; every count the device reports lies in 0..255. -/
def octet (n : Nat) : Byte := BitVec.ofNat 8 n

/-- Two octets, high octet first. -/
def octets16 (w : Word16) : List Byte := [w.extractLsb' 8 8, w.extractLsb' 0 8]

/-- Three octets, high octet first. -/
def octets24 (w : Word24) : List Byte := [w.extractLsb' 16 8, w.extractLsb' 8 8, w.extractLsb' 0 8]

/-- The eight octets of the unique serial, high octet first (R207). -/
def octets64 (w : BitVec 64) : List Byte :=
  [w.extractLsb' 56 8, w.extractLsb' 48 8, w.extractLsb' 40 8, w.extractLsb' 32 8,
   w.extractLsb' 24 8, w.extractLsb' 16 8, w.extractLsb' 8 8, w.extractLsb' 0 8]

/-- One octet holding a flag. -/
def flagOctet (b : Bool) : Byte := if b then 1 else 0

/-- Eight flags as an octet, bit 0 first. -/
def bitsOctet (bits : List Bool) : Byte :=
  octet ((bits.take 8).foldr (fun b acc => (if b then 1 else 0) + 2 * acc) 0)

/-! ### Characters (section 2.1) -/

/-- The units of the internal oscillator in one tick: a tick and half of every bit time of R20 are whole numbers of
them (assumption 6). -/
def unitsPerTick : Nat := 9216

/-- The bit times of the top rate in one bit time at a rate index (R20). The stored record admits no index above
7. -/
def rateDivisor (rate : Byte) : Nat :=
  match rate.toNat with
  | 0 => 96
  | 1 => 48
  | 2 => 24
  | 3 => 16
  | 4 => 8
  | 5 => 4
  | 6 => 2
  | _ => 1

/-- A bit time at a rate index (R20). -/
def bitUnits (rate : Byte) : Nat := 10 * rateDivisor rate

/-- A character time at a rate index: ten bit times (R19). -/
def characterUnits (rate : Byte) : Nat := 10 * bitUnits rate

/-- The eight data bits of an octet in the order they stand on the line, the least significant first (R19). -/
def dataBits (b : Byte) : List Bool :=
  [b.getLsbD 0, b.getLsbD 1, b.getLsbD 2, b.getLsbD 3, b.getLsbD 4, b.getLsbD 5, b.getLsbD 6, b.getLsbD 7]

/-- The ten bits of a character: a low start bit, the data bits, a high stop bit, no parity (R19). -/
def characterBits (b : Byte) : List Bool := false :: (dataBits b ++ [true])

/-! ### Codes -/

/-- The value of a status (section 5.1, status codes). -/
def Status.code : Status → Byte
  | .ok => 0
  | .badRequest => 1
  | .badParam => 2
  | .range => 3
  | .protected_ => 4
  | .locked => 5
  | .maintRequired => 6
  | .sectorInErase => 7
  | .eraseBusy => 8
  | .sectorNeedsErase => 9
  | .wouldNeedErase => 10
  | .programFault => 11
  | .eraseIncomplete => 12
  | .allSkipped => 13
  | .supplyLow => 14
  | .cancelled => 15
  | .notFound => 16
  | .notCancellable => 17
  | .noBatch => 18
  | .noticesActive => 19
  | .storeFault => 20
  | .duplicateTag => 21

/-- The value of a teardown reason (section 4.8). -/
def TeardownReason.code : TeardownReason → Byte
  | .none => 0
  | .rehail => 1
  | .retryExhausted => 2
  | .holdExpired => 3
  | .keepalive => 4
  | .protocol => 5
  | .break_ => 6

/-- The value of a reset cause (R2). -/
def ResetCause.code : ResetCause → Byte
  | .powerOn => 1
  | .pin => 2

/-- The value of a HAIL_REPLY status (section 4.2). -/
def ReplyStatus.code : ReplyStatus → Byte
  | .attached => 0
  | .refused => 1
  | .noSession => 2

/-- The value of a sector condition (R126). -/
def Condition.code : Condition → Byte
  | .normal => 0
  | .torn => 1
  | .faulted => 2

/-- The value of a sector outcome (R136). -/
def SectorOutcome.code : SectorOutcome → Byte
  | .erased => 1
  | .failed => 2
  | .skippedProtected => 3
  | .abortedSupply => 5

/-- Outcome code 4, WITHDRAWN, which appears only in a cancelled member's response (R136, R161). -/
def withdrawnCode : Byte := 4

/-- The value of the engine state in STATUS (R112). -/
def Engine.code : Engine → Byte
  | .idle => 0
  | .reading _ => 1
  | .programming _ => 2
  | .checking _ => 3
  | .storing _ => 4
  | .erasingSector _ => 5

/-- The value of the batch state in STATUS (R137). -/
def BatchState.code : BatchState → Byte
  | .none => 0
  | .gathering => 1
  | .erasing => 2
  | .yielded => 3
  | .parked => 4

/-! ### Requests as payloads -/

/-- Octet 0 of a request payload: its code, 00h for an empty payload (R83, section 5.1 request codes). -/
def Request.code : Request → Byte
  | .unknown payload => payload.headD 0
  | .read _ _ => 0x01
  | .program _ _ _ => 0x02
  | .checkRegion _ _ => 0x03
  | .eraseSectors _ => 0x04
  | .eraseAll => 0x05
  | .parkErase => 0x06
  | .unparkErase => 0x07
  | .cancel _ => 0x08
  | .sectorInfo _ => 0x09
  | .protectGroup _ => 0x0A
  | .unprotectAll => 0x0B
  | .lockGroups _ => 0x0C
  | .configGet => 0x0D
  | .configSet _ => 0x0E
  | .configStore _ => 0x0F
  | .status _ => 0x10
  | .identify => 0x11
  | .attnControl _ _ _ => 0x12
  | .logTake _ => 0x13
  | .ping _ => 0x14

/-- The twelve octets of a configuration record, in field order (section 10.1). -/
def Settings.octets (r : Settings) : List Byte :=
  [r.linkRate, r.retransmitTimeout, r.retryLimit, r.holdLimit, r.keepalive, r.gatherWindow,
   r.yieldEnable, r.yieldBudget, r.yieldSpacing, r.strictProgram, r.dozeEnable, r.attnEnable]

/-- A configuration record read from its octets, field `i` from octet `i` (section 10.1). -/
def Settings.ofOctets (os : List Byte) : Settings where
  linkRate := os.getD 0 0
  retransmitTimeout := os.getD 1 0
  retryLimit := os.getD 2 0
  holdLimit := os.getD 3 0
  keepalive := os.getD 4 0
  gatherWindow := os.getD 5 0
  yieldEnable := os.getD 6 0
  yieldBudget := os.getD 7 0
  yieldSpacing := os.getD 8 0
  strictProgram := os.getD 9 0
  dozeEnable := os.getD 10 0
  attnEnable := os.getD 11 0

/-- A record with field `id` replaced (section 10.1). -/
def Settings.setField (r : Settings) (id : Nat) (v : Byte) : Settings :=
  Settings.ofOctets (r.octets.set id v)

/-- The range of each field of the configuration record (section 10.1). -/
def fieldInRange (id : Nat) (v : Byte) : Bool :=
  match id with
  | 0 => v.toNat ≤ 7
  | 1 => 2 ≤ v.toNat
  | 2 => 1 ≤ v.toNat && v.toNat ≤ 15
  | 3 => v.toNat ≤ 60
  | 4 => true
  | 5 => v.toNat ≤ 250
  | 6 => v.toNat ≤ 1
  | 7 => 1 ≤ v.toNat && v.toNat ≤ 8
  | 8 => 1 ≤ v.toNat && v.toNat ≤ 50
  | 9 => v.toNat ≤ 1
  | 10 => v.toNat ≤ 1
  | 11 => true
  | _ => false

/-- The index of the first octet of a record outside its field's range, from `i` on (R204). -/
def firstBadField : Nat → List Byte → Option Nat
  | _, [] => none
  | i, v :: rest => if fieldInRange i v then firstBadField (i + 1) rest else some i

/-- Whether every field of a record lies in its range (R198, R199). -/
def Settings.inRange (r : Settings) : Bool := (firstBadField 0 r.octets).isNone

/-- Two octets of a payload, from place `i`, as a number, high octet first. -/
def word16At (os : List Byte) (i : Nat) : Word16 := os.getD i 0 ++ os.getD (i + 1) 0

/-- Three octets of a payload, from place `i`, as a number, high octet first. -/
def word24At (os : List Byte) (i : Nat) : Word24 := os.getD i 0 ++ os.getD (i + 1) 0 ++ os.getD (i + 2) 0

/-- The octets of a CONFIG_SET as its pairs of field number and value (R202). -/
def pairsOf : List Byte → List (Byte × Byte)
  | id :: value :: rest => (id, value) :: pairsOf rest
  | _ => []

/-- A request as the payload of its REQ parcel (R83). -/
def Request.payload (r : Request) : List Byte :=
  match r with
  | .unknown payload => payload
  | .read addr count => r.code :: (octets24 addr ++ [count])
  | .program mode addr data => r.code :: mode :: (octets24 addr ++ data)
  | .checkRegion addr len => r.code :: (octets24 addr ++ octets24 len)
  | .eraseSectors sectors => r.code :: sectors
  | .eraseAll | .parkErase | .unparkErase | .unprotectAll | .configGet | .identify => [r.code]
  | .cancel target => [r.code, target]
  | .sectorInfo sector => [r.code, sector]
  | .protectGroup group => [r.code, group]
  | .lockGroups mask => r.code :: octets16 mask
  | .configSet pairs => r.code :: pairs.flatMap (fun p => [p.1, p.2])
  | .configStore record => r.code :: record.octets
  | .status flags => [r.code, flags]
  | .attnControl c w e => [r.code, c, w, e]
  | .logTake maximum => [r.code, maximum]
  | .ping data => r.code :: data

/-- The form check of R84 on a payload: a code of the table and a length the table allows for it. -/
def formOk (payload : List Byte) : Bool :=
  let l := payload.length
  match payload with
  | [] => false
  | code :: _ =>
    match code.toNat with
    | 0x01 => l == 5
    | 0x02 => 6 ≤ l && l ≤ 69
    | 0x03 => l == 7
    | 0x04 => 2 ≤ l && l ≤ 17
    | 0x05 => l == 1
    | 0x06 => l == 1
    | 0x07 => l == 1
    | 0x08 => l == 2
    | 0x09 => l == 2
    | 0x0A => l == 2
    | 0x0B => l == 1
    | 0x0C => l == 3
    | 0x0D => l == 1
    | 0x0E => 3 ≤ l && l ≤ 17 && l % 2 == 1
    | 0x0F => l == 13
    | 0x10 => l == 2
    | 0x11 => l == 1
    | 0x12 => l == 4
    | 0x13 => l == 2
    | 0x14 => 1 ≤ l && l ≤ 65
    | _ => false

/-- The request a REQ payload carries (R83, section 5.1): one that fails the form check is `unknown` (R84). -/
def Request.ofPayload (payload : List Byte) : Request :=
  if formOk payload then
    let ps := payload.tail
    match (payload.headD 0).toNat with
    | 0x01 => .read (word24At ps 0) (ps.getD 3 0)
    | 0x02 => .program (ps.getD 0 0) (word24At ps 1) (ps.drop 4)
    | 0x03 => .checkRegion (word24At ps 0) (word24At ps 3)
    | 0x04 => .eraseSectors ps
    | 0x05 => .eraseAll
    | 0x06 => .parkErase
    | 0x07 => .unparkErase
    | 0x08 => .cancel (ps.getD 0 0)
    | 0x09 => .sectorInfo (ps.getD 0 0)
    | 0x0A => .protectGroup (ps.getD 0 0)
    | 0x0B => .unprotectAll
    | 0x0C => .lockGroups (word16At ps 0)
    | 0x0D => .configGet
    | 0x0E => .configSet (pairsOf ps)
    | 0x0F => .configStore (Settings.ofOctets ps)
    | 0x10 => .status (ps.getD 0 0)
    | 0x11 => .identify
    | 0x12 => .attnControl (ps.getD 0 0) (ps.getD 1 0) (ps.getD 2 0)
    | 0x13 => .logTake (ps.getD 0 0)
    | 0x14 => .ping ps
    | _ => .unknown payload
  else .unknown payload

/-! ### Geometry (section 6.1) -/

/-- The number of octets of the array (section 6.1). -/
def arraySize : Nat := 524288

/-- The octets of a sector (section 6.1). -/
def sectorSize : Nat := 8192

/-- The octets of a program line (section 6.1). -/
def lineSize : Nat := 256

/-- The number of sectors (section 6.1). -/
def sectorCount : Nat := 64

/-- The sector of an address (section 6.1). -/
def sectorOf (addr : Nat) : Nat := addr / sectorSize

/-- The group of a sector (R166). -/
def groupOf (sector : Nat) : Nat := sector / 4

/-- A span lies inside the array (R109). -/
def spanInArray (addr n : Nat) : Bool := addr < arraySize && addr + n ≤ arraySize

/-- A span of `n` octets touches a sector (R109). -/
def spanTouches (addr n sector : Nat) : Bool :=
  sectorOf addr ≤ sector && sector ≤ sectorOf (addr + n - 1)

/-! ### Static checks (R85): the failing status and the result octets it carries -/

/-- R115. -/
def readCheck (addr : Word24) (count : Byte) : Option (Status × List Byte) :=
  if count.toNat = 0 ∨ 64 < count.toNat then some (.badParam, [])
  else if spanInArray addr.toNat count.toNat then none
  else some (.range, [])

/-- R118. -/
def programCheck (mode : Byte) (addr : Word24) (data : List Byte) : Option (Status × List Byte) :=
  if 3 ≤ mode.toNat then some (.badParam, [])
  else if arraySize ≤ addr.toNat then some (.range, [])
  else if lineSize < addr.toNat % lineSize + data.length then some (.range, [])
  else none

/-- R123. -/
def checkRegionCheck (addr len : Word24) : Option (Status × List Byte) :=
  if len.toNat = 0 ∨ arraySize < len.toNat then some (.badParam, [])
  else if spanInArray addr.toNat len.toNat then none
  else some (.range, [])

/-- R134. -/
def eraseSectorsCheck (sectors : List Byte) : Option (Status × List Byte) :=
  if sectors.all (fun b => b.toNat < sectorCount) then none else some (.badParam, [])

/-- R125. -/
def sectorInfoCheck (sector : Byte) : Option (Status × List Byte) :=
  if sector.toNat < sectorCount then none else some (.badParam, [])

/-- R169. -/
def protectGroupCheck (group : Byte) : Option (Status × List Byte) :=
  if group.toNat < 16 then none else some (.badParam, [])

/-- A pair of CONFIG_SET fails (R202). -/
def pairBad (p : Byte × Byte) : Bool :=
  11 < p.1.toNat || p.1.toNat == 0 || p.1.toNat == 11 || !fieldInRange p.1.toNat p.2

/-- R202: the index of the first failing pair is the result octet. -/
def configSetCheck (pairs : List (Byte × Byte)) : Option (Status × List Byte) :=
  match pairs.findIdx? pairBad with
  | some i => some (.badParam, [octet i])
  | none => none

/-- R204: the index of the first field out of range is the result octet. -/
def configStoreCheck (record : Settings) : Option (Status × List Byte) :=
  match firstBadField 0 record.octets with
  | some i => some (.badParam, [octet i])
  | none => none

/-- R208. -/
def statusCheck (flags : Byte) : Option (Status × List Byte) :=
  if flags &&& 0xFE = 0 then none else some (.badParam, [])

/-- R192. -/
def attnControlCheck (writeEnable : Byte) : Option (Status × List Byte) :=
  if writeEnable.toNat ≤ 1 then none else some (.badParam, [])

/-- R188. -/
def logTakeCheck (maximum : Byte) : Option (Status × List Byte) :=
  if 1 ≤ maximum.toNat ∧ maximum.toNat ≤ 4 then none else some (.badParam, [])

/-- The static checks of a request (R85), as its chapter gives them. -/
def staticCheck : Request → Option (Status × List Byte)
  | .unknown _ => none
  | .read addr count => readCheck addr count
  | .program mode addr data => programCheck mode addr data
  | .checkRegion addr len => checkRegionCheck addr len
  | .eraseSectors sectors => eraseSectorsCheck sectors
  | .eraseAll => none
  | .parkErase => none
  | .unparkErase => none
  | .cancel _ => none
  | .sectorInfo sector => sectorInfoCheck sector
  | .protectGroup group => protectGroupCheck group
  | .unprotectAll => none
  | .lockGroups _ => none
  | .configGet => none
  | .configSet pairs => configSetCheck pairs
  | .configStore record => configStoreCheck record
  | .status flags => statusCheck flags
  | .identify => none
  | .attnControl _ w _ => attnControlCheck w
  | .logTake maximum => logTakeCheck maximum
  | .ping _ => none

/-! ### Responses, replies and records -/

/-- A response payload: the echoed code, the status, the results (R83). -/
def responseOf (code : Byte) (st : Status) (results : List Byte) : List Byte :=
  code :: st.code :: results

/-- The nine-octet HAIL_REPLY payload (section 4.2, R57): device window 4, eight slots, 72 octets. -/
def Reply.payload (r : Reply) : List Byte :=
  [r.status.code, r.epoch, flagOctet r.fresh, r.cause.code, r.previous.code, 4, 8, 72, octet r.effWindow]

/-- The kind of an event (R181). -/
def Event.kind : Event → Byte
  | .resetDone _ _ _ _ _ => 1
  | .sessionEnded _ _ _ => 2
  | .orphanResult _ _ _ _ _ => 3
  | .supplyLow => 4
  | .supplyOk => 5
  | .maintAsserted => 6
  | .maintReleased => 7
  | .lostEvents _ => 8

/-- The five detail octets of an event (R181, R182). -/
def Event.detail : Event → List Byte
  | .resetDone cause defaulted torn faulted protectOpen =>
    [cause.code, flagOctet defaulted, octet torn, octet faulted, flagOctet protectOpen]
  | .sessionEnded reason epoch dropped => [reason.code, epoch, octet dropped, 0, 0]
  | .orphanResult code tag st erased failed => [code, tag, st.code, octet erased, octet failed]
  | .lostEvents count => [octet count, 0, 0, 0, 0]
  | .supplyLow | .supplyOk | .maintAsserted | .maintReleased => [0, 0, 0, 0, 0]

/-- The ten octets of a record (section 9.1). -/
def LogRecord.octets (r : LogRecord) : List Byte :=
  octets16 r.serial ++ [r.event.kind] ++ octets16 r.time ++ r.event.detail

/-- The tag of the notice that carries a record: the low eight bits of its serial (R74, R186). -/
def LogRecord.noticeTag (r : LogRecord) : Byte := r.serial.extractLsb' 0 8

/-! ### Erase requests -/

/-- Puts a sector into an ascending list without repeats. -/
def insertSorted (n : Nat) : List Nat → List Nat
  | [] => [n]
  | k :: rest => if n < k then n :: k :: rest else if n = k then k :: rest else k :: insertSorted n rest

/-- A request's own sector list: the distinct sectors it names, ascending (R134, R135). -/
def Request.sectors : Request → List Nat
  | .eraseSectors sectors => sectors.foldl (fun acc b => insertSorted b.toNat acc) []
  | .eraseAll => List.range sectorCount
  | _ => []

end Sys2Proof.Machine
end

