-- ==== Sys2Proof/Machine/Memory.lean ====
section
/-!
DEFINITION. The array (section 6.1) as a canonical list of octets that differ from FFh, and the ledger
(section 6.7). An address the list does not hold reads FFh, the content the device is delivered with (R110).
-/

namespace Sys2Proof.Machine

/-- What an unlisted address reads as: an erased octet (R110). -/
def erasedOctet : Byte := 0xFF

/-- The stored octet at an address (R109). -/
def Memory.read : Memory → Nat → Byte
  | [], _ => erasedOctet
  | (k, v) :: rest, a => if k = a then v else Memory.read rest a

/-- Stores an octet, keeping the canonical form. -/
def Memory.write : Memory → Nat → Byte → Memory
  | [], a, b => if b = erasedOctet then [] else [(a, b)]
  | (k, v) :: rest, a, b =>
    if a < k then (if b = erasedOctet then (k, v) :: rest else (a, b) :: (k, v) :: rest)
    else if a = k then (if b = erasedOctet then rest else (a, b) :: rest)
    else (k, v) :: Memory.write rest a b

/-- Sets every octet of a sector to FFh (R110). -/
def Memory.eraseSector (m : Memory) (sector : Nat) : Memory :=
  m.filter (fun c => sectorOf c.1 != sector)

/-- The canonical form: addresses strictly rising, no octet equal to FFh. -/
def Memory.wf : Memory → Bool
  | [] => true
  | [(_, v)] => v != erasedOctet
  | (k, v) :: (k', v') :: rest => v != erasedOctet && k < k' && Memory.wf ((k', v') :: rest)

/-- The ledger entry of a sector. -/
def State.entry (s : State) (sector : Nat) : LedgerEntry := s.ledger.getD sector {}

/-- Whether what the sector holds is defined: only a Normal sector's content is (R117). -/
def State.contentDefined (s : State) (sector : Nat) : Bool := (s.entry sector).condition == .normal

/-- The octet a READ or CHECK_REGION gets at an address: the stored one, or the `i`th free value when the
sector is Torn or Faulted (R117, assumption 10). -/
def State.sense (s : State) (i addr : Nat) : Byte :=
  if s.contentDefined (sectorOf addr) then s.array.read addr else Config.freeByte (s.freeCount + i)

/-- The octets of a span as they are read, in ascending address order (R113). -/
def State.senseSpan (s : State) (addr n : Nat) : List Byte :=
  (List.range n).map (fun i => s.sense i (addr + i))

/-- Marks `n` free values as handed out. -/
def State.spendFree (s : State) (n : Nat) : State := { s with freeCount := s.freeCount + n }

/-- The condition octet of a span (R117). -/
def State.conditionOctet (s : State) (addr n : Nat) : Byte :=
  let touched (c : Condition) :=
    (List.range sectorCount).any (fun k => spanTouches addr n k && (s.entry k).condition == c)
  bitsOctet [touched .torn, touched .faulted]

/-- The largest wear count (R126). -/
def maxWear : Nat := 16777215

/-- The open update of R126: Torn, and one more erase begun. -/
def State.ledgerOpen (s : State) (sector : Nat) : State :=
  let opened : LedgerEntry := { condition := .torn, wear := min maxWear ((s.entry sector).wear + 1) }
  { s with ledger := s.ledger.set sector opened }

/-- The close update of R127; the wear count keeps its value. -/
def State.ledgerClose (s : State) (sector : Nat) (c : Condition) : State :=
  { s with ledger := s.ledger.set sector { (s.entry sector) with condition := c } }

/-- How many sectors have a condition: the reset scan of R128. -/
def State.countCondition (s : State) (c : Condition) : Nat :=
  s.ledger.countP (fun e => e.condition == c)

/-- What one pulse leaves of an octet (R110, R120): it may clear any of the bits that are 1 in the array and
0 in the target, and no other; `clears` names the bits it does clear. -/
def pulseOnce (old target clears : Byte) : Byte := old &&& (target ||| ~~~clears)

/-- Pulses an octet until it verifies or the limit is met (R120): the octet left, and whether it verified.
`limit` is the number of pulses still allowed. -/
def pulseOctet (target : Byte) : (limit : Nat) → (pulses : List Byte) → (old : Byte) → Byte × Bool
  | 0, _, old => (old, false)
  | limit + 1, pulses, old =>
    let new := pulseOnce old target (pulses.headD 0)
    if new = target then (new, true) else pulseOctet target limit pulses.tail new

/-- The program pulse limit of an octet (R120). -/
def pulseLimit : Nat := 16

/-- What an interrupted PROGRAM leaves (R130): from offset `next` on, each bit that was to be cleared holds
its old value or 0, as free value `i` says. -/
def interruptedOctets (m : Memory) (addr : Nat) : (i free : Nat) → List Byte → Memory
  | _, _, [] => m
  | i, free, d :: rest =>
    let old := m.read (addr + i)
    interruptedOctets (m.write (addr + i) (pulseOnce old (old &&& d) (Config.freeByte free)))
      addr (i + 1) (free + 1) rest

end Sys2Proof.Machine
end

