-- ==== Sys2Proof/Machine/Flags.lean ====
section
/-!
DEFINITION. Everything the device computes as a flag: the attention causes and the sets of section 9.6, the
output pins (R1, R191, R194), effective protection (R166), and the flag octets of STATUS and SECTOR_INFO.
-/

namespace Sys2Proof.Machine

/-! ### Modes -/

/-- Running-Active and Running-Doze together (section 1.2). -/
def State.isRunning (s : State) : Bool := s.sr.top == .active || s.sr.top == .doze

/-- The link is ATTACHED. -/
def State.isAttached (s : State) : Bool := s.su.link == .attached

/-- The engine is Idle. -/
def State.engineIdle (s : State) : Bool := s.ae.engine == .idle

/-! ### Attention causes (section 9.6) -/

/-- The latched attention causes (section 9.6). -/
inductive Cause where
  | resetSeen
  | sessionLost
  | eraseComplete
  | orphan
  | ledgerAttention
  | supplyLow
  | maintChange
  deriving DecidableEq, Repr

/-- The bit of a latched cause, as an octet (section 9.6). -/
def Cause.mask : Cause → Byte
  | .resetSeen => 0x01
  | .sessionLost => 0x02
  | .eraseComplete => 0x08
  | .orphan => 0x10
  | .ledgerAttention => 0x20
  | .supplyLow => 0x40
  | .maintChange => 0x80

/-- Bit 2, NOTICE_WAITING (section 9.6). -/
def noticeMask : Byte := 0x04

/-- The log holds an undelivered record. -/
def State.hasUndelivered (s : State) : Bool := s.eu.log.any (fun r => !r.inFlight)

/-- The NOTICE_WAITING condition (R190). -/
def State.noticeWaiting (s : State) : Bool :=
  s.hasUndelivered && (!s.isAttached || !s.su.noticesWanted)

/-- The raw set: the latched causes and NOTICE_WAITING (R190). -/
def State.rawSet (s : State) : Byte := s.eu.latched ||| (if s.noticeWaiting then noticeMask else 0)

/-- The pending set (section 9.6). -/
def State.pendingSet (s : State) : Byte := s.rawSet &&& s.eu.enable

/-- Raises a latched cause (R189). -/
def State.raise (s : State) (c : Cause) : State :=
  { s with eu := { s.eu with latched := s.eu.latched ||| c.mask } }

/-! ### Output pins -/

/-- The level of an output: high, low, released (open drain) or not driven. -/
inductive OutputLevel where
  | high
  | low
  | released
  | notDriven
  deriving DecidableEq, Repr

/-- ATTNn while it follows its causes (R191). -/
def State.attnRunning (s : State) : OutputLevel := if s.pendingSet = 0 then .released else .low

/-- ATTNn (R1, R191). -/
def State.attnLevel (s : State) : OutputLevel :=
  match s.sr.top with
  | .off => .notDriven
  | .resetHeld => .released
  | .initialising => if s.sr.started then s.attnRunning else .released
  | .active | .doze => s.attnRunning

/-- BUSYn (R1, R194). -/
def State.busyLevel (s : State) : OutputLevel :=
  match s.sr.top with
  | .off => .notDriven
  | .resetHeld => .low
  | .initialising => if s.sr.started then .high else .low
  | .active => if s.engineIdle && s.bc.state != .gathering then .high else .low
  | .doze => .high

/-- The level TXD has while the transmitter sends (R19, R30): the bit of the octet in hand that its character has
reached, and high after its stop bit. -/
def State.txdSending (s : State) : List Byte → Nat → OutputLevel
  | b :: _, left =>
    if (characterBits b).getD ((characterUnits s.cl.rate - left) / bitUnits s.cl.rate) true then .high else .low
  | [], _ => .high

/-- TXD (R1): high but for the characters the transmitter sends. -/
def State.txdLevel (s : State) : OutputLevel :=
  match s.sr.top, s.cl.tx with
  | .off, _ => .notDriven
  | .active, .sending octets left => s.txdSending octets left
  | _, _ => .high

/-- The octets of a parcel that TXD still has to show (R1): `none` where it is not driven. -/
def State.txdOctets (s : State) : Option (List Byte) :=
  match s.sr.top with
  | .off => none
  | .active =>
    match s.cl.tx with
    | .sending octets _ => some octets
    | _ => some []
  | _ => some []

/-! ### Protection (R166) -/

/-- Effective protection of a sector (R166). -/
def State.isProtected (s : State) (sector : Nat) : Bool :=
  s.pu.lockMask.getLsbD (groupOf sector) ||
    (!s.pu.maintLevel && (s.pu.protectBits.getLsbD (groupOf sector) || s.pu.marker))

/-- The protection octet of SECTOR_INFO (R125). -/
def State.protectionOctet (s : State) (sector : Nat) : Byte :=
  bitsOctet [s.pu.protectBits.getLsbD (groupOf sector), s.pu.lockMask.getLsbD (groupOf sector),
    s.isProtected sector, s.pu.marker]

/-- The flags octet of STATUS (R208). -/
def State.statusFlags (s : State) : Byte :=
  bitsOctet [s.cl.held, s.su.hostBusy, s.ae.supplyLow, s.pu.maintLevel]

end Sys2Proof.Machine
end

