-- ==== Sys2Proof/Machine/Framer.lean ====
section
/-!
DEFINITION. The Parcel Framer (chapter 3): the CRC, the escape transform, the octet automaton of section
3.2, the checks of section 3.4 and the outbound encoding of section 3.5.
-/

namespace Sys2Proof.Machine

/-! ### Reserved octets (section 3.1) -/

/-- E4h, Go. -/
def goOctet : Byte := 0xE4
/-- E5h, Hold. -/
def holdOctet : Byte := 0xE5
/-- E6h, Shield. -/
def shieldOctet : Byte := 0xE6
/-- E7h, Fence. -/
def fenceOctet : Byte := 0xE7

/-- The four reserved values (section 3.1). -/
def reserved (b : Byte) : Bool := b == goOctet || b == holdOctet || b == shieldOctet || b == fenceOctet

/-- The four escaped forms A4h to A7h (section 3.1). -/
def escapedForm (b : Byte) : Bool := 0xA4 ≤ b.toNat && b.toNat ≤ 0xA7

/-- A value with bit 6 inverted (section 3.1, R37). -/
def flipBit6 (b : Byte) : Byte := b ^^^ 0x40

/-- One parcel octet as it stands on the line (R49). -/
def escapeOctet (b : Byte) : List Byte := if reserved b then [shieldOctet, flipBit6 b] else [b]

/-- Parcel octets as they stand on the line between two fences (R49). -/
def escapeOctets (os : List Byte) : List Byte := os.flatMap escapeOctet

/-! ### The check (R45) -/

/-- One data bit enters the register (R45). -/
def crcBit (reg : Word16) (bit : Bool) : Word16 :=
  if reg.getLsbD 15 != bit then (reg <<< 1) ^^^ 0x1021 else reg <<< 1

/-- One octet enters the register, bit 7 first (R45). -/
def crcOctet (reg : Word16) (b : Byte) : Word16 :=
  [7, 6, 5, 4, 3, 2, 1, 0].foldl (fun r i => crcBit r (b.getLsbD i)) reg

/-- Octets enter the register in order. -/
def crcFrom (reg : Word16) (os : List Byte) : Word16 := os.foldl crcOctet reg

/-- The starting value of the register (R45). -/
def crcStart : Word16 := 0xFFFF

/-- The CRC of R45. -/
def crc16 (os : List Byte) : Word16 := crcFrom crcStart os

/-! ### Class codes and the checks of a received parcel -/

/-- REQ (R47). -/
def reqClass : Byte := 0x11
/-- RSP (R47). -/
def rspClass : Byte := 0x22
/-- NTC (R47). -/
def ntcClass : Byte := 0x33
/-- ACK (R47). -/
def ackClass : Byte := 0x44
/-- REJ (R47). -/
def rejClass : Byte := 0x55
/-- HAIL (R47). -/
def hailClass : Byte := 0x66
/-- HAIL_REPLY (R47). -/
def hailReplyClass : Byte := 0x77

/-- The classes the host sends (R47). -/
def hostClass (c : Byte) : Bool := c == reqClass || c == ackClass || c == rejClass || c == hailClass

/-- The classes only the device sends (R47). -/
def deviceClass (c : Byte) : Bool := c == rspClass || c == ntcClass || c == hailReplyClass

/-- The checks a parcel can fail (R43). -/
inductive ParcelFault where
  | runt
  | length
  | check
  | unknownClass
  | wrongDirection
  deriving DecidableEq, Repr

/-- The first check an ended assembly fails, in the order of R43; `none` for a valid parcel. -/
def parcelFault (assembly : List Byte) : Option ParcelFault :=
  let n := assembly.length
  let l := (assembly.getD 3 0).toNat
  let cls := assembly.headD 0
  if n ≤ 5 then some .runt
  else if 72 < l ∨ n ≠ l + 6 then some .length
  else if crc16 assembly ≠ 0 then some .check
  else if deviceClass cls then some .wrongDirection
  else if hostClass cls then none
  else some .unknownClass

/-- Counts a discarded parcel under the check it failed (R44, R46, R47, R51). -/
def DiscardCounters.countFault (c : DiscardCounters) : ParcelFault → DiscardCounters
  | .runt => { c with runt := c.runt + 1 }
  | .length => { c with length := c.length + 1 }
  | .check => { c with check := c.check + 1 }
  | .unknownClass => { c with unknownClass := c.unknownClass + 1 }
  | .wrongDirection => { c with wrongDirection := c.wrongDirection + 1 }

/-! ### The octet automaton (section 3.2) -/

/-- What an octet event makes the framer tell the other blocks. -/
inductive FramerSignal where
  | nothing
  | hold
  | go
  | ended (assembly : List Byte)
  deriving DecidableEq, Repr

/-- Hunting with an empty assembly and the flag clear. -/
def ParcelFramer.hunt (f : ParcelFramer) : ParcelFramer :=
  { f with phase := .hunting, assembly := [], shieldPending := false }

/-- Open with an empty assembly and the flag clear (R35). -/
def ParcelFramer.openEmpty (f : ParcelFramer) : ParcelFramer :=
  { f with phase := .opened, assembly := [], shieldPending := false }

/-- The longest assembly (R36). -/
def maxAssembly : Nat := 78

/-- Appends an octet, or ends an assembly that would grow past 78 octets (R36, R40). -/
def ParcelFramer.append (f : ParcelFramer) (b : Byte) : ParcelFramer :=
  if f.assembly.length < maxAssembly then
    { f with assembly := f.assembly ++ [b], shieldPending := false }
  else
    let h := f.hunt
    { h with counters := { h.counters with overlong := h.counters.overlong + 1 } }

/-- An abort (R38). -/
def ParcelFramer.countAbort (f : ParcelFramer) : ParcelFramer :=
  let o := f.openEmpty
  { o with counters := { o.counters with abort := o.counters.abort + 1 } }

/-- An escape violation (R39). -/
def ParcelFramer.countEscape (f : ParcelFramer) : ParcelFramer :=
  let h := f.hunt
  { h with counters := { h.counters with escapeViolation := h.counters.escapeViolation + 1 } }

/-- A framing-error event (R41). -/
def ParcelFramer.framingError (f : ParcelFramer) : ParcelFramer :=
  let h := f.hunt
  { h with counters := { h.counters with framing := h.counters.framing + 1 } }

/-- One octet event (R34 to R40, the table of section 3.2). -/
def ParcelFramer.octetEvent (f : ParcelFramer) (b : Byte) : ParcelFramer × FramerSignal :=
  if b = holdOctet then (f, .hold)
  else if b = goOctet then (f, .go)
  else
    match f.phase with
    | .hunting => if b = fenceOctet then (f.openEmpty, .nothing) else (f, .nothing)
    | .opened =>
      if f.shieldPending then
        if b = fenceOctet then (f.countAbort, .nothing)
        else if escapedForm b then (f.append (flipBit6 b), .nothing)
        else (f.countEscape, .nothing)
      else if b = fenceOctet then
        if f.assembly = [] then (f, .nothing) else (f.openEmpty, .ended f.assembly)
      else if b = shieldOctet then ({ f with shieldPending := true }, .nothing)
      else (f.append b, .nothing)

/-! ### Outbound encoding (section 3.5) -/

/-- A parcel without its check: class, Ns and Nr, tag, length, payload (section 3.4, R49). -/
def parcelBody (cls : Byte) (ns nr : Seq) (tag : Byte) (payload : List Byte) : List Byte :=
  cls :: (ns ++ nr) :: tag :: octet payload.length :: payload

/-- The unescaped parcel: its body, then the CRC of the body, high octet first (R49). -/
def parcelOctets (cls : Byte) (ns nr : Seq) (tag : Byte) (payload : List Byte) : List Byte :=
  let body := parcelBody cls ns nr tag payload
  body ++ octets16 (crc16 body)

/-- The octets the transmitter sends for a parcel (R49). -/
def encodeParcel (cls : Byte) (ns nr : Seq) (tag : Byte) (payload : List Byte) : List Byte :=
  fenceOctet :: (escapeOctets (parcelOctets cls ns nr tag payload) ++ [fenceOctet])

end Sys2Proof.Machine
end

