-- ==== Sys2Proof/Machine/Ops.lean ====
section
/-!
DEFINITION. The operations the commands share: timers, the event log, slots and their release, responses,
the character link's Held and wake, and the nonvolatile copies. The batch operations are in Batch.lean, the
session operations in Session.lean.
-/

namespace Sys2Proof.Machine

/-! ### Timers -/

/-- One tick counts a running timer down. -/
def Timer.count : Timer → Timer
  | .running (n + 1) => .running n
  | t => t

/-- A timer that runs. -/
def Timer.runs : Timer → Bool
  | .running _ => true
  | .stopped => false

/-- A timer whose period is over. -/
def Timer.isDue (t : Timer) : Bool := t == .running 0

/-- A timer started with a period, or stopped where the period is 0 (R27, R54, R76). -/
def Timer.start (ticks : Nat) : Timer := if ticks = 0 then .stopped else .running ticks

/-- The period of the keepalive timer, 1000 ticks a second (R76). -/
def State.keepaliveTicks (s : State) : Nat := s.cs.active.keepalive.toNat * 1000

/-- The period of the hold timer (R27). -/
def State.holdTicks (s : State) : Nat := s.cs.active.holdLimit.toNat * 1000

/-- The period of the retransmit timer, field 1 times 10 ms (R70). -/
def State.retransmitTicks (s : State) : Nat := s.cs.active.retransmitTimeout.toNat * 10

/-- The period of the gather timer (R138). -/
def State.gatherTicks (s : State) : Nat := s.cs.active.gatherWindow.toNat

/-- The period of the spacing timer (R150). -/
def State.spacingTicks (s : State) : Nat := s.cs.active.yieldSpacing.toNat

/-- The ticks of a long break (R24). -/
def breakTicks : Nat := 20

/-- The ticks after which the Doze idle timer is mature (R10). -/
def idleTicks : Nat := 50

/-- The samples after which the debounced MAINT level changes (R176). -/
def debounceSamples : Nat := 10

/-! ### The event log (section 9.3) -/

/-- The capacity of the log (R183). -/
def logCapacity : Nat := 16

/-- Offers an event to the log (R179, R184). -/
def State.offer (s : State) (e : Event) : State :=
  if s.eu.log.length < logCapacity then
    { s with eu := { s.eu with
        log := s.eu.log ++ [{ serial := s.eu.nextSerial, event := e, time := s.sr.tick }]
        nextSerial := s.eu.nextSerial + 1 } }
  else { s with eu := { s.eu with lost := min 255 (s.eu.lost + 1) } }

/-- The LOST_EVENTS record at the end of a step in which records have left the log (R185). In a log that the step
has filled again it waits for the next leaving (assumption 16). -/
def State.reportLost (s : State) : State :=
  if s.eu.lost = 0 ∨ logCapacity ≤ s.eu.log.length then s
  else
    let s1 := s.offer (.lostEvents s.eu.lost)
    { s1 with eu := { s1.eu with lost := 0 } }

/-- The end of a step in which records may have left the log (R185). -/
def State.endStep (s : State) (left : Bool) : State := if left then s.reportLost else s

/-- Removes the records of acknowledged notices (R187). -/
def State.dropRecords (s : State) (serials : List Word16) : State :=
  { s with eu := { s.eu with log := s.eu.log.filter (fun r => !serials.contains r.serial) } }

/-- Logs an ORPHAN_RESULT and raises ORPHAN (R182, R189). -/
def State.orphanResult (s : State) (code tag : Byte) (st : Status) (erased failed : Nat) : State :=
  (s.offer (.orphanResult code tag st erased failed)).raise .orphan

/-! ### Slots (section 5.2) -/

/-- A slot by its place. -/
def State.slot (s : State) (i : Nat) : Slot := s.rd.slots.getD i {}

/-- Writes a slot. -/
def State.setSlot (s : State) (i : Nat) (x : Slot) : State :=
  { s with rd := { s.rd with slots := s.rd.slots.set i x } }

/-- The place of the Free slot a new request takes (R87, assumption 19). -/
def State.freeSlot (s : State) : Option Nat := s.rd.slots.findIdx? (fun x => x.state == .free)

/-- The number of slots that are not Free (R208). -/
def State.slotsUsed (s : State) : Nat := s.rd.slots.countP (fun x => x.state != .free)

/-- The busy note of R64: a slot became Free while ATTACHED with busy-reported set. -/
def State.busyNote (s : State) : State :=
  if s.isAttached && s.su.busyReported then
    { s with su := { s.su with busyReported := false, busyNotePending := true } }
  else s

/-- A slot becomes Free by its response entering the window or by its orphaned request finishing (R90). -/
def State.releaseSlot (s : State) (i : Nat) : State := (s.setSlot i {}).busyNote

/-- A slot enters Answered with its response and the next completion number (R89). -/
def State.answer (s : State) (i : Nat) (st : Status) (results : List Byte) : State :=
  let x := s.slot i
  let s1 := s.setSlot i { x with
    state := .answered
    completion := s.rd.nextCompletion
    response := responseOf x.request.code st results }
  { s1 with rd := { s1.rd with nextCompletion := s1.rd.nextCompletion + 1 } }

/-- How long ago a completion number was given out: larger is older (R89). -/
def State.completionAge (s : State) (x : Slot) : Nat := (s.rd.nextCompletion - x.completion).toNat

/-- The oldest Answered response (R89, R101), as the place of its slot. -/
def State.oldestAnswered (s : State) : Option Nat :=
  (List.range s.rd.slots.length).foldl
    (fun best i =>
      let x := s.slot i
      if x.state = .answered then
        match best with
        | none => some i
        | some j => if s.completionAge (s.slot j) < s.completionAge x then some i else some j
      else best)
    none

/-! ### Character link (chapter 2) -/

/-- A bit time at the link rate (R20). -/
def State.bitTime (s : State) : Nat := bitUnits s.cl.rate

/-- A character time at the link rate (R19). -/
def State.characterTime (s : State) : Nat := characterUnits s.cl.rate

/-- The receiver states in which characters are taken (R21). -/
def Receiver.takesCharacters : Receiver → Bool
  | .idle | .inCharacter _ _ => true
  | .inBreak | .settling | .dormant => false

/-- The receiver is listening for characters: Running-Active, Idle or inside one (R21). -/
def State.listening (s : State) : Bool := s.sr.top == .active && s.cl.receiver.takesCharacters

/-- A character has ended well on RXD: the Doze idle timer restarted at its edges (R26), the line is high and
the break timer stopped (R24), the receiver Idle again (R21). -/
def State.characterEnd (s : State) : State :=
  { s with
    sr := { s.sr with idleTimer := 0 }
    pins := { s.pins with rxd := true }
    cl := { s.cl with receiver := .idle, breakTimer := .stopped } }

/-- A Hold signal (R27): Held set, the hold timer started if a limit is set. The transmitter completes its octet
(R30). Nothing while Held is set already. -/
def State.holdSignal (s : State) : State :=
  if s.cl.held then s
  else
    { s with cl := { s.cl with
        held := true
        holdTimer := Timer.start s.holdTicks } }

/-- A Paused transmitter resumes with the next octet of its parcel, which takes `character` units (R30). -/
def Transmitter.resumed (character : Nat) : Transmitter → Transmitter
  | .free => .free
  | .sending octets left => .sending octets left
  | .paused octets => .sending octets character

/-- Held is cleared: the hold timer stops and a Paused transmitter resumes (R28, R29, R30). -/
def State.clearHeld (s : State) : State :=
  { s with cl := { s.cl with
      held := false
      holdTimer := .stopped
      tx := s.cl.tx.resumed s.characterTime } }

/-- A Go signal (R28). Nothing while Held is clear. -/
def State.goSignal (s : State) : State := if s.cl.held then s.clearHeld else s

/-- The wake by an occurrence other than RXD (R13, R32): ready at once if RXD is high, else as on a falling
edge. Nothing outside Doze. -/
def State.wake (s : State) (rxd : Bool) : State :=
  if s.sr.top = .doze then
    { s with
      sr := { s.sr with top := .active, idleTimer := 0 }
      pins := { s.pins with rxd := rxd }
      cl := { s.cl with
        receiver := if rxd then .idle else .settling
        settleCount := 0
        lostCharacter := !rxd
        breakTimer := if rxd then .stopped else .running breakTicks } }
  else s

/-- Whole characters that arrive while the receiver takes none: in Settling each falling edge sets the settle count
back and restarts the Doze idle timer (R23, R26); in Doze the first one wakes the device (R12). The line is left
at a level, the break timer with it (R24). In-break no character can begin, and before Running RXD is ignored
(R1, R22). -/
def State.unheard (s : State) (level : Bool) (breakTimer : Timer) : State :=
  match s.sr.top, s.cl.receiver with
  | .doze, _ =>
    let s1 := s.wake false
    { s1 with pins := { s1.pins with rxd := level }, cl := { s1.cl with breakTimer := breakTimer } }
  | .active, .settling =>
    { s with
      sr := { s.sr with idleTimer := 0 }
      pins := { s.pins with rxd := level }
      cl := { s.cl with settleCount := 0, breakTimer := breakTimer } }
  | _, _ => s

/-! ### Stored configuration copies (section 10.2) -/

/-- A stored copy is valid (R199). -/
def StoredCopy.valid (c : StoredCopy) : Bool :=
  c.committed &&
    octets16 (crc16 (c.octets.take 13)) == c.octets.drop 13 &&
    (Settings.ofOctets c.octets).inRange

/-- The generation number of a copy (R199). -/
def StoredCopy.generation (c : StoredCopy) : Byte := c.octets.getD 12 0

/-- A copy by its number. -/
def ConfigStore.copy (c : ConfigStore) : CopyId → StoredCopy
  | .zero => c.copy0
  | .one => c.copy1

/-- Writes a copy. -/
def ConfigStore.setCopy (c : ConfigStore) (id : CopyId) (x : StoredCopy) : ConfigStore :=
  match id with
  | .zero => { c with copy0 := x }
  | .one => { c with copy1 := x }

/-- The other copy. -/
def CopyId.other : CopyId → CopyId
  | .zero => .one
  | .one => .zero

/-- The current copy, judged afresh (R199). -/
def ConfigStore.current (c : ConfigStore) : Option CopyId :=
  match c.copy0.valid, c.copy1.valid with
  | false, false => none
  | true, false => some .zero
  | false, true => some .one
  | true, true => if c.copy1.generation = c.copy0.generation + 1 then some .one else some .zero

/-- The inactive copy, the target of a CONFIG_STORE (R199, R204). -/
def ConfigStore.inactive (c : ConfigStore) : CopyId :=
  match c.current with
  | some id => id.other
  | none => .zero

/-- The generation a CONFIG_STORE writes (R204). -/
def ConfigStore.nextGeneration (c : ConfigStore) : Byte :=
  match c.current with
  | some id => (c.copy id).generation + 1
  | none => 1

/-- The fifteen octets a CONFIG_STORE writes: fields, generation, check high octet first (R205). -/
def copyImage (record : Settings) (generation : Byte) : List Byte :=
  let body := record.octets ++ [generation]
  body ++ octets16 (crc16 body)

end Sys2Proof.Machine
end

