-- ==== Sys2Proof/Machine/Queue.lean ====
section
/-!
DEFINITION. The service queue (section 5.4): the dynamic checks a head meets at start, the start of each
kind of operation (R98, R111, R114), and the completion of a Running request (R100).
-/

namespace Sys2Proof.Machine

/-- The head of the service queue (R95). -/
def State.head (s : State) : Option Nat := s.rd.queue.head?

/-- A slot leaves the service queue; the others keep their order (R95). -/
def State.unqueue (s : State) (i : Nat) : State :=
  { s with rd := { s.rd with queue := s.rd.queue.filter (fun j => j != i) } }

/-- A slot takes another state (R87). -/
def State.setSlotState (s : State) (i : Nat) (st : SlotState) : State :=
  s.setSlot i { s.slot i with state := st }

/-- A span touches a sector of the batch's sector set, while a batch exists (R115, R148). -/
def State.touchesBatch (s : State) (addr n : Nat) : Bool :=
  s.bc.state != .none && s.bc.set.any (fun e => spanTouches addr n e.1)

/-- A PROGRAM would have to set a 0 bit to 1 (step 5 of R119). -/
def State.wouldNeedErase (s : State) (addr : Nat) : (i : Nat) → List Byte → Bool
  | _, [] => false
  | i, d :: rest => d &&& ~~~(s.array.read (addr + i)) != 0 || s.wouldNeedErase addr (i + 1) rest

/-- The mode a PROGRAM runs in, resolved at start (R118). -/
def State.strictMode (s : State) (mode : Byte) : Bool :=
  if mode = 0 then s.cs.active.strictProgram == 1 else mode == 1

/-- R119. -/
def State.programDynamic (s : State) (mode : Byte) (addr : Nat) (data : List Byte) : Option Status :=
  if s.touchesBatch addr data.length then some .sectorInErase
  else if s.ae.supplyLow then some .supplyLow
  else if (s.entry (sectorOf addr)).condition ≠ .normal then some .sectorNeedsErase
  else if s.isProtected (sectorOf addr) then some .protected_
  else if s.strictMode mode && s.wouldNeedErase addr 0 data then some .wouldNeedErase
  else none

/-- R169. -/
def State.protectDynamic (s : State) : Option Status :=
  if s.bc.state ≠ .none then some .eraseBusy
  else if s.ae.supplyLow then some .supplyLow
  else if !s.pu.maintLevel then some .maintRequired
  else none

/-- R171. -/
def State.unprotectDynamic (s : State) : Option Status :=
  if s.bc.state ≠ .none then some .eraseBusy
  else if s.ae.supplyLow then some .supplyLow
  else if !s.pu.maintLevel then some .maintRequired
  else if s.pu.lockMask ≠ 0 then some .locked
  else none

/-- The dynamic checks of a queued request that is not an erase request: the status of the first that fails
(R115, R119, R123, R169, R171, R204). -/
def State.dynamicCheck (s : State) (r : Request) : Option Status :=
  match r with
  | .read addr count => if s.touchesBatch addr.toNat count.toNat then some .sectorInErase else none
  | .program mode addr data => s.programDynamic mode addr.toNat data
  | .checkRegion addr len => if s.touchesBatch addr.toNat len.toNat then some .sectorInErase else none
  | .protectGroup _ => s.protectDynamic
  | .unprotectAll => s.unprotectDynamic
  | .configStore _ => if s.ae.supplyLow then some .supplyLow else none
  | _ => none

/-- The operation record with which a request starts (R111, R115, R119, R123, R170, R172, R204). -/
def State.startEngine (s : State) (i : Nat) (r : Request) : Engine :=
  match r with
  | .read addr count =>
    .reading { slot := i, addr := addr.toNat, count := count.toNat,
               condition := s.conditionOctet addr.toNat count.toNat }
  | .program mode addr data =>
    .programming { slot := i, addr := addr.toNat, data := data, strict := s.strictMode mode }
  | .checkRegion addr len =>
    .checking { slot := i, addr := addr.toNat, len := len.toNat, next := addr.toNat, crc := crcStart,
                condition := s.conditionOctet addr.toNat len.toNat }
  | .protectGroup group => .storing (.protect i group.toNat false 0)
  | .unprotectAll => .storing (.unprotect i false 0)
  | .configStore record => .storing (.config i record s.cs.inactive s.cs.nextGeneration .clearMark)
  | _ => s.ae.engine

/-- A head starts: it leaves the queue, its slot is Running, the engine takes it (R98). -/
def State.startHead (s : State) (i : Nat) : State :=
  let s1 := (s.unqueue i).setSlotState i .running
  { s1 with ae := { s1.ae with engine := s.startEngine i (s.slot i).request } }

/-- A head is refused at start (R98). -/
def State.refuseHead (s : State) (i : Nat) (st : Status) : State := (s.unqueue i).answer i st []

/-- A Running request ends (R100): the engine enters Idle; the request is answered, or, orphaned, reported by
ORPHAN_RESULT with both counts 0 (R131, R173, R206) and its slot freed. -/
def State.finishRunning (s : State) (i : Nat) (st : Status) (results : List Byte) : State :=
  let x := s.slot i
  let s1 := { s with ae := { s.ae with engine := .idle } }
  if x.orphaned then (s1.orphanResult x.request.code x.tag st 0 0).releaseSlot i
  else s1.answer i st results

end Sys2Proof.Machine
end

