-- ==== Sys2Proof/Machine/Batch.lean ====
section
/-!
DEFINITION. The Batch Controller (chapter 7): reaching, opening and ending sectors, completion, yields,
parking, the cancelling of members, and the head examination, which the batch state decides (R97).
-/

namespace Sys2Proof.Machine

/-! ### The sector set -/

/-- The sectors whose role is Pending, ascending (R143). -/
def Batch.pendingSectors (b : Batch) : List Nat :=
  b.set.filterMap (fun e => if e.2 = .pending then some e.1 else none)

/-- Some sector is Pending or Erasing (R157). -/
def Batch.unfinished (b : Batch) : Bool := b.set.any (fun e => e.2 == .pending || e.2 == .erasing)

/-- Some sector is Erasing (R162). -/
def Batch.hasErasing (b : Batch) : Bool := b.set.any (fun e => e.2 == .erasing)

/-- Gives a sector of the set a role. -/
def Batch.setRole (b : Batch) (sector : Nat) (r : Role) : Batch :=
  { b with set := b.set.map (fun e => if e.1 = sector then (e.1, r) else e) }

/-- The role of a sector, if it is in the set (R125, R136). -/
def Batch.role (b : Batch) (sector : Nat) : Option Role :=
  (b.set.find? (fun e => e.1 == sector)).map (fun e => e.2)

/-- Every sector that is Pending or Erasing takes the outcome ABORTED_SUPPLY (R143, R146). -/
def Batch.abortRest (b : Batch) : Batch :=
  { b with set := b.set.map (fun e =>
      match e.2 with
      | .done _ => e
      | _ => (e.1, .done .abortedSupply)) }

/-- Puts a sector into the set as Pending, unless it is there (R138, R139). -/
def insertPending (sector : Nat) : List (Nat × Role) → List (Nat × Role)
  | [] => [(sector, .pending)]
  | e :: rest =>
    if sector < e.1 then (sector, .pending) :: e :: rest
    else if sector = e.1 then e :: rest
    else e :: insertPending sector rest

/-- Puts a member's sectors into the set (R138 to R140). -/
def Batch.addSectors (b : Batch) (sectors : List Nat) : Batch :=
  { b with set := sectors.foldl (fun acc n => insertPending n acc) b.set }

/-! ### Responses of members (R158, R159, R161) -/

/-- The outcome code of a sector in a member's response: WITHDRAWN for a withdrawn one, its outcome when
done, 0 while it is still in the batch. -/
def Batch.outcomeCode (b : Batch) (withdrawn : List Nat) (sector : Nat) : Byte :=
  if withdrawn.contains sector then withdrawnCode
  else
    match b.role sector with
    | some (.done o) => o.code
    | _ => 0

/-- The four tests of R158 over outcome codes. -/
def eraseStatus (codes : List Byte) : Status :=
  if codes.contains SectorOutcome.abortedSupply.code then .supplyLow
  else if codes.all (fun c => c == SectorOutcome.erased.code) then .ok
  else if codes.all (fun c => c == SectorOutcome.skippedProtected.code) then .allSkipped
  else .eraseIncomplete

/-- An eight-octet bitmap of the sectors with an outcome code (R159). -/
def outcomeBitmap (codeOf : Nat → Byte) (code : Byte) : List Byte :=
  (List.range 8).map (fun i => bitsOctet ((List.range 8).map (fun j => codeOf (8 * i + j) == code)))

/-- The results of an erase request's response (R158 for ERASE_SECTORS, R159 for ERASE_ALL). -/
def eraseResults (r : Request) (sectors : List Nat) (codeOf : Nat → Byte) : List Byte :=
  match r with
  | .eraseAll =>
    let count (c : Byte) := octet (sectors.countP (fun n => codeOf n == c))
    [count SectorOutcome.erased.code, count SectorOutcome.failed.code,
      count SectorOutcome.skippedProtected.code, count SectorOutcome.abortedSupply.code,
      count withdrawnCode]
      ++ outcomeBitmap codeOf SectorOutcome.failed.code
      ++ outcomeBitmap codeOf SectorOutcome.skippedProtected.code
  | _ => octet sectors.length :: sectors.flatMap (fun n => [octet n, codeOf n])

/-- How many of some sectors are done with an outcome. -/
def Batch.countOutcome (b : Batch) (sectors : List Nat) (o : SectorOutcome) : Nat :=
  sectors.countP (fun n => b.role n == some (.done o))

/-! ### Completion and dissolution (R157, R162) -/

/-- A member is dealt with at completion: answered, or freed if orphaned (stage 1 of R157). -/
def State.settleMember (s : State) (m : Member) : State :=
  if (s.slot m.slot).orphaned then s.releaseSlot m.slot
  else
    let codeOf := s.bc.outcomeCode []
    s.answer m.slot (eraseStatus (m.sectors.map codeOf))
      (eraseResults (s.slot m.slot).request m.sectors codeOf)

/-- The one ORPHAN_RESULT of a completing batch, naming its first orphaned member (R160); `before` is the
state whose slots still hold the members. -/
def State.reportOrphans (s before : State) : State :=
  match before.bc.members.find? (fun m => (before.slot m.slot).orphaned) with
  | none => s
  | some m =>
    let x := before.slot m.slot
    let sectors := s.bc.set.map (fun e => e.1)
    s.orphanResult x.request.code x.tag (eraseStatus (sectors.map (s.bc.outcomeCode [])))
      (s.bc.countOutcome sectors .erased) (s.bc.countOutcome sectors .failed)

/-- The batch returns to None with everything empty (R136, stage 4 of R157, R162). -/
def State.clearBatch (s : State) : State := { s with bc := {} }

/-- Completion (R157). -/
def State.completeBatch (s : State) : State :=
  (((s.bc.members.foldl State.settleMember s).reportOrphans s).raise .eraseComplete).clearBatch

/-- With no sector Pending or Erasing: completion, or dissolution where no member remains (R157, R162). -/
def State.finishBatch (s : State) : State :=
  if s.bc.members = [] then s.clearBatch else s.completeBatch

/-- The batch ends if no sector is Pending or Erasing. -/
def State.finishIfDone (s : State) : State := if s.bc.unfinished then s else s.finishBatch

/-- Every unfinished sector is aborted for the supply and the batch ends (R143, R146). -/
def State.abortBatch (s : State) : State :=
  State.finishBatch { s with bc := { s.bc.abortRest with held := none } }

/-! ### Sector work (section 7.5) -/

/-- The spacing timer starts (R150). -/
def State.startSpacing (s : State) : State :=
  { s with bc := { s.bc with spacing := .running s.spacingTicks } }

/-- A reached sector is opened (step 3 of R143): ledger open update, role Erasing, the engine takes it; the
spacing timer starts if it is stopped. -/
def State.openSector (s : State) (sector : Nat) : State :=
  let s1 := s.ledgerOpen sector
  let s2 := { s1 with
    bc := s1.bc.setRole sector .erasing
    ae := { s1.ae with engine := .erasingSector { sector := sector } } }
  if s2.bc.spacing = .stopped then s2.startSpacing else s2

/-- A reached sector is skipped (step 2 of R143). -/
def State.skipSector (s : State) (sector : Nat) : State :=
  { s with bc := s.bc.setRole sector (.done .skippedProtected) }

/-- The Pending sectors are reached in order until one is opened or the batch ends (R143). -/
def reachFrom : List Nat → State → State
  | [], s => s.finishBatch
  | n :: rest, s =>
    if s.ae.supplyLow then s.abortBatch
    else if s.isProtected n then reachFrom rest (s.skipSector n)
    else s.openSector n

/-- The sector work goes on, the batch Erasing and the engine Idle: the suspended sector resumes (R153, R156,
with R146), or the next Pending sector is reached (R143). -/
def State.beginWork (s : State) : State :=
  match s.bc.held with
  | some op =>
    if s.ae.supplyLow then s.abortBatch
    else
      State.startSpacing
        { s with
          bc := { s.bc with held := none }
          ae := { s.ae with engine := .erasingSector op } }
  | none => reachFrom s.bc.pendingSectors s

/-- The batch enters Erasing (R138, R141, R153, R156): the gather timer stops, and the sector work begins or
resumes at once if the engine is Idle; else it waits for the engine. -/
def State.enterErasing (s : State) : State :=
  let s1 := { s with bc := { s.bc with state := .erasing, gather := .stopped } }
  if s1.engineIdle then s1.beginWork else s1

/-! ### Creating and joining (section 7.4) -/

/-- A head becomes a member: it leaves the queue, its slot is Batched, its sectors enter the set. -/
def State.addMember (s : State) (i : Nat) : State :=
  let sectors := (s.slot i).request.sectors
  let s1 := (s.unqueue i).setSlotState i .batched
  { s1 with bc := { s1.bc.addSectors sectors with
      members := s1.bc.members ++ [{ slot := i, sectors := sectors }] } }

/-- The batch gathers, its timer started afresh (R138, R139, R142). -/
def State.gatherOn (s : State) : State :=
  { s with bc := { s.bc with state := .gathering, gather := .running s.gatherTicks } }

/-- An ERASE_SECTORS with a nonzero gather window gathers; an ERASE_ALL or a window of 0 goes to Erasing
(R138, R139, R140). -/
def State.enterBatch (s : State) (i : Nat) : State :=
  let s1 := s.addMember i
  match (s.slot i).request with
  | .eraseAll => s1.enterErasing
  | _ => if s.gatherTicks = 0 then s1.enterErasing else s1.gatherOn

/-! ### The head examination (R96, R97) -/

/-- The kinds of head of section 7.6. -/
inductive HeadKind where
  | erase
  | protection
  | touching
  | runnable
  deriving DecidableEq, Repr

/-- The kind of a head (section 7.6). -/
def State.headKind (s : State) (r : Request) : HeadKind :=
  match r with
  | .eraseSectors _ | .eraseAll => .erase
  | .protectGroup _ | .unprotectAll => .protection
  | .read addr count => if s.touchesBatch addr.toNat count.toNat then .touching else .runnable
  | .program _ addr data => if s.touchesBatch addr.toNat data.length then .touching else .runnable
  | .checkRegion addr len => if s.touchesBatch addr.toNat len.toNat then .touching else .runnable
  | _ => .runnable

/-- The conditions of a yield (R149). -/
def State.mayYield (s : State) : Bool :=
  s.cs.active.yieldEnable == 1 &&
    (match s.ae.engine with
      | .erasingSector _ => true
      | _ => false) &&
    s.bc.spacing == .mature

/-- The batch yields (R151). -/
def State.yieldBatch (s : State) : State :=
  { s with bc := { s.bc with state := .yielded, yieldCount := 0, spacing := .stopped } }

/-- A served request may start within the yield (R152). -/
def State.mayServe (s : State) : Bool :=
  s.cs.active.yieldEnable == 1 && s.bc.yieldCount < s.cs.active.yieldBudget.toNat

/-- One more request started in this yield (R152). -/
def State.countServed (s : State) : State :=
  { s with bc := { s.bc with yieldCount := s.bc.yieldCount + 1 } }

/-- What one look at the head decides (R97): go on with the examination in a new state, or stop in it. -/
inductive HeadStep where
  | again (s : State)
  | stop (s : State)
  deriving Repr

/-- A head of kind erase, protection or touching is refused beside an active batch (R148). -/
def State.refuseKind (s : State) (i : Nat) : HeadKind → Option State
  | .erase => some (s.refuseHead i .eraseBusy)
  | .protection => some (s.refuseHead i .eraseBusy)
  | .touching => some (s.refuseHead i .sectorInErase)
  | .runnable => none

/-- A head meets its dynamic checks with the engine Idle: refused, or started (R98, R152, R155). -/
def State.tryStart (s : State) (i : Nat) : HeadStep :=
  match s.dynamicCheck (s.slot i).request with
  | some st => .again (s.refuseHead i st)
  | none => .stop (s.startHead i)

/-- The head with no batch (R98, R138). -/
def State.headNoBatch (s : State) (i : Nat) : HeadStep :=
  match s.headKind (s.slot i).request with
  | .erase => .again (s.enterBatch i)
  | _ => if s.engineIdle then s.tryStart i else .stop s

/-- The head of a Gathering batch (R139 to R141). A head that is not a join closes gathering and is looked at again. If
the batch completed in that very closing (every sector skipped or aborted), that look finds the batch None: a
PROTECT_GROUP or UNPROTECT_ALL is then judged by R157 and R98, where R141, R148 and R169 read as if it were refused
ERASE_BUSY. DESIGN CHOICE (assumption 34). -/
def State.headGathering (s : State) (i : Nat) : HeadStep :=
  match s.headKind (s.slot i).request with
  | .erase => .again (s.enterBatch i)
  | _ => .again s.enterErasing

/-- The head of an Erasing batch (R148, R149). -/
def State.headErasing (s : State) (i : Nat) : HeadStep :=
  match s.refuseKind i (s.headKind (s.slot i).request) with
  | some s1 => .again s1
  | none => .stop (if s.mayYield then s.yieldBatch else s)

/-- The head of a Yielded batch (R148, R152, R153). -/
def State.headYielded (s : State) (i : Nat) : HeadStep :=
  match s.refuseKind i (s.headKind (s.slot i).request) with
  | some s1 => .again s1
  | none =>
    if !s.engineIdle then .stop s
    else if s.mayServe then
      match s.tryStart i with
      | .stop s1 => .stop s1.countServed
      | .again s1 => .again s1
    else .again s.enterErasing

/-- The head of a Parked batch (R148, R155). -/
def State.headParked (s : State) (i : Nat) : HeadStep :=
  match s.refuseKind i (s.headKind (s.slot i).request) with
  | some s1 => .again s1
  | none => if s.engineIdle then s.tryStart i else .stop s

/-- One look at the head; an empty queue ends a yield whose engine is Idle (R96, R153). -/
def State.lookAtHead (s : State) : HeadStep :=
  match s.head with
  | none => if s.bc.state = .yielded && s.engineIdle then .again s.enterErasing else .stop s
  | some i =>
    match s.bc.state with
    | .none => s.headNoBatch i
    | .gathering => s.headGathering i
    | .erasing => s.headErasing i
    | .yielded => s.headYielded i
    | .parked => s.headParked i

/-- Looks at the head until it waits, starts or the queue is empty (R97). -/
def examineFor : Nat → State → State
  | 0, s => s
  | fuel + 1, s =>
    match s.lookAtHead with
    | .stop s1 => s1
    | .again s1 => examineFor fuel s1

/-- The head examination (R96). Each look takes the head out of the queue or moves the batch on, at most
three times for one head, so the fuel never ends it. -/
def State.examine (s : State) : State := examineFor (4 * s.rd.queue.length + 4) s

/-- The engine has entered Idle: a batch that is Erasing begins or resumes its sector work first (R141, R156),
then the head is examined (R112). -/
def State.engineFreed (s : State) : State :=
  (if s.bc.state = .erasing && s.engineIdle then s.beginWork else s).examine

/-- The head is examined if the batch state is not what it was in `before` (R96). -/
def State.examineIfMoved (s before : State) : State :=
  if s.bc.state = before.bc.state then s else s.examine

/-! ### The end and the suspension of a sector's work (R144, R145, R151) -/

/-- The sector in hand is suspended at a step's end (R151, R154). -/
def State.suspendSector (s : State) (op : EraseOp) : State :=
  State.engineFreed
    { s with
      ae := { s.ae with engine := .idle }
      bc := { s.bc with held := some op } }

/-- What the outcome of a sector's work leaves in the array and the ledger (R127, R145). -/
def State.closeSector (s : State) (sector : Nat) (o : SectorOutcome) : State :=
  let s1 :=
    if o = .erased then
      { s.ledgerClose sector .normal with array := s.array.eraseSector sector }
    else (s.ledgerClose sector .faulted).raise .ledgerAttention
  { s1 with
    bc := s1.bc.setRole sector (.done o)
    ae := { s1.ae with engine := .idle } }

/-- What follows the end of a sector's work (R145): while Erasing the next Pending sector is reached; in Yielded
or Parked none is. The head is examined if the engine is then Idle or the batch has moved. -/
def State.afterSector (s : State) : State :=
  if s.bc.state = .erasing then
    let s1 := reachFrom s.bc.pendingSectors s
    if s1.engineIdle then s1.examine else s1.examineIfMoved s
  else s.finishIfDone.examine

/-! ### Parking (section 7.7) -/

/-- The batch enters Parked (R154); with no batch, or parked already, nothing. -/
def State.parkBatch (s : State) : State :=
  match s.bc.state with
  | .none | .parked => s
  | _ => { s with bc := { s.bc with state := .parked, gather := .stopped, spacing := .stopped } }

/-- A Parked batch returns to Erasing (R156): the work resumes or begins if the engine is Idle, and waits for the
engine while it serves a request. Work whose suspension was still pending goes on, its spacing timer started
(assumption 15). -/
def State.unparkBatch (s : State) : State :=
  if s.bc.state = .parked then
    let s1 := s.enterErasing
    match s.ae.engine with
    | .erasingSector _ => s1.startSpacing
    | _ => s1
  else s

/-! ### Cancelling a member (section 7.9) -/

/-- The sectors a cancelled member withdraws (step 1 of R161). -/
def Batch.withdrawable (b : Batch) (m : Member) : List Nat :=
  m.sectors.filter (fun n =>
    b.role n == some .pending &&
      !(b.members.any (fun o => o.slot != m.slot && o.sectors.contains n)))

/-- The set and the member list without what the member withdraws (R161). -/
def Batch.withdraw (b : Batch) (m : Member) : Batch :=
  let gone := b.withdrawable m
  { b with
    set := b.set.filter (fun e => !gone.contains e.1)
    members := b.members.filter (fun o => o.slot != m.slot) }

/-- What a CANCEL does to a batch when the withdrawals are done (R162). With no member left and one sector Erasing,
R162 keeps the batch "with that sector alone", while step 2 of R161 and R136 keep a done sector in the set: the set keeps
the done sectors beside it. DESIGN CHOICE (assumption 33). -/
def State.afterWithdrawal (s : State) : State :=
  if s.bc.members = [] then (if s.bc.hasErasing then s else s.clearBatch)
  else s.finishIfDone

/-- A CANCEL finds a Batched target (R161 to R163): withdrawals, the target answered CANCELLED with its outcomes,
or, orphaned, freed and reported; then what is left of the batch. -/
def State.cancelMember (s : State) (m : Member) : State :=
  let x := s.slot m.slot
  let withdrawn := s.bc.withdrawable m
  let s1 := { s with bc := s.bc.withdraw m }
  let s2 :=
    if x.orphaned then
      (s1.orphanResult x.request.code x.tag .cancelled (s.bc.countOutcome m.sectors .erased)
        (s.bc.countOutcome m.sectors .failed)).releaseSlot m.slot
    else
      s1.answer m.slot .cancelled (eraseResults x.request m.sectors (s.bc.outcomeCode withdrawn))
  s2.afterWithdrawal

end Sys2Proof.Machine
end

