-- ==== Sys2Proof/Machine/Session.lean ====
section
/-!
DEFINITION. The Session Unit (chapter 4) and the acceptance of requests (section 5.3): replies, attach,
teardown, Nr processing, the classification of REQ parcels, acceptance, and the selection of what to send.
-/

namespace Sys2Proof.Machine

/-! ### Replies and attach (section 4.2) -/

/-- The largest number of entries of the reply list and of the send window (R57, R69). -/
def deviceWindow : Nat := 4

/-- A HAIL_REPLY with its fields taken from the state as it stands (R57). -/
def State.makeReply (s : State) (tag : Byte) (status : ReplyStatus) : Reply where
  tag := tag
  status := status
  epoch := s.su.epoch
  fresh :=
    match status with
    | .attached => s.su.attachCount == 1
    | _ => s.su.attachCount == 0
  cause := s.sr.cause
  previous := s.su.reason
  effWindow := if s.isAttached then s.su.effWindow else 0

/-- Appends a REFUSED or NO_SESSION reply; it is dropped when the list holds 4 (R57). -/
def State.appendReply (s : State) (tag : Byte) (status : ReplyStatus) : State :=
  if s.su.replies.length < deviceWindow then
    { s with su := { s.su with replies := s.su.replies ++ [s.makeReply tag status] } }
  else s

/-- Step 7 of R54: NO_SESSION replies leave the list, and the oldest entry if it is still full. -/
def attachReplies (replies : List Reply) : List Reply :=
  let kept := replies.filter (fun r => r.status != .noSession)
  if kept.length < deviceWindow then kept else kept.tail

/-- The epoch after an attach: 255 wraps to 1 (R54). -/
def nextEpoch (e : Byte) : Byte := if e = 255 then 1 else e + 1

/-- Attaches a session (R54), `hostWindow` and `options` from the HAIL payload. -/
def State.attach (s : State) (tag hostWindow options : Byte) : State :=
  let s1 := { s with su := { s.su with
    link := .attached
    epoch := nextEpoch s.su.epoch
    attachCount := min 65535 (s.su.attachCount + 1)
    vs := 0
    va := 0
    vr := 0
    window := []
    pass := []
    retry := 0
    ackOwed := false
    rejectSent := false
    rejPending := false
    busyReported := false
    busyNotePending := false
    hostBusy := false
    effWindow := min 4 hostWindow.toNat
    noticesWanted := options.getLsbD 0
    keepalive := Timer.start s.keepaliveTicks } }
  { s1 with su := { s1.su with
    replies := attachReplies s1.su.replies ++ [s1.makeReply tag .attached] } }

/-- A HAIL is valid (R53). -/
def hailValid (payload : List Byte) : Bool :=
  match payload with
  | [w, o] => 1 ≤ w.toNat && w.toNat ≤ 4 && o &&& 0xFE == 0
  | _ => false

/-! ### Teardown (section 4.8) -/

/-- A slot at a teardown (R106). -/
def Slot.afterTeardown (x : Slot) : Slot :=
  match x.state with
  | .queued | .answered => {}
  | .running | .batched => { x with orphaned := true }
  | .free => x

/-- How many slots a teardown drops (R106). -/
def State.droppedCount (s : State) : Nat :=
  s.rd.slots.countP (fun x => x.state == .queued || x.state == .answered)

/-- Step 1 of R79: every slot is processed and the queue emptied (R106). -/
def State.dropSlots (s : State) : State :=
  { s with rd := { s.rd with slots := s.rd.slots.map Slot.afterTeardown, queue := [] } }

/-- Step 3 of R79: the Session Unit's own effects (R77, R78). -/
def State.detach (s : State) (reason : TeardownReason) : State :=
  let s1 := s.clearHeld
  { s1 with
    su := { s1.su with
      link := .detached
      reason := reason
      window := []
      pass := []
      rejPending := false
      ackOwed := false
      rejectSent := false
      busyReported := false
      busyNotePending := false
      hostBusy := false
      noticesWanted := false
      retry := 0
      retransmit := .stopped
      keepalive := .stopped }
    eu := { s1.eu with log := s1.eu.log.map (fun r => { r with inFlight := false }) } }

/-- A session teardown (R77 to R79). Nothing while DETACHED. -/
def State.teardown (s : State) (reason : TeardownReason) : State :=
  if s.isAttached then
    let s1 := s.dropSlots.unparkBatch
    let s2 := (s1.detach reason).offer (.sessionEnded reason s.su.epoch s.droppedCount)
    if reason = .rehail then s2 else s2.raise .sessionLost
  else s

/-! ### Nr processing (section 4.3) -/

/-- The Nr of a received parcel lies in V(A)..V(S) (R60). -/
def State.nrValid (s : State) (nr : Seq) : Bool := (nr - s.su.va).toNat ≤ (s.su.vs - s.su.va).toNat

/-- The serials of the log records that some window entries carry (R61). -/
def noticeSerials (es : List WindowEntry) : List Word16 :=
  es.filterMap (fun e =>
    match e.kind with
    | .ntc serial => some serial
    | .rsp => none)

/-- The retransmit timer starts or restarts with its full period (R70). -/
def State.restartRetransmit (s : State) : State :=
  { s with su := { s.su with retransmit := .running s.retransmitTicks } }

/-- A valid Nr acknowledges the window up to it (R61). -/
def State.acknowledge (s : State) (nr : Seq) : State :=
  let k := (nr - s.su.va).toNat
  if k = 0 then s
  else
    let gone := s.su.window.take k
    let rest := s.su.window.drop k
    let s1 := { s with su := { s.su with
      va := nr
      window := rest
      pass := s.su.pass.filter (fun n => !(gone.any (fun e => e.ns == n)))
      retry := 0
      retransmit := if rest = [] then .stopped else .running s.retransmitTicks } }
    s1.dropRecords (noticeSerials gone)

/-- The keepalive timer restarts, if it is running, on every valid parcel (R59, R76). -/
def State.touchKeepalive (s : State) : State :=
  if s.su.keepalive.runs then
    { s with su := { s.su with keepalive := Timer.start s.keepaliveTicks } }
  else s

/-- A retransmission pass over the whole window (R72), the timer restarted (R68, R71). -/
def State.setUpPass (s : State) : State :=
  State.restartRetransmit
    { s with su := { s.su with pass := s.su.window.map (fun e => e.ns) } }

/-- One more try (R68, R71): past the retry limit the session ends, else a pass is set up. -/
def State.retryOnce (s : State) : State :=
  let s1 := { s with su := { s.su with retry := s.su.retry + 1 } }
  if s.cs.active.retryLimit.toNat < s1.su.retry then s1.teardown .retryExhausted else s1.setUpPass

/-! ### Received parcels (sections 4.2 to 4.5) -/

/-- The closing Fence of a valid parcel (R35, R48). With no listening receiver its characters are not heard (R21,
R23). In Hunting they are ignored and the Fence opens an assembly (R35). In Open the parcel is handed over and
the same Fence opens the next assembly. -/
def State.onParcel (s : State) (handle : State → State) : State :=
  if s.listening then
    let s1 := s.characterEnd
    let s2 := { s1 with pf := s1.pf.openEmpty }
    match s.pf.phase with
    | .hunting => s2
    | .opened => handle s2
  else s.unheard true .stopped

/-- A REQ, ACK or REJ while DETACHED is discarded and counted (R56). -/
def State.countUnattached (s : State) : State :=
  { s with su := { s.su with unattached := s.su.unattached + 1 } }

/-- An Nr acknowledges notices whose records leave the log (R61, R187). -/
def State.losesRecords (s : State) (nr : Seq) : Bool :=
  decide ((s.acknowledge nr).eu.log.length < s.eu.log.length)

/-- What a parcel with an Nr does while ATTACHED (R59): keepalive, Nr processing, and then `rest` unless the Nr
was invalid (R60). Lost events are reported at the end (R185). -/
def State.withNr (s : State) (nr : Seq) (rest : State → State) : State :=
  let s1 := s.touchKeepalive
  if s1.nrValid nr then (rest (s1.acknowledge nr)).endStep (s1.losesRecords nr) else s1.teardown .protocol

/-- A HAIL (R53 to R55, R59). -/
def State.receiveHail (s : State) (tag : Byte) (payload : List Byte) : State :=
  let s1 := if s.isAttached then s.touchKeepalive else s
  if hailValid payload then
    (s1.teardown .rehail).attach tag (payload.getD 0 0) (payload.getD 1 0)
  else s1.appendReply tag .refused

/-- Host Busy from an ACK's payload (R67). -/
def State.setHostBusy (s : State) (payload : List Byte) : State :=
  { s with su := { s.su with hostBusy := (payload.headD 0).getLsbD 0 } }

/-- An ACK (R56, R59, R67). -/
def State.receiveAck (s : State) (nr : Seq) (payload : List Byte) : State :=
  if s.isAttached then s.withNr nr (fun s1 => s1.setHostBusy payload) else s.countUnattached

/-- What a REJ does after its Nr (R68). -/
def State.rejAfterNr (s : State) : State :=
  let s1 := { s with su := { s.su with rejReceived := s.su.rejReceived + 1 } }
  if s1.su.va = s1.su.vs then s1 else s1.retryOnce

/-- A REJ (R56, R59, R68). -/
def State.receiveRej (s : State) (nr : Seq) : State :=
  if s.isAttached then s.withNr nr State.rejAfterNr else s.countUnattached

/-! ### Acceptance (section 5.3) -/

/-- What follows the static checks: an immediate request is executed and answers itself, a queued one is lined
up. The argument is the slot's place. -/
abbrev Service := Nat → State → State

/-- A tag is held by another slot that is not Free (R92). -/
def State.tagInUse (s : State) (i : Nat) (tag : Byte) : Bool :=
  (List.range s.rd.slots.length).any (fun j =>
    j != i && (s.slot j).state != .free && (s.slot j).tag == tag)

/-- A queued request joins the service queue (R94): a head examination follows if the queue was empty. -/
def enqueue : Service := fun i s =>
  let s1 := s.setSlotState i .queued
  let s2 := { s1 with rd := { s1.rd with queue := s1.rd.queue ++ [i] } }
  if s.rd.queue = [] then s2.examine else s2

/-- An immediate request that only answers (R93). -/
def respond (st : Status) (results : State → List Byte) : Service := fun i s =>
  s.answer i st (results s)

/-- Stage 1 of R91: the slot is taken; it counts as Answered from here on (R93). -/
def State.takeSlot (s : State) (i : Nat) (tag : Byte) (r : Request) : State :=
  s.setSlot i { state := .answered, tag := tag, request := r }

/-- Acceptance (R91): the slot, the duplicate-tag check (R92), the form check (R84), the static checks (R85),
and the service. -/
def State.accept (s : State) (i : Nat) (tag : Byte) (r : Request)
    (check : Option (Status × List Byte)) (service : Service) : State :=
  let s1 := s.takeSlot i tag r
  if s.tagInUse i tag then s1.answer i .duplicateTag []
  else if !formOk r.payload then s1.answer i .badRequest []
  else
    match check with
    | some (st, results) => s1.answer i st results
    | none => service i s1

/-- A REQ with d equal to 0 that finds a Free slot: what R62 changes before the hand-over. -/
def State.acceptSequence (s : State) : State :=
  { s with su := { s.su with
      vr := s.su.vr + 1
      ackOwed := true
      rejectSent := false
      rejPending := false } }

/-- A REQ classified by its Ns (R62, R63, R65, R66). -/
def State.classify (s : State) (ns : Seq) (tag : Byte) (r : Request)
    (check : Option (Status × List Byte)) (service : Service) : State :=
  let d := (ns - s.su.vr).toNat
  if d = 0 then
    match s.freeSlot with
    | some i => s.acceptSequence.accept i tag r check service
    | none => { s with su := { s.su with busyReported := true, busyNotePending := true } }
  else if d ≤ 3 then
    if s.su.rejectSent then s
    else { s with su := { s.su with rejectSent := true, rejPending := true } }
  else if d ≤ 11 then { s with su := { s.su with wild := s.su.wild + 1 } }
  else { s with su := { s.su with ackOwed := true } }

/-- A REQ handed over by the framer (R56, R59). -/
def State.receiveRequest (s : State) (h : ParcelHead) (r : Request)
    (check : Option (Status × List Byte)) (service : Service) : State :=
  if s.isAttached then s.withNr h.nr (fun s1 => s1.classify h.ns h.tag r check service)
  else s.countUnattached.appendReply h.tag .noSession

/-- The meaning every request row shares: its REQ parcel arrives (R48), and the device does what the sections
above say. -/
def requestStep (h : ParcelHead) (r : Request) (check : Option (Status × List Byte))
    (service : Service) (s : State) : Result :=
  .next (s.onParcel (fun s1 => s1.receiveRequest h r check service))

/-! ### Selection (section 4.7) -/

/-- The transmitter takes a parcel (R30, R49). -/
def State.transmit (s : State) (cls : Byte) (ns nr : Seq) (tag : Byte) (payload : List Byte) : State :=
  { s with cl := { s.cl with tx := .sending (encodeParcel cls ns nr tag payload) s.characterTime } }

/-- Item 1 of R73: the oldest entry of the reply list. -/
def State.sendReply (s : State) (r : Reply) (rest : List Reply) : State :=
  State.transmit { s with su := { s.su with replies := rest } } hailReplyClass 0 0 r.tag r.payload

/-- Item 2 of R73: a REJ. -/
def State.sendRej (s : State) : State :=
  State.transmit
    { s with su := { s.su with rejPending := false, ackOwed := false, rejSent := s.su.rejSent + 1 } }
    rejClass 0 s.su.vr 0 []

/-- The class of a window entry (R69). -/
def WindowKind.cls : WindowKind → Byte
  | .rsp => rspClass
  | .ntc _ => ntcClass

/-- Item 3 of R73: the next parcel of the retransmission pass (R72). -/
def State.sendAgain (s : State) (e : WindowEntry) (rest : List Seq) : State :=
  State.transmit
    { s with su := { s.su with
        pass := rest, ackOwed := false, retransmitted := s.su.retransmitted + 1 } }
    e.kind.cls e.ns s.su.vr e.tag e.payload

/-- A new sequenced parcel joins the window and goes out (item 4 of R73, R69, R74). -/
def State.sendNew (s : State) (kind : WindowKind) (tag : Byte) (payload : List Byte) : State :=
  let e : WindowEntry := { kind := kind, ns := s.su.vs, tag := tag, payload := payload }
  let s1 := { s with su := { s.su with
    window := s.su.window ++ [e]
    vs := s.su.vs + 1
    ackOwed := false
    retransmit := if s.su.window = [] then .running s.retransmitTicks else s.su.retransmit } }
  s1.transmit kind.cls e.ns s.su.vr tag payload

/-- A record becomes in flight (R186). -/
def State.markInFlight (s : State) (serial : Word16) : State :=
  { s with eu := { s.eu with
      log := s.eu.log.map (fun r => if r.serial = serial then { r with inFlight := true } else r) } }

/-- Item 5 of R73: an ACK, carrying Busy (R74). -/
def State.sendAck (s : State) : State :=
  let busy := s.su.busyReported
  State.transmit
    { s with su := { s.su with
        ackOwed := false
        busyNotePending := false
        busyAcks := if busy then s.su.busyAcks + 1 else s.su.busyAcks } }
    ackClass 0 s.su.vr 0 [flagOctet busy]

/-- The oldest undelivered record (R186). -/
def State.noticeCandidate (s : State) : Option LogRecord := s.eu.log.find? (fun r => !r.inFlight)

/-- Item 4 of R73, if available: the oldest Answered response, whose slot is released, else the notice
candidate. -/
def State.chooseNew (s : State) : Option State :=
  if s.isAttached && decide (s.su.window.length < s.su.effWindow) && !s.su.hostBusy then
    match s.oldestAnswered with
    | some i => some ((s.sendNew .rsp (s.slot i).tag (s.slot i).response).releaseSlot i)
    | none =>
      if s.su.noticesWanted then
        s.noticeCandidate.map (fun r =>
          (s.sendNew (.ntc r.serial) r.noticeTag r.octets).markInFlight r.serial)
      else none
  else none

/-- Item 5 of R73, if available. -/
def State.chooseAck (s : State) : Option State :=
  if s.isAttached && (s.su.ackOwed || s.su.busyNotePending) then some s.sendAck else none

/-- Item 3 of R73, if available. -/
def State.chooseAgain (s : State) : Option State :=
  match s.su.pass with
  | [] => none
  | n :: rest => (s.su.window.find? (fun e => e.ns == n)).map (fun e => s.sendAgain e rest)

/-- The first available item of R73; `none` when there is nothing to send. -/
def State.choose (s : State) : Option State :=
  match s.su.replies with
  | r :: rest => some (s.sendReply r rest)
  | [] =>
    if s.su.rejPending then some s.sendRej
    else (s.chooseAgain.orElse (fun _ => s.chooseNew)).orElse (fun _ => s.chooseAck)

/-- A selection (R31, R75): made only with the transmitter Free and Held clear, Running-Active. -/
def State.select (s : State) : Option State :=
  if s.sr.top = .active ∧ s.cl.tx = .free ∧ s.cl.held = false then s.choose else none

end Sys2Proof.Machine
end

