-- ==== Sys2Proof/Machine/ArrayRequests.lean ====
section
/-!
DEFINITION. READ, PROGRAM, CHECK_REGION and SECTOR_INFO as requests (chapter 6).
-/

namespace Sys2Proof.Machine

/-- READ (R115). -/
def execRead (h : ParcelHead) (addr : Word24) (count : Byte) (s : State) : Result :=
  requestStep h (.read addr count) (readCheck addr count) enqueue s

/-- PROGRAM (R118). -/
def execProgram (h : ParcelHead) (mode : Byte) (addr : Word24) (data : List Byte) (s : State) : Result :=
  requestStep h (.program mode addr data) (programCheck mode addr data) enqueue s

/-- CHECK_REGION (R123). -/
def execCheckRegion (h : ParcelHead) (addr len : Word24) (s : State) : Result :=
  requestStep h (.checkRegion addr len) (checkRegionCheck addr len) enqueue s

/-- The batch role of SECTOR_INFO (R125). -/
def State.roleOctet (s : State) (sector : Nat) : Byte :=
  match s.bc.state, s.bc.role sector with
  | .none, _ => 0
  | _, none => 0
  | _, some .pending => 1
  | _, some .erasing => 2
  | _, some (.done _) => 3

/-- The outcome of SECTOR_INFO (R125). -/
def State.outcomeOctet (s : State) (sector : Nat) : Byte :=
  match s.bc.state, s.bc.role sector with
  | .none, _ => 0
  | _, some (.done o) => o.code
  | _, _ => 0

/-- The nine result octets of SECTOR_INFO (R125). -/
def State.sectorInfo (s : State) (sector : Nat) : List Byte :=
  [octet sector, (s.entry sector).condition.code]
    ++ octets24 (BitVec.ofNat 24 (s.entry sector).wear)
    ++ [octet (groupOf sector), s.protectionOctet sector, s.roleOctet sector, s.outcomeOctet sector]

/-- SECTOR_INFO's execution (R125). -/
def sectorInfoService (sector : Byte) : Service := respond .ok (fun s => s.sectorInfo sector.toNat)

/-- SECTOR_INFO (R125). -/
def execSectorInfo (h : ParcelHead) (sector : Byte) (s : State) : Result :=
  requestStep h (.sectorInfo sector) (sectorInfoCheck sector) (sectorInfoService sector) s

end Sys2Proof.Machine
end

