-- ==== Sys2Proof/Machine/ConfigRequests.lean ====
section
/-!
DEFINITION. CONFIG_GET, CONFIG_SET, CONFIG_STORE, IDENTIFY, STATUS and PING (chapter 10).
-/

namespace Sys2Proof.Machine

/-- The results of CONFIG_GET (R201). -/
def ConfigStore.report (c : ConfigStore) : List Byte :=
  c.active.octets ++
    (match c.current with
     | some id => 1 :: (Settings.ofOctets (c.copy id).octets).octets
     | none => 0 :: List.replicate 12 0)

/-- CONFIG_GET's execution (R201). -/
def configGetService : Service := respond .ok (fun s => s.cs.report)

/-- CONFIG_GET (R201). -/
def execConfigGet (h : ParcelHead) (s : State) : Result :=
  requestStep h .configGet none configGetService s

/-- Pairs applied in order, the last value of a field winning (R203). -/
def Settings.applyPairs (r : Settings) (pairs : List (Byte × Byte)) : Settings :=
  pairs.foldl (fun acc p => acc.setField p.1.toNat p.2) r

/-- The active record after a CONFIG_SET, with the keepalive timer restarted, started or stopped if field 4 has
changed (R203, R76). -/
def State.applySettings (s : State) (r : Settings) : State :=
  let s1 := { s with cs := { s.cs with active := r } }
  if r.keepalive = s.cs.active.keepalive then s1
  else { s1 with su := { s1.su with keepalive := Timer.start s1.keepaliveTicks } }

/-- CONFIG_SET's execution (R203). -/
def configSetService (pairs : List (Byte × Byte)) : Service := fun i s =>
  let s1 := s.applySettings (s.cs.active.applyPairs pairs)
  s1.answer i .ok s1.cs.active.octets

/-- CONFIG_SET (R202, R203). -/
def execConfigSet (h : ParcelHead) (pairs : List (Byte × Byte)) (s : State) : Result :=
  requestStep h (.configSet pairs) (configSetCheck pairs) (configSetService pairs) s

/-- CONFIG_STORE (R204). -/
def execConfigStore (h : ParcelHead) (record : Settings) (s : State) : Result :=
  requestStep h (.configStore record) (configStoreCheck record) enqueue s

/-- The fixed results of IDENTIFY before the serial: vendor 47h, part 4160h, revision 1, 64 sectors of 2000h
octets, groups of 4, 8 slots, window 4, 72 octets (R207). -/
def identityOctets : List Byte := [0x47, 0x41, 0x60, 1, 64, 0x20, 0x00, 4, 8, 4, 72]

/-- IDENTIFY's execution (R207). -/
def identifyService : Service := respond .ok (fun _ => identityOctets ++ octets64 Config.uniqueSerial)

/-- IDENTIFY (R207). -/
def execIdentify (h : ParcelHead) (s : State) : Result :=
  requestStep h .identify none identifyService s

/-- The nine discard counters in STATUS order (R51, R208). -/
def DiscardCounters.list (c : DiscardCounters) : List Word16 :=
  [c.runt, c.length, c.check, c.unknownClass, c.wrongDirection, c.abort, c.escapeViolation, c.overlong,
   c.framing]

/-- The six counters of the Session Unit in STATUS order (R81, R208). -/
def SessionUnit.counterList (u : SessionUnit) : List Word16 :=
  [u.unattached, u.wild, u.retransmitted, u.rejSent, u.rejReceived, u.busyAcks]

/-- The results of STATUS (R208). -/
def State.statusResults (s : State) : List Byte :=
  [flagOctet s.isAttached, s.su.epoch, octet s.su.vs.toNat, octet s.su.va.toNat, octet s.su.vr.toNat,
   octet (s.su.vs - s.su.va).toNat, s.statusFlags, octet s.slotsUsed, octet s.rd.queue.length,
   s.ae.engine.code, s.bc.state.code, octet s.bc.pendingSectors.length, octet s.eu.lost,
   octet s.eu.log.length]
    ++ (s.pf.counters.list ++ s.su.counterList).flatMap octets16

/-- All fifteen counters set to 0 (R209). -/
def State.clearCounters (s : State) : State :=
  { s with
    pf := { s.pf with counters := {} }
    su := { s.su with
      unattached := 0, wild := 0, retransmitted := 0, rejSent := 0, rejReceived := 0, busyAcks := 0 } }

/-- STATUS's execution (R208, R209). -/
def statusService (flags : Byte) : Service := fun i s =>
  let s1 := s.answer i .ok s.statusResults
  if flags.getLsbD 0 then s1.clearCounters else s1

/-- STATUS (R208, R209). -/
def execStatus (h : ParcelHead) (flags : Byte) (s : State) : Result :=
  requestStep h (.status flags) (statusCheck flags) (statusService flags) s

/-- PING's execution (R210). -/
def pingService (data : List Byte) : Service := respond .ok (fun _ => data)

/-- PING (R210). -/
def execPing (h : ParcelHead) (data : List Byte) (s : State) : Result :=
  requestStep h (.ping data) none (pingService data) s

end Sys2Proof.Machine
end

