-- ==== Sys2Proof/Machine/SupplySteps.lean ====
section
/-!
DEFINITION. The supply and reset commands (sections 1.2 to 1.4): power, RSTn, initialisation, and the supply
monitor's entry and exit.
-/

namespace Sys2Proof.Machine

/-! ### Work stopped by a reset (R3, R130, R173, R206) -/

/-- Two free octets as a sixteen-bit value. -/
def freeWord (n : Nat) : Word16 := Config.freeByte n ++ Config.freeByte (n + 1)

/-- What a running operation leaves in nonvolatile state when a reset stops it (R3): an interrupted PROGRAM
(R130), the write cell of a PROTECT_GROUP and the bits of an opened UNPROTECT_ALL (R173), the commit mark of a
CONFIG_STORE in its first stage (R206). Everything else is as the last step left it. -/
def State.interrupted (s : State) : State :=
  match s.ae.engine with
  | .programming op =>
    State.spendFree
      { s with array := interruptedOctets s.array op.addr op.next s.freeCount (op.data.drop op.next) }
      (op.data.drop op.next).length
  | .storing (.config _ _ target _ .clearMark) =>
    let c := s.cs.copy target
    let left : StoredCopy :=
      { c with committed := c.committed && (Config.freeByte s.freeCount).getLsbD 0 }
    State.spendFree { s with cs := s.cs.setCopy target left } 1
  | .storing (.protect _ group true _) =>
    let cell : Word16 := if (Config.freeByte s.freeCount).getLsbD 0 then 1 <<< group else 0
    State.spendFree { s with pu := { s.pu with writeCells := s.pu.writeCells ||| cell } } 1
  | .storing (.unprotect _ true _) =>
    State.spendFree
      { s with pu := { s.pu with
          protectBits := freeWord s.freeCount, writeCells := freeWord (s.freeCount + 2) } } 4
  | _ => s

/-- The device in Off, Reset-Held or Initialising: nonvolatile state kept (R18), volatile state lost (R3,
assumption 18). -/
def State.volatileLost (s : State) (sr : SupplyReset) : State where
  sr := sr
  pins := s.pins
  cl := { receiver := .settling }
  pf := {}
  su := {}
  rd := {}
  ae := {}
  array := s.array
  ledger := s.ledger
  bc := {}
  pu := { s.pu with lockMask := 0, maintLevel := false, candidate := 0 }
  eu := {}
  cs := { s.cs with active := {}, defaulted := true }
  inputs := s.inputs
  pending := s.pending
  freeCount := s.freeCount

/-- Enters Initialising with a cause; the tick counter restarts from 0 (R2, R4). -/
def State.enterInitialising (s : State) (cause : ResetCause) : State :=
  s.volatileLost { top := .initialising, cause := cause }

/-- VDD has risen past 1.9 V in Off (R2). -/
def State.powerUp (s : State) : State :=
  if s.sr.top = .off then
    if s.pins.rstn then s.enterInitialising .powerOn
    else s.volatileLost { top := .resetHeld, heldFromOff := true, cause := s.sr.cause }
  else s

/-- VDD has fallen below 1.9 V (R2, R3). -/
def State.powerDown (s : State) : State :=
  let s1 := s.interrupted
  State.volatileLost { s1 with pins := { s1.pins with vdd := .off } } { top := .off, cause := s.sr.cause }

/-- RSTn has gone low (R2, R3). -/
def State.resetAsserted (s : State) : State :=
  if s.sr.top = .initialising ∨ s.isRunning then
    let s1 := s.interrupted
    State.volatileLost { s1 with pins := { s1.pins with rstn := false } }
      { top := .resetHeld, cause := s.sr.cause }
  else s

/-- RSTn has gone high in Reset-Held (R2): cause 1 if Reset-Held was entered from Off, else 2. -/
def State.resetReleased (s : State) : State :=
  if s.sr.top = .resetHeld then
    State.enterInitialising { s with pins := { s.pins with rstn := true } }
      (if s.sr.heldFromOff then .powerOn else .pin)
  else s

/-- POWER_ON (R2). -/
def execPowerOn (rstn : Bool) (s : State) : Result :=
  if s.sr.top = .off then .next (State.powerUp { s with pins := { s.pins with rstn := rstn, vdd := .low } })
  else .next s

/-- POWER_OFF (R2, R3). -/
def execPowerOff (s : State) : Result := .next s.powerDown

/-- PIN_RESET (R2, R3). -/
def execPinReset (s : State) : Result := .next s.resetAsserted

/-- RESET_RELEASE (R2). -/
def execResetRelease (s : State) : Result := .next s.resetReleased

/-! ### Supply monitoring (section 1.4) -/

/-- The slot of a Storing operation. -/
def StoreOp.slot : StoreOp → Nat
  | .config slot _ _ _ _ => slot
  | .protect slot _ _ _ => slot
  | .unprotect slot _ _ => slot

/-- Step 4 of R8: running work that writes nonvolatile state is abandoned (R129, R130, R146, R173, R206). -/
def State.abandonWrites (s : State) : State :=
  match s.ae.engine with
  | .programming op => (s.interrupted.finishRunning op.slot .supplyLow []).engineFreed
  | .storing op => (s.finishRunning op.slot .supplyLow []).engineFreed
  | .erasingSector _ =>
    (State.abortBatch { s with ae := { s.ae with engine := .idle } }).engineFreed
  | _ => s

/-- A supply-low entry as one atomic step, awake (R8). -/
def State.enterInhibit (s : State) : State :=
  let s1 := { s with
    sr := { s.sr with monitor := .inhibit }
    ae := { s.ae with supplyLow := true } }
  ((s1.offer .supplyLow).raise .supplyLow).abandonWrites

/-- A supply-low entry found by the monitor in Normal, in a Running state (R7, R8, R13). -/
def State.supplyLowEntry (s : State) (rxd : Bool) : State :=
  if s.isRunning && s.sr.monitor == .normal then (s.wake rxd).enterInhibit else s

/-- A supply-low exit found by the monitor in Inhibit, in a Running state (R7, R9, R13). -/
def State.supplyLowExit (s : State) (rxd : Bool) : State :=
  if s.isRunning && s.sr.monitor == .inhibit then
    let s1 := s.wake rxd
    State.offer
      { s1 with
        sr := { s1.sr with monitor := .normal }
        ae := { s1.ae with supplyLow := false } } .supplyOk
  else s

/-- SUPPLY_LOW_ENTRY (R8). -/
def execSupplyLowEntry (rxd : Bool) (s : State) : Result :=
  .next (State.supplyLowEntry { s with pins := { s.pins with vdd := .low } } rxd)

/-- SUPPLY_LOW_EXIT (R9). -/
def execSupplyLowExit (rxd : Bool) (s : State) : Result :=
  .next (State.supplyLowExit { s with pins := { s.pins with vdd := .good } } rxd)

/-! ### Initialisation (section 1.3) -/

/-- Step 1 of R4: the current stored copy or the defaults (R200). -/
def ConfigStore.load (c : ConfigStore) : ConfigStore :=
  match c.current with
  | some id => { c with active := Settings.ofOctets (c.copy id).octets, defaulted := false }
  | none => { c with active := {}, defaulted := true }

/-- The latched causes after step 7 of R4. -/
def initialCauses (damage : Bool) : Byte :=
  if damage then Cause.resetSeen.mask ||| Cause.ledgerAttention.mask else Cause.resetSeen.mask

/-- Steps 1 to 8 of R4, MAINT sampled at step 4 as given; the device stays in Initialising. -/
def State.loaded (s : State) (maint : Bool) : State where
  sr := { top := .initialising, cause := s.sr.cause, tick := s.sr.tick, phase := s.sr.phase, started := true }
  pins := { s.pins with maint := maint }
  cl := { rate := s.cs.load.active.linkRate, receiver := .settling }
  pf := {}
  su := {}
  rd := {}
  ae := {}
  array := s.array
  ledger := s.ledger
  bc := {}
  pu := { s.pu with lockMask := 0, maintLevel := maint, candidate := 0 }
  eu :=
    { log := [{
        serial := 0
        event := .resetDone s.sr.cause s.cs.load.defaulted (s.countCondition .torn)
          (s.countCondition .faulted) s.pu.marker
        time := s.sr.tick }]
      nextSerial := 1
      latched := initialCauses
        (s.countCondition .torn != 0 || s.countCondition .faulted != 0 || s.pu.marker)
      enable := s.cs.load.active.attnEnable }
  cs := s.cs.load
  inputs := s.inputs
  pending := s.pending
  freeCount := s.freeCount

/-- Step 9 of R4, with RXD and VDD as they stand (R5, R6): the device enters Running-Active, the break timer starts if
RXD is low, and a supply at or below 2.65 V is a supply-low entry, handled as the first occurrence
(assumption 17). Below 1.9 V the device is Off (R2). -/
def State.enterRunning (s : State) (rxd : Bool) (vdd : SupplyBand) : State :=
  let s1 : State := { s with
    sr := { s.sr with top := .active, monitor := .normal, started := false, idleTimer := 0 }
    pins := { s.pins with rxd := rxd, vdd := vdd }
    cl := { s.cl with
      receiver := .settling
      settleCount := 0
      lostCharacter := false
      breakTimer := if rxd then .stopped else .running breakTicks } }
  match vdd with
  | .off => s1.powerDown
  | .good => s1
  | .low | .middle => s1.enterInhibit

/-- INITIALISATION_COMPLETE (R4 to R6): the steps that are left, to step 9. -/
def execInitialisationComplete (maint rxd : Bool) (vdd : SupplyBand) (s : State) : Result :=
  if s.sr.top = .initialising then
    let s1 := if s.sr.started then { s with pins := { s.pins with maint := maint } } else s.loaded maint
    .next (s1.enterRunning rxd vdd)
  else .next s

end Sys2Proof.Machine
end

