-- ==== Sys2Proof/Machine/EngineSteps.lean ====
section
/-!
DEFINITION. The engine step completions (order 5 of R14): READ, PROGRAM, CHECK_REGION (chapter 6), PROTECT_GROUP
and UNPROTECT_ALL (chapter 8), CONFIG_STORE (chapter 10) and a sector's erase (chapter 7). A completion that is
not due, because the engine carries another operation, is void (assumption 1).
-/

namespace Sys2Proof.Machine

/-- The engine goes on with its operation. -/
def State.keepEngine (s : State) (e : Engine) : State := { s with ae := { s.ae with engine := e } }

/-! ### READ (section 6.3) -/

/-- The single step of a READ completes (R116, R117). -/
def State.readDone (s : State) (op : ReadOp) : State :=
  let fresh := s.senseSpan (op.addr + op.got.length) (op.count - op.got.length)
  ((s.spendFree op.count).finishRunning op.slot .ok (op.condition :: (op.got ++ fresh))).engineFreed

/-- READ_COMPLETE (R116). -/
def execReadComplete (s : State) : Result :=
  match s.ae.engine with
  | .reading op =>
    if spanInArray op.addr op.count then .next (s.readDone op)
    else .fault (.outsideArray (op.addr + op.count - 1))
  | _ => .next s

/-! ### PROGRAM (section 6.4) -/

/-- The record after the octet in hand is done (R120). -/
def ProgramOp.advance (op : ProgramOp) (pulsed short : Bool) : ProgramOp :=
  { op with
    next := op.next + 1
    pulseCount := 0
    pulsed := op.pulsed + (if pulsed then 1 else 0)
    shortfall := op.shortfall + (if short then 1 else 0) }

/-- The PROGRAM goes on with its next octet, or completes (R121). -/
def State.programNext (s : State) (op : ProgramOp) : State :=
  if op.next < op.data.length then s.keepEngine (.programming op)
  else (s.finishRunning op.slot .ok [octet op.pulsed, octet op.shortfall]).engineFreed

/-- One octet of a PROGRAM (R120, R122); `d` is its data octet. -/
def State.programOctet (s : State) (op : ProgramOp) (d : Byte) (pulses : List Byte) : State :=
  let a := op.addr + op.next
  let old := s.array.read a
  let target := old &&& d
  if target = old then s.programNext (op.advance false (target != d))
  else
    let r := pulseOctet target (pulseLimit - op.pulseCount) pulses old
    let s1 := { s with array := s.array.write a r.1 }
    if r.2 then s1.programNext (op.advance true (target != d))
    else (s1.finishRunning op.slot .programFault [octet op.next]).engineFreed

/-- PROGRAM_STEP (R120); `pulses` names the bits each pulse clears, none past its end. -/
def execProgramStep (pulses : List Byte) (s : State) : Result :=
  match s.ae.engine with
  | .programming op =>
    if spanInArray op.addr op.data.length then
      match op.data[op.next]? with
      | some d => .next (s.programOctet op d pulses)
      | none => .next (s.programNext op)
    else .fault (.outsideArray (op.addr + op.data.length - 1))
  | _ => .next s

/-! ### CHECK_REGION (section 6.5) -/

/-- The octets of the span in the program line in hand (R113). -/
def CheckOp.stepLength (op : CheckOp) : Nat :=
  min (lineSize - op.next % lineSize) (op.addr + op.len - op.next)

/-- One program line of a CHECK_REGION (R124). -/
def State.checkLine (s : State) (op : CheckOp) : State :=
  let n := op.stepLength
  let crc := crcFrom op.crc (s.senseSpan op.next n)
  let s1 := s.spendFree n
  if op.next + n < op.addr + op.len then
    s1.keepEngine (.checking { op with next := op.next + n, crc := crc })
  else (s1.finishRunning op.slot .ok (op.condition :: octets16 crc)).engineFreed

/-- CHECK_REGION_STEP (R124). -/
def execCheckRegionStep (s : State) : Result :=
  match s.ae.engine with
  | .checking op =>
    if spanInArray op.addr op.len then .next (s.checkLine op)
    else .fault (.outsideArray (op.addr + op.len - 1))
  | _ => .next s

/-! ### The protect store (sections 8.3, 8.4) -/

/-- One step of a PROTECT_GROUP (R170). -/
def State.protectStep (s : State) (slot group : Nat) (bitRead : Bool) (pulses : Nat) (verified : Bool) :
    State :=
  if !bitRead then
    if s.pu.protectBits.getLsbD group then (s.finishRunning slot .ok []).engineFreed
    else s.keepEngine (.storing (.protect slot group true 0))
  else
    let bit : Word16 := 1 <<< group
    let s1 := { s with pu := { s.pu with writeCells := s.pu.writeCells ||| bit } }
    if verified then
      State.engineFreed
        (State.finishRunning
          { s1 with pu := { s1.pu with protectBits := s1.pu.protectBits ||| bit } } slot .ok [])
    else if pulses + 1 < pulseLimit then
      s1.keepEngine (.storing (.protect slot group true (pulses + 1)))
    else (s1.finishRunning slot .storeFault []).engineFreed

/-- PROTECT_GROUP_STEP (R170); `verified` says whether the write cell verifies after this pulse. -/
def execProtectGroupStep (verified : Bool) (s : State) : Result :=
  match s.ae.engine with
  | .storing (.protect slot group bitRead pulses) =>
    .next (s.protectStep slot group bitRead pulses verified)
  | _ => .next s

/-- The erase pulse limit of the two stores (R172, R205). -/
def storeEraseLimit : Nat := 100

/-- One step of an UNPROTECT_ALL (R172). -/
def State.unprotectStep (s : State) (slot : Nat) (opened : Bool) (pulses : Nat) (bits cells : Word16) :
    State :=
  if !opened then
    State.keepEngine { s with pu := { s.pu with marker := true } } (.storing (.unprotect slot true 0))
  else
    let s1 := { s with pu := { s.pu with protectBits := bits, writeCells := cells } }
    if bits = 0 ∧ cells = 0 then
      (State.finishRunning { s1 with pu := { s1.pu with marker := false } } slot .ok []).engineFreed
    else if pulses + 1 < storeEraseLimit then
      s1.keepEngine (.storing (.unprotect slot true (pulses + 1)))
    else (s1.finishRunning slot .storeFault []).engineFreed

/-- UNPROTECT_ALL_STEP (R172); `bits` and `cells` are what the store reads after the erase pulse. -/
def execUnprotectAllStep (bits cells : Word16) (s : State) : Result :=
  match s.ae.engine with
  | .storing (.unprotect slot opened pulses) => .next (s.unprotectStep slot opened pulses bits cells)
  | _ => .next s

/-! ### The configuration store (section 10.5) -/

/-- A running CONFIG_STORE goes on in a stage. -/
def State.configStage (s : State) (slot : Nat) (record : Settings) (target : CopyId) (generation : Byte)
    (stage : CopyStage) : State :=
  s.keepEngine (.storing (.config slot record target generation stage))

/-- Writes a stored copy. -/
def State.setCopy (s : State) (id : CopyId) (c : StoredCopy) : State :=
  { s with cs := s.cs.setCopy id c }

/-- One octet of the target copy is programmed (stage 3 of R205, as R120): the octets left and whether it
verified. -/
def programCopyOctet (octets : List Byte) (index pulseCount : Nat) (want : Byte) (pulses : List Byte) :
    List Byte × Bool :=
  let old := octets.getD index 0xFF
  let target := old &&& want
  if target = old then (octets, true)
  else
    let r := pulseOctet target (pulseLimit - pulseCount) pulses old
    (octets.set index r.1, r.2)

/-- One step of a CONFIG_STORE (R205). -/
def State.configStep (s : State) (slot : Nat) (record : Settings) (target : CopyId) (generation : Byte)
    (stage : CopyStage) (erased : Bool) (pulses : List Byte) : State :=
  let c := s.cs.copy target
  match stage with
  | .clearMark =>
    (s.setCopy target { c with committed := false }).configStage slot record target generation (.eraseCopy 0)
  | .eraseCopy n =>
    if erased then
      (s.setCopy target { c with octets := List.replicate 15 0xFF }).configStage slot record target
        generation (.programOctet 0 0)
    else if n + 1 < storeEraseLimit then s.configStage slot record target generation (.eraseCopy (n + 1))
    else (s.finishRunning slot .storeFault []).engineFreed
  | .programOctet index pulseCount =>
    let r := programCopyOctet c.octets index pulseCount ((copyImage record generation).getD index 0xFF) pulses
    let s1 := s.setCopy target { c with octets := r.1 }
    if !r.2 then (s1.finishRunning slot .storeFault []).engineFreed
    else if index + 1 < 15 then s1.configStage slot record target generation (.programOctet (index + 1) 0)
    else s1.configStage slot record target generation .commit
  | .commit =>
    ((s.setCopy target { c with committed := true }).finishRunning slot .ok []).engineFreed

/-- CONFIG_STORE_STEP (R205); `erased` says whether the copy reads erased after an erase pulse, `pulses` names
the bits each program pulse clears. -/
def execConfigStoreStep (erased : Bool) (pulses : List Byte) (s : State) : Result :=
  match s.ae.engine with
  | .storing (.config slot record target generation stage) =>
    .next (s.configStep slot record target generation stage erased pulses)
  | _ => .next s

/-! ### A sector's erase (section 7.5) -/

/-- The last program line of a sector (R144). -/
def lastLine : Nat := 31

/-- The erase pulse limit of a sector (R144). -/
def sectorPulseLimit : Nat := 2000

/-- The work of the sector goes on, or is suspended in a Yielded or Parked batch (R151, R154). -/
def State.sectorGoesOn (s : State) (op : EraseOp) : State :=
  if s.bc.state = .yielded ∨ s.bc.state = .parked then s.suspendSector op
  else s.keepEngine (.erasingSector op)

/-- One step of a sector's work (R144). -/
def State.sectorStep (s : State) (op : EraseOp) (allErased : Bool) : State :=
  match op.phase with
  | .preProgram =>
    if op.line < lastLine then s.sectorGoesOn { op with line := op.line + 1 }
    else s.sectorGoesOn { op with phase := .erase, line := 0 }
  | .erase =>
    if allErased then (s.closeSector op.sector .erased).afterSector
    else if op.pulses + 1 < sectorPulseLimit then s.sectorGoesOn { op with pulses := op.pulses + 1 }
    else (s.closeSector op.sector .failed).afterSector

/-- SECTOR_ERASE_STEP (R144, R145); `allErased` says whether every octet reads FFh after an erase pulse. -/
def execSectorEraseStep (allErased : Bool) (s : State) : Result :=
  match s.ae.engine with
  | .erasingSector op => .next (s.sectorStep op allErased)
  | _ => .next s

end Sys2Proof.Machine
end

