-- ==== Sys2Proof/Machine/EraseRequests.lean ====
section
/-!
DEFINITION. ERASE_SECTORS, ERASE_ALL, PARK_ERASE, UNPARK_ERASE (chapter 7) and CANCEL (sections 5.6 and 7.9).
-/

namespace Sys2Proof.Machine

/-- ERASE_SECTORS (R134). -/
def execEraseSectors (h : ParcelHead) (sectors : List Byte) (s : State) : Result :=
  requestStep h (.eraseSectors sectors) (eraseSectorsCheck sectors) enqueue s

/-- ERASE_ALL (R135). -/
def execEraseAll (h : ParcelHead) (s : State) : Result :=
  requestStep h .eraseAll none enqueue s

/-- PARK_ERASE's execution (R154). -/
def parkService : Service := fun i s =>
  if s.bc.state = .none then s.answer i .noBatch []
  else (s.parkBatch.answer i .ok []).examineIfMoved s

/-- PARK_ERASE (R154). -/
def execParkErase (h : ParcelHead) (s : State) : Result :=
  requestStep h .parkErase none parkService s

/-- UNPARK_ERASE's execution (R156). -/
def unparkService : Service := fun i s =>
  if s.bc.state = .none then s.answer i .noBatch []
  else (s.unparkBatch.answer i .ok []).examineIfMoved s

/-- UNPARK_ERASE (R156). -/
def execUnparkErase (h : ParcelHead) (s : State) : Result :=
  requestStep h .unparkErase none unparkService s

/-- A slot answered DUPLICATE_TAG (R103). -/
def Slot.duplicateAnswer (x : Slot) : Bool :=
  x.state == .answered && x.response.getD 1 0 == Status.duplicateTag.code

/-- The target of a CANCEL (R103): a slot that is not Free and holds the tag, one answered DUPLICATE_TAG only
when no other does. -/
def State.cancelTarget (s : State) (tag : Byte) : Option Nat :=
  let holds (i : Nat) : Bool := (s.slot i).state != .free && (s.slot i).tag == tag
  let places := List.range s.rd.slots.length
  (places.find? (fun i => holds i && !(s.slot i).duplicateAnswer)).orElse
    (fun _ => places.find? holds)

/-- CANCEL finds a Queued target (R105): the target is answered first, then the CANCEL; a new head is
examined. -/
def State.cancelQueued (s : State) (i j : Nat) : State :=
  let s1 := ((s.unqueue j).answer j .cancelled []).answer i .ok [1]
  if s.head = some j then s1.examine else s1

/-- CANCEL finds a Batched target (R161 to R163). -/
def State.cancelBatched (s : State) (i j : Nat) : State :=
  match s.bc.members.find? (fun m => m.slot == j) with
  | some m => ((s.cancelMember m).answer i .ok [3]).examineIfMoved s
  | none => s.answer i .ok [3]

/-- CANCEL's execution (R104). -/
def cancelService (target : Byte) : Service := fun i s =>
  match s.cancelTarget target with
  | none => s.answer i .notFound [0]
  | some j =>
    match (s.slot j).state with
    | .free => s.answer i .notFound [0]
    | .queued => s.cancelQueued i j
    | .running => s.answer i .notCancellable [2]
    | .batched => s.cancelBatched i j
    | .answered => s.answer i .notCancellable [4]

/-- CANCEL (R103, R104). -/
def execCancel (h : ParcelHead) (target : Byte) (s : State) : Result :=
  requestStep h (.cancel target) none (cancelService target) s

end Sys2Proof.Machine
end

