-- ==== Sys2Proof/Machine/EventRequests.lean ====
section
/-!
DEFINITION. ATTN_CONTROL and LOG_TAKE (chapter 9).
-/

namespace Sys2Proof.Machine

/-- Stages 2 and 3 of ATTN_CONTROL (R192). NOTICE_WAITING is not in the latched set, so a clear does not reach
it. -/
def State.attnUpdate (s : State) (clearMask writeEnable enableMask : Byte) : State :=
  { s with eu := { s.eu with
      latched := s.eu.latched &&& ~~~clearMask
      enable := if writeEnable = 1 then enableMask else s.eu.enable } }

/-- ATTN_CONTROL's execution (R192): it reports the sets as they stood before. -/
def attnService (clearMask writeEnable enableMask : Byte) : Service := fun i s =>
  (s.attnUpdate clearMask writeEnable enableMask).answer i .ok [s.rawSet, s.eu.enable, s.pendingSet]

/-- ATTN_CONTROL (R192). -/
def execAttnControl (h : ParcelHead) (clearMask writeEnable enableMask : Byte) (s : State) : Result :=
  requestStep h (.attnControl clearMask writeEnable enableMask) (attnControlCheck writeEnable)
    (attnService clearMask writeEnable enableMask) s

/-- The oldest records leave the log (R188). -/
def State.takeRecords (s : State) (n : Nat) : State := { s with eu := { s.eu with log := s.eu.log.drop n } }

/-- LOG_TAKE's execution (R188); lost events are reported at its end (R185). -/
def logTakeService (maximum : Byte) : Service := fun i s =>
  if s.su.noticesWanted then s.answer i .noticesActive []
  else
    let taken := s.eu.log.take maximum.toNat
    State.endStep
      ((s.takeRecords maximum.toNat).answer i .ok (octet taken.length :: taken.flatMap LogRecord.octets))
      (taken != [])

/-- LOG_TAKE (R188). -/
def execLogTake (h : ParcelHead) (maximum : Byte) (s : State) : Result :=
  requestStep h (.logTake maximum) (logTakeCheck maximum) (logTakeService maximum) s

end Sys2Proof.Machine
end

