-- ==== Sys2Proof/Machine/ParcelSteps.lean ====
section
/-!
DEFINITION. The valid parcels that carry no request of the table: HAIL, ACK, REJ, and a REQ whose payload has
no entry there (chapter 4, R84).
-/

namespace Sys2Proof.Machine

/-- HAIL (R53 to R55). Its Ns and Nr are ignored. -/
def execHail (h : ParcelHead) (payload : List Byte) (s : State) : Result :=
  .next (s.onParcel (fun s1 => s1.receiveHail h.tag payload))

/-- ACK_RECEIVED (R67). -/
def execAckReceived (h : ParcelHead) (payload : List Byte) (s : State) : Result :=
  .next (s.onParcel (fun s1 => s1.receiveAck h.nr payload))

/-- REJ_RECEIVED (R68). Its payload is ignored. -/
def execRejReceived (h : ParcelHead) (_payload : List Byte) (s : State) : Result :=
  .next (s.onParcel (fun s1 => s1.receiveRej h.nr))

/-- The execution of a request with no entry in the request code table (R84). -/
def unknownService : Service := respond .badRequest (fun _ => [])

/-- UNKNOWN_REQUEST (R84): the form check answers it; a payload of the table's form is answered alike. -/
def execUnknownRequest (h : ParcelHead) (payload : List Byte) (s : State) : Result :=
  requestStep h (.unknown payload) none unknownService s

end Sys2Proof.Machine
end

