-- ==== Sys2Proof/Machine/ProtectRequests.lean ====
section
/-!
DEFINITION. PROTECT_GROUP, UNPROTECT_ALL and LOCK_GROUPS as requests (chapter 8).
-/

namespace Sys2Proof.Machine

/-- PROTECT_GROUP (R169). -/
def execProtectGroup (h : ParcelHead) (group : Byte) (s : State) : Result :=
  requestStep h (.protectGroup group) (protectGroupCheck group) enqueue s

/-- UNPROTECT_ALL (R171). -/
def execUnprotectAll (h : ParcelHead) (s : State) : Result :=
  requestStep h .unprotectAll none enqueue s

/-- Groups are locked (R174). -/
def State.lockGroups (s : State) (mask : Word16) : State :=
  { s with pu := { s.pu with lockMask := s.pu.lockMask ||| mask } }

/-- LOCK_GROUPS's execution (R174). -/
def lockService (mask : Word16) : Service := fun i s =>
  (s.lockGroups mask).answer i .ok (octets16 (s.pu.lockMask ||| mask))

/-- LOCK_GROUPS (R174). -/
def execLockGroups (h : ParcelHead) (mask : Word16) (s : State) : Result :=
  requestStep h (.lockGroups mask) none (lockService mask) s

end Sys2Proof.Machine
end

