-- ==== Sys2Proof/Machine/Receiver.lean ====
section
/-!
DEFINITION. From RXD to the Session Unit (sections 2.2 and 3.4): the edges of the line and the samples of a character,
the character events, the end of an assembly, and the parcel that is handed over.
-/

namespace Sys2Proof.Machine

/-! ### The hand-over of a parcel (R48) -/

/-- What is done with a request that has passed its form and static checks (R93, R94). -/
def Request.service : Request → Service
  | .unknown _ => unknownService
  | .read _ _ => enqueue
  | .program _ _ _ => enqueue
  | .checkRegion _ _ => enqueue
  | .eraseSectors _ => enqueue
  | .eraseAll => enqueue
  | .parkErase => parkService
  | .unparkErase => unparkService
  | .cancel target => cancelService target
  | .sectorInfo sector => sectorInfoService sector
  | .protectGroup _ => enqueue
  | .unprotectAll => enqueue
  | .lockGroups mask => lockService mask
  | .configGet => configGetService
  | .configSet pairs => configSetService pairs
  | .configStore _ => enqueue
  | .status flags => statusService flags
  | .identify => identifyService
  | .attnControl c w e => attnService c w e
  | .logTake maximum => logTakeService maximum
  | .ping data => pingService data

/-- The Ns, Nr and tag of an assembly (R48): octet 1 holds Ns in its high half and Nr in its low half. -/
def parcelHead (assembly : List Byte) : ParcelHead where
  ns := (assembly.getD 1 0).extractLsb' 4 4
  nr := (assembly.getD 1 0).extractLsb' 0 4
  tag := assembly.getD 2 0

/-- The payload of an assembly: the L octets after the header (R48). -/
def parcelPayload (assembly : List Byte) : List Byte := (assembly.drop 4).take (assembly.getD 3 0).toNat

/-- A valid assembly is handed over as its class, Ns, Nr, tag and payload (R48), a REQ as the request its payload
carries (R83). -/
def State.receiveParcel (s : State) (assembly : List Byte) : State :=
  let h := parcelHead assembly
  let payload := parcelPayload assembly
  let cls := assembly.headD 0
  if cls = hailClass then s.receiveHail h.tag payload
  else if cls = ackClass then s.receiveAck h.nr payload
  else if cls = rejClass then s.receiveRej h.nr
  else
    let r := Request.ofPayload payload
    s.receiveRequest h r (staticCheck r) r.service

/-- A closing Fence has ended an assembly: the failing check is counted (R43), or the parcel is handed over
(R48). -/
def State.endAssembly (s : State) (assembly : List Byte) : State :=
  match parcelFault assembly with
  | some f => { s with pf := { s.pf with counters := s.pf.counters.countFault f } }
  | none => s.receiveParcel assembly

/-! ### Character events (R26) -/

/-- One octet event through the framer (R26, R34). -/
def State.octetEvent (s : State) (b : Byte) : State :=
  let r := s.pf.octetEvent b
  let s1 := { s with pf := r.1 }
  match r.2 with
  | .nothing => s1
  | .hold => s1.holdSignal
  | .go => s1.goSignal
  | .ended assembly => s1.endAssembly assembly

/-- Octet events in order. -/
def State.octetEvents (s : State) (os : List Byte) : State := os.foldl State.octetEvent s

/-- Characters of the line, each an octet event where the receiver takes characters (R26). -/
def State.characters (s : State) (os : List Byte) : State :=
  if s.listening then s.characterEnd.octetEvents os else s.unheard true .stopped

/-- A framing-error event reaches the framer (R41). -/
def State.framingEvent (s : State) : State := { s with pf := s.pf.framingError }

/-! ### The edges of RXD -/

/-- RXD falls: a start bit in Idle (R21); in Settling the settle count goes back to zero (R23); the break timer and the
Doze idle timer start afresh (R24, R26); in Doze the device wakes (R12). In-break takes no falling edge (R22). -/
def State.fallingEdge (s : State) : State :=
  match s.sr.top, s.cl.receiver with
  | .doze, _ => s.wake false
  | .active, .inBreak => { s with sr := { s.sr with idleTimer := 0 } }
  | .active, r =>
    { s with
      sr := { s.sr with idleTimer := 0 }
      cl := { s.cl with
        receiver := if r = .idle then .inCharacter [] (s.bitTime / 2) else r
        settleCount := 0
        breakTimer := .running breakTicks } }
  | _, _ => s

/-- RXD rises: the break timer stops (R24), In-break ends (R22), and the settle count starts (R23). -/
def State.risingEdge (s : State) : State :=
  match s.sr.top with
  | .active =>
    { s with cl := { s.cl with
        receiver := if s.cl.receiver = .inBreak then .idle else s.cl.receiver
        settleCount := 0
        breakTimer := .stopped } }
  | _ => s

/-- RXD takes a level; only a change is an edge. -/
def State.setRxd (s : State) (high : Bool) : State :=
  if s.pins.rxd = high then s
  else
    let s1 := { s with pins := { s.pins with rxd := high } }
    if high then s1.risingEdge else s1.fallingEdge

/-! ### The samples of a character (R21, R22) -/

/-- The number of samples of a character before its stop bit. -/
def bitsBeforeStop : Nat := 9

/-- The receiver takes another state. -/
def State.setReceiver (s : State) (r : Receiver) : State := { s with cl := { s.cl with receiver := r } }

/-- RXD is sampled in the middle of a bit (R21): a high start bit is noise; the data bits are collected; a high stop
bit ends the character with its octet, a low one with a framing error, In-break (R22). -/
def State.sampleBit (s : State) (samples : List Bool) : State :=
  if samples = [] ∧ s.pins.rxd then s.setReceiver .idle
  else if samples.length < bitsBeforeStop then
    s.setReceiver (.inCharacter (samples ++ [s.pins.rxd]) s.bitTime)
  else if s.pins.rxd then (s.setReceiver .idle).octetEvent (bitsOctet samples.tail)
  else (s.setReceiver .inBreak).framingEvent

/-! ### Settling (R23) -/

/-- RXD has been high for one character time in Settling (R23). -/
def State.settled (s : State) : Bool :=
  s.sr.top == .active && s.cl.receiver == .settling && s.pins.rxd &&
    decide (s.characterTime ≤ s.cl.settleCount)

/-- The receiver enters Idle, first delivering the framing error of a lost character (R23, R32). -/
def State.settle (s : State) : State :=
  let s1 := if s.cl.lostCharacter then s.framingEvent else s
  { s1 with cl := { s1.cl with
      receiver := .idle, lostCharacter := false, settleCount := 0, breakTimer := .stopped } }

/-! ### Breaks (R24, R25) -/

/-- The ticks in the last so many units of time. -/
def State.ticksWithin (s : State) (units : Nat) : Nat :=
  (units - s.sr.phase + (unitsPerTick - 1)) / unitsPerTick

/-- How many bits before the stop bit have been low without a break, in a character whose bits are not given: a free
value (assumption 30). -/
def State.freeLowBits (s : State) : Nat := (Config.freeByte s.freeCount).toNat % 10

/-- The break timer in the middle of the low stop bit of a whole character: it has run since the falling edge before
the low bits that end the character (R24). Where RXD is low already, the edge was seen and the timer runs. -/
def State.breakSince (s : State) : Timer :=
  if s.pins.rxd then .running (breakTicks - s.ticksWithin ((2 * s.freeLowBits + 1) * (s.bitTime / 2)))
  else s.cl.breakTimer

/-- The Link Break Reset (R25, R42), in its four steps. -/
def State.linkBreakReset (s : State) : State :=
  let s1 := { s with
    pins := { s.pins with rxd := false }
    cl := { s.cl with receiver := .settling, settleCount := 0, breakTimer := .stopped } }
  let s2 := { s1 with pf := s1.pf.hunt }
  s2.clearHeld.teardown .break_

end Sys2Proof.Machine
end

