-- ==== Sys2Proof/Machine/LinkSteps.lean ====
section
/-!
DEFINITION. The commands of Doze, of the receiver, of the framer and of the transmitter (section 1.5, chapters
2 and 3).
-/

namespace Sys2Proof.Machine

/-! ### Doze (section 1.5) -/

/-- Nothing is pending for the transmitter (R10). -/
def State.nothingToSend (s : State) : Bool :=
  s.su.replies == [] && !s.su.rejPending && !s.su.ackOwed && !s.su.busyNotePending && s.su.pass == [] &&
    s.rd.slots.all (fun x => x.state != .answered)

/-- A notice is due (R10). -/
def State.noticeDue (s : State) : Bool :=
  s.isAttached && s.su.noticesWanted && s.hasUndelivered

/-- Every Doze condition of R10 but the maturity of the idle timer. -/
def State.dozeQuiet (s : State) : Bool :=
  s.sr.top == .active &&
    s.cs.active.dozeEnable == 1 &&
    s.engineIdle &&
    (s.bc.state == .none || s.bc.state == .parked) &&
    s.rd.slots.all (fun x => x.state == .free) &&
    s.su.window == [] &&
    s.nothingToSend &&
    !s.noticeDue &&
    s.cl.tx == .free &&
    !s.cl.held &&
    s.cl.receiver == .idle

/-- Every Doze condition of R10 holds. -/
def State.mayDoze (s : State) : Bool := s.dozeQuiet && decide (idleTicks ≤ s.sr.idleTimer)

/-- The device enters Running-Doze (R10, R32). -/
def State.enterDoze (s : State) : State :=
  { s with
    sr := { s.sr with top := .doze }
    cl := { s.cl with receiver := .dormant, breakTimer := .stopped, lostCharacter := false } }

/-- DOZE_ENTRY (R10): the idle timer is mature and every other condition holds. -/
def execDozeEntry (s : State) : Result :=
  if s.mayDoze then .next s.enterDoze else .next s

/-- DOZE_WAKE (R12, R32): the falling edge wakes the device; its character is lost. -/
def execDozeWake (s : State) : Result :=
  .next (s.wake false)

/-! ### The receiver (section 2.2) -/

/-- SETTLE_COMPLETE (R23, R32). -/
def execSettleComplete (s : State) : Result :=
  if s.settled then .next s.settle else .next s

/-- FRAMING_ERROR (R22, R41): a character has ended with a low stop bit; the receiver enters In-break while RXD is
still low, else Idle. One that no receiver takes gives no event (R23). -/
def execFramingError (stillLow : Bool) (s : State) : Result :=
  let breakTimer := if stillLow then s.breakSince else .stopped
  let s0 := s.spendFree (if stillLow then 1 else 0)
  if s.listening then
    let s1 := s0.characterEnd.framingEvent
    .next { s1 with
      pins := { s1.pins with rxd := !stillLow }
      cl := { s1.cl with
        receiver := if stillLow then .inBreak else .idle
        breakTimer := breakTimer } }
  else .next (s0.unheard (!stillLow) breakTimer)

/-- SHORT_BREAK (R22): the first rising edge in In-break. -/
def execShortBreak (s : State) : Result :=
  if s.sr.top = .active ∧ s.cl.receiver = .inBreak then
    .next { s with
      pins := { s.pins with rxd := true }
      cl := { s.cl with receiver := .idle, breakTimer := .stopped } }
  else .next s

/-- RXD has been low for 20 ticks since it fell (R24). -/
def State.longBreakDue (s : State) : Bool := s.sr.top == .active && s.cl.breakTimer.isDue

/-- LONG_BREAK (R24, R25): the 20th tick of a low RXD. -/
def execLongBreak (s : State) : Result :=
  if s.longBreakDue then .next s.linkBreakReset else .next s

/-! ### Framer commands (chapter 3) -/

/-- HOLD (R27, R34). -/
def execHold (s : State) : Result := .next (s.characters [holdOctet])

/-- GO (R28, R34). -/
def execGo (s : State) : Result := .next (s.characters [goOctet])

/-- OPENING_FENCE (R35). -/
def execOpeningFence (s : State) : Result := .next (s.characters [fenceOctet])

/-- ABORT (R38): the octets collected, then Shield and Fence. -/
def execAbort (octets : List Byte) (s : State) : Result :=
  .next (s.characters (escapeOctets octets ++ [shieldOctet, fenceOctet]))

/-- ESCAPE_VIOLATION (R39): the octets collected, then Shield and its bad follower. -/
def execEscapeViolation (octets : List Byte) (follower : Byte) (s : State) : Result :=
  .next (s.characters (escapeOctets octets ++ [shieldOctet, follower]))

/-- OVERLONG (R40): the octets of an assembly that grows past 78. -/
def execOverlong (octets : List Byte) (s : State) : Result :=
  .next (s.characters (escapeOctets octets))

/-- PARCEL_DISCARDED (R43): the octets of an assembly that fails a check, then the closing Fence. -/
def execParcelDiscarded (octets : List Byte) (s : State) : Result :=
  .next (s.characters (escapeOctets octets ++ [fenceOctet]))

/-! ### The transmitter (section 2.4) -/

/-- The stop bit of the last octet has been sent, or there is none (R31). -/
def Transmitter.finished : Transmitter → Bool
  | .free => true
  | .sending octets left => decide (octets.length ≤ 1) && left == 0
  | .paused _ => false

/-- The transmitter holds no parcel (R31). -/
def State.freeTransmitter (s : State) : State := { s with cl := { s.cl with tx := .free } }

/-- The order-8 occurrence (R31, R73, R75): the transmitter becomes Free; then the next item is selected, if Held is
clear and one is available. -/
def State.transmitterFree (s : State) : State := s.freeTransmitter.select.getD s.freeTransmitter

/-- TRANSMITTER_FREE (R31, R73, R75): the last stop bit of a parcel has been sent. -/
def execTransmitterFree (s : State) : Result :=
  if s.sr.top = .active ∧ s.cl.tx.finished then .next s.transmitterFree else .next s

/-- An octet has been sent and more are left: the next one begins, or, Held, the transmitter pauses (R30). -/
def State.nextOctet (s : State) (rest : List Byte) : State :=
  { s with cl := { s.cl with tx := if s.cl.held then .paused rest else .sending rest s.characterTime } }

end Sys2Proof.Machine
end

