-- ==== Sys2Proof/Machine/TimerSteps.lean ====
section
/-!
DEFINITION. The timer expiries and the MAINT change (orders 6 and 7 of R14), what the input pins do, and the device's own
step: the occurrence that is due, a tick, a Doze entry whose conditions hold, a selection, or the passing of time to
the next instant at which something can happen (assumption 2).
-/

namespace Sys2Proof.Machine

/-! ### Timer expiries. One that is not due, because an earlier occurrence of its instant restarted, stopped or froze
the timer, does not occur (R14, R15). -/

/-- The hold timer expires (R29). -/
def State.holdExpiry (s : State) : State :=
  if s.isAttached then s.teardown .holdExpired else s.clearHeld

/-- HOLD_LIMIT_EXPIRY (R29). -/
def execHoldLimitExpiry (s : State) : Result :=
  if s.cl.holdTimer.isDue then .next s.holdExpiry else .next s

/-- The keepalive timer expires (R13, R76). -/
def State.keepaliveExpiry (s : State) (rxd : Bool) : State :=
  let s1 := s.wake rxd
  State.teardown { s1 with su := { s1.su with keepalive := .stopped } } .keepalive

/-- KEEPALIVE_EXPIRY (R76). -/
def execKeepaliveExpiry (rxd : Bool) (s : State) : Result :=
  if s.su.keepalive.isDue then .next (s.keepaliveExpiry rxd) else .next s

/-- The retransmit timer is due, and not frozen by Held (R70). -/
def State.retransmitDue (s : State) : Bool := s.su.retransmit.isDue && !s.cl.held

/-- The retransmit timer expires (R71). -/
def State.retransmitExpiry (s : State) : State :=
  State.retryOnce { s with su := { s.su with retransmit := .stopped } }

/-- RETRANSMIT_EXPIRY (R71). -/
def execRetransmitExpiry (s : State) : Result :=
  if s.retransmitDue then .next s.retransmitExpiry else .next s

/-- The gather timer expires (R141, R142). -/
def State.gatherExpiry (s : State) : State :=
  if s.bc.state = .gathering then s.enterErasing.examine
  else { s with bc := { s.bc with gather := .stopped } }

/-- GATHER_EXPIRY (R141). -/
def execGatherExpiry (s : State) : Result :=
  if s.bc.gather.isDue then .next s.gatherExpiry else .next s

/-- The spacing timer is due (R150). -/
def State.spacingDue (s : State) : Bool := s.bc.spacing == .running 0

/-- The spacing timer matures (R150). -/
def State.spacingExpiry (s : State) : State :=
  let s1 := { s with bc := { s.bc with spacing := .mature } }
  if s.bc.state = .erasing then s1.examine else s1

/-- SPACING_EXPIRY (R150). -/
def execSpacingExpiry (s : State) : Result :=
  if s.spacingDue then .next s.spacingExpiry else .next s

/-- The debounced MAINT level changes (R176, R177). -/
def State.maintChange (s : State) (rxd : Bool) : State :=
  if s.isRunning then
    let s1 := s.wake rxd
    let level := !s1.pu.maintLevel
    let s2 := { s1 with pu := { s1.pu with maintLevel := level, candidate := 0 } }
    (s2.offer (if level then .maintAsserted else .maintReleased)).raise .maintChange
  else s

/-- DEBOUNCED_MAINT_CHANGE (R177): the pin has held the new level for ten ticks. -/
def execDebouncedMaintChange (rxd : Bool) (s : State) : Result :=
  .next (if s.isRunning then
      State.maintChange { s with pins := { s.pins with maint := !s.pu.maintLevel } } rxd
    else s)

/-! ### The input pins -/

/-- An input pin changes. A reset by RSTn or VDD is taken at once (R2); RXD is watched at every edge; MAINT and VDD are
sampled at the ticks (R7, R176). -/
def State.pinEvent (s : State) : PinEvent → State
  | .rxd high => s.setRxd high
  | .rstn true => if s.sr.top = .resetHeld then s.resetReleased else { s with pins := { s.pins with rstn := true } }
  | .rstn false => State.resetAsserted { s with pins := { s.pins with rstn := false } }
  | .maint high => { s with pins := { s.pins with maint := high } }
  | .vdd .off => s.powerDown
  | .vdd band => State.powerUp { s with pins := { s.pins with vdd := band } }

/-- The pin change that is due (assumption 14). -/
def State.nextInput (s : State) : Option PinChange :=
  match s.inputs with
  | c :: _ => if c.after = 0 then some c else none
  | [] => none

/-- A change of RSTn or VDD: what can reset the device at once (R2). -/
def PinEvent.isReset : PinEvent → Bool
  | .rstn _ | .vdd _ => true
  | .rxd _ | .maint _ => false

/-- The first change of RSTn or VDD among the pin changes of the present instant, wherever it stands among them
(order 1 of R14). -/
def State.nextReset (s : State) : Option PinChange :=
  (s.inputs.takeWhile (fun c => c.after == 0)).find? (fun c => c.event.isReset)

/-- The pin change that is due has happened. -/
def State.takeInput (s : State) (c : PinChange) : State :=
  State.pinEvent { s with inputs := s.inputs.erase c } c.event

/-! ### The tick -/

/-- The spacing timer counts a tick (R150). -/
def Spacing.count : Spacing → Spacing
  | .running (n + 1) => .running n
  | t => t

/-- The candidate count after a sample of MAINT (R176). -/
def State.sampledCandidate (s : State) : Nat :=
  if s.pins.maint = s.pu.maintLevel then 0 else min debounceSamples (s.pu.candidate + 1)

/-- The clocks of a Running state advance by one tick (R4, R10, R11, R24, R27, R70, R76, R142, R150, R176). -/
def State.advanceClocks (s : State) : State :=
  { s with
    sr := { s.sr with
      tick := s.sr.tick + 1
      idleTimer := min idleTicks (s.sr.idleTimer + 1) }
    cl := { s.cl with breakTimer := s.cl.breakTimer.count, holdTimer := s.cl.holdTimer.count }
    su := { s.su with
      keepalive := s.su.keepalive.count
      retransmit := if s.cl.held then s.su.retransmit else s.su.retransmit.count }
    bc := { s.bc with gather := s.bc.gather.count, spacing := s.bc.spacing.count }
    pu := { s.pu with candidate := s.sampledCandidate } }

/-- The Doze test of a tick (R10). -/
def State.dozeTest (s : State) : State := if s.mayDoze then s.enterDoze else s

/-- Orders 1 and 2 of R14: VDD is compared with its thresholds; below 1.9 V the device is Off (R2, R7). -/
def State.dueSupply (s : State) : State :=
  match s.pins.vdd, s.sr.monitor with
  | .off, _ => s.powerDown
  | .low, .normal => s.supplyLowEntry s.pins.rxd
  | .good, .inhibit => s.supplyLowExit s.pins.rxd
  | _, _ => s

/-- The time since the last tick has reached a tick: the tick is at this instant (assumption 6). -/
def State.tickDue (s : State) : Bool := decide (unitsPerTick ≤ s.sr.phase)

/-- One tick: the clocks advance, the Doze conditions are tested, and the supply is sampled (R7, R10). What falls due by
it waits for its turn (R14). In Off and Reset-Held nothing counts. -/
def State.tickOnce (s : State) : State :=
  let s1 := { s with sr := { s.sr with phase := 0 } }
  match s.sr.top with
  | .off | .resetHeld => s1
  | .initialising => { s1 with sr := { s1.sr with tick := s1.sr.tick + 1 } }
  | .active | .doze => s1.advanceClocks.dozeTest.dueSupply

/-! ### The passing of time -/

/-- The units until the receiver does something of itself: a sample, or the end of Settling (R21, R23). -/
def State.receiverGap (s : State) : Option Nat :=
  match s.sr.top, s.cl.receiver with
  | .active, .inCharacter _ left => some left
  | .active, .settling => if s.pins.rxd then some (s.characterTime - s.cl.settleCount) else none
  | _, _ => none

/-- The units until the octet on TXD has been sent (R30). -/
def State.transmitterGap (s : State) : Option Nat :=
  match s.sr.top, s.cl.tx with
  | .active, .sending _ left => some left
  | _, _ => none

/-- The units until the next tick. -/
def State.tickGap (s : State) : Nat := unitsPerTick - s.sr.phase

/-- The units until the next instant at which something can happen: a tick, a pin change, a sample, the end of
Settling, the end of an octet on TXD. -/
def State.gap (s : State) : Nat :=
  [s.inputs.head?.map PinChange.after, s.receiverGap, s.transmitterGap].reduceOption.foldl min s.tickGap

/-- The receiver after some units in which it does nothing. -/
def State.receiverAfter (s : State) (units : Nat) : Receiver :=
  match s.cl.receiver with
  | .inCharacter samples left => .inCharacter samples (left - units)
  | r => r

/-- The settle count after some units: it counts while RXD is high in Settling (R23). -/
def State.settleAfter (s : State) (units : Nat) : Nat :=
  if s.cl.receiver = .settling ∧ s.sr.top = .active ∧ s.pins.rxd then s.cl.settleCount + units
  else s.cl.settleCount

/-- The transmitter after some units of an octet. -/
def Transmitter.elapsed (units : Nat) : Transmitter → Transmitter
  | .sending octets left => .sending octets (left - units)
  | .free => .free
  | .paused octets => .paused octets

/-- What the pins will do, seen some units later. -/
def inputsAfter (units : Nat) : List PinChange → List PinChange
  | [] => []
  | c :: rest => { c with after := c.after - units } :: rest

/-- Some units of time pass, within which nothing happens. -/
def State.elapse (s : State) (units : Nat) : State :=
  { s with
    sr := { s.sr with phase := s.sr.phase + units }
    cl := { s.cl with
      receiver := s.receiverAfter units
      settleCount := s.settleAfter units
      tx := s.cl.tx.elapsed units }
    inputs := inputsAfter units s.inputs }

/-- Time passes to the next instant, which may be that of a tick. -/
def State.passTime (s : State) : State := s.elapse s.gap

/-! ### What is due -/

/-- An occurrence that is due at the present instant. -/
inductive Due where
  | input (c : PinChange)
  | tick
  | doze
  | longBreak
  | sample (samples : List Bool)
  | settled
  | holdLimit
  | keepalive
  | retransmit
  | gather
  | spacing
  | maint
  | octetSent (rest : List Byte)
  | transmitterFree
  deriving DecidableEq, Repr

/-- A change of RSTn or VDD that is due (order 1 of R14). -/
def State.dueReset (s : State) : Option Due := s.nextReset.map .input

/-- The tick that is due, whose supply crossing is of order 2 of R14; then the Doze entry that a test finds, before what
else is due (R10, assumption 27). -/
def State.dueTick (s : State) : Option Due :=
  if s.tickDue then some .tick else if s.mayDoze then some .doze else none

/-- What is due at RXD (order 4 of R14): a sample, the end of Settling, then an edge. -/
def State.dueLine (s : State) : Option Due :=
  match s.sr.top, s.cl.receiver with
  | .active, .inCharacter samples 0 => some (.sample samples)
  | _, _ => if s.settled then some .settled else s.nextInput.map .input

/-- The timer expiry that is due (order 6 of R14), in the order of the table. -/
def State.dueTimer (s : State) : Option Due :=
  if s.cl.holdTimer.isDue then some .holdLimit
  else if s.su.keepalive.isDue then some .keepalive
  else if s.retransmitDue then some .retransmit
  else if s.bc.gather.isDue then some .gather
  else if s.spacingDue then some .spacing
  else none

/-- The debounced MAINT change that is due: the tenth differing sample has been taken (order 7 of R14, R176). -/
def State.dueMaint (s : State) : Option Due := if debounceSamples ≤ s.pu.candidate then some .maint else none

/-- What is due at the transmitter (R30, and order 8 of R14). -/
def State.dueTransmitter (s : State) : Option Due :=
  match s.sr.top, s.cl.tx with
  | .active, .sending (_ :: b :: rest) 0 => some (.octetSent (b :: rest))
  | .active, .sending _ 0 => some .transmitterFree
  | _, _ => none

/-- What is due in a Running state and comes first, in the order of R14. Engine steps end by their commands. -/
def State.due (s : State) : Option Due :=
  s.dueReset <|> s.dueTick <|> (if s.longBreakDue then some .longBreak else none) <|> s.dueLine <|> s.dueTimer <|>
    s.dueMaint <|> s.dueTransmitter

/-- A due occurrence is handled. -/
def State.handle (s : State) : Due → State
  | .input c => s.takeInput c
  | .tick => s.tickOnce
  | .doze => s.enterDoze
  | .longBreak => s.linkBreakReset
  | .sample samples => s.sampleBit samples
  | .settled => s.settle
  | .holdLimit => s.holdExpiry
  | .keepalive => s.keepaliveExpiry s.pins.rxd
  | .retransmit => s.retransmitExpiry
  | .gather => s.gatherExpiry
  | .spacing => s.spacingExpiry
  | .maint => s.maintChange s.pins.rxd
  | .octetSent rest => s.nextOctet rest
  | .transmitterFree => s.transmitterFree

/-! ### The device's own step -/

/-- The largest number of ticks of initialisation (section 1.1, R180). -/
def initialisationLimit : Nat := 30

/-- The own step in a Running state: what is due, else a selection, else time passes (R10, R14, R75). -/
def State.runningStep (s : State) : State :=
  match s.due with
  | some d => s.handle d
  | none => s.select.getD s.passTime

/-- The pin change, or the tick, that comes first in a state in which no other occurrence is due (R2, R14). -/
def State.dueOutside (s : State) : Option Due :=
  s.dueReset <|> (if s.tickDue then some .tick else none) <|> s.nextInput.map .input

/-- The own step in Initialising: a pin that changes, a tick, steps 1 to 8 of R4, step 9, or time passes
(assumption 32). -/
def State.initialisingStep (s : State) : State :=
  match s.dueOutside with
  | some d => s.handle d
  | none =>
    if !s.sr.started && decide (min initialisationLimit Config.loadTicks ≤ s.sr.tick.toNat) then
      s.loaded s.pins.maint
    else if s.sr.started && decide (min initialisationLimit Config.readyTicks ≤ s.sr.tick.toNat) then
      s.enterRunning s.pins.rxd s.pins.vdd
    else s.passTime

/-- What the device does on its own when no command waits (assumption 2). -/
def State.ownStep (s : State) : State :=
  match s.sr.top with
  | .active | .doze => s.runningStep
  | .initialising => s.initialisingStep
  | .off | .resetHeld =>
    match s.dueOutside with
    | some d => s.handle d
    | none => s.passTime

end Sys2Proof.Machine
end

