-- ==== Sys2Proof/Machine/Dispatch.lean ====
section
/-!
DEFINITION. The one arm of each command.
-/

namespace Sys2Proof.Machine

/-- A command's effect on everything but the queue. -/
def exec (i : Instr) (s : State) : Host.Outcome State Fault Refusal :=
  match i with
  | .powerOn rstn => Sys2Proof.Machine.execPowerOn rstn s
  | .powerOff => Sys2Proof.Machine.execPowerOff s
  | .pinReset => Sys2Proof.Machine.execPinReset s
  | .resetRelease => Sys2Proof.Machine.execResetRelease s
  | .initialisationComplete maint rxd vdd => Sys2Proof.Machine.execInitialisationComplete maint rxd vdd s
  | .supplyLowEntry rxd => Sys2Proof.Machine.execSupplyLowEntry rxd s
  | .supplyLowExit rxd => Sys2Proof.Machine.execSupplyLowExit rxd s
  | .dozeEntry => Sys2Proof.Machine.execDozeEntry s
  | .dozeWake => Sys2Proof.Machine.execDozeWake s
  | .settleComplete => Sys2Proof.Machine.execSettleComplete s
  | .framingError stillLow => Sys2Proof.Machine.execFramingError stillLow s
  | .longBreak => Sys2Proof.Machine.execLongBreak s
  | .hold => Sys2Proof.Machine.execHold s
  | .go => Sys2Proof.Machine.execGo s
  | .abort octets => Sys2Proof.Machine.execAbort octets s
  | .escapeViolation octets follower => Sys2Proof.Machine.execEscapeViolation octets follower s
  | .overlong octets => Sys2Proof.Machine.execOverlong octets s
  | .parcelDiscarded octets => Sys2Proof.Machine.execParcelDiscarded octets s
  | .hail h payload => Sys2Proof.Machine.execHail h payload s
  | .ackReceived h payload => Sys2Proof.Machine.execAckReceived h payload s
  | .rejReceived h payload => Sys2Proof.Machine.execRejReceived h payload s
  | .unknownRequest h payload => Sys2Proof.Machine.execUnknownRequest h payload s
  | .read h addr count => Sys2Proof.Machine.execRead h addr count s
  | .program h mode addr data => Sys2Proof.Machine.execProgram h mode addr data s
  | .checkRegion h addr len => Sys2Proof.Machine.execCheckRegion h addr len s
  | .eraseSectors h sectors => Sys2Proof.Machine.execEraseSectors h sectors s
  | .eraseAll h => Sys2Proof.Machine.execEraseAll h s
  | .parkErase h => Sys2Proof.Machine.execParkErase h s
  | .unparkErase h => Sys2Proof.Machine.execUnparkErase h s
  | .cancel h target => Sys2Proof.Machine.execCancel h target s
  | .sectorInfo h sector => Sys2Proof.Machine.execSectorInfo h sector s
  | .protectGroup h group => Sys2Proof.Machine.execProtectGroup h group s
  | .unprotectAll h => Sys2Proof.Machine.execUnprotectAll h s
  | .lockGroups h mask => Sys2Proof.Machine.execLockGroups h mask s
  | .configGet h => Sys2Proof.Machine.execConfigGet h s
  | .configSet h pairs => Sys2Proof.Machine.execConfigSet h pairs s
  | .configStore h record => Sys2Proof.Machine.execConfigStore h record s
  | .status h flags => Sys2Proof.Machine.execStatus h flags s
  | .identify h => Sys2Proof.Machine.execIdentify h s
  | .attnControl h clearMask writeEnable enableMask => Sys2Proof.Machine.execAttnControl h clearMask writeEnable enableMask s
  | .logTake h maximum => Sys2Proof.Machine.execLogTake h maximum s
  | .ping h data => Sys2Proof.Machine.execPing h data s
  | .readComplete => Sys2Proof.Machine.execReadComplete s
  | .programStep pulses => Sys2Proof.Machine.execProgramStep pulses s
  | .checkRegionStep => Sys2Proof.Machine.execCheckRegionStep s
  | .protectGroupStep verified => Sys2Proof.Machine.execProtectGroupStep verified s
  | .unprotectAllStep bits cells => Sys2Proof.Machine.execUnprotectAllStep bits cells s
  | .configStoreStep erased pulses => Sys2Proof.Machine.execConfigStoreStep erased pulses s
  | .sectorEraseStep allErased => Sys2Proof.Machine.execSectorEraseStep allErased s
  | .holdLimitExpiry => Sys2Proof.Machine.execHoldLimitExpiry s
  | .keepaliveExpiry rxd => Sys2Proof.Machine.execKeepaliveExpiry rxd s
  | .retransmitExpiry => Sys2Proof.Machine.execRetransmitExpiry s
  | .gatherExpiry => Sys2Proof.Machine.execGatherExpiry s
  | .spacingExpiry => Sys2Proof.Machine.execSpacingExpiry s
  | .debouncedMaintChange rxd => Sys2Proof.Machine.execDebouncedMaintChange rxd s
  | .transmitterFree => Sys2Proof.Machine.execTransmitterFree s
  | .openingFence => Sys2Proof.Machine.execOpeningFence s
  | .shortBreak => Sys2Proof.Machine.execShortBreak s

end Sys2Proof.Machine
end

