-- ==== Sys2Proof/Machine/Step.lean ====
section
/-!
DEFINITION. One step of the device: the command at the front of the queue, or what the device does on its own.
-/

namespace Sys2Proof.Machine

/-- The state with the command a word spells at the front of its queue; unchanged where the word spells none
(assumption 21). -/
def State.withFetchWord (s : State) (nbits w : Nat) : State :=
  match decodeTableWord nbits w with
  | some i => { s with pending := i :: s.pending }
  | none => s

/-- One step: the front command is handled with the rest of the queue waiting (R14); with no command waiting the
device does what it does on its own (assumption 2). -/
def step (s : State) : Host.Outcome State Fault Refusal :=
  match s.pending with
  | i :: rest => exec i { s with pending := rest }
  | [] => .next s.ownStep

end Sys2Proof.Machine
end

