-- ==== Sys2Proof/WellFormed.lean ====
section
/-!
DEFINITION. The commands that an environment obeying the spec can send: operand lengths a parcel can carry (R48,
R84), and the octets that make a framer command what its row names (R38 to R43). The meanings are total; nothing
in them rests on these checks.
-/

namespace Sys2Proof

open Machine

/-- A payload fits a parcel (R36, section 3.4). -/
def payloadFits (payload : List Byte) : Bool := payload.length ≤ 72

/-- What an assembly can hold when it is cut short (R36). -/
def assemblyFits (octets : List Byte) : Bool := octets.length ≤ maxAssembly

/-- A follower of Shield that is neither an escaped form, a Fence nor a Go or Hold (R34, R38, R39). -/
def badFollower (b : Byte) : Bool :=
  !escapedForm b && b != fenceOctet && b != holdOctet && b != goOctet

/-- The well-formed commands. -/
def Instr.wellFormed : Instr → Bool
  | .powerOn _ => true
  | .powerOff => true
  | .pinReset => true
  | .resetRelease => true
  | .initialisationComplete _ _ vdd => vdd != .off
  | .supplyLowEntry _ => true
  | .supplyLowExit _ => true
  | .dozeEntry => true
  | .dozeWake => true
  | .settleComplete => true
  | .framingError _ => true
  | .longBreak => true
  | .hold => true
  | .go => true
  | .abort octets => assemblyFits octets
  | .escapeViolation octets follower => assemblyFits octets && badFollower follower
  | .overlong octets => octets.length == maxAssembly + 1
  | .parcelDiscarded octets =>
    !octets.isEmpty && assemblyFits octets && (parcelFault octets).isSome
  | .hail _ payload => payloadFits payload
  | .ackReceived _ payload => payloadFits payload
  | .rejReceived _ payload => payloadFits payload
  | .unknownRequest _ payload => payloadFits payload && !formOk payload
  | .read _ _ _ => true
  | .program _ _ _ data => 1 ≤ data.length && data.length ≤ 64
  | .checkRegion _ _ _ => true
  | .eraseSectors _ sectors => 1 ≤ sectors.length && sectors.length ≤ 16
  | .eraseAll _ => true
  | .parkErase _ => true
  | .unparkErase _ => true
  | .cancel _ _ => true
  | .sectorInfo _ _ => true
  | .protectGroup _ _ => true
  | .unprotectAll _ => true
  | .lockGroups _ _ => true
  | .configGet _ => true
  | .configSet _ pairs => 1 ≤ pairs.length && pairs.length ≤ 8
  | .configStore _ _ => true
  | .status _ _ => true
  | .identify _ => true
  | .attnControl _ _ _ _ => true
  | .logTake _ _ => true
  | .ping _ data => data.length ≤ 64
  | .readComplete => true
  | .programStep pulses => pulses.length ≤ 16
  | .checkRegionStep => true
  | .protectGroupStep _ => true
  | .unprotectAllStep _ _ => true
  | .configStoreStep _ pulses => pulses.length ≤ 16
  | .sectorEraseStep _ => true
  | .holdLimitExpiry => true
  | .keepaliveExpiry _ => true
  | .retransmitExpiry => true
  | .gatherExpiry => true
  | .spacingExpiry => true
  | .debouncedMaintChange _ => true
  | .transmitterFree => true
  | .openingFence => true
  | .shortBreak => true

end Sys2Proof
end

