-- ==== Sys2Proof/Safety.lean ====
section
/-!
DEFINITION. The terms in which statements about the device are made: what a safe step is, the request a command
carries and the state it finds at its acceptance, what a teardown leaves, and the invariants of every state a
run reaches.
-/

namespace Sys2Proof.Machine

/-! ### Outcomes -/

/-- A step goes on, to a state with a property. -/
def Answers (o : Result) (P : State → Prop) : Prop := ∃ t, o = .next t ∧ P t

/-- A safe step: it goes on, without a fault or a refusal. -/
def SafeStep (s : State) : Prop := Answers (step s) (fun _ => True)

/-! ### Requests -/

/-- The parcel fields and the request of a command that carries one. -/
def requestOf : Instr → Option (ParcelHead × Request)
  | .powerOn _ => none
  | .powerOff => none
  | .pinReset => none
  | .resetRelease => none
  | .initialisationComplete _ _ _ => none
  | .supplyLowEntry _ => none
  | .supplyLowExit _ => none
  | .dozeEntry => none
  | .dozeWake => none
  | .settleComplete => none
  | .framingError _ => none
  | .longBreak => none
  | .hold => none
  | .go => none
  | .abort _ => none
  | .escapeViolation _ _ => none
  | .overlong _ => none
  | .parcelDiscarded _ => none
  | .hail _ _ => none
  | .ackReceived _ _ => none
  | .rejReceived _ _ => none
  | .unknownRequest h payload => some (h, .unknown payload)
  | .read h addr count => some (h, .read addr count)
  | .program h mode addr data => some (h, .program mode addr data)
  | .checkRegion h addr len => some (h, .checkRegion addr len)
  | .eraseSectors h sectors => some (h, .eraseSectors sectors)
  | .eraseAll h => some (h, .eraseAll)
  | .parkErase h => some (h, .parkErase)
  | .unparkErase h => some (h, .unparkErase)
  | .cancel h target => some (h, .cancel target)
  | .sectorInfo h sector => some (h, .sectorInfo sector)
  | .protectGroup h group => some (h, .protectGroup group)
  | .unprotectAll h => some (h, .unprotectAll)
  | .lockGroups h mask => some (h, .lockGroups mask)
  | .configGet h => some (h, .configGet)
  | .configSet h pairs => some (h, .configSet pairs)
  | .configStore h record => some (h, .configStore record)
  | .status h flags => some (h, .status flags)
  | .identify h => some (h, .identify)
  | .attnControl h c w e => some (h, .attnControl c w e)
  | .logTake h maximum => some (h, .logTake maximum)
  | .ping h data => some (h, .ping data)
  | .readComplete => none
  | .programStep _ => none
  | .checkRegionStep => none
  | .protectGroupStep _ => none
  | .unprotectAllStep _ _ => none
  | .configStoreStep _ _ => none
  | .sectorEraseStep _ => none
  | .holdLimitExpiry => none
  | .keepaliveExpiry _ => none
  | .retransmitExpiry => none
  | .gatherExpiry => none
  | .spacingExpiry => none
  | .debouncedMaintChange _ => none
  | .transmitterFree => none
  | .openingFence => none
  | .shortBreak => none

/-- The queued requests of the request code table (section 5.1). -/
def Request.queuedKind : Request → Bool
  | .read _ _ | .program _ _ _ | .checkRegion _ _ | .eraseSectors _ | .eraseAll | .protectGroup _
  | .unprotectAll | .configStore _ => true
  | _ => false

/-- The device is listening, with an assembly open: a closing Fence ends a parcel (R21, R35). -/
def State.hears (s : State) : Bool := s.listening && s.pf.phase == .opened

/-- The state once the closing Fence of a parcel has opened the next assembly (R35). -/
def State.delivered (s : State) : State :=
  let s1 := s.characterEnd
  { s1 with pf := s1.pf.openEmpty }

/-- The Free slot with place `i` takes the next request, and no other slot holds its tag (R60, R62, R92). -/
def State.takes (s : State) (h : ParcelHead) (i : Nat) : Bool :=
  s.hears && s.isAttached && s.nrValid h.nr && h.ns == s.su.vr && s.freeSlot == some i &&
    !s.tagInUse i h.tag

/-- The state in which the next request is handed over: keepalive, Nr, and the sequence step are done (R59,
R61, R62). -/
def State.beforeAcceptance (s : State) (h : ParcelHead) : State :=
  ((s.delivered.touchKeepalive).acknowledge h.nr).acceptSequence

/-- A state with slot `i` answered by the next completion number (R89). -/
def State.withAnswer (s : State) (i : Nat) (tag : Byte) (r : Request) (response : List Byte) : State :=
  { s with rd :=
    { slots := s.rd.slots.set i
        { state := .answered, tag := tag, request := r, completion := s.rd.nextCompletion,
          response := response }
      queue := s.rd.queue
      nextCompletion := s.rd.nextCompletion + 1 } }

/-- A state with slot `i` holding a queued request that has gone on to another slot state (R94, R98). -/
def State.withSlot (s : State) (i : Nat) (st : SlotState) (tag : Byte) (r : Request) : State :=
  { s with rd := { s.rd with slots := s.rd.slots.set i { state := st, tag := tag, request := r } } }

/-- Nothing stands between a queued request and its start: no batch, an Idle engine, an empty queue (R94,
R98). -/
def State.clearWay (s : State) : Bool := s.bc == {} && s.engineIdle && s.rd.queue == []

/-! ### Events and teardown -/

/-- The Event Unit after an event is offered (R179, R184). -/
def EventUnit.offered (u : EventUnit) (time : Word16) (e : Event) : EventUnit :=
  if u.log.length < 16 then
    { u with
      log := u.log ++ [{ serial := u.nextSerial, event := e, time := time, inFlight := false }]
      nextSerial := u.nextSerial + 1 }
  else { u with lost := min 255 (u.lost + 1) }

/-- The Event Unit after lost events are reported, if there are any and the log has room (R185). -/
def EventUnit.lostReported (u : EventUnit) (time : Word16) : EventUnit :=
  if u.lost = 0 ∨ 16 ≤ u.log.length then u
  else
    { u with
      log := u.log ++
        [{ serial := u.nextSerial, event := .lostEvents u.lost, time := time, inFlight := false }]
      nextSerial := u.nextSerial + 1
      lost := 0 }

/-- The end of the step of a parcel that finds the state `s`: if its Nr has taken records out of the log, lost events
are reported (R185, R187). -/
def State.atEnd (s : State) (h : ParcelHead) (t : State) : State :=
  if s.losesRecords h.nr then { t with eu := t.eu.lostReported t.sr.tick } else t

/-- The state a request answered in its own acceptance leaves, from the state `s` its parcel finds: slot `i` holds the
response, and the step has ended (R91, R93, R185). -/
def State.answers (s : State) (h : ParcelHead) (i : Nat) (r : Request) (response : List Byte) : State :=
  s.atEnd h ((s.beforeAcceptance h).withAnswer i h.tag r response)

/-- The Event Unit with latched causes raised (R189). -/
def EventUnit.raised (u : EventUnit) (mask : Byte) : EventUnit := { u with latched := u.latched ||| mask }

/-- The Session Unit after a teardown (R77, R78). -/
def SessionUnit.tornDown (u : SessionUnit) (reason : TeardownReason) : SessionUnit :=
  { u with
    link := .detached
    reason := reason
    window := []
    pass := []
    retry := 0
    retransmit := .stopped
    keepalive := .stopped
    noticesWanted := false
    ackOwed := false
    rejectSent := false
    rejPending := false
    busyReported := false
    busyNotePending := false
    hostBusy := false }

/-- The slots and the queue after a teardown (R106). -/
def Dispatcher.tornDown (d : Dispatcher) : Dispatcher :=
  { d with
    slots := d.slots.map (fun x =>
      match x.state with
      | .queued => {}
      | .answered => {}
      | .running => { x with orphaned := true }
      | .batched => { x with orphaned := true }
      | .free => x)
    queue := [] }

/-- The Event Unit after a teardown (R78, R79, R195). -/
def EventUnit.tornDown (u : EventUnit) (time : Word16) (reason : TeardownReason) (epoch : Byte)
    (dropped : Nat) : EventUnit :=
  let u1 := EventUnit.offered { u with log := u.log.map (fun r => { r with inFlight := false }) } time
    (.sessionEnded reason epoch dropped)
  if reason = .rehail then u1 else u1.raised 0x02

/-- How many slots are Queued or Answered (R106). -/
def Dispatcher.droppable (d : Dispatcher) : Nat :=
  d.slots.countP (fun x => x.state == .queued || x.state == .answered)

/-- A state in which the session of `s` has been torn down, with no batch to unpark (R78, R79, R106, R195). -/
def TornDown (s t : State) (reason : TeardownReason) : Prop :=
  t.su = s.su.tornDown reason ∧
  t.rd = s.rd.tornDown ∧
  t.cl.held = false ∧ t.cl.holdTimer = .stopped ∧ t.cl.tx = s.cl.tx.resumed s.characterTime ∧
  t.eu = s.eu.tornDown s.sr.tick reason s.su.epoch s.rd.droppable ∧
  t.bc = s.bc ∧ t.ae = s.ae ∧ t.ledger = s.ledger ∧ t.array = s.array ∧ t.pu = s.pu ∧ t.cs = s.cs ∧
  t.pf.counters = s.pf.counters ∧ t.cl.rate = s.cl.rate

/-! ### The end of a batch -/

/-- The outcome code of a sector at completion; 0 for one that is not done (R136). -/
def Batch.codeOf (b : Batch) (sector : Nat) : Byte :=
  match b.set.find? (fun e => e.1 == sector) with
  | some (_, .done .erased) => 1
  | some (_, .done .failed) => 2
  | some (_, .done .skippedProtected) => 3
  | some (_, .done .abortedSupply) => 5
  | some (_, .pending) | some (_, .erasing) | none => 0

/-- The status that the first of the four tests of R158 gives: SUPPLY_LOW, OK, ALL_SKIPPED, ERASE_INCOMPLETE. -/
def testedStatus (codes : List Byte) : Status :=
  if (5 : Byte) ∈ codes then .supplyLow
  else if ∀ c ∈ codes, c = 1 then .ok
  else if ∀ c ∈ codes, c = 3 then .allSkipped
  else .eraseIncomplete

/-- The octets of a member's response at completion (R158, R159). -/
def Batch.memberResponse (b : Batch) (m : Member) (r : Request) : List Byte :=
  let count (c : Byte) : Byte := octet (m.sectors.countP (fun k => b.codeOf k == c))
  let bitmap (c : Byte) : List Byte :=
    (List.range 8).map (fun i => bitsOctet ((List.range 8).map (fun j => b.codeOf (8 * i + j) == c)))
  [r.code, (testedStatus (m.sectors.map b.codeOf)).code] ++
    (match r with
      | .eraseAll => [count 1, count 2, count 3, count 5, 0] ++ bitmap 2 ++ bitmap 3
      | _ => octet m.sectors.length :: m.sectors.flatMap (fun k => [octet k, b.codeOf k]))

/-- Stage 1 of R157, from the Dispatcher `d`: every member that is not orphaned is answered, with the completion numbers
in member-list order; an orphaned member's slot is Free; the other slots and the queue are as before. -/
def MembersSettled (d : Dispatcher) (b : Batch) (d' : Dispatcher) : Prop :=
  let live (ms : List Member) : Word16 :=
    BitVec.ofNat 16 (ms.countP (fun m => !(d.slots.getD m.slot {}).orphaned))
  d'.queue = d.queue ∧ d'.nextCompletion = d.nextCompletion + live b.members ∧
  d'.slots.length = d.slots.length ∧
  (∀ (n : Nat) (h : n < b.members.length),
    let m := b.members[n]
    let x := d.slots.getD m.slot {}
    d'.slots.getD m.slot {} =
      if x.orphaned then {}
      else { x with
        state := .answered
        completion := d.nextCompletion + live (b.members.take n)
        response := b.memberResponse m x.request }) ∧
  (∀ j < d.slots.length, b.members.all (fun m => m.slot != j) = true → d'.slots.getD j {} = d.slots.getD j {})

/-- The Event Unit after stages 2 and 3 of R157: one ORPHAN_RESULT if the batch has an orphaned member, for the first of
them, with the status and the counts of the whole set (R160); then ERASE_COMPLETE is raised. -/
def EventUnit.batchEnded (u : EventUnit) (time : Word16) (d : Dispatcher) (b : Batch) : EventUnit :=
  let reported : EventUnit :=
    match b.members.find? (fun m => (d.slots.getD m.slot {}).orphaned) with
    | none => u
    | some m =>
      let x := d.slots.getD m.slot {}
      let codes := b.set.map (fun e => b.codeOf e.1)
      (u.offered time (.orphanResult x.request.code x.tag (testedStatus codes)
        (codes.count 1) (codes.count 2))).raised 0x10
  reported.raised 0x08

/-- The Session Unit after a slot has become Free without a response (R64). -/
def SessionUnit.slotFreed (u : SessionUnit) : SessionUnit :=
  if u.link = .attached ∧ u.busyReported = true then { u with busyReported := false, busyNotePending := true } else u

/-- The Session Unit after a batch has ended: each orphaned member's slot has become Free (R157). -/
def SessionUnit.batchEnded (u : SessionUnit) (d : Dispatcher) (b : Batch) : SessionUnit :=
  if b.members.any (fun m => (d.slots.getD m.slot {}).orphaned) then u.slotFreed else u

/-! ### The framer over a stream of octets -/

/-- The framer and the signals it gives, over octets in order (R26). -/
def framerRun (f : ParcelFramer) : List Byte → ParcelFramer × List FramerSignal
  | [] => (f, [])
  | b :: rest =>
    let r := f.octetEvent b
    let later := framerRun r.1 rest
    (later.1, r.2 :: later.2)

/-- Some of these octets are a Fence that ends a valid assembly: a parcel is handed over (R48). -/
def ParcelFramer.handsOver (f : ParcelFramer) (os : List Byte) : Bool :=
  (framerRun f os).2.any (fun g =>
    match g with
    | .ended assembly => (parcelFault assembly).isNone
    | _ => false)

/-! ### The receiver over the samples of a character -/

/-- A sample of RXD at a level, in the middle of a bit of the character being received (R21). -/
def State.sampled (s : State) (level : Bool) : State :=
  match s.cl.receiver with
  | .inCharacter samples _ => State.sampleBit { s with pins := { s.pins with rxd := level } } samples
  | _ => s

/-! ### Kinds of command -/

/-- The commands that can change the array: a program step, the end of a sector's erase, and what stops a
program (R110, R130). -/
def mayChangeArray : Instr → Bool
  | .programStep _ | .sectorEraseStep _ | .powerOff | .pinReset | .supplyLowEntry _ => true
  | _ => false

/-- The commands of a power-on or pin reset (R2, R4). -/
def resetCommand : Instr → Bool
  | .powerOn _ | .powerOff | .pinReset | .resetRelease | .initialisationComplete _ _ _ => true
  | _ => false

/-- The command is ATTN_CONTROL. -/
def isAttnControl : Instr → Bool
  | .attnControl _ _ _ _ => true
  | _ => false

/-- The command is LOCK_GROUPS. -/
def isLockGroups : Instr → Bool
  | .lockGroups _ _ => true
  | _ => false

/-- The command is CONFIG_SET. -/
def isConfigSet : Instr → Bool
  | .configSet _ _ => true
  | _ => false

/-- The command is a Fence, or brings one, that ends a valid assembly: what follows is that parcel's, of any kind
(R48). -/
def State.closesParcel (s : State) : Instr → Bool
  | .openingFence => s.pf.handsOver [fenceOctet]
  | .parcelDiscarded octets => s.pf.handsOver (escapeOctets octets ++ [fenceOctet])
  | _ => false

/-- The own step of a Running device that neither resets it nor ends a valid parcel: no change of RSTn or VDD is due,
VDD is not below 1.9 V, and no last sample of a Fence is due that ends one (R2, R48). -/
def State.ownStepPlain (s : State) : Bool :=
  s.isRunning && s.dueReset.isNone && s.pins.vdd != .off &&
    (match s.due with
      | some (.sample samples) => !s.pf.handsOver [bitsOctet samples.tail]
      | _ => true)

/-- The engine carries a PROGRAM (R111). -/
def Engine.isProgramming : Engine → Bool
  | .programming _ => true
  | .idle | .reading _ | .checking _ | .storing _ | .erasingSector _ => false

/-- The engine carries a CONFIG_STORE or a protect-store write (R111). -/
def Engine.isStoring : Engine → Bool
  | .storing _ => true
  | .idle | .reading _ | .programming _ | .checking _ | .erasingSector _ => false

/-- The engine is Idle, or reads only: what a supply-low entry leaves alone (R129). -/
def Engine.writesNothing : Engine → Bool
  | .idle | .reading _ | .checking _ => true
  | .programming _ | .storing _ | .erasingSector _ => false

/-! ### Invariants -/

/-- The quantities that stay within the ranges their rules give: the log (R183), the lost count (R184), the
replies (R57), the window (R54, R69), the assembly (R36), the idle timer (R10), the MAINT candidate count (R176),
bit 2 of the latched causes (R190) and the wear counts (R126); and the time since the last tick is at most a tick. -/
def State.bounded (s : State) : Bool :=
  s.eu.log.length ≤ 16 && s.eu.lost ≤ 255 && s.su.replies.length ≤ 4 &&
    s.su.window.length ≤ s.su.effWindow && s.su.effWindow ≤ 4 && s.pf.assembly.length ≤ 78 &&
    s.sr.idleTimer ≤ 50 && s.sr.phase ≤ 9216 && s.pu.candidate ≤ 10 && !s.eu.latched.getLsbD 2 &&
    s.ledger.all (fun e => e.wear ≤ 16777215)

/-- A request that may stand in the service queue: the span or the sectors it names lie in the array (R109). -/
def Request.inArray : Request → Bool
  | .read addr count => spanInArray addr.toNat count.toNat
  | .program _ addr data => spanInArray addr.toNat data.length
  | .checkRegion addr len => spanInArray addr.toNat len.toNat
  | .eraseSectors sectors => sectors.all (fun k => k.toNat < sectorCount)
  | _ => true

/-- The slot of the operation the engine carries, if it has one (R111). -/
def Engine.slot? : Engine → Option Nat
  | .idle | .erasingSector _ => none
  | .reading op => some op.slot
  | .programming op => some op.slot
  | .checking op => some op.slot
  | .storing op => some op.slot

/-- The span or the sector the engine's operation works on lies in the array (R109). -/
def Engine.inArray : Engine → Bool
  | .idle | .storing _ => true
  | .erasingSector op => op.sector < sectorCount
  | .reading op => spanInArray op.addr op.count
  | .programming op => spanInArray op.addr op.data.length
  | .checking op => spanInArray op.addr op.len

/-- The sector in hand: of the engine while it works, else the one whose work is suspended (R111, R136). -/
def State.inHand (s : State) : Option EraseOp :=
  match s.ae.engine with
  | .erasingSector op => some op
  | .idle | .reading _ | .programming _ | .checking _ | .storing _ => s.bc.held

/-- The batch is past Gathering: Erasing, Yielded or Parked (R137). -/
def BatchState.atWork : BatchState → Bool
  | .erasing | .yielded | .parked => true
  | .none | .gathering => false

/-- One sector at most is in hand, of the engine or suspended; it is an Erasing sector of a batch that is Erasing,
Yielded or Parked, and no other sector is Erasing (R111, R136, R137). -/
def State.handCoherent (s : State) : Bool :=
  (match s.ae.engine with
    | .erasingSector _ => s.bc.held.isNone
    | .idle | .reading _ | .programming _ | .checking _ | .storing _ => true) &&
    s.inHand.all (fun op => s.bc.role op.sector == some .erasing && s.bc.state.atWork) &&
    s.bc.set.all (fun e => e.2 != .erasing || s.inHand.any (fun op => op.sector == e.1))

/-- The Dispatcher, the engine, the ledger and the batch agree (R87, R88, R95, R109, R111, R126, R136): eight slots and
64 ledger entries; every queue entry names a Queued slot whose request lies in the array; the slot of the engine's
operation is Running, and what it works on lies in the array; every member's slot is Batched, each member with a slot
of its own; the sectors of the batch, ascending, and the one in hand exist; the one in hand, and no other, is Erasing, in
a batch that is at work; without a batch the Batch Controller holds nothing, and while one gathers every sector of its set is
Pending (R136, R137); and outside Running no work is in hand (R3). -/
def State.coherent (s : State) : Bool :=
  s.rd.slots.length == 8 && s.ledger.length == sectorCount &&
    s.rd.queue.all (fun i => (s.slot i).state == .queued && (s.slot i).request.inArray) &&
    (match s.ae.engine.slot? with
      | some i => (s.slot i).state == .running
      | none => true) &&
    s.ae.engine.inArray &&
    s.bc.members.all (fun m => (s.slot m.slot).state == .batched) &&
    decide (s.bc.members.map (fun m => m.slot)).Nodup &&
    s.bc.set.all (fun e => e.1 < sectorCount) && s.bc.held.all (fun op => op.sector < sectorCount) &&
    decide ((s.bc.set.map (fun e => e.1)).Pairwise (· < ·)) &&
    s.handCoherent &&
    (s.bc.state != .none || s.bc == {}) &&
    (s.bc.state != .gathering || s.bc.set.all (fun e => e.2 == .pending)) &&
    (s.isRunning || (s.engineIdle && s.bc == {}))

end Sys2Proof.Machine
end

