-- ==== Sys2Proof/Certificates/Slice0/Obligations.lean ====
section
/-!
DEFINITION. The statements for the provers. Each docstring names the rules of spec/ it comes from; where a clause
is the model's own choice it names the assumption.
-/

open Sys2Proof Sys2Proof.Machine

/-! ### The queue of commands -/

/-- A step with a command in front is that command's meaning on the state with the rest of the queue (R14). With no
command waiting a Running device handles what is due and comes first in the order of R14: a change of RSTn or VDD; the
tick; before every other occurrence, so after each one and at each tick, the Doze entry whose conditions hold (R10); a
long break, and on to the transmitter. With nothing due it makes the selection of R75, else lets time pass. In
Initialising a tick counts and does no more (R4); in Off and Reset-Held it counts nothing. The queue and the step on an
empty one are the model's own choice (assumptions 2 and 24), and so is that the test after a queued command is
DOZE_ENTRY or the next step on an empty queue (27). -/
def Obligations.StepRunsTheQueue : Prop :=
  ∀ (c : Instr) (rest : List Instr) (s : State),
    (s.pending = c :: rest → step s = exec c { s with pending := rest }) ∧
    (s.pending = [] → s.isRunning = true → step s = .next
      (match s.dueReset with
       | some d => s.handle d
       | none =>
        if 9216 ≤ s.sr.phase then s.tickOnce
        else if s.mayDoze = true then s.enterDoze
        else if s.sr.top = .active ∧ s.cl.breakTimer = .running 0 then s.linkBreakReset
        else match s.dueLine with
        | some d => s.handle d
        | none =>
          if s.cl.holdTimer = .running 0 then s.holdExpiry
          else if s.su.keepalive = .running 0 then s.keepaliveExpiry s.pins.rxd
          else if s.su.retransmit = .running 0 ∧ s.cl.held = false then s.retransmitExpiry
          else if s.bc.gather = .running 0 then s.gatherExpiry
          else if s.bc.spacing = .running 0 then s.spacingExpiry
          else if 10 ≤ s.pu.candidate then s.maintChange s.pins.rxd
          else match s.dueTransmitter with
          | some d => s.handle d
          | none =>
            match s.select with
            | some t => t
            | none => s.passTime)) ∧
    (s.pending = [] → s.sr.top = .off ∨ s.sr.top = .resetHeld → s.nextInput = none → s.sr.phase < 9216 →
      step s = .next s.passTime) ∧
    (s.pending = [] → s.dueReset = none → 9216 ≤ s.sr.phase →
      (s.sr.top = .initialising →
        step s = .next { s with sr := { s.sr with phase := 0, tick := s.sr.tick + 1 } }) ∧
      (s.sr.top = .off ∨ s.sr.top = .resetHeld → step s = .next { s with sr := { s.sr with phase := 0 } }))

/-- No command's meaning touches the queue of waiting commands (assumption 24). -/
def Obligations.ExecLeavesQueue : Prop :=
  ∀ (c : Instr) (s t : State), exec c s = .next t → t.pending = s.pending

/-! ### Invariants and whole-machine rules -/

/-- From every coherent state the device goes on, to a coherent state: no step faults, none is refused. The queue
holds Queued slots, the engine's slot is Running, members are Batched, each in a slot of its own, what the engine and the
batch work on lies in the array, the one sector in hand is the one Erasing sector of a batch that is Erasing, Yielded or
Parked, a Gathering batch holds Pending sectors alone, and outside Running no work is in hand (R3, R87, R88, R95, R109,
R111, R126, R136, R137). -/
def Obligations.StepNeverStops : Prop :=
  ∀ (s : State), s.coherent = true → Answers (step s) (fun t => t.coherent = true)

/-- Every bounded quantity keeps its range over every step: log, lost count, replies, window, assembly, idle timer,
MAINT candidate count, bit 2 of the latched causes, wear counts (R183, R184, R57, R69, R36, R10, R176, R190, R126);
the time since the last tick is at most a tick; and the array keeps its canonical form. -/
def Obligations.StepKeepsBounds : Prop :=
  ∀ (s t : State), step s = .next t →
    (s.bounded = true → t.bounded = true) ∧ (s.array.wf = true → t.array.wf = true)

/-- No step lowers a wear count (R126). -/
def Obligations.WearNeverFalls : Prop :=
  ∀ (s t : State) (k : Nat),
    s.ledger.all (fun e => e.wear ≤ 16777215) = true → step s = .next t →
      (s.entry k).wear ≤ (t.entry k).wear ∧ (t.entry k).wear ≤ 16777215

/-- Only a program step, the end of a sector's erase, and what stops a program change an octet of the array (R110,
R113, R130): no other command, and no own step of the device but one that a change of RSTn or VDD, or a low supply
found at a tick, makes. -/
def Obligations.ArrayChangesOnlyByWriters : Prop :=
  ∀ (c : Instr) (s t : State) (a : Nat), s.coherent = true →
    (mayChangeArray c = false → exec c s = .next t → t.array.read a = s.array.read a) ∧
    (s.pending = [] → s.dueReset = none → s.pins.vdd = .good ∨ s.pins.vdd = .middle → step s = .next t →
      t.array.read a = s.array.read a)

/-- A latched attention cause is cleared only by ATTN_CONTROL and by a reset (R189). A Fence that ends a valid parcel
brings whatever that parcel is, and is left out; so is an own step that does so or resets the device. -/
def Obligations.LatchedCausesPersist : Prop :=
  ∀ (c : Instr) (s t : State),
    (resetCommand c = false → isAttnControl c = false → s.closesParcel c = false → exec c s = .next t →
      s.eu.latched &&& t.eu.latched = s.eu.latched) ∧
    (s.pending = [] → s.ownStepPlain = true → step s = .next t →
      s.eu.latched &&& t.eu.latched = s.eu.latched)

/-- The lock mask changes only by LOCK_GROUPS and by a reset, and LOCK_GROUPS clears no lock (R174, R175); the
active record changes only by CONFIG_SET and by a reset (R198). A Fence that ends a valid parcel brings whatever that
parcel is, and even so clears no lock; an own step of the device changes neither, unless it ends a valid parcel or
resets the device. -/
def Obligations.LocksAndSettingsPersist : Prop :=
  ∀ (c : Instr) (s t : State),
    (resetCommand c = false → exec c s = .next t →
      s.pu.lockMask &&& t.pu.lockMask = s.pu.lockMask ∧
      (s.closesParcel c = false → isLockGroups c = false → t.pu.lockMask = s.pu.lockMask) ∧
      (s.closesParcel c = false → isConfigSet c = false → t.cs.active = s.cs.active)) ∧
    (s.pending = [] → s.ownStepPlain = true → step s = .next t →
      t.pu.lockMask = s.pu.lockMask ∧ t.cs.active = s.cs.active)

/-! ### Reset and initialisation (chapter 1) -/

/-- What initialisation makes depends on nonvolatile state, the recorded cause, the clock and the pins alone: volatile
state is never carried across a reset (R3, R18). Steps 1 to 8 of R4 taken beforehand change nothing of it. The
model's choice: the time since the last tick and what the pins will do are carried as well (assumptions 6 and 14). -/
def Obligations.InitialisationForgets : Prop :=
  ∀ (s s' : State) (maint rxd : Bool) (vdd : SupplyBand),
    s.sr.top = .initialising → s'.sr.top = .initialising → s.sr.started = false → s'.sr.started = false →
    (s.array = s'.array → s.ledger = s'.ledger → s.cs.copy0 = s'.cs.copy0 → s.cs.copy1 = s'.cs.copy1 →
    s.pu.protectBits = s'.pu.protectBits → s.pu.writeCells = s'.pu.writeCells →
    s.pu.marker = s'.pu.marker → s.sr.cause = s'.sr.cause → s.sr.tick = s'.sr.tick →
    s.sr.phase = s'.sr.phase → s.inputs = s'.inputs →
    s.pins.rstn = s'.pins.rstn → s.pending = s'.pending → s.freeCount = s'.freeCount →
      exec (.initialisationComplete maint rxd vdd) s = exec (.initialisationComplete maint rxd vdd) s') ∧
    exec (.initialisationComplete maint rxd vdd) (s.loaded maint) = exec (.initialisationComplete maint rxd vdd) s

/-- INITIALISATION_COMPLETE (R4 to R6, and each block's post-reset rule): with VDD above 2.65 V the device enters
Running-Active with the values listed; with a lower supply the entry to Inhibit has been handled besides; below 1.9 V
the device is Off (R2). On its own the device takes steps 1 to 8 of R4, and then step 9, by the thirtieth tick at the
latest (section 1.1, R180): from step 8 BUSYn is high and ATTNn follows its causes (R1, R5). The model's choice: the
pins are recorded as last seen (assumption 14), the entry to Inhibit is handled inside the completion (17), when the
steps are taken (32). -/
def Obligations.InitialisationCompletes : Prop :=
  ∀ (s : State) (maint rxd : Bool) (vdd : SupplyBand), s.sr.top = .initialising →
    (s.sr.started = false → vdd ≠ .off → Answers (exec (.initialisationComplete maint rxd vdd) s) (fun t =>
      let active := match s.cs.current with
        | some id => Settings.ofOctets (s.cs.copy id).octets
        | none => {}
      let torn := s.ledger.countP (fun e => e.condition == .torn)
      let faulted := s.ledger.countP (fun e => e.condition == .faulted)
      let done : LogRecord :=
        { serial := 0, time := s.sr.tick, inFlight := false
          event := .resetDone s.sr.cause s.cs.current.isNone torn faulted s.pu.marker }
      let low : LogRecord := { serial := 1, event := .supplyLow, time := s.sr.tick, inFlight := false }
      let causes : Byte :=
        if torn = 0 ∧ faulted = 0 ∧ s.pu.marker = false then 0x01 else 0x21
      t.sr = { top := .active, heldFromOff := false, cause := s.sr.cause
               monitor := if vdd = .good then .normal else .inhibit
               tick := s.sr.tick, phase := s.sr.phase, started := false, idleTimer := 0 } ∧
      t.cl = { rate := active.linkRate, receiver := .settling
               breakTimer := if rxd then .stopped else .running 20, settleCount := 0
               lostCharacter := false, held := false, holdTimer := .stopped, tx := .free } ∧
      t.pf.phase = .hunting ∧ t.pf.assembly = [] ∧ t.pf.shieldPending = false ∧
      t.pf.counters.list = List.replicate 9 0 ∧
      t.su.link = .detached ∧ t.su.epoch = 0 ∧ t.su.attachCount = 0 ∧ t.su.reason = .none ∧
      t.su.vs = 0 ∧ t.su.va = 0 ∧ t.su.vr = 0 ∧ t.su.effWindow = 0 ∧ t.su.window = [] ∧
      t.su.pass = [] ∧ t.su.retry = 0 ∧ t.su.retransmit = .stopped ∧ t.su.keepalive = .stopped ∧
      [t.su.ackOwed, t.su.rejectSent, t.su.rejPending, t.su.busyReported, t.su.busyNotePending,
        t.su.hostBusy, t.su.noticesWanted] = List.replicate 7 false ∧
      t.su.replies = [] ∧ t.su.counterList = List.replicate 6 0 ∧
      t.rd.slots.map Slot.state = List.replicate 8 .free ∧ t.rd.queue = [] ∧ t.rd.nextCompletion = 0 ∧
      t.ae = { engine := .idle, supplyLow := decide (vdd ≠ .good) } ∧
      t.bc.state = .none ∧ t.bc.set = [] ∧ t.bc.members = [] ∧ t.bc.held = none ∧
      t.bc.gather = .stopped ∧ t.bc.spacing = .stopped ∧ t.bc.yieldCount = 0 ∧
      t.pu = { s.pu with lockMask := 0, maintLevel := maint, candidate := 0 } ∧
      t.eu = { log := if vdd = .good then [done] else [done, low]
               lost := 0, nextSerial := if vdd = .good then 1 else 2
               latched := if vdd = .good then causes else causes ||| 0x40
               enable := active.attnEnable } ∧
      t.cs = { s.cs with active := active, defaulted := s.cs.current.isNone } ∧
      t.array = s.array ∧ t.ledger = s.ledger)) ∧
    (Answers (exec (.initialisationComplete maint rxd .off) s) (fun t =>
      t.sr.top = .off ∧ t.sr.cause = s.sr.cause ∧ t.ledger = s.ledger)) ∧
    (s.pending = [] → s.nextInput = none → s.sr.phase < 9216 → s.sr.started = false → 30 ≤ s.sr.tick.toNat →
      step s = .next (s.loaded s.pins.maint) ∧
      (s.loaded s.pins.maint).sr.started = true ∧
      (s.loaded s.pins.maint).busyLevel = .high ∧ (s.loaded s.pins.maint).txdLevel = .high ∧
      (s.loaded s.pins.maint).attnLevel =
        if (s.loaded s.pins.maint).rawSet &&& (s.loaded s.pins.maint).eu.enable = 0 then .released else .low) ∧
    (s.pending = [] → s.nextInput = none → s.sr.phase < 9216 → s.sr.started = true → 30 ≤ s.sr.tick.toNat →
      step s = exec (.initialisationComplete s.pins.maint s.pins.rxd s.pins.vdd) s)

/-- The state after reset is that of the first power-on of a delivered part: the values R17, R33, R52, R82, R108,
R133, R165, R178, R197 and R200 give, with the array, ledger, stores and copies as delivered; the pin levels, the
tick value and the cause are the model's choice (assumption 8). It meets every invariant stated above. -/
def Obligations.ResetState : Prop :=
  exec (.initialisationComplete false true .good)
      { State.reset with
        sr := { top := .initialising, cause := .powerOn }
        eu := {}
        cl := {} } = .next State.reset ∧
    State.reset.sr.top = .active ∧ State.reset.su.link = .detached ∧
    State.reset.array.read 0 = 0xFF ∧ State.reset.array.read 524287 = 0xFF ∧
    State.reset.ledger = List.replicate 64 { condition := .normal, wear := 0 } ∧
    State.reset.pu.protectBits = 0 ∧ State.reset.pu.marker = false ∧ State.reset.pu.lockMask = 0 ∧
    State.reset.cs.current = none ∧ State.reset.cs.active = Settings.ofOctets [4, 25, 6, 10, 0, 10, 1, 4, 5, 1, 1, 3] ∧
    State.reset.cs.defaulted = true ∧
    State.reset.eu.log.map LogRecord.octets = [[0, 0, 1, 0, 0, 1, 1, 0, 0, 0]] ∧
    State.reset.rawSet = 0x05 ∧ State.reset.eu.enable = 0x03 ∧
    State.reset.attnLevel = .low ∧ State.reset.busyLevel = .high ∧
    State.reset.coherent = true ∧ State.reset.bounded = true ∧ State.reset.array.wf = true

/-- The moves of the top-level state by the supply and RSTn (R2), and what stops there: volatile state is lost,
nonvolatile state kept when the engine writes none of it (R3, R18); the tick counter restarts (R4). A pin that changes
by itself does what the command does, before a tick and every other change of its instant (R14). The model's choice: what
the volatile fields hold while the device is Off or in Reset-Held (assumption 18), the pins and what they will do (14).
-/
def Obligations.ResetCommandsMoveTheDevice : Prop :=
  ∀ (s : State) (rstn : Bool) (earlier later : List PinChange),
    (s.sr.top = .off → Answers (exec (.powerOn rstn) s) (fun t =>
      (t.sr.top = if rstn then .initialising else .resetHeld) ∧
      (rstn = true → t.sr.cause = .powerOn ∧ t.sr.tick = 0) ∧ t.sr.heldFromOff = !rstn ∧
      t.array = s.array ∧ t.ledger = s.ledger ∧ t.pu.protectBits = s.pu.protectBits ∧
      t.pu.marker = s.pu.marker ∧ t.cs.copy0 = s.cs.copy0 ∧ t.cs.copy1 = s.cs.copy1)) ∧
    (s.sr.top = .resetHeld → Answers (exec .resetRelease s) (fun t =>
      t.sr.top = .initialising ∧ (t.sr.cause = if s.sr.heldFromOff then .powerOn else .pin) ∧
      t.sr.tick = 0 ∧ t.array = s.array ∧ t.ledger = s.ledger ∧
      t.pu.protectBits = s.pu.protectBits ∧ t.pu.marker = s.pu.marker ∧
      t.cs.copy0 = s.cs.copy0 ∧ t.cs.copy1 = s.cs.copy1)) ∧
    Answers (exec .powerOff s) (fun t =>
      t.sr.top = .off ∧ t.su = {} ∧ t.rd = {} ∧ t.ae = {} ∧ t.bc = {} ∧ t.eu = {} ∧
      t.cl.tx = .free ∧ t.pu.lockMask = 0 ∧ t.ledger = s.ledger ∧
      (s.ae.engine.isProgramming = false → t.array = s.array) ∧
      (s.ae.engine.isStoring = false → t.pu.protectBits = s.pu.protectBits ∧
        t.pu.marker = s.pu.marker ∧ t.cs.copy0 = s.cs.copy0 ∧ t.cs.copy1 = s.cs.copy1)) ∧
    (s.sr.top = .initialising ∨ s.sr.top = .active ∨ s.sr.top = .doze →
      Answers (exec .pinReset s) (fun t =>
        t.sr.top = .resetHeld ∧ t.sr.heldFromOff = false ∧ t.su = {} ∧ t.rd = {} ∧ t.ae = {} ∧
        t.bc = {} ∧ t.eu = {} ∧ t.cl.tx = .free ∧ t.pu.lockMask = 0 ∧ t.ledger = s.ledger ∧
        (s.ae.engine.isProgramming = false → t.array = s.array) ∧
        (s.ae.engine.isStoring = false → t.pu.protectBits = s.pu.protectBits ∧
          t.pu.marker = s.pu.marker ∧ t.cs.copy0 = s.cs.copy0 ∧ t.cs.copy1 = s.cs.copy1))) ∧
    (s.pending = [] →
      earlier.all (fun e => e.after == 0 && (match e.event with
        | .rxd _ | .maint _ => true
        | .rstn _ | .vdd _ => false)) = true →
      let rest := { s with inputs := earlier ++ later }
      (s.inputs = earlier ++ { after := 0, event := .vdd .off } :: later → step s = exec .powerOff rest) ∧
      (s.inputs = earlier ++ { after := 0, event := .rstn false } :: later →
        s.sr.top = .initialising ∨ s.sr.top = .active ∨ s.sr.top = .doze → step s = exec .pinReset rest) ∧
      (s.inputs = earlier ++ { after := 0, event := .rstn true } :: later → s.sr.top = .resetHeld →
        step s = exec .resetRelease rest) ∧
      (s.inputs = earlier ++ { after := 0, event := .vdd .good } :: later → s.sr.top = .off →
        Answers (step s) (fun t =>
          (t.sr.top = if s.pins.rstn then .initialising else .resetHeld) ∧ t.sr.heldFromOff = !s.pins.rstn ∧
          t.array = s.array ∧ t.ledger = s.ledger ∧ t.inputs = earlier ++ later)))

/-- A PROGRAM stopped by a reset or a supply-low entry leaves every octet outside what it had still to do as it
was; in an octet it had still to do, only a bit that is 1 in the array and 0 in the data may have changed, to 0
(R130). A protect-store or configuration write stopped by a reset: a PROTECT_GROUP leaves every protect bit, an
UNPROTECT_ALL the marker as it stands (set once its opening step is done, R172), and a CONFIG_STORE never touches
the copy it does not write, nor makes an invalid one valid (R173, R206). The model's choice: which bits an
interrupted write leaves free and what it leaves alone (assumptions 11 and 12). -/
def Obligations.InterruptedWrites : Prop :=
  ∀ (c : Instr) (rxd : Bool) (s t : State) (op : ProgramOp) (a slot group n : Nat) (b : Bool) (r : Settings)
    (id : CopyId) (g : Byte) (st : CopyStage),
    s.array.wf = true → exec c s = .next t →
    (c = .powerOff ∨ (c = .pinReset ∧ s.isRunning = true) ∨
      (c = .supplyLowEntry rxd ∧ s.isRunning = true ∧ s.sr.monitor = .normal)) →
    (s.ae.engine = .programming op →
      (a < op.addr + op.next ∨ op.addr + op.data.length ≤ a → t.array.read a = s.array.read a) ∧
      (op.addr + op.next ≤ a → a < op.addr + op.data.length →
        t.array.read a &&& s.array.read a = t.array.read a ∧
        s.array.read a &&& op.data.getD (a - op.addr) 0 &&& t.array.read a =
          s.array.read a &&& op.data.getD (a - op.addr) 0)) ∧
    (c = .powerOff ∨ c = .pinReset →
      (s.ae.engine = .storing (.protect slot group b n) →
        t.pu.protectBits = s.pu.protectBits ∧ t.pu.marker = s.pu.marker ∧ t.cs.copy0 = s.cs.copy0 ∧
          t.cs.copy1 = s.cs.copy1) ∧
      (s.ae.engine = .storing (.unprotect slot b n) →
        t.pu.marker = s.pu.marker ∧ (b = false → t.pu.protectBits = s.pu.protectBits)) ∧
      (s.ae.engine = .storing (.config slot r id g st) →
        t.cs.copy id.other = s.cs.copy id.other ∧ (t.cs.copy id).octets = (s.cs.copy id).octets ∧
          ((s.cs.copy id).committed = false → (t.cs.copy id).committed = false)))

/-! ### The supply (section 1.4) -/

/-- A supply-low entry sets the flag, logs SUPPLY_LOW and raises the cause, a running READ or CHECK_REGION going
on; an exit clears the flag and logs SUPPLY_OK and raises nothing; both wake the device from Doze (R7 to R9, R13).
Running work that writes is abandoned: a PROGRAM and a store write are answered SUPPLY_LOW, the store as the last step
left it (R129, R173, R206); a sector in hand stays Torn, every unfinished sector takes ABORTED_SUPPLY, and the batch
completes, its one member answered SUPPLY_LOW (R146, R157, R158). The model's choice: the command stands for the
sample having been taken (assumption 29), what an abandoned store write leaves alone (12). -/
def Obligations.SupplyCrossingsAreLogged : Prop :=
  ∀ (s : State) (rxd : Bool) (op : ProgramOp) (sop : StoreOp) (eop : EraseOp) (j : Nat) (m : Member)
    (sectors : List Byte), s.isRunning = true →
    (s.sr.monitor = .normal →
      s.ae.engine.writesNothing = true →
      Answers (exec (.supplyLowEntry rxd) s) (fun t =>
        t.sr.top = .active ∧ t.sr.monitor = .inhibit ∧ t.sr.tick = s.sr.tick ∧
        t.ae = { s.ae with supplyLow := true } ∧
        t.eu = (s.eu.offered s.sr.tick .supplyLow).raised 0x40 ∧
        t.su = s.su ∧ t.rd = s.rd ∧ t.bc = s.bc ∧ t.pf = s.pf ∧ t.pu = s.pu ∧ t.cs = s.cs ∧
        t.ledger = s.ledger ∧ t.array = s.array)) ∧
    (s.sr.monitor = .normal → s.ae.engine = .programming op → s.coherent = true →
      (s.slot op.slot).orphaned = false →
      Answers (exec (.supplyLowEntry rxd) s) (fun t =>
        t.ae.supplyLow = true ∧ (t.slot op.slot).state = .answered ∧
        (t.slot op.slot).tag = (s.slot op.slot).tag ∧
        (t.slot op.slot).response = [(s.slot op.slot).request.code, 14] ∧
        (t.slot op.slot).completion = s.rd.nextCompletion)) ∧
    (s.sr.monitor = .normal → s.ae.engine = .storing sop → s.ae.engine.slot? = some j → s.coherent = true →
      (s.slot j).orphaned = false →
      Answers (exec (.supplyLowEntry rxd) s) (fun t =>
        t.ae.supplyLow = true ∧ t.pu = s.pu ∧ t.cs = s.cs ∧ t.array = s.array ∧
        t.slot j = { s.slot j with
          state := .answered, completion := s.rd.nextCompletion
          response := [(s.slot j).request.code, 14] } ∧
        (s.bc.state = .none → s.rd.queue = [] →
          t.ae.engine = .idle ∧ t.bc = s.bc ∧ t.eu = (s.eu.offered s.sr.tick .supplyLow).raised 0x40))) ∧
    (s.sr.monitor = .normal → s.ae.engine = .erasingSector eop → s.coherent = true → s.rd.queue = [] →
      Answers (exec (.supplyLowEntry rxd) s) (fun t =>
        t.ae = { s.ae with engine := .idle, supplyLow := true } ∧ t.bc = {} ∧
        t.ledger = s.ledger ∧ t.array = s.array ∧ t.pu = s.pu ∧ t.cs = s.cs ∧
        (s.bc.members = [m] → (s.slot m.slot).orphaned = false →
          (s.slot m.slot).request = .eraseSectors sectors → eop.sector ∈ m.sectors →
          s.bc.role eop.sector = some .erasing →
          t.slot m.slot = { s.slot m.slot with
            state := .answered, completion := s.rd.nextCompletion
            response := [0x04, 14, octet m.sectors.length] ++ m.sectors.flatMap (fun k =>
              [octet k, match s.bc.role k with
                | some (.done o) => o.code
                | some _ => 5
                | none => 0]) } ∧
          t.eu = ((s.eu.offered s.sr.tick .supplyLow).raised 0x40).raised 0x08))) ∧
    (s.sr.monitor = .inhibit →
      Answers (exec (.supplyLowExit rxd) s) (fun t =>
        t.sr.top = .active ∧ t.sr.monitor = .normal ∧ t.sr.tick = s.sr.tick ∧
        t.ae = { s.ae with supplyLow := false } ∧ t.eu = s.eu.offered s.sr.tick .supplyOk ∧
        t.su = s.su ∧ t.rd = s.rd ∧ t.bc = s.bc ∧ t.pf = s.pf ∧ t.pu = s.pu ∧ t.cs = s.cs ∧
        t.ledger = s.ledger ∧ t.array = s.array))

/-! ### Doze and the receiver (section 1.5, chapter 2) -/

/-- Doze and the receiver (R10, R12, R19, R21 to R24, R26, R32, R41). DOZE_ENTRY acts exactly when every condition of
R10 holds, and DOZE_WAKE in Doze. SETTLE_COMPLETE, with RXD high for a character time, brings the receiver to Idle and
delivers the framing error of a lost character; SHORT_BREAK ends In-break with no other effect; FRAMING_ERROR counts,
ends the assembly and leaves the receiver in In-break or Idle. A falling edge starts a character in Idle, sets the
settle count back, and starts the break timer and the idle timer afresh; a rising edge stops the break timer. The ten
samples of a character are its octet; a high start bit is noise; a low stop bit is a framing error. In Settling no
parcel is taken. The model's choice: a command stands for a whole character at one instant (assumption 6), the pins
are recorded as last seen (14), where the last falling edge of a FRAMING_ERROR lies is a free value (30). -/
def Obligations.DozeAndReceiverEvents : Prop :=
  ∀ (s : State) (low level : Bool) (data : Byte) (samples : List Bool) (left : Nat) (c : Instr) (h : ParcelHead)
    (r : Request),
    let bitTime := 10 * [96, 48, 24, 16, 8, 4, 2, 1].getD s.cl.rate.toNat 1
    let framingCounted : ParcelFramer :=
      { phase := .hunting, assembly := [], shieldPending := false
        counters := { s.pf.counters with framing := s.pf.counters.framing + 1 } }
    (s.mayDoze = true ↔
      s.sr.top = .active ∧ s.cs.active.dozeEnable = 1 ∧ s.ae.engine = .idle ∧
      (s.bc.state = .none ∨ s.bc.state = .parked) ∧ (∀ x ∈ s.rd.slots, x.state = .free) ∧ s.su.window = [] ∧
      s.su.replies = [] ∧ s.su.rejPending = false ∧ s.su.ackOwed = false ∧ s.su.busyNotePending = false ∧
      s.su.pass = [] ∧
      ¬(s.su.link = .attached ∧ s.su.noticesWanted = true ∧ s.eu.log.any (fun x => !x.inFlight) = true) ∧
      s.cl.tx = .free ∧ s.cl.held = false ∧ s.cl.receiver = .idle ∧ 50 ≤ s.sr.idleTimer) ∧
    (s.mayDoze = true → exec .dozeEntry s = .next
      { s with
        sr := { s.sr with top := .doze }
        cl := { s.cl with receiver := .dormant, breakTimer := .stopped, lostCharacter := false } }) ∧
    (s.mayDoze = false → exec .dozeEntry s = .next s) ∧
    (s.sr.top = .doze → exec .dozeWake s = .next
      { s with
        sr := { s.sr with top := .active, idleTimer := 0 }
        pins := { s.pins with rxd := false }
        cl := { s.cl with
          receiver := .settling, settleCount := 0, lostCharacter := true, breakTimer := .running 20 } }) ∧
    (s.sr.top = .active → s.cl.receiver = .settling → s.pins.rxd = true → 10 * bitTime ≤ s.cl.settleCount →
      exec .settleComplete s = .next
        { s with
          cl := { s.cl with
            receiver := .idle, settleCount := 0, lostCharacter := false, breakTimer := .stopped }
          pf := if s.cl.lostCharacter then framingCounted else s.pf }) ∧
    (s.sr.top = .active → s.cl.receiver = .settling → s.cl.settleCount < 10 * bitTime →
      exec .settleComplete s = .next s) ∧
    (s.listening = true →
      let since := (2 * ((Config.freeByte s.freeCount).toNat % 10) + 1) * (bitTime / 2)
      exec (.framingError low) s = .next
        { s with
          sr := { s.sr with idleTimer := 0 }
          pins := { s.pins with rxd := !low }
          cl := { s.cl with
            receiver := if low then .inBreak else .idle
            breakTimer := if low then
                (if s.pins.rxd then .running (20 - (since - s.sr.phase + 9215) / 9216) else s.cl.breakTimer)
              else .stopped }
          pf := framingCounted
          freeCount := s.freeCount + (if low then 1 else 0) }) ∧
    (s.sr.top = .active → s.cl.receiver = .inBreak → exec .shortBreak s = .next
      { s with
        pins := { s.pins with rxd := true }
        cl := { s.cl with receiver := .idle, breakTimer := .stopped } }) ∧
    (s.sr.top = .active → s.pins.rxd = true → s.cl.receiver ≠ .inBreak → s.setRxd false =
      { s with
        sr := { s.sr with idleTimer := 0 }
        pins := { s.pins with rxd := false }
        cl := { s.cl with
          receiver := if s.cl.receiver = .idle then .inCharacter [] (bitTime / 2) else s.cl.receiver
          settleCount := 0, breakTimer := .running 20 } }) ∧
    (s.sr.top = .active → s.pins.rxd = false → s.setRxd true =
      { s with
        pins := { s.pins with rxd := true }
        cl := { s.cl with
          receiver := if s.cl.receiver = .inBreak then .idle else s.cl.receiver
          settleCount := 0, breakTimer := .stopped } }) ∧
    (s.cl.receiver = .inCharacter [] left →
      let at_ (high : Bool) (receiver : Receiver) : State :=
        { s with pins := { s.pins with rxd := high }, cl := { s.cl with receiver := receiver } }
      let bits : List Bool := (List.range 8).map (fun k => data.getLsbD k)
      s.sampled true = at_ true .idle ∧
      (false :: bits ++ [true]).foldl State.sampled s = (at_ true .idle).octetEvent data ∧
      (false :: bits ++ [false]).foldl State.sampled s = { at_ false .inBreak with pf := framingCounted }) ∧
    (s.cl.receiver = .inCharacter samples left → 1 ≤ samples.length → samples.length < 9 →
      s.sampled level =
        { s with
          pins := { s.pins with rxd := level }
          cl := { s.cl with receiver := .inCharacter (samples ++ [level]) bitTime } }) ∧
    (s.sr.top = .active → s.cl.receiver = .settling → requestOf c = some (h, r) ∨ c = .hold ∨ c = .go →
      exec c s = .next
        { s with
          sr := { s.sr with idleTimer := 0 }
          pins := { s.pins with rxd := true }
          cl := { s.cl with settleCount := 0, breakTimer := .stopped } })

/-- A Hold sets Held and starts the hold timer from field 3; a Go clears Held, stops the timer and resumes a Paused
parcel with its next octet; a repeated one changes nothing; neither touches the assembly (R27, R28, R34). An octet
once begun is completed; when it has been sent, the next begins at once, or, with Held set, the transmitter pauses
with the rest of the parcel (R27, R30); when the last has been sent the transmitter becomes Free and a selection
follows (R31). The model's choice: the octet's end is a step of the device's own (assumptions 2 and 6). -/
def Obligations.HoldAndGo : Prop :=
  ∀ (s : State) (b : Byte) (rest : List Byte),
    let character := 100 * [96, 48, 24, 16, 8, 4, 2, 1].getD s.cl.rate.toNat 1
    (s.listening = true →
      exec .hold s = .next
        (if s.cl.held then s.characterEnd
         else { s.characterEnd with cl := { s.characterEnd.cl with
            held := true
            holdTimer :=
              if s.cs.active.holdLimit = 0 then .stopped
              else .running (s.cs.active.holdLimit.toNat * 1000) } }) ∧
      exec .go s = .next
        (if s.cl.held then
          { s.characterEnd with cl := { s.characterEnd.cl with
            held := false, holdTimer := .stopped
            tx := match s.cl.tx with
              | .paused octets => .sending octets character
              | .sending octets left => .sending octets left
              | .free => .free } }
         else s.characterEnd)) ∧
    (s.pending = [] → s.isRunning = true → s.due = some (.octetSent (b :: rest)) →
      step s = .next { s with cl := { s.cl with
        tx := if s.cl.held then .paused (b :: rest) else .sending (b :: rest) character } }) ∧
    (s.pending = [] → s.isRunning = true → s.due = some .transmitterFree → step s = exec .transmitterFree s) ∧
    (s.sr.top = .active → s.cl.tx = .paused (b :: rest) → exec .transmitterFree s = .next s) ∧
    (s.sr.top = .active → s.cl.tx = .sending (b :: rest) 0 → rest ≠ [] → exec .transmitterFree s = .next s)

/-! ### The framer (chapter 3) -/

/-- OPENING_FENCE opens an assembly or is idle fill (R35); ABORT, ESCAPE_VIOLATION and OVERLONG end an open
assembly, each counted once, and leave the framer Open after an abort and Hunting otherwise (R38 to R40). The
model's choice: the operands are the octets of the assembly, read by the octet automaton (assumption 25). -/
def Obligations.FramerEndsAssemblies : Prop :=
  ∀ (s : State) (octets : List Byte) (follower : Byte), s.listening = true →
    (s.pf.phase = .hunting ∨ (s.pf.assembly = [] ∧ s.pf.shieldPending = false) →
      exec .openingFence s = .next { s.characterEnd with pf := s.pf.openEmpty }) ∧
    (s.pf.phase = .hunting →
      exec (.abort octets) s = .next { s.characterEnd with pf := s.pf.openEmpty }) ∧
    (s.pf.phase = .opened → s.pf.shieldPending = false → s.pf.assembly.length + octets.length ≤ 78 →
      exec (.abort octets) s = .next
        { s.characterEnd with pf :=
          { phase := .opened, assembly := [], shieldPending := false
            counters := { s.pf.counters with abort := s.pf.counters.abort + 1 } } }) ∧
    (s.pf.phase = .opened → s.pf.shieldPending = false → s.pf.assembly.length + octets.length ≤ 78 →
      badFollower follower = true →
      exec (.escapeViolation octets follower) s = .next
        { s.characterEnd with pf :=
          { phase := .hunting, assembly := [], shieldPending := false
            counters :=
              { s.pf.counters with escapeViolation := s.pf.counters.escapeViolation + 1 } } }) ∧
    (s.pf.phase = .opened → s.pf.shieldPending = false → s.pf.assembly.length ≤ 78 →
      s.pf.assembly.length + octets.length = 79 →
      exec (.overlong octets) s = .next
        { s.characterEnd with pf :=
          { phase := .hunting, assembly := [], shieldPending := false
            counters := { s.pf.counters with overlong := s.pf.counters.overlong + 1 } } })

/-- PARCEL_DISCARDED: an assembly that fails a check is counted once, under the first check it fails, in the order
runt, length, check, class, direction; nothing else changes (R43, R44, R46, R47, R51). The model's choice: the
operand is the assembly, read by the octet automaton (assumption 25). -/
def Obligations.DiscardedParcelsAreCounted : Prop :=
  ∀ (s : State) (octets : List Byte),
    s.hears = true → s.pf.assembly = [] → s.pf.shieldPending = false →
    1 ≤ octets.length → octets.length ≤ 78 →
      let n := octets.length
      let l := (octets.getD 3 0).toNat
      let cls := octets.getD 0 0
      let c := s.pf.counters
      let badLength : Prop := 72 < l ∨ n ≠ l + 6
      let answer (c' : DiscardCounters) : Result := .next
        { s.characterEnd with pf :=
          { phase := .opened, assembly := [], shieldPending := false, counters := c' } }
      (n ≤ 5 → exec (.parcelDiscarded octets) s = answer { c with runt := c.runt + 1 }) ∧
      (5 < n → badLength →
        exec (.parcelDiscarded octets) s = answer { c with length := c.length + 1 }) ∧
      (5 < n → ¬badLength → crc16 octets ≠ 0 →
        exec (.parcelDiscarded octets) s = answer { c with check := c.check + 1 }) ∧
      (5 < n → ¬badLength → crc16 octets = 0 →
        cls ∉ [0x11, 0x22, 0x33, 0x44, 0x55, 0x66, 0x77] →
        exec (.parcelDiscarded octets) s = answer { c with unknownClass := c.unknownClass + 1 }) ∧
      (5 < n → ¬badLength → crc16 octets = 0 → cls ∈ [0x22, 0x33, 0x77] →
        exec (.parcelDiscarded octets) s = answer { c with wrongDirection := c.wrongDirection + 1 })

/-- What the device encodes, a framer decodes: fed the octets of an encoded parcel, a framer in Hunting gives one
signal, the ended assembly, which is the parcel with its check; the checks pass it but for the direction of its
class; its fields are those encoded (R37, R46, R48, R49). A valid parcel of the host's is handed over: the octets of
a request, a HAIL, an ACK or a REJ, ended by a Fence, do what its command does (R48, R83). The model's choice: the
octets arrive at one instant (assumption 6). -/
def Obligations.ParcelsSurviveTheLine : Prop :=
  ∀ (f : ParcelFramer) (cls : Byte) (ns nr : Seq) (tag : Byte) (payload : List Byte) (s : State) (c : Instr)
    (h : ParcelHead) (r : Request),
    let line (cls : Byte) (payload : List Byte) : List Byte :=
      escapeOctets (parcelOctets cls h.ns h.nr h.tag payload) ++ [0xE7]
    let fresh : Prop := s.hears = true ∧ s.pf.assembly = [] ∧ s.pf.shieldPending = false
    (payload.length ≤ 72 →
      let p := parcelOctets cls ns nr tag payload
      let r := framerRun f.hunt (encodeParcel cls ns nr tag payload)
      r.1 = f.openEmpty ∧ r.2.filter (fun g => g != .nothing) = [.ended p] ∧
      p.getD 0 0 = cls ∧ (p.getD 1 0).extractLsb' 4 4 = ns ∧ (p.getD 1 0).extractLsb' 0 4 = nr ∧
      p.getD 2 0 = tag ∧ (p.drop 4).take (p.getD 3 0).toNat = payload ∧
      parcelFault p =
        (if cls = 0x22 ∨ cls = 0x33 ∨ cls = 0x77 then some .wrongDirection
         else if cls = 0x11 ∨ cls = 0x44 ∨ cls = 0x55 ∨ cls = 0x66 then none
         else some .unknownClass)) ∧
    (fresh → c.wellFormed = true → requestOf c = some (h, r) →
      exec c s = .next (s.characters (line reqClass r.payload))) ∧
    (fresh → payload.length ≤ 72 →
      exec (.hail h payload) s = .next (s.characters (line hailClass payload)) ∧
      exec (.ackReceived h payload) s = .next (s.characters (line ackClass payload)) ∧
      exec (.rejReceived h payload) s = .next (s.characters (line rejClass payload)))

/-- Between its two fences an encoded parcel holds no Go, Hold or Fence, and its whole length lies in 8..158 (R49,
R50). -/
def Obligations.OutboundParcelsHoldNoRawControl : Prop :=
  ∀ (cls : Byte) (ns nr : Seq) (tag : Byte) (payload : List Byte) (b : Byte),
    payload.length ≤ 72 →
      (b ∈ escapeOctets (parcelOctets cls ns nr tag payload) → b ≠ 0xE4 ∧ b ≠ 0xE5 ∧ b ≠ 0xE7) ∧
      8 ≤ (encodeParcel cls ns nr tag payload).length ∧
      (encodeParcel cls ns nr tag payload).length ≤ 158

/-! ### Sessions (chapter 4) -/

/-- A long break, a hold-limit expiry and a keepalive expiry tear an attached session down, each with its reason
(R25, R29, R76 to R79); in a DETACHED device a long break and a hold-limit expiry act on the link alone. Each acts
only when its timer is due: one that an earlier occurrence of its instant restarted or stopped does not occur (R14,
R15, R24). A Parked batch is unparked by the teardown: a suspended sector resumes at once if the engine is Idle, and
waits for the engine while it serves a request (R79, R156, R164). The model's choice: work whose suspension was still
pending goes on, the spacing timer started (assumption 15). -/
def Obligations.LinkEventsTearDown : Prop :=
  ∀ (s : State) (rxd : Bool) (op : EraseOp) (c : Instr) (reason : TeardownReason),
    let resumed := s.cl.tx.resumed s.characterTime
    let unparked : Batch := { s.bc with state := .erasing, gather := .stopped }
    let paced : Spacing := .running s.cs.active.yieldSpacing.toNat
    let ends : Prop := s.su.link = .attached ∧
      ((c = .longBreak ∧ reason = .break_ ∧ s.sr.top = .active ∧ s.cl.breakTimer = .running 0) ∨
        (c = .holdLimitExpiry ∧ reason = .holdExpired ∧ s.cl.holdTimer = .running 0) ∨
        (c = .keepaliveExpiry rxd ∧ reason = .keepalive ∧ s.su.keepalive = .running 0))
    (s.sr.top = .active → s.cl.breakTimer = .running 0 → s.su.link = .attached → s.bc.state ≠ .parked →
      Answers (exec .longBreak s) (fun t =>
        TornDown s t .break_ ∧ t.cl.receiver = .settling ∧ t.cl.settleCount = 0 ∧
        t.cl.breakTimer = .stopped ∧ t.pf.phase = .hunting ∧ t.pf.assembly = [] ∧
        t.pf.shieldPending = false ∧ t.sr = s.sr)) ∧
    (s.sr.top = .active → s.cl.breakTimer = .running 0 → s.su.link = .detached →
      exec .longBreak s = .next
        { s with
          pins := { s.pins with rxd := false }
          cl := { s.cl with
            receiver := .settling, settleCount := 0, breakTimer := .stopped
            held := false, holdTimer := .stopped, tx := resumed }
          pf := s.pf.hunt }) ∧
    (s.cl.breakTimer ≠ .running 0 → exec .longBreak s = .next s) ∧
    (s.cl.holdTimer = .running 0 → s.su.link = .attached → s.bc.state ≠ .parked →
      Answers (exec .holdLimitExpiry s) (fun t => TornDown s t .holdExpired ∧ t.sr = s.sr)) ∧
    (s.cl.holdTimer = .running 0 → s.su.link = .detached →
      exec .holdLimitExpiry s = .next
        { s with cl := { s.cl with held := false, holdTimer := .stopped, tx := resumed } }) ∧
    (s.cl.holdTimer ≠ .running 0 → exec .holdLimitExpiry s = .next s) ∧
    (s.su.keepalive = .running 0 → s.su.link = .attached → s.bc.state ≠ .parked →
      Answers (exec (.keepaliveExpiry rxd) s) (fun t =>
        TornDown s t .keepalive ∧ (s.sr.top = .doze → t.sr.top = .active))) ∧
    (s.su.keepalive ≠ .running 0 → exec (.keepaliveExpiry rxd) s = .next s) ∧
    (ends → s.bc.state = .parked → s.ae.engine = .idle → s.bc.held = some op → s.ae.supplyLow = false →
      Answers (exec c s) (fun t =>
        TornDown { s with
          bc := { unparked with held := none, spacing := paced }
          ae := { s.ae with engine := .erasingSector op } } t reason)) ∧
    (ends → s.bc.state = .parked → s.ae.engine.slot?.isSome = true →
      Answers (exec c s) (fun t => TornDown { s with bc := unparked } t reason)) ∧
    (ends → s.bc.state = .parked → s.ae.engine = .erasingSector op →
      Answers (exec c s) (fun t => TornDown { s with bc := { unparked with spacing := paced } } t reason))

/-- A retransmit expiry, the timer due and not frozen, raises the retry count and sets up a pass over the whole
window, the timer restarted; past the retry limit it ends the session (R70, R71). A timer that an earlier occurrence
of the instant restarted, stopped or froze does not expire (R14, R15). -/
def Obligations.RetransmitExpirySetsUpAPass : Prop :=
  ∀ (s : State),
    (s.su.retransmit = .running 0 → s.cl.held = false → s.su.retry + 1 ≤ s.cs.active.retryLimit.toNat →
      exec .retransmitExpiry s = .next
        { s with su := { s.su with
          retry := s.su.retry + 1
          pass := s.su.window.map (fun e => e.ns)
          retransmit := .running (s.cs.active.retransmitTimeout.toNat * 10) } }) ∧
    (s.su.retransmit = .running 0 → s.cl.held = false → s.cs.active.retryLimit.toNat < s.su.retry + 1 →
      s.su.link = .attached → s.bc.state ≠ .parked →
      Answers (exec .retransmitExpiry s) (fun t => TornDown s t .retryExhausted ∧ t.sr = s.sr)) ∧
    (s.su.retransmit ≠ .running 0 ∨ s.cl.held = true → exec .retransmitExpiry s = .next s)

/-- A valid HAIL while DETACHED attaches (R53, R54, R57); an invalid HAIL is refused in both link states and
changes nothing else but the keepalive timer's restart (R53, R57, R76). The model's choice: the command carries the
fields of a valid parcel and needs an open framer (assumption 5). -/
def Obligations.HailAttachesOrIsRefused : Prop :=
  ∀ (s : State) (h : ParcelHead) (payload : List Byte) (w o : Byte), s.hears = true →
    (payload = [w, o] → 1 ≤ w.toNat → w.toNat ≤ 4 → o &&& 0xFE = 0 →
      s.su.link = .detached →
      exec (.hail h payload) s = .next
        (let epoch : Byte := if s.su.epoch = 255 then 1 else s.su.epoch + 1
         let kept := s.su.replies.filter (fun r => r.status != .noSession)
         { s.delivered with su := { s.su with
          link := .attached, epoch := epoch, attachCount := min 65535 (s.su.attachCount + 1)
          vs := 0, va := 0, vr := 0, window := [], pass := [], retry := 0
          ackOwed := false, rejectSent := false, rejPending := false, busyReported := false
          busyNotePending := false, hostBusy := false
          effWindow := min 4 w.toNat, noticesWanted := o.getLsbD 0
          keepalive :=
            if s.cs.active.keepalive = 0 then .stopped
            else .running (s.cs.active.keepalive.toNat * 1000)
          replies := (if kept.length < 4 then kept else kept.tail) ++
            [{ tag := h.tag, status := .attached, epoch := epoch, fresh := s.su.attachCount == 0
               cause := s.sr.cause, previous := s.su.reason, effWindow := min 4 w.toNat }] } })) ∧
    (hailValid payload = false →
      exec (.hail h payload) s = .next
        { s.delivered with su := { s.su with
          keepalive :=
            if s.su.link = .attached ∧ s.su.keepalive ≠ .stopped then
              Timer.start (s.cs.active.keepalive.toNat * 1000)
            else s.su.keepalive
          replies :=
            if s.su.replies.length < 4 then
              s.su.replies ++
                [{ tag := h.tag, status := .refused, epoch := s.su.epoch
                   fresh := s.su.attachCount == 0, cause := s.sr.cause, previous := s.su.reason
                   effWindow := if s.su.link = .attached then s.su.effWindow else 0 }]
            else s.su.replies } })

/-- A valid HAIL while ATTACHED tears the session down with reason REHAIL and attaches again in one step;
SESSION_LOST is not raised (R55). -/
def Obligations.RehailReplacesTheSession : Prop :=
  ∀ (s : State) (h : ParcelHead) (w o : Byte),
    s.hears = true → s.su.link = .attached → s.bc.state ≠ .parked → 1 ≤ s.su.attachCount →
    1 ≤ w.toNat → w.toNat ≤ 4 → o &&& 0xFE = 0 →
      Answers (exec (.hail h [w, o]) s) (fun t =>
        t.su.link = .attached ∧ t.su.reason = .rehail ∧
        (t.su.epoch = if s.su.epoch = 255 then 1 else s.su.epoch + 1) ∧
        t.su.vs = 0 ∧ t.su.va = 0 ∧ t.su.vr = 0 ∧ t.su.window = [] ∧ t.su.pass = [] ∧
        t.su.effWindow = min 4 w.toNat ∧ t.su.noticesWanted = o.getLsbD 0 ∧
        t.su.retransmit = .stopped ∧ t.rd = s.rd.tornDown ∧ t.cl.held = false ∧
        t.eu = s.eu.tornDown s.sr.tick .rehail s.su.epoch s.rd.droppable ∧
        t.eu.latched = s.eu.latched ∧
        t.su.replies.getLast? = some
          { tag := h.tag, status := .attached, epoch := t.su.epoch, fresh := false
            cause := s.sr.cause, previous := .rehail, effWindow := min 4 w.toNat } ∧
        t.bc = s.bc ∧ t.ae = s.ae ∧ t.ledger = s.ledger ∧ t.array = s.array ∧ t.pu = s.pu ∧ t.cs = s.cs)

/-- A REQ, ACK or REJ while DETACHED is counted as unattached and discarded; a REQ, whatever its request, also
appends a NO_SESSION reply if the list has room (R56, R57); a HAIL is not counted there. -/
def Obligations.UnattachedParcelsAreCounted : Prop :=
  ∀ (s : State) (c : Instr) (h : ParcelHead) (r : Request) (payload : List Byte),
    s.hears = true → s.su.link = .detached →
    (requestOf c = some (h, r) → exec c s = .next
      { s.delivered with su := { s.su with
        unattached := s.su.unattached + 1
        replies :=
          if s.su.replies.length < 4 then
            s.su.replies ++
              [{ tag := h.tag, status := .noSession, epoch := s.su.epoch
                 fresh := s.su.attachCount == 0, cause := s.sr.cause, previous := s.su.reason
                 effWindow := 0 }]
          else s.su.replies } }) ∧
    (exec (.ackReceived h payload) s = .next
      { s.delivered with su := { s.su with unattached := s.su.unattached + 1 } }) ∧
    (exec (.rejReceived h payload) s = .next
      { s.delivered with su := { s.su with unattached := s.su.unattached + 1 } }) ∧
    (Answers (exec (.hail h payload) s) (fun t => t.su.unattached = s.su.unattached))

/-- A REQ, ACK or REJ whose Nr lies outside V(A)..V(S) ends the session with reason PROTOCOL, and nothing else of
it is read (R60). -/
def Obligations.InvalidNrEndsTheSession : Prop :=
  ∀ (s : State) (c : Instr) (h : ParcelHead) (r : Request) (payload : List Byte),
    s.hears = true → s.su.link = .attached → s.bc.state ≠ .parked →
    (s.su.vs - s.su.va).toNat < (h.nr - s.su.va).toNat →
    (requestOf c = some (h, r) ∨ c = .ackReceived h payload ∨ c = .rejReceived h payload) →
      Answers (exec c s) (fun t => TornDown s t .protocol)

/-- What a parcel does before its own effect, and at its end. A valid Nr (R61, R187): the window loses its first
parcels, V(A) becomes Nr, the retry count is 0, the timer restarts or stops, the pass loses what has gone; the records
of acknowledged notices leave the log. The sequence step of an accepted request (R59, R62): V(R) advances, an
acknowledgement is owed, no REJ is; all that a request acts on is as before. When records have left the log, a
LOST_EVENTS record closes the step if events were lost (R185). The model's choice: in a log that the step has filled
again the record waits (assumption 16). -/
def Obligations.ParcelsAcknowledgeAndAdvance : Prop :=
  ∀ (s v : State) (h : ParcelHead) (i : Nat),
    let k := (h.nr - s.su.va).toNat
    let gone := s.su.window.take k
    let t := s.acknowledge h.nr
    let u := s.beforeAcceptance h
    let kept := s.eu.log.filter (fun r => !gone.any (fun e => e.kind == .ntc r.serial))
    (k = 0 → t = s) ∧
    (k ≠ 0 →
      t.su = { s.su with
        va := h.nr, window := s.su.window.drop k, retry := 0
        pass := s.su.pass.filter (fun n => !gone.any (fun e => e.ns == n))
        retransmit :=
          if s.su.window.drop k = [] then .stopped
          else .running (s.cs.active.retransmitTimeout.toNat * 10) } ∧
      t.eu = { s.eu with log := kept } ∧
      t.rd = s.rd ∧ t.ae = s.ae ∧ t.bc = s.bc ∧ t.cl = s.cl ∧ t.array = s.array ∧
      t.ledger = s.ledger ∧ t.pu = s.pu ∧ t.cs = s.cs ∧ t.pf = s.pf ∧ t.sr = s.sr) ∧
    (s.takes h i = true →
      u.su.vr = s.su.vr + 1 ∧ u.su.ackOwed = true ∧ u.su.rejectSent = false ∧ u.su.rejPending = false ∧
      u.su.va = h.nr ∧ u.su.vs = s.su.vs ∧ u.su.window = s.su.window.drop k ∧
      u.su.busyReported = s.su.busyReported ∧ u.su.hostBusy = s.su.hostBusy ∧
      u.su.replies = s.su.replies ∧ u.eu = t.eu ∧
      (u.su.keepalive =
        if s.su.keepalive = .stopped then .stopped
        else Timer.start (s.cs.active.keepalive.toNat * 1000)) ∧
      u.pf = { s.pf with phase := .opened, assembly := [], shieldPending := false } ∧
      u.cl = { s.cl with receiver := .idle, breakTimer := .stopped } ∧
      u.rd = s.rd ∧ u.ae = s.ae ∧ u.bc = s.bc ∧ u.ledger = s.ledger ∧ u.array = s.array ∧
      u.pu = s.pu ∧ u.cs = s.cs) ∧
    (kept = s.eu.log ∨ v.eu.lost = 0 ∨ 16 ≤ v.eu.log.length → s.atEnd h v = v) ∧
    (kept ≠ s.eu.log → v.eu.lost ≠ 0 → v.eu.log.length < 16 →
      s.atEnd h v = { v with eu := { v.eu with
        log := v.eu.log ++
          [{ serial := v.eu.nextSerial, event := .lostEvents v.eu.lost, time := v.sr.tick, inFlight := false }]
        lost := 0, nextSerial := v.eu.nextSerial + 1 } })

/-- An ACK with a valid Nr acknowledges and sets host Busy from its payload (R67); a REJ acknowledges, is counted,
and, unless the window is then empty, sets up a pass with one more try or, past the limit, ends the session (R68).
Records that left the log are followed by LOST_EVENTS at the step's end (R185). -/
def Obligations.AckAndRejAct : Prop :=
  ∀ (s : State) (h : ParcelHead) (payload : List Byte),
    s.hears = true → s.su.link = .attached →
    (h.nr - s.su.va).toNat ≤ (s.su.vs - s.su.va).toNat →
      let s1 := (s.delivered.touchKeepalive).acknowledge h.nr
      let retries := (if h.nr = s.su.va then s.su.retry else 0) + 1
      (exec (.ackReceived h payload) s = .next
        (s.atEnd h { s1 with su := { s1.su with
          hostBusy := match payload with
            | [] => false
            | b :: _ => b.getLsbD 0 } })) ∧
      (h.nr = s.su.vs → exec (.rejReceived h payload) s = .next
        (s.atEnd h { s1 with su := { s1.su with rejReceived := s1.su.rejReceived + 1 } })) ∧
      (h.nr ≠ s.su.vs → retries ≤ s.cs.active.retryLimit.toNat →
        exec (.rejReceived h payload) s = .next
          (s.atEnd h { s1 with su := { s1.su with
            rejReceived := s1.su.rejReceived + 1
            retry := retries
            pass := s1.su.window.map (fun e => e.ns)
            retransmit := .running (s.cs.active.retransmitTimeout.toNat * 10) } })) ∧
      (h.nr ≠ s.su.vs → s.cs.active.retryLimit.toNat < retries → s.bc.state ≠ .parked →
        Answers (exec (.rejReceived h payload) s) (fun t =>
          t.su.link = .detached ∧ t.su.reason = .retryExhausted ∧ t.su.pass = [] ∧
          t.su.window = [] ∧ t.rd = s.rd.tornDown))

/-! ### Classification and acceptance (sections 4.4, 5.3) -/

/-- A REQ with a valid Nr that is not the next one, or that finds no Free slot, is discarded: busy, one REJ for a
gap, counted as wild, or acknowledged again as a repeat (R63, R65, R66). -/
def Obligations.RequestsAreClassified : Prop :=
  ∀ (s : State) (c : Instr) (h : ParcelHead) (r : Request),
    s.hears = true → s.su.link = .attached →
    (h.nr - s.su.va).toNat ≤ (s.su.vs - s.su.va).toNat → requestOf c = some (h, r) →
      let s1 := (s.delivered.touchKeepalive).acknowledge h.nr
      let d := (h.ns - s.su.vr).toNat
      (d = 0 → s.rd.slots.all (fun x => x.state != .free) = true →
        exec c s = .next
          (s.atEnd h { s1 with su := { s1.su with busyReported := true, busyNotePending := true } })) ∧
      (1 ≤ d → d ≤ 3 → exec c s = .next
        (s.atEnd h { s1 with su := { s1.su with
          rejectSent := true, rejPending := s1.su.rejPending || !s1.su.rejectSent } })) ∧
      (4 ≤ d → d ≤ 11 → exec c s = .next
        (s.atEnd h { s1 with su := { s1.su with wild := s1.su.wild + 1 } })) ∧
      (12 ≤ d → exec c s = .next (s.atEnd h { s1 with su := { s1.su with ackOwed := true } }))

/-- The form check of R84 with the lengths of the request code table, and the static checks of every request: the
failing status with the result octets it carries, or none (R85, R115, R118, R123, R125, R134, R169, R188, R192,
R202, R204, R208). -/
def Obligations.StaticChecks : Prop :=
  ∀ (payload data sectors : List Byte) (pairs : List (Byte × Byte)) (record : Settings) (addr len : Word24)
    (count mode b w : Byte) (mask : Word16),
    let code := (payload.headD 0).toNat
    let shortest := [0, 5, 6, 7, 2, 1, 1, 1, 2, 2, 2, 1, 3, 1, 3, 13, 2, 1, 4, 2, 1].getD code 0
    let longest := [0, 5, 69, 7, 17, 1, 1, 1, 2, 2, 2, 1, 3, 1, 17, 13, 2, 1, 4, 2, 65].getD code 0
    let lows : List Nat := [0, 2, 1, 0, 0, 0, 0, 1, 1, 0, 0, 0]
    let highs : List Nat := [7, 255, 15, 60, 255, 250, 1, 8, 50, 1, 1, 255]
    let outside (k v : Nat) : Bool := v < lows.getD k 0 || highs.getD k 0 < v
    let refused (bad : Bool) : Option (Status × List Byte) := if bad then some (.badParam, []) else none
    let indexed (place : Option Nat) : Option (Status × List Byte) :=
      place.map (fun n => (.badParam, [octet n]))
    (formOk payload = true ↔ payload ≠ [] ∧ 1 ≤ code ∧ code ≤ 20 ∧ shortest ≤ payload.length ∧
      payload.length ≤ longest ∧ (code = 14 → payload.length % 2 = 1)) ∧
    (staticCheck (.read addr count) =
      if count.toNat = 0 ∨ 64 < count.toNat then some (.badParam, [])
      else if 524288 < addr.toNat + count.toNat then some (.range, [])
      else none) ∧
    (staticCheck (.program mode addr data) =
      if 2 < mode.toNat then some (.badParam, [])
      else if 524288 ≤ addr.toNat ∨ 256 < addr.toNat % 256 + data.length then some (.range, [])
      else none) ∧
    (staticCheck (.checkRegion addr len) =
      if len.toNat = 0 ∨ 524288 < len.toNat then some (.badParam, [])
      else if 524288 < addr.toNat + len.toNat then some (.range, [])
      else none) ∧
    (staticCheck (.eraseSectors sectors) = refused (sectors.any (fun k => 63 < k.toNat))) ∧
    (staticCheck (.sectorInfo b) = refused (63 < b.toNat)) ∧
    (staticCheck (.protectGroup b) = refused (15 < b.toNat)) ∧
    (staticCheck (.configSet pairs) = indexed (pairs.findIdx? (fun p =>
      p.1.toNat == 0 || 10 < p.1.toNat || outside p.1.toNat p.2.toNat))) ∧
    (staticCheck (.configStore record) = indexed ((List.range 12).find? (fun k =>
      outside k (record.octets.getD k 0).toNat))) ∧
    (staticCheck (.status b) = refused (1 < b.toNat)) ∧
    (staticCheck (.attnControl b w count) = refused (1 < w.toNat)) ∧
    (staticCheck (.logTake b) = refused (b.toNat < 1 || 4 < b.toNat)) ∧
    ([.eraseAll, .parkErase, .unparkErase, .cancel b, .unprotectAll, .lockGroups mask, .configGet, .identify,
      .ping data].all (fun r => staticCheck r == none) = true)

/-- A next request that fails the duplicate-tag, form or static check is answered with the failing status in its
slot, and nothing else changes (R84, R85, R91, R92). A request with no entry in the request code table is answered
BAD_REQUEST. The model's choice: the lowest-numbered Free slot is taken (assumption 19), how UNKNOWN_REQUEST is
read (31). -/
def Obligations.RequestsRefusedAtAcceptance : Prop :=
  ∀ (s : State) (c : Instr) (h : ParcelHead) (r : Request) (i : Nat) (st : Status) (results payload : List Byte),
    s.hears = true → s.su.link = .attached →
    (h.nr - s.su.va).toNat ≤ (s.su.vs - s.su.va).toNat → h.ns = s.su.vr → s.freeSlot = some i →
    requestOf c = some (h, r) →
      (s.tagInUse i h.tag = true → exec c s = .next (s.answers h i r [r.code, 21])) ∧
      (s.tagInUse i h.tag = false → formOk r.payload = false →
        exec c s = .next (s.answers h i r [r.code, 1])) ∧
      (s.tagInUse i h.tag = false → formOk r.payload = true →
        staticCheck r = some (st, results) →
        exec c s = .next (s.answers h i r (r.code :: st.code :: results))) ∧
      (s.tagInUse i h.tag = false → c = .unknownRequest h payload →
        exec c s = .next (s.answers h i r [payload.headD 0, 1]))

/-! ### Immediate requests -/

/-- PING is answered OK with its data, and does nothing else (R210); with more than 64 octets it fails the form
check. -/
def Obligations.PingEchoes : Prop :=
  ∀ (s : State) (h : ParcelHead) (i : Nat) (data : List Byte),
    s.takes h i = true →
      (data.length ≤ 64 → exec (.ping h data) s = .next (s.answers h i (.ping data) (0x14 :: 0 :: data))) ∧
      (64 < data.length → exec (.ping h data) s = .next (s.answers h i (.ping data) [0x14, 1]))

/-- IDENTIFY is answered OK with the fixed facts of the part and its unique serial, and does nothing else (R207).
-/
def Obligations.IdentifyReports : Prop :=
  ∀ (s : State) (h : ParcelHead) (i : Nat), s.takes h i = true →
    exec (.identify h) s = .next
      (s.answers h i .identify
        ([0x11, 0, 0x47, 0x41, 0x60, 1, 64, 0x20, 0x00, 4, 8, 4, 72] ++ octets64 Config.uniqueSerial))

/-- CONFIG_GET reports the active record and the current stored one (R201); SECTOR_INFO reports a sector (R125);
both do nothing else. A sector number above 63 is answered BAD_PARAM. -/
def Obligations.ReportsAnswer : Prop :=
  ∀ (s : State) (h : ParcelHead) (i : Nat) (k : Byte), s.takes h i = true →
    (exec (.configGet h) s = .next
      (s.answers h i .configGet
        ([0x0D, 0] ++ s.cs.active.octets ++
          (match s.cs.current with
            | some id => 1 :: (Settings.ofOctets (s.cs.copy id).octets).octets
            | none => List.replicate 13 0)))) ∧
    (k.toNat < 64 →
      exec (.sectorInfo h k) s = .next
        (s.answers h i (.sectorInfo k)
          (let e := s.entry k.toNat
           let g := k.toNat / 4
           [0x09, 0, k, e.condition.code] ++ octets24 (BitVec.ofNat 24 e.wear) ++
            [octet g,
              bitsOctet [s.pu.protectBits.getLsbD g, s.pu.lockMask.getLsbD g,
                s.isProtected k.toNat, s.pu.marker],
              (if s.bc.state = .none then 0
               else match s.bc.role k.toNat with
                | none => 0
                | some .pending => 1
                | some .erasing => 2
                | some (.done _) => 3),
              (if s.bc.state = .none then 0
               else match s.bc.role k.toNat with
                | some (.done o) => o.code
                | _ => 0)]))) ∧
    (64 ≤ k.toNat → exec (.sectorInfo h k) s = .next (s.answers h i (.sectorInfo k) [0x09, 2]))

/-- STATUS reports the device as it stands at its own acceptance, its own slot counted, and with bit 0 of its flags
sets the fifteen counters to 0 after reading them (R208, R209); flags above 1 are answered BAD_PARAM. -/
def Obligations.StatusReportsAndClears : Prop :=
  ∀ (s : State) (h : ParcelHead) (i : Nat) (flags : Byte),
    s.takes h i = true →
      let s1 := s.beforeAcceptance h
      let flagBits := bitsOctet [s.cl.held, s.su.hostBusy, s.ae.supplyLow, s.pu.maintLevel]
      let results : List Byte :=
        [1, s.su.epoch, octet s.su.vs.toNat, octet h.nr.toNat, octet (s.su.vr + 1).toNat,
         octet (s.su.vs - h.nr).toNat, flagBits, octet (s.slotsUsed + 1), octet s.rd.queue.length,
         s.ae.engine.code, s.bc.state.code, octet s.bc.pendingSectors.length, octet s.eu.lost,
         octet s1.eu.log.length] ++
        ([s.pf.counters.runt, s.pf.counters.length, s.pf.counters.check, s.pf.counters.unknownClass,
          s.pf.counters.wrongDirection, s.pf.counters.abort, s.pf.counters.escapeViolation,
          s.pf.counters.overlong, s.pf.counters.framing, s.su.unattached, s.su.wild,
          s.su.retransmitted, s.su.rejSent, s.su.rejReceived, s.su.busyAcks].flatMap octets16)
      let t := s.answers h i (.status flags) ([0x10, 0] ++ results)
      (flags = 0 ∨ flags = 1 → exec (.status h flags) s = .next
        (if flags = 1 then
          { t with
            pf := { t.pf with counters := {} }
            su := { t.su with
              unattached := 0, wild := 0, retransmitted := 0, rejSent := 0, rejReceived := 0
              busyAcks := 0 } }
         else t)) ∧
      (2 ≤ flags.toNat → exec (.status h flags) s = .next (s.answers h i (.status flags) [0x10, 2]))

/-- CONFIG_SET with a failing pair is answered BAD_PARAM with the index of the first one, nothing applied;
otherwise it applies its pairs, the last pair of a field winning, answers with the whole active record, and
restarts, starts or stops the keepalive timer exactly if field 4 has changed (R202, R203). -/
def Obligations.ConfigSetApplies : Prop :=
  ∀ (s : State) (h : ParcelHead) (i id : Nat) (pairs : List (Byte × Byte)),
    s.takes h i = true → 1 ≤ pairs.length → pairs.length ≤ 8 →
      (id < pairs.length → pairBad (pairs.getD id (0, 0)) = true → (pairs.take id).all (fun p => !pairBad p) = true →
        exec (.configSet h pairs) s = .next (s.answers h i (.configSet pairs) [0x0E, 2, octet id])) ∧
      (pairs.all (fun p => !pairBad p) = true → Answers (exec (.configSet h pairs) s) (fun t =>
        let s1 := s.beforeAcceptance h
        let u := s.answers h i (.configSet pairs) ([0x0E, 0] ++ t.cs.active.octets)
        (id < 12 → t.cs.active.octets.getD id 0 =
          match pairs.reverse.find? (fun p => p.1.toNat == id) with
          | some p => p.2
          | none => s.cs.active.octets.getD id 0) ∧
        t.cs.copy0 = s.cs.copy0 ∧ t.cs.copy1 = s.cs.copy1 ∧ t.cs.defaulted = s.cs.defaulted ∧
        t.rd = u.rd ∧
        t.su = { s1.su with
          keepalive :=
            if t.cs.active.keepalive = s.cs.active.keepalive then s1.su.keepalive
            else if t.cs.active.keepalive = 0 then .stopped
            else .running (t.cs.active.keepalive.toNat * 1000) } ∧
        t.cl = s1.cl ∧ t.pf = s1.pf ∧ t.ae = s.ae ∧ t.bc = s.bc ∧ t.eu = u.eu ∧ t.pu = s.pu ∧
        t.ledger = s.ledger ∧ t.array = s.array))

/-- LOCK_GROUPS ORs its mask into the lock mask and answers with the result; nothing else changes (R174). -/
def Obligations.LockGroupsLocks : Prop :=
  ∀ (s : State) (h : ParcelHead) (i : Nat) (mask : Word16), s.takes h i = true →
    let now := s.pu.lockMask ||| mask
    exec (.lockGroups h mask) s = .next
      { s.answers h i (.lockGroups mask) ([0x0C, 0] ++ octets16 now) with
        pu := { s.pu with lockMask := now } }

/-- ATTN_CONTROL reports the raw, enable and pending sets as they stood, then clears latched causes by its mask
and, if asked, writes the enable set, and ATTNn follows the new sets; nothing else changes; a write-enable flag
above 1 is answered BAD_PARAM (R192). -/
def Obligations.AttnControlReadsThenClears : Prop :=
  ∀ (s : State) (h : ParcelHead) (i : Nat) (clearMask writeEnable enableMask : Byte),
    s.takes h i = true →
      let s1 := s.beforeAcceptance h
      let waiting := s1.eu.log.any (fun r => !r.inFlight) && !s1.su.noticesWanted
      let raw := s1.eu.latched ||| (if waiting then 0x04 else 0)
      (writeEnable.toNat ≤ 1 → exec (.attnControl h clearMask writeEnable enableMask) s = .next
        (s.atEnd h { s1.withAnswer i h.tag (.attnControl clearMask writeEnable enableMask)
            [0x12, 0, raw, s1.eu.enable, raw &&& s1.eu.enable] with
          eu := { s1.eu with
            latched := s1.eu.latched &&& ~~~clearMask
            enable := if writeEnable = 1 then enableMask else s1.eu.enable } })) ∧
      (writeEnable.toNat ≤ 1 →
        Answers (exec (.attnControl h clearMask writeEnable enableMask) s) (fun t =>
          t.attnLevel = if t.rawSet &&& t.eu.enable = 0 then .released else .low)) ∧
      (2 ≤ writeEnable.toNat → exec (.attnControl h clearMask writeEnable enableMask) s = .next
        (s.answers h i (.attnControl clearMask writeEnable enableMask) [0x12, 2]))

/-- LOG_TAKE returns and removes the oldest records, up to its maximum, and a LOST_EVENTS record closes the step if
events were lost; while notices are wanted it is answered NOTICES_ACTIVE (R185, R188), and a maximum outside 1..4
BAD_PARAM. -/
def Obligations.LogTakeRemovesOldest : Prop :=
  ∀ (s : State) (h : ParcelHead) (i : Nat) (maximum : Byte),
    s.takes h i = true →
      let s1 := s.beforeAcceptance h
      let taken := s1.eu.log.take maximum.toNat
      let left := s1.eu.log.drop maximum.toNat
      let reported : LogRecord :=
        { serial := s1.eu.nextSerial, event := .lostEvents s1.eu.lost, time := s.sr.tick
          inFlight := false }
      let t := s1.withAnswer i h.tag (.logTake maximum)
        ([0x13, 0, octet taken.length] ++ taken.flatMap LogRecord.octets)
      let allowed : Bool := 1 ≤ maximum.toNat && maximum.toNat ≤ 4
      (allowed = false → exec (.logTake h maximum) s = .next (s.answers h i (.logTake maximum) [0x13, 2])) ∧
      (allowed = true → s.su.noticesWanted = true →
        exec (.logTake h maximum) s = .next (s.answers h i (.logTake maximum) [0x13, 19])) ∧
      (allowed = true → s.su.noticesWanted = false → (taken = [] ∨ s1.eu.lost = 0) →
        exec (.logTake h maximum) s = .next (s.atEnd h { t with eu := { s1.eu with log := left } })) ∧
      (allowed = true → s.su.noticesWanted = false → taken ≠ [] → s1.eu.lost ≠ 0 → s1.eu.log.length ≤ 16 →
        exec (.logTake h maximum) s = .next
          { t with eu := { s1.eu with
            log := left ++ [reported], lost := 0, nextSerial := s1.eu.nextSerial + 1 } })

/-- CANCEL (R103 to R105, R161 to R163). With no target NOT_FOUND; a Queued target is answered CANCELLED before the
CANCEL's OK; a Running or Answered target is left alone. A member leaves the batch, and the Pending sectors of its
list that no other member names leave the set; it is answered CANCELLED with its outcomes, or, orphaned, its slot is
Free and reported. Of what is left: the batch goes on while a sector is Pending or Erasing; with members and none it
completes; with neither it dissolves, nothing reported; with the sector in hand alone it stays. The model's choice: the
done sectors stay in the set beside that one (assumption 33). -/
def Obligations.CancelActs : Prop :=
  ∀ (s : State) (h : ParcelHead) (i j : Nat) (target : Byte) (m : Member),
    s.takes h i = true → s.coherent = true →
      let s1 := s.beforeAcceptance h
      let own : Slot := { state := .answered, tag := h.tag, request := .cancel target }
      let found := (s1.setSlot i own).cancelTarget target
      let n := s.rd.nextCompletion
      let x := s.slot j
      let gone (k : Nat) : Bool := m.sectors.contains k && s.bc.role k == some .pending &&
        !s.bc.members.any (fun o => o.slot != j && o.sectors.contains k)
      let set := s.bc.set.filter (fun e => !gone e.1)
      let members := s.bc.members.filter (fun o => o.slot != j)
      let busy (rl : Role) : Bool := rl == .pending || rl == .erasing
      let ended (v : EventUnit) : EventUnit := if s.losesRecords h.nr then v.lostReported s.sr.tick else v
      let told : EventUnit := (s1.eu.offered s.sr.tick (.orphanResult x.request.code x.tag .cancelled
        (m.sectors.countP (fun k => s.bc.role k == some (.done .erased)))
        (m.sectors.countP (fun k => s.bc.role k == some (.done .failed))))).raised 0x10
      let after : EventUnit := if x.orphaned then told else s1.eu
      (found = none → exec (.cancel h target) s = .next (s.answers h i (.cancel target) [0x08, 16, 0])) ∧
      (found = some j → x.state = .running → exec (.cancel h target) s = .next
        (s.answers h i (.cancel target) [0x08, 17, 2])) ∧
      (found = some j → (j = i ∨ x.state = .answered) → exec (.cancel h target) s = .next
        (s.answers h i (.cancel target) [0x08, 17, 4])) ∧
      (found = some j → x.state = .queued →
        Answers (exec (.cancel h target) s) (fun t =>
          j ∉ t.rd.queue ∧
          t.slot j = { x with state := .answered, completion := n, response := [x.request.code, 15] } ∧
          t.slot i = { own with completion := n + 1, response := [0x08, 0, 1] } ∧
          t.array = s.array)) ∧
      (found = some j → x.state = .batched → s.bc.members.find? (fun o => o.slot == j) = some m →
        s.rd.queue = [] →
        Answers (exec (.cancel h target) s) (fun t =>
          (x.orphaned = false → t.slot j = { x with
            state := .answered, completion := n
            response := [x.request.code, 15] ++
              eraseResults x.request m.sectors
                (fun k => if gone k then 4
                  else match s.bc.role k with
                    | some (.done o) => o.code
                    | _ => 0) }) ∧
          (x.orphaned = true → t.slot j = {}) ∧
          (t.slot i).state = .answered ∧ (t.slot i).tag = h.tag ∧ (t.slot i).response = [0x08, 0, 3] ∧
          t.bc.members.any (fun o => o.slot == j) = false ∧
          t.bc.set.any (fun e => gone e.1) = false ∧
          (members ≠ [] → set.any (fun e => busy e.2) = true →
            t.bc = { s.bc with set := set, members := members } ∧ t.eu = ended after ∧ t.ae = s.ae) ∧
          (members ≠ [] → set.any (fun e => busy e.2) = false →
            t.bc = {} ∧ t.eu.latched &&& 0x08 = 0x08) ∧
          (members = [] → set.any (fun e => e.2 == .erasing) = false →
            t.bc = {} ∧ t.eu = ended after ∧ t.ae = s.ae) ∧
          (members = [] → set.any (fun e => e.2 == .erasing) = true →
            t.bc = { s.bc with set := set, members := [] } ∧ t.eu = ended after ∧ t.ae = s.ae) ∧
          t.array = s.array ∧ t.ledger = s.ledger))

/-- PARK_ERASE and UNPARK_ERASE (R154, R156): with no batch NO_BATCH; parking closes gathering, stops the spacing
timer and keeps set, members and work; unparking returns the batch to Erasing: a suspended sector resumes at once, or
with none in hand the next Pending one is reached, if the engine is Idle and the supply is good; on a low supply every
unfinished sector is aborted and the batch completes (R143, R146); while the engine serves a request both wait. The
model's choice: an UNPARK before a pending suspension is reached lets the work go on, the spacing timer started
(assumption 15). -/
def Obligations.ParkAndUnpark : Prop :=
  ∀ (s : State) (h : ParcelHead) (i k : Nat) (rest : List Nat) (op : EraseOp),
    s.takes h i = true → s.coherent = true →
    let unparked : Batch := { s.bc with state := .erasing, gather := .stopped }
    let paced : Spacing := .running s.cs.active.yieldSpacing.toNat
    (s.bc.state = .none →
      exec (.parkErase h) s = .next (s.answers h i .parkErase [0x06, 18]) ∧
      exec (.unparkErase h) s = .next (s.answers h i .unparkErase [0x07, 18])) ∧
    (s.bc.state = .parked →
      exec (.parkErase h) s = .next (s.answers h i .parkErase [0x06, 0])) ∧
    (s.bc.state = .gathering ∨ s.bc.state = .erasing ∨ s.bc.state = .yielded →
      Answers (exec (.parkErase h) s) (fun t =>
        t.bc = { s.bc with state := .parked, gather := .stopped, spacing := .stopped } ∧
        (s.ae.engine ≠ .idle → t.ae = s.ae) ∧ (t.slot i).response = [0x06, 0] ∧
        t.array = s.array ∧ t.ledger = s.ledger) ∧
      exec (.unparkErase h) s = .next (s.answers h i .unparkErase [0x07, 0])) ∧
    (s.bc.state = .parked → s.ae.engine = .idle → s.bc.held = some op → s.ae.supplyLow = false →
      Answers (exec (.unparkErase h) s) (fun t =>
        t.ae.engine = .erasingSector op ∧ t.bc = { unparked with held := none, spacing := paced } ∧
        (t.slot i).response = [0x07, 0] ∧ t.array = s.array ∧ t.ledger = s.ledger)) ∧
    (s.bc.state = .parked → s.ae.engine = .idle → s.bc.held = none → s.bc.spacing = .stopped →
      s.ae.supplyLow = false → s.bc.pendingSectors = k :: rest → s.isProtected k = false →
      Answers (exec (.unparkErase h) s) (fun t =>
        t.ae.engine = .erasingSector { sector := k, phase := .preProgram, line := 0, pulses := 0 } ∧
        t.bc = { unparked with
          spacing := paced
          set := s.bc.set.map (fun e => if e.1 = k then (e.1, .erasing) else e) } ∧
        (t.slot i).response = [0x07, 0] ∧ t.array = s.array ∧
        t.ledger = s.ledger.set k { condition := .torn, wear := min 16777215 ((s.entry k).wear + 1) })) ∧
    (s.bc.state = .parked → s.ae.engine = .idle → (s.bc.held.isSome = true ∨ s.bc.pendingSectors = k :: rest) →
      s.ae.supplyLow = true → s.rd.queue = [] →
      Answers (exec (.unparkErase h) s) (fun t =>
        t.ae = s.ae ∧ t.bc = {} ∧ (s.bc.members ≠ [] → t.eu.latched &&& 0x08 = 0x08) ∧
        (t.slot i).response = [0x07, 0] ∧ t.array = s.array ∧ t.ledger = s.ledger)) ∧
    (s.bc.state = .parked → s.ae.engine.slot?.isSome = true →
      Answers (exec (.unparkErase h) s) (fun t =>
        t.ae = s.ae ∧ t.bc = unparked ∧
        (t.slot i).response = [0x07, 0] ∧ t.array = s.array ∧ t.ledger = s.ledger)) ∧
    (s.bc.state = .parked → s.ae.engine = .erasingSector op →
      Answers (exec (.unparkErase h) s) (fun t =>
        t.ae = s.ae ∧ t.bc = { unparked with spacing := paced } ∧
        (t.slot i).response = [0x07, 0] ∧ t.array = s.array ∧ t.ledger = s.ledger))

/-! ### Queued requests (section 5.4) -/

/-- A queued request that passes its static checks and finds the queue not empty is lined up at its end, its slot
Queued, and nothing else happens (R94, R99). -/
def Obligations.QueuedRequestsWait : Prop :=
  ∀ (s : State) (c : Instr) (h : ParcelHead) (r : Request) (i : Nat),
    s.takes h i = true → requestOf c = some (h, r) → r.queuedKind = true → formOk r.payload = true →
    staticCheck r = none → s.rd.queue ≠ [] →
      exec c s = .next
        (let t := (s.beforeAcceptance h).withSlot i .queued h.tag r
         s.atEnd h { t with rd := { t.rd with queue := s.rd.queue ++ [i] } })

/-- READ, PROGRAM and CHECK_REGION, with nothing in their way and their checks passed, start in their own
acceptance: the slot is Running and the engine holds the operation, with bit 0 of the condition octet set if the span
touches a Torn sector and bit 1 if it touches a Faulted one (R94, R98, R115, R117 to R119, R123). -/
def Obligations.ArrayRequestsStart : Prop :=
  ∀ (s : State) (h : ParcelHead) (i : Nat) (addr len : Word24) (count mode : Byte) (data : List Byte),
    s.takes h i = true → s.clearWay = true →
      let s1 := s.beforeAcceptance h
      let strict : Bool := if mode = 0 then s.cs.active.strictProgram == 1 else mode == 1
      let touched (c : Condition) (n : Nat) : Bool := (List.range 64).any (fun k =>
        addr.toNat / 8192 ≤ k && k ≤ (addr.toNat + n - 1) / 8192 && (s.entry k).condition == c)
      let condition (n : Nat) : Byte :=
        (if touched .torn n then 1 else 0) + (if touched .faulted n then 2 else 0)
      (1 ≤ count.toNat → count.toNat ≤ 64 → addr.toNat + count.toNat ≤ 524288 →
        exec (.read h addr count) s = .next
          (s.atEnd h { s1.withSlot i .running h.tag (.read addr count) with
            ae := { s.ae with
            engine := .reading
              { slot := i, addr := addr.toNat, count := count.toNat, got := []
                condition := condition count.toNat } } })) ∧
      (mode.toNat ≤ 2 → 1 ≤ data.length → data.length ≤ 64 → addr.toNat < 524288 →
        addr.toNat % 256 + data.length ≤ 256 → s.ae.supplyLow = false →
        (s.entry (addr.toNat / 8192)).condition = .normal → s.isProtected (addr.toNat / 8192) = false →
        (strict = true → ((List.range data.length).all (fun k =>
          data.getD k 0 &&& ~~~(s.array.read (addr.toNat + k)) == 0)) = true) →
        exec (.program h mode addr data) s = .next
          (s.atEnd h { s1.withSlot i .running h.tag (.program mode addr data) with
            ae := { s.ae with
            engine := .programming
              { slot := i, addr := addr.toNat, data := data, strict := strict, next := 0
                pulseCount := 0, pulsed := 0, shortfall := 0 } } })) ∧
      (1 ≤ len.toNat → addr.toNat < 524288 → addr.toNat + len.toNat ≤ 524288 →
        exec (.checkRegion h addr len) s = .next
          (s.atEnd h { s1.withSlot i .running h.tag (.checkRegion addr len) with
            ae := { s.ae with
            engine := .checking
              { slot := i, addr := addr.toNat, len := len.toNat, next := addr.toNat, crc := 0xFFFF
                condition := condition len.toNat } } }))

/-- PROTECT_GROUP, UNPROTECT_ALL and CONFIG_STORE, with nothing in their way and their checks passed, start in
their own acceptance (R94, R98, R169, R171, R204). -/
def Obligations.StoreRequestsStart : Prop :=
  ∀ (s : State) (h : ParcelHead) (i : Nat) (group : Byte) (record : Settings),
    s.takes h i = true → s.clearWay = true → s.ae.supplyLow = false →
      let s1 := s.beforeAcceptance h
      (group.toNat < 16 → s.pu.maintLevel = true →
        exec (.protectGroup h group) s = .next
          (s.atEnd h { s1.withSlot i .running h.tag (.protectGroup group) with
            ae := { s.ae with engine := .storing (.protect i group.toNat false 0) } })) ∧
      (s.pu.maintLevel = true → s.pu.lockMask = 0 →
        exec (.unprotectAll h) s = .next
          (s.atEnd h { s1.withSlot i .running h.tag .unprotectAll with
            ae := { s.ae with engine := .storing (.unprotect i false 0) } })) ∧
      ((List.range 12).all (fun k => fieldInRange k (record.octets.getD k 0)) = true →
        exec (.configStore h record) s = .next
          (s.atEnd h { s1.withSlot i .running h.tag (.configStore record) with
            ae := { s.ae with
            engine := .storing
              (.config i record
                (match s.cs.current with
                  | some .zero => .one
                  | some .one => .zero
                  | none => .zero)
                (match s.cs.current with
                  | some id => (s.cs.copy id).generation + 1
                  | none => 1)
                .clearMark) } }))

/-- A queued request refused at start, from an empty queue: the first failing dynamic check is its answer and nothing
else changes. With no batch and the engine Idle these are the checks of R98, R119, R169, R171 and R204; beside a batch
that is Erasing, Parked, or Yielded with the engine at work, an erase or protection request is answered ERASE_BUSY and
one whose span touches a sector of the set SECTOR_IN_ERASE (R115, R119, R123, R148). -/
def Obligations.RequestsRefusedAtStart : Prop :=
  ∀ (s : State) (c : Instr) (h : ParcelHead) (r : Request) (i k : Nat) (st : Status) (group mode count : Byte)
    (addr len : Word24) (data sectors : List Byte) (record : Settings),
    s.takes h i = true → requestOf c = some (h, r) → r.queuedKind = true →
    formOk r.payload = true → staticCheck r = none →
    let strict : Bool := if mode = 0 then s.cs.active.strictProgram == 1 else mode == 1
    let beside : Prop := s.rd.queue = [] ∧ (s.bc.state = .erasing ∨ s.bc.state = .parked ∨
      (s.bc.state = .yielded ∧ s.ae.engine ≠ .idle))
    let touches (n : Nat) : Bool := s.bc.set.any (fun e =>
      addr.toNat / 8192 ≤ e.1 && e.1 ≤ (addr.toNat + n - 1) / 8192)
    (s.clearWay = true → s.ae.supplyLow = true → r = .configStore record →
      exec c s = .next (s.answers h i r [r.code, 14])) ∧
    (s.clearWay = true → r = .protectGroup group →
      (st = if s.ae.supplyLow then .supplyLow else .maintRequired) →
      (s.ae.supplyLow = true ∨ s.pu.maintLevel = false) →
      exec c s = .next (s.answers h i r [r.code, st.code])) ∧
    (s.clearWay = true → r = .unprotectAll →
      (st = if s.ae.supplyLow then .supplyLow else if s.pu.maintLevel then .locked else .maintRequired) →
      (s.ae.supplyLow = true ∨ s.pu.maintLevel = false ∨ s.pu.lockMask ≠ 0) →
      exec c s = .next (s.answers h i r [r.code, st.code])) ∧
    (s.clearWay = true → r = .program mode addr data →
      (st = if s.ae.supplyLow then .supplyLow
        else if (s.entry (addr.toNat / 8192)).condition ≠ .normal then .sectorNeedsErase
        else .protected_) →
      (s.ae.supplyLow = true ∨ (s.entry (addr.toNat / 8192)).condition ≠ .normal ∨
        s.isProtected (addr.toNat / 8192) = true) →
      exec c s = .next (s.answers h i r [r.code, st.code])) ∧
    (s.clearWay = true → r = .program mode addr data → s.ae.supplyLow = false →
      (s.entry (addr.toNat / 8192)).condition = .normal → s.isProtected (addr.toNat / 8192) = false →
      strict = true → k < data.length → data.getD k 0 &&& ~~~(s.array.read (addr.toNat + k)) ≠ 0 →
      exec c s = .next (s.answers h i r [0x02, 10])) ∧
    (beside → r = .eraseSectors sectors ∨ r = .eraseAll ∨ r = .protectGroup group ∨ r = .unprotectAll →
      exec c s = .next (s.answers h i r [r.code, 8])) ∧
    (beside → (r = .read addr count ∧ touches count.toNat = true) ∨
      (r = .program mode addr data ∧ touches data.length = true) ∨
      (r = .checkRegion addr len ∧ touches len.toNat = true) →
      exec c s = .next (s.answers h i r [r.code, 7]))

/-- ERASE_SECTORS with a gather window creates a gathering batch of the distinct sectors it names, or joins a batch
that is Gathering, the timer restarted (R134, R138, R139). An ERASE_SECTORS with a gather window of 0, and an ERASE_ALL
whatever the window, make the batch Erasing: a batch of their own, or the Gathering one that they join and close (R135,
R138 to R141). While the engine serves a request the sector work waits for it; on an Idle engine and a good supply the
protected sectors of the set are skipped in order until one is not, which is opened, all in the same step (R126, R143);
if every one is protected the batch completes in that step, and on a low supply it completes with every sector aborted
(R143, R157 to R160). -/
def Obligations.EraseRequestsMakeABatch : Prop :=
  ∀ (s : State) (h : ParcelHead) (i j k : Nat) (sectors : List Byte) (later : List Nat),
    s.takes h i = true → s.coherent = true → s.rd.queue = [] →
      let s1 := s.beforeAcceptance h
      let named := (List.range 64).filter (fun n => sectors.any (fun b => b.toNat == n))
      let paced : Spacing :=
        if s.bc.spacing = .stopped then .running s.cs.active.yieldSpacing.toNat else s.bc.spacing
      let ended (v : EventUnit) : EventUnit := if s.losesRecords h.nr then v.lostReported s.sr.tick else v
      let erases (c : Instr) (r : Request) (mine : List Nat) : Prop :=
        let joined := s1.withSlot i .batched h.tag r
        let every := (List.range 64).filter (fun n => mine.contains n || (s.bc.role n).isSome)
        let batch : Batch := { s.bc with
          state := .erasing, gather := .stopped
          set := every.map (fun n => (n, .pending))
          members := s.bc.members ++ [{ slot := i, sectors := mine }] }
        let completes (o : SectorOutcome) : Prop := Answers (exec c s) (fun t =>
          let done : Batch := { batch with set := every.map (fun n => (n, .done o)) }
          t.bc = {} ∧ MembersSettled joined.rd done t.rd ∧
          t.eu = ended (s1.eu.batchEnded s.sr.tick joined.rd done) ∧ t.su = s1.su.batchEnded joined.rd done ∧
          t.ae = s.ae ∧ t.ledger = s.ledger ∧ t.array = s.array ∧ t.pu = s.pu ∧ t.cs = s.cs)
        (s.ae.engine ≠ .idle → exec c s = .next (s.atEnd h { joined with bc := batch })) ∧
        (s.ae.engine = .idle → s.ae.supplyLow = false → every.dropWhile s.isProtected = j :: later →
          exec c s = .next (s.atEnd h { joined with
            bc := { batch with
              set := every.map (fun n =>
                (n, if n < j then .done .skippedProtected else if n = j then .erasing else .pending))
              spacing := paced }
            ae := { s.ae with
              engine := .erasingSector { sector := j, phase := .preProgram, line := 0, pulses := 0 } }
            ledger := s.ledger.set j
              { condition := .torn, wear := min 16777215 ((s.entry j).wear + 1) } })) ∧
        (s.ae.engine = .idle → s.ae.supplyLow = false → every.all s.isProtected = true →
          completes .skippedProtected) ∧
        (s.ae.engine = .idle → s.ae.supplyLow = true → completes .abortedSupply)
      (1 ≤ sectors.length → sectors.length ≤ 16 → sectors.all (fun b => b.toNat < 64) = true →
        (s.cs.active.gatherWindow ≠ 0 → s.bc.state = .none → exec (.eraseSectors h sectors) s = .next
          (s.atEnd h { s1.withSlot i .batched h.tag (.eraseSectors sectors) with
            bc :=
              { state := .gathering
                set := named.map (fun n => (n, .pending))
                members := [{ slot := i, sectors := named }]
                held := none
                gather := .running s.cs.active.gatherWindow.toNat
                spacing := .stopped
                yieldCount := 0 } })) ∧
        (s.cs.active.gatherWindow ≠ 0 → s.bc.state = .gathering →
          Answers (exec (.eraseSectors h sectors) s) (fun t =>
            t.bc.state = .gathering ∧ t.bc.gather = .running s.cs.active.gatherWindow.toNat ∧
            t.bc.members = s.bc.members ++ [{ slot := i, sectors := named }] ∧
            ((s.bc.role k).isSome = true → t.bc.role k = s.bc.role k) ∧
            (s.bc.role k = none →
              t.bc.role k = if sectors.any (fun b => b.toNat == k) then some .pending else none) ∧
            (t.slot i).state = .batched ∧ t.rd.queue = [] ∧ t.ae = s.ae ∧ t.ledger = s.ledger ∧
            t.array = s.array)) ∧
        (s.cs.active.gatherWindow = 0 → s.bc.state = .none ∨ s.bc.state = .gathering →
          erases (.eraseSectors h sectors) (.eraseSectors sectors) named)) ∧
      (s.bc.state = .none ∨ s.bc.state = .gathering → erases (.eraseAll h) .eraseAll (List.range 64)) ∧
      (s.bc.state = .none → s.ae.engine = .idle → s.ae.supplyLow = true →
        exec (.eraseAll h) s = .next
          (s.atEnd h { s1.withAnswer i h.tag .eraseAll
              ([0x05, 14, 0, 0, 0, 64, 0] ++ List.replicate 16 0) with
            eu := s1.eu.raised 0x08 }))

/-! ### Engine steps (chapters 6, 8 and 10) -/

/-- READ_COMPLETE answers the READ with the condition octet and the octets of its span, each read as stored where its
sector is Normal (R116, R117); CHECK_REGION_STEP takes one program line into the register, its octets read in the same
way, and answers with the condition octet and the CRC at the end (R113, R124). Neither changes the array. The model's
choice: the octets read from a Torn or Faulted sector are free values, counted as they are handed out (assumption 9);
what pulses leave in stored octets (10). -/
def Obligations.ReadsAndChecksComplete : Prop :=
  ∀ (s : State) (rop : ReadOp) (cop : CheckOp), s.coherent = true →
    let readOctets (start n : Nat) : List Byte := (List.range n).map (fun k =>
      if (s.entry ((start + k) / 8192)).condition = .normal then s.array.read (start + k)
      else Config.freeByte (s.freeCount + k))
    (s.ae.engine = .reading rop → rop.got = [] → (s.slot rop.slot).orphaned = false →
      Answers (exec .readComplete s) (fun t =>
        t.slot rop.slot = { s.slot rop.slot with
          state := .answered, completion := s.rd.nextCompletion
          response := [(s.slot rop.slot).request.code, 0, rop.condition] ++ readOctets rop.addr rop.count } ∧
        t.array = s.array)) ∧
    (s.ae.engine = .checking cop →
      let n := min (256 - cop.next % 256) (cop.addr + cop.len - cop.next)
      let crc := crcFrom cop.crc (readOctets cop.next n)
      (cop.next + n < cop.addr + cop.len →
        exec .checkRegionStep s = .next
          { s with
            freeCount := s.freeCount + n
            ae := { s.ae with engine := .checking { cop with next := cop.next + n, crc := crc } } }) ∧
      (cop.addr + cop.len ≤ cop.next + n → (s.slot cop.slot).orphaned = false →
        Answers (exec .checkRegionStep s) (fun t =>
          t.slot cop.slot = { s.slot cop.slot with
            state := .answered, completion := s.rd.nextCompletion
            response := [(s.slot cop.slot).request.code, 0, cop.condition] ++ octets16 crc } ∧
          t.array = s.array)))

/-- An orphaned request that ends, with no batch and an empty queue, logs ORPHAN_RESULT with its code, tag, status and
both counts 0 and raises ORPHAN, and its slot becomes Free with no response (R100, R182): a READ and a CHECK_REGION; a
PROGRAM, OK or PROGRAM_FAULT (R131); a protect-store write (R173) and a CONFIG_STORE (R206), OK or STORE_FAULT; and each
of the three writes, SUPPLY_LOW, that a supply-low entry abandons (R8), after the record of the entry itself. The model's
choice: what the pulses do is the operand (assumption 13). -/
def Obligations.OrphansAreReported : Prop :=
  ∀ (s : State) (j slot group n : Nat) (rop : ReadOp) (cop : CheckOp) (op : ProgramOp) (d : Byte) (pulses : List Byte)
    (record : Settings) (id : CopyId) (g : Byte) (stage : CopyStage) (bits cells : Word16) (rxd : Bool),
    s.coherent = true → s.ae.engine.slot? = some j → (s.slot j).orphaned = true → s.bc = {} → s.rd.queue = [] →
    let told (u : EventUnit) (st : Status) : EventUnit := (u.offered s.sr.tick
      (.orphanResult (s.slot j).request.code (s.slot j).tag st 0 0)).raised 0x10
    let ends (c : Instr) (st : Status) : Prop := Answers (exec c s) (fun t =>
      t.eu = told s.eu st ∧ t.rd = { s.rd with slots := s.rd.slots.set j {} } ∧ t.su = s.su.slotFreed ∧
      t.ae = { s.ae with engine := .idle } ∧ t.bc = s.bc ∧ t.ledger = s.ledger)
    let reads (c : Instr) : Prop := Answers (exec c s) (fun t => t.array = s.array ∧ t.cs = s.cs ∧ t.pu = s.pu)
    let cleared := (pulses.take 16).foldl (fun acc p => acc ||| p) 0
    let old := s.array.read (op.addr + op.next)
    let left := old &&& ((old &&& d) ||| ~~~cleared)
    let c := s.cs.copy id
    let want := (copyImage record g).getD n 0xFF
    let was := c.octets.getD n 0xFF
    (s.ae.engine = .reading rop → ends .readComplete .ok ∧ reads .readComplete) ∧
    (s.ae.engine = .checking cop →
      cop.addr + cop.len ≤ cop.next + min (256 - cop.next % 256) (cop.addr + cop.len - cop.next) →
      ends .checkRegionStep .ok ∧ reads .checkRegionStep) ∧
    (s.ae.engine = .programming op → op.data[op.next]? = some d → op.pulseCount = 0 →
      (left = old &&& d → op.data.length ≤ op.next + 1 → ends (.programStep pulses) .ok) ∧
      (left ≠ old &&& d → ends (.programStep pulses) .programFault)) ∧
    (s.ae.engine = .storing (.protect slot group false n) → s.pu.protectBits.getLsbD group = true →
      ends (.protectGroupStep rxd) .ok) ∧
    (s.ae.engine = .storing (.protect slot group true n) →
      ends (.protectGroupStep true) .ok ∧ (16 ≤ n + 1 → ends (.protectGroupStep false) .storeFault)) ∧
    (s.ae.engine = .storing (.unprotect slot true n) →
      ends (.unprotectAllStep 0 0) .ok ∧
      (bits ≠ 0 ∨ cells ≠ 0 → 100 ≤ n + 1 → ends (.unprotectAllStep bits cells) .storeFault)) ∧
    (s.ae.engine = .storing (.config slot record id g stage) →
      (stage = .eraseCopy n → 100 ≤ n + 1 → ends (.configStoreStep false pulses) .storeFault) ∧
      (stage = .programOctet n 0 → was &&& ((was &&& want) ||| ~~~cleared) ≠ was &&& want →
        ends (.configStoreStep rxd pulses) .storeFault) ∧
      (stage = .commit → ends (.configStoreStep rxd pulses) .ok)) ∧
    (s.ae.engine.writesNothing = false → s.isRunning = true → s.sr.monitor = .normal →
      Answers (exec (.supplyLowEntry rxd) s) (fun t =>
        t.eu = told ((s.eu.offered s.sr.tick .supplyLow).raised 0x40) .supplyLow ∧
        t.rd = { s.rd with slots := s.rd.slots.set j {} } ∧ t.su = s.su.slotFreed ∧
        t.ae = { s.ae with engine := .idle, supplyLow := true } ∧ t.bc = s.bc ∧ t.ledger = s.ledger ∧
        t.cs = s.cs ∧ t.pu = s.pu))

/-- PROGRAM_STEP (R110, R120 to R122): no octet but the one in hand changes, that one only from 1 to 0 in bits that
are 0 in the target; the step goes on to the next octet or ends OK when the octet holds its target, and ends in
PROGRAM_FAULT with the octet's offset when sixteen pulses have left a bit uncleared. The model's choice: which bits
a pulse clears is the operand (assumption 13). -/
def Obligations.ProgramStepClearsBits : Prop :=
  ∀ (s : State) (op : ProgramOp) (pulses : List Byte) (d : Byte) (a : Nat),
    s.coherent = true → s.array.wf = true → s.ae.engine = .programming op → op.data[op.next]? = some d →
    op.pulseCount = 0 → (s.slot op.slot).orphaned = false →
      let old := s.array.read (op.addr + op.next)
      let target := old &&& d
      let cleared := (pulses.take 16).foldl (fun acc p => acc ||| p) 0
      let left := old &&& (target ||| ~~~cleared)
      let pulsed := if target = old then op.pulsed else op.pulsed + 1
      let short := if target = d then op.shortfall else op.shortfall + 1
      Answers (exec (.programStep pulses) s) (fun t =>
        t.array.read a = (if a = op.addr + op.next then left else s.array.read a) ∧
        (left = target → op.next + 1 < op.data.length →
          t = { s with
            array := t.array
            ae := { s.ae with
            engine := .programming
              { op with
                next := op.next + 1, pulseCount := 0, pulsed := pulsed, shortfall := short } } }) ∧
        (left = target → op.data.length ≤ op.next + 1 →
          t.slot op.slot = { s.slot op.slot with
            state := .answered, completion := s.rd.nextCompletion
            response := [(s.slot op.slot).request.code, 0, octet pulsed, octet short] }) ∧
        (left ≠ target →
          t.slot op.slot = { s.slot op.slot with
            state := .answered, completion := s.rd.nextCompletion
            response := [(s.slot op.slot).request.code, 11, octet op.next] }))

/-- PROTECT_GROUP_STEP (R170): a bit that is set already ends the request with nothing written; a pulse that
verifies commits the bit; a sixteenth that does not ends in STORE_FAULT with the bit clear. UNPROTECT_ALL_STEP
(R172): the opening step sets the marker; a pulse after which all reads clear ends the request with the marker
cleared; the hundredth that leaves something ends in STORE_FAULT with the marker set. The model's choice: what the
pulses verify is the operand (assumption 13), a write cell is one bit (28). -/
def Obligations.ProtectStoreSteps : Prop :=
  ∀ (s : State) (slot group n : Nat) (verified : Bool) (bits cells : Word16), s.coherent = true →
    (s.slot slot).orphaned = false →
    let answered (code : Byte) : Slot := { s.slot slot with
      state := .answered, completion := s.rd.nextCompletion
      response := [(s.slot slot).request.code, code] }
    (s.ae.engine = .storing (.protect slot group false n) →
      Answers (exec (.protectGroupStep verified) s) (fun t =>
        t.pu = s.pu ∧ t.array = s.array ∧
        (s.pu.protectBits.getLsbD group = true → t.slot slot = answered 0) ∧
        (s.pu.protectBits.getLsbD group = false →
          t = { s with ae := { s.ae with engine := .storing (.protect slot group true 0) } }))) ∧
    (s.ae.engine = .storing (.protect slot group true n) →
      Answers (exec (.protectGroupStep verified) s) (fun t =>
        t.pu.marker = s.pu.marker ∧ t.pu.lockMask = s.pu.lockMask ∧ t.array = s.array ∧
        (verified = true →
          t.pu.protectBits = s.pu.protectBits ||| (1 <<< group) ∧ t.slot slot = answered 0) ∧
        (verified = false → t.pu.protectBits = s.pu.protectBits ∧
          (n + 1 < 16 → t.ae.engine = .storing (.protect slot group true (n + 1))) ∧
          (16 ≤ n + 1 → t.slot slot = answered 20)))) ∧
    (s.ae.engine = .storing (.unprotect slot false n) →
      exec (.unprotectAllStep bits cells) s = .next
        { s with
          pu := { s.pu with marker := true }
          ae := { s.ae with engine := .storing (.unprotect slot true 0) } }) ∧
    (s.ae.engine = .storing (.unprotect slot true n) →
      Answers (exec (.unprotectAllStep bits cells) s) (fun t =>
        t.pu.protectBits = bits ∧ t.pu.lockMask = s.pu.lockMask ∧ t.array = s.array ∧
        (bits = 0 ∧ cells = 0 → t.pu.marker = false ∧ t.slot slot = answered 0) ∧
        (bits ≠ 0 ∨ cells ≠ 0 → t.pu.marker = s.pu.marker ∧
          (n + 1 < 100 → t.ae.engine = .storing (.unprotect slot true (n + 1))) ∧
          (100 ≤ n + 1 → t.slot slot = answered 20))))

/-- CONFIG_STORE_STEP (R205): the stages of the write, over the target copy alone. An octet of stage 3 is programmed as an
octet of a PROGRAM is (R120): a pulse clears bits that the record wants clear and no others; an octet that then holds what
it should leads on, one that does not after its sixteenth pulse ends the request in STORE_FAULT. A commit makes the new
record the current stored one, whatever the other copy holds, and leaves the active record (R199). The model's choice:
what the pulses do is the operand (assumption 13). -/
def Obligations.ConfigStoreSteps : Prop :=
  ∀ (s : State) (slot n : Nat) (record : Settings) (id : CopyId) (g : Byte) (stage : CopyStage)
    (erased : Bool) (pulses : List Byte), s.coherent = true → (s.slot slot).orphaned = false →
    s.ae.engine = .storing (.config slot record id g stage) →
    let c := s.cs.copy id
    let answered (code : Byte) : Slot := { s.slot slot with
      state := .answered, completion := s.rd.nextCompletion
      response := [(s.slot slot).request.code, code] }
    let goes (c' : StoredCopy) (next : CopyStage) : Result := .next
      { s with
        cs := s.cs.setCopy id c'
        ae := { s.ae with engine := .storing (.config slot record id g next) } }
    let old := c.octets.getD n 0xFF
    let target := old &&& (copyImage record g).getD n 0xFF
    let left := old &&& (target ||| ~~~((pulses.take 16).foldl (fun acc p => acc ||| p) 0))
    let programmed : StoredCopy := { c with octets := c.octets.set n left }
    Answers (exec (.configStoreStep erased pulses) s) (fun t =>
      t.cs.copy id.other = s.cs.copy id.other ∧ t.cs.active = s.cs.active ∧ t.array = s.array ∧
      t.pu = s.pu) ∧
    (stage = .clearMark →
      exec (.configStoreStep erased pulses) s = goes { c with committed := false } (.eraseCopy 0)) ∧
    (stage = .eraseCopy n → erased = true →
      exec (.configStoreStep erased pulses) s =
        goes { c with octets := List.replicate 15 0xFF } (.programOctet 0 0)) ∧
    (stage = .eraseCopy n → erased = false → n + 1 < 100 →
      exec (.configStoreStep erased pulses) s = goes c (.eraseCopy (n + 1))) ∧
    (stage = .eraseCopy n → erased = false → 100 ≤ n + 1 →
      Answers (exec (.configStoreStep erased pulses) s) (fun t => t.slot slot = answered 20 ∧ t.cs.copy id = c)) ∧
    (stage = .programOctet n 0 → n < 15 → left = target →
      exec (.configStoreStep erased pulses) s =
        goes programmed (if n = 14 then .commit else .programOctet (n + 1) 0)) ∧
    (stage = .programOctet n 0 → left ≠ target →
      Answers (exec (.configStoreStep erased pulses) s) (fun t =>
        t.slot slot = answered 20 ∧ t.cs.copy id = programmed)) ∧
    (stage = .commit → c.octets = copyImage record g → record.inRange = true →
      ((s.cs.copy id.other).valid = true → g = (s.cs.copy id.other).generation + 1) →
      Answers (exec (.configStoreStep erased pulses) s) (fun t =>
        t.cs.current = some id ∧ Settings.ofOctets (t.cs.copy id).octets = record ∧
        t.slot slot = answered 0))

/-- SECTOR_ERASE_STEP (R127, R144, R145): a line or pulse counts and the work goes on; when every octet reads FFh the
sector is Normal and reads FFh throughout, every other octet as before; the two-thousandth pulse without that leaves it
Faulted with LEDGER_ATTENTION raised. Either way the next Pending sector is reached, protected ones skipped on the way in
the same step (R143). In a Parked batch the work is
suspended at the step's end, and in a Yielded one a request waiting at the head is then served, within the budget; with
none the yield ends and the work resumes at once (R151 to R154). A served READ that completes with an empty queue ends
the yield (R153). The model's choice: whether all reads FFh is the operand (assumption 13), pulses leave stored octets
alone (10). -/
def Obligations.SectorEraseSteps : Prop :=
  ∀ (s : State) (op : EraseOp) (all : Bool) (a k i : Nat) (rest : List Nat) (later : List Nat) (addr : Word24)
    (count : Byte) (rop : ReadOp),
    s.coherent = true →
      let working : Prop := s.ae.engine = .erasingSector op
      let paced : Spacing := .running s.cs.active.yieldSpacing.toNat
      let onward : EraseOp :=
        match op.phase with
        | .preProgram =>
          if op.line < 31 then { op with line := op.line + 1 } else { op with phase := .erase, line := 0 }
        | .erase => { op with pulses := op.pulses + 1 }
      let unended : Prop := op.phase = .preProgram ∨ (op.phase = .erase ∧ all = false ∧ op.pulses + 1 < 2000)
      (working → s.bc.state = .erasing → s.rd.queue = [] → op.phase = .preProgram →
        exec (.sectorEraseStep all) s = .next
          { s with ae := { s.ae with
            engine := .erasingSector
              (if op.line < 31 then { op with line := op.line + 1 }
               else { op with phase := .erase, line := 0 }) } }) ∧
      (working → s.bc.state = .erasing → s.rd.queue = [] → op.phase = .erase → all = false → op.pulses + 1 < 2000 →
        exec (.sectorEraseStep all) s = .next
          { s with ae := { s.ae with
            engine := .erasingSector
              { op with pulses := op.pulses + 1 } } }) ∧
      (working → s.bc.state = .erasing → s.rd.queue = [] → op.phase = .erase → all = true →
        Answers (exec (.sectorEraseStep all) s) (fun t =>
          (t.array.read a = if a / 8192 = op.sector then 0xFF else s.array.read a) ∧
          t.entry op.sector = { s.entry op.sector with condition := .normal })) ∧
      (working → s.bc.state = .erasing → s.rd.queue = [] → op.phase = .erase → all = false →
        2000 ≤ op.pulses + 1 →
        Answers (exec (.sectorEraseStep all) s) (fun t =>
          t.array.read a = s.array.read a ∧
          t.entry op.sector = { s.entry op.sector with condition := .faulted } ∧
          t.eu.latched &&& 0x20 = 0x20)) ∧
      (working → s.bc.state = .erasing → op.phase = .erase → all = true ∨ 2000 ≤ op.pulses + 1 →
        s.bc.pendingSectors.dropWhile s.isProtected = k :: rest → s.ae.supplyLow = false →
        Answers (exec (.sectorEraseStep all) s) (fun t =>
          t.ae.engine = .erasingSector { sector := k, phase := .preProgram, line := 0, pulses := 0 } ∧
          t.bc.set = s.bc.set.map (fun e =>
            if e.1 = op.sector then (e.1, .done (if all then .erased else .failed))
            else if e.1 = k then (e.1, .erasing)
            else if e.2 = .pending ∧ e.1 < k then (e.1, .done .skippedProtected)
            else e) ∧
          t.bc.state = .erasing ∧ t.bc.members = s.bc.members ∧ t.bc.held = none ∧
          t.entry k = { condition := .torn, wear := min 16777215 ((s.entry k).wear + 1) } ∧
          (s.bc.spacing ≠ .stopped → t.bc.spacing = s.bc.spacing))) ∧
      (working → s.bc.state = .parked → s.rd.queue = [] → unended →
        exec (.sectorEraseStep all) s = .next
          { s with
            ae := { s.ae with engine := .idle }
            bc := { s.bc with held := some onward } }) ∧
      (working → s.bc.state = .yielded → s.rd.queue = [] → unended → s.ae.supplyLow = false →
        exec (.sectorEraseStep all) s = .next
          { s with
            ae := { s.ae with engine := .erasingSector onward }
            bc := { s.bc with state := .erasing, held := none, gather := .stopped, spacing := paced } }) ∧
      (working → s.bc.state = .yielded → s.rd.queue = i :: later → unended →
        (s.slot i).request = .read addr count → s.headKind (.read addr count) = .runnable →
        s.cs.active.yieldEnable = 1 → s.bc.yieldCount < s.cs.active.yieldBudget.toNat →
        Answers (exec (.sectorEraseStep all) s) (fun t =>
          t.bc = { s.bc with held := some onward, yieldCount := s.bc.yieldCount + 1 } ∧
          t.ae.engine = .reading
            { slot := i, addr := addr.toNat, count := count.toNat, got := []
              condition := s.conditionOctet addr.toNat count.toNat } ∧
          (t.slot i).state = .running ∧ i ∉ t.rd.queue)) ∧
      (s.ae.engine = .reading rop → s.bc.state = .yielded → s.rd.queue = [] → s.bc.held = some op →
        s.ae.supplyLow = false →
        Answers (exec .readComplete s) (fun t =>
          t.ae.engine = .erasingSector op ∧
          t.bc = { s.bc with state := .erasing, held := none, gather := .stopped, spacing := paced }))

/-- A batch whose last sector's work ends completes (R145, R157): with no other sector Pending, or, Erasing, with all
the Pending ones skipped as protected (R143). Every member is answered in member-list order with the next completion
numbers: the outcomes of its own sectors, with the status of the four tests (R158), or the summary of the whole array
(R159); an orphaned one's slot is Free, and one ORPHAN_RESULT reports the batch for them (R160). ERASE_COMPLETE is
raised, the engine is Idle, and the batch is None again. With no member left it dissolves, nothing reported (R162). The
model's choice: whether all reads FFh is the operand (assumption 13). -/
def Obligations.BatchCompletes : Prop :=
  ∀ (s : State) (op : EraseOp) (all : Bool),
    s.coherent = true → s.ae.engine = .erasingSector op → op.phase = .erase → s.rd.queue = [] →
    all = true ∨ 2000 ≤ op.pulses + 1 →
    s.bc.pendingSectors = [] ∨ (s.bc.state = .erasing ∧ s.ae.supplyLow = false ∧
      s.bc.pendingSectors.all s.isProtected = true) →
      let outcome : SectorOutcome := if all then .erased else .failed
      let done : Batch := { s.bc with
        set := s.bc.set.map (fun e =>
          if e.1 = op.sector then (e.1, .done outcome)
          else if e.2 = .pending then (e.1, .done .skippedProtected)
          else e) }
      let noted := if all then s.eu else s.eu.raised 0x20
      Answers (exec (.sectorEraseStep all) s) (fun t =>
        t.bc = {} ∧ t.ae = { s.ae with engine := .idle } ∧ t.pu = s.pu ∧ t.cs = s.cs ∧
        (s.bc.members ≠ [] →
          MembersSettled s.rd done t.rd ∧ t.eu = noted.batchEnded s.sr.tick s.rd done ∧
          t.su = s.su.batchEnded s.rd done) ∧
        (s.bc.members = [] → t.rd = s.rd ∧ t.eu = noted ∧ t.su = s.su))

/-! ### Timers, MAINT and the transmitter -/

/-- GATHER_EXPIRY closes gathering and, the engine Idle, opens the lowest Pending sector (R126, R141, R143);
SPACING_EXPIRY matures the timer and, with a runnable request at the head and yield enabled, makes the batch yield
(R149 to R151). Each acts only when its timer is due: a join at the same instant has restarted the gather timer, and
gathering does not close (R14, R15). -/
def Obligations.BatchTimersExpire : Prop :=
  ∀ (s : State) (k i : Nat) (rest : List Nat) (op : EraseOp),
    (s.bc.state = .gathering → s.bc.gather = .running 0 → s.ae.engine = .idle → s.rd.queue = [] →
      s.bc.held = none → s.bc.spacing = .stopped → s.ae.supplyLow = false →
      s.bc.pendingSectors = k :: rest → s.isProtected k = false →
      exec .gatherExpiry s = .next
        { s with
          bc := { s.bc with
            state := .erasing, gather := .stopped
            spacing := .running s.cs.active.yieldSpacing.toNat
            set := s.bc.set.map (fun e => if e.1 = k then (e.1, .erasing) else e) }
          ae := { s.ae with
            engine := .erasingSector
              { sector := k, phase := .preProgram, line := 0, pulses := 0 } }
          ledger := s.ledger.set k
            { condition := .torn, wear := min 16777215 ((s.entry k).wear + 1) } }) ∧
    (s.bc.gather ≠ .running 0 → exec .gatherExpiry s = .next s) ∧
    (s.bc.spacing = .running 0 → (s.bc.state ≠ .erasing ∨ s.rd.queue = []) →
      exec .spacingExpiry s = .next { s with bc := { s.bc with spacing := .mature } }) ∧
    (s.bc.spacing = .running 0 → s.bc.state = .erasing → s.rd.queue.head? = some i →
      s.headKind (s.slot i).request = .runnable → s.cs.active.yieldEnable = 1 →
      s.ae.engine = .erasingSector op →
      exec .spacingExpiry s = .next
        { s with bc := { s.bc with state := .yielded, yieldCount := 0, spacing := .stopped } }) ∧
    (s.bc.spacing ≠ .running 0 → exec .spacingExpiry s = .next s)

/-- A debounced MAINT change turns the level, logs MAINT_ASSERTED or MAINT_RELEASED, raises MAINT_CHANGE and wakes
the device from Doze; nothing else of the device changes (R13, R176, R177). The model's choice: the command stands
for the samples having been taken (assumption 29). -/
def Obligations.MaintChangeIsLogged : Prop :=
  ∀ (s : State) (rxd : Bool), s.isRunning = true →
    Answers (exec (.debouncedMaintChange rxd) s) (fun t =>
      t.pu = { s.pu with maintLevel := !s.pu.maintLevel, candidate := 0 } ∧
      t.eu = (s.eu.offered s.sr.tick
        (if s.pu.maintLevel then .maintReleased else .maintAsserted)).raised 0x80 ∧
      t.sr.top = .active ∧ t.sr.tick = s.sr.tick ∧ t.sr.monitor = s.sr.monitor ∧
      t.su = s.su ∧ t.rd = s.rd ∧ t.ae = s.ae ∧ t.bc = s.bc ∧ t.pf = s.pf ∧ t.cs = s.cs ∧
      t.ledger = s.ledger ∧ t.array = s.array)

/-- The selection of R73, item by item, in its order: reply, REJ, retransmission, response, notice, ACK, nothing;
with Held set nothing is chosen and the transmitter is Free; an ACK goes out with a full window or a busy host too,
notices wanted or not (R31, R69, R73, R74, R90, R186). The model's choice: the selection is a command of
its own (assumption 3), the end of an octet a step of the device's (6). -/
def Obligations.TransmitterSelects : Prop :=
  ∀ (s : State) (r : Reply) (rest : List Reply) (n : Seq) (later : List Seq) (e : WindowEntry) (i : Nat)
    (rec : LogRecord), s.sr.top = .active → s.cl.tx.finished = true →
    let character := 100 * [96, 48, 24, 16, 8, 4, 2, 1].getD s.cl.rate.toNat 1
    let sent (t : State) (cls : Byte) (ns nr : Seq) (tag : Byte) (payload : List Byte) : Result := .next
      { t with cl := { s.cl with tx := .sending (encodeParcel cls ns nr tag payload) character } }
    let silent : Result := .next { s with cl := { s.cl with tx := .free } }
    let quiet : Prop := s.cl.held = false ∧ s.su.replies = [] ∧ s.su.rejPending = false
    let room : Prop :=
      s.su.link = .attached ∧ s.su.window.length < s.su.effWindow ∧ s.su.hostBusy = false
    let nothingNew : Prop := s.su.effWindow ≤ s.su.window.length ∨ s.su.hostBusy = true ∨
      (s.oldestAnswered = none ∧ (s.su.noticesWanted = false ∨ s.eu.log.all (fun x => x.inFlight) = true))
    (s.cl.held = true → exec .transmitterFree s = silent) ∧
    (s.cl.held = false → s.su.replies = r :: rest →
      exec .transmitterFree s = sent { s with su := { s.su with replies := rest } } 0x77 0 0 r.tag r.payload) ∧
    (s.cl.held = false → s.su.replies = [] → s.su.rejPending = true →
      exec .transmitterFree s = sent
        { s with su := { s.su with
          rejPending := false, ackOwed := false, rejSent := s.su.rejSent + 1 } } 0x55 0 s.su.vr 0 []) ∧
    (quiet → s.su.pass = n :: later → s.su.window.find? (fun x => x.ns == n) = some e →
      exec .transmitterFree s = sent
        { s with su := { s.su with
          pass := later, ackOwed := false, retransmitted := s.su.retransmitted + 1 } }
        (match e.kind with
          | .rsp => 0x22
          | .ntc _ => 0x33) e.ns s.su.vr e.tag e.payload) ∧
    (quiet → s.su.pass = [] → room → s.oldestAnswered = some i →
      let x := s.slot i
      let clears := s.su.busyReported
      exec .transmitterFree s = sent
        { s with
          su := { s.su with
            window := s.su.window ++
              [{ kind := .rsp, ns := s.su.vs, tag := x.tag, payload := x.response }]
            vs := s.su.vs + 1
            ackOwed := false
            busyReported := false
            busyNotePending := s.su.busyNotePending || clears
            retransmit :=
              if s.su.window = [] then .running (s.cs.active.retransmitTimeout.toNat * 10)
              else s.su.retransmit }
          rd := { s.rd with slots := s.rd.slots.set i {} } }
        0x22 s.su.vs s.su.vr x.tag x.response) ∧
    (quiet → s.su.pass = [] → room → s.oldestAnswered = none → s.su.noticesWanted = true →
      s.eu.log.find? (fun x => !x.inFlight) = some rec →
      exec .transmitterFree s = sent
        { s with
          su := { s.su with
            window := s.su.window ++
              [{ kind := .ntc rec.serial, ns := s.su.vs, tag := rec.serial.extractLsb' 0 8
                 payload := rec.octets }]
            vs := s.su.vs + 1
            ackOwed := false
            retransmit :=
              if s.su.window = [] then .running (s.cs.active.retransmitTimeout.toNat * 10)
              else s.su.retransmit }
          eu := { s.eu with
            log := s.eu.log.map (fun x =>
              if x.serial = rec.serial then { x with inFlight := true } else x) } }
        0x33 s.su.vs s.su.vr (rec.serial.extractLsb' 0 8) rec.octets) ∧
    (quiet → s.su.pass = [] → s.su.link = .attached → nothingNew →
      (s.su.ackOwed = true ∨ s.su.busyNotePending = true) →
      exec .transmitterFree s = sent
        { s with su := { s.su with
          ackOwed := false, busyNotePending := false
          busyAcks := if s.su.busyReported then s.su.busyAcks + 1 else s.su.busyAcks } }
        0x44 0 s.su.vr 0 [if s.su.busyReported then 1 else 0]) ∧
    (quiet → s.su.pass = [] → s.su.link = .attached → nothingNew →
      s.su.ackOwed = false → s.su.busyNotePending = false → exec .transmitterFree s = silent) ∧
    (quiet → s.su.pass = [] → s.su.link = .detached → exec .transmitterFree s = silent)

/-- The response offered is an Answered one, and no Answered one is older by completion number (R89, R101). -/
def Obligations.OldestResponseFirst : Prop :=
  ∀ (s : State) (i j : Nat),
    (s.oldestAnswered = some i → (s.slot i).state = .answered ∧
      ((s.slot j).state = .answered →
        (s.rd.nextCompletion - (s.slot j).completion).toNat ≤
          (s.rd.nextCompletion - (s.slot i).completion).toNat)) ∧
    (s.oldestAnswered = none → (s.slot j).state ≠ .answered)

/-! ### Protection, outputs and the tick -/

/-- Effective protection is computed from the lock bit, the MAINT level, the protect bit and the marker, as the
table of R166 gives it. -/
def Obligations.EffectiveProtection : Prop :=
  ∀ (s : State) (sector : Nat),
    s.isProtected sector = true ↔
      (s.pu.lockMask.getLsbD (sector / 4) = true ∨
        (s.pu.maintLevel = false ∧
          (s.pu.protectBits.getLsbD (sector / 4) = true ∨ s.pu.marker = true)))

/-- The outputs (R1, R19, R190, R191, R194). In the running states, and in Initialising from step 8 of R4, ATTNn is low
exactly when an enabled cause is raised, and NOTICE_WAITING is raised exactly when an undelivered record waits and no
session wants notices. BUSYn in Running-Active is low exactly while the engine works or a batch gathers; it is high in
Doze and from step 8. TXD carries each octet in ten bit times, a low start bit, the data bits from bit 0 to bit 7, a
high stop bit, and is high between characters, with a Paused or Free transmitter, and in Doze. Before step 8 and in
Reset-Held TXD is high, ATTNn released, BUSYn low; in Off nothing is driven. The model's choice: bit times in units of
the oscillator (assumption 6), when step 8 is taken (32). -/
def Obligations.OutputsFollowTheState : Prop :=
  ∀ (s : State) (b : Byte) (rest : List Byte) (left k : Nat),
    let bitTime := 10 * [96, 48, 24, 16, 8, 4, 2, 1].getD s.cl.rate.toNat 1
    (s.sr.top = .active ∨ s.sr.top = .doze ∨ (s.sr.top = .initialising ∧ s.sr.started = true) →
      (s.attnLevel = .low ↔ s.rawSet &&& s.eu.enable ≠ 0) ∧
      (s.attnLevel = .released ↔ s.rawSet &&& s.eu.enable = 0)) ∧
    (s.eu.latched.getLsbD 2 = false →
      (s.rawSet.getLsbD 2 = true ↔
        s.eu.log.any (fun r => !r.inFlight) = true ∧
          (s.su.link = .detached ∨ s.su.noticesWanted = false))) ∧
    (s.sr.top = .active →
      (s.busyLevel = .low ↔ (s.ae.engine ≠ .idle ∨ s.bc.state = .gathering)) ∧
      (s.busyLevel = .high ↔ ¬(s.ae.engine ≠ .idle ∨ s.bc.state = .gathering))) ∧
    (s.sr.top = .active → s.cl.tx = .sending (b :: rest) left → k < 10 →
      (9 - k) * bitTime < left → left ≤ (10 - k) * bitTime →
      (s.txdLevel = .high ↔ k = 9 ∨ (1 ≤ k ∧ k ≤ 8 ∧ b.getLsbD (k - 1) = true)) ∧
      (s.txdLevel = .low ↔ k = 0 ∨ (1 ≤ k ∧ k ≤ 8 ∧ b.getLsbD (k - 1) = false))) ∧
    (s.sr.top = .active → s.cl.tx = .sending (b :: rest) 0 → s.txdLevel = .high) ∧
    (s.sr.top = .active → s.cl.tx = .free ∨ s.cl.tx = .paused rest → s.txdLevel = .high) ∧
    (s.sr.top = .doze → s.busyLevel = .high ∧ s.txdLevel = .high) ∧
    (s.sr.top = .initialising → s.sr.started = true → s.busyLevel = .high ∧ s.txdLevel = .high) ∧
    (s.sr.top = .resetHeld ∨ (s.sr.top = .initialising ∧ s.sr.started = false) →
      s.attnLevel = .released ∧ s.busyLevel = .low ∧ s.txdLevel = .high ∧ s.txdOctets = some []) ∧
    (s.sr.top = .off →
      s.attnLevel = .notDriven ∧ s.busyLevel = .notDriven ∧ s.txdLevel = .notDriven ∧ s.txdOctets = none)

/-- The passing of time in a Running device. With nothing due and nothing to select it passes to the next instant at which
something can happen, never past a tick or a pin change: only the character on each line, the settle count and the clock
move on (R19, R21, R23). At a tick the tick counter advances and the timers count, the retransmit timer not while Held
(R4, R10, R24, R27, R70, R76, R142, R150); MAINT is sampled, the count of differing samples set back by an equal one
(R176); then the Doze conditions are tested (R10); and VDD is sampled: below 2.55 V in Normal is an entry to Inhibit,
above 2.65 V in Inhibit an exit, anything between changes nothing, and below 1.9 V the device is Off (R2, R7). The
model's choice: a step on an empty queue takes time to the next instant (assumption 2), time below a tick is counted in
units of the oscillator (6), the Doze test of a tick comes before its supply crossing (27). -/
def Obligations.TickSamples : Prop :=
  ∀ (s : State), s.pending = [] → s.isRunning = true →
    let later := s.elapse s.gap
    (s.due = none → s.select = none → step s = .next later ∧
      s.gap ≤ 9216 - s.sr.phase ∧ s.inputs.head?.all (fun c => s.gap ≤ c.after) = true ∧
      later.sr = { s.sr with phase := s.sr.phase + s.gap } ∧ later.su = s.su ∧
      later.rd = s.rd ∧ later.ae = s.ae ∧ later.bc = s.bc ∧ later.pu = s.pu ∧ later.eu = s.eu ∧
      later.pf = s.pf ∧ later.pins = s.pins ∧ later.cl.breakTimer = s.cl.breakTimer ∧
      later.cl.holdTimer = s.cl.holdTimer ∧ later.cl.held = s.cl.held ∧
      (s.cl.receiver = .settling → s.sr.top = .active → s.pins.rxd = true →
        later.cl.settleCount = s.cl.settleCount + s.gap)) ∧
    (s.dueReset = none → 9216 ≤ s.sr.phase →
      let counted := { s with
        sr := { s.sr with phase := 0, tick := s.sr.tick + 1, idleTimer := min 50 (s.sr.idleTimer + 1) }
        cl := { s.cl with
          breakTimer := s.cl.breakTimer.count
          holdTimer := s.cl.holdTimer.count }
        su := { s.su with
          keepalive := s.su.keepalive.count
          retransmit := if s.cl.held then s.su.retransmit else s.su.retransmit.count }
        bc := { s.bc with
          gather := s.bc.gather.count
          spacing := match s.bc.spacing with
            | .running (left + 1) => .running left
            | other => other }
        pu := { s.pu with
          candidate := if s.pins.maint = s.pu.maintLevel then 0 else min 10 (s.pu.candidate + 1) } }
      let tested := if counted.mayDoze = true then counted.enterDoze else counted
      (s.pins.vdd = .middle ∨ (s.pins.vdd = .low ∧ s.sr.monitor = .inhibit) ∨
        (s.pins.vdd = .good ∧ s.sr.monitor = .normal) → step s = .next tested) ∧
      (s.pins.vdd = .low → s.sr.monitor = .normal → step s = exec (.supplyLowEntry s.pins.rxd) tested) ∧
      (s.pins.vdd = .good → s.sr.monitor = .inhibit → step s = exec (.supplyLowExit s.pins.rxd) tested) ∧
      (s.pins.vdd = .off → step s = exec .powerOff tested))
end

