-- ==== Sys2Proof/Laws/State.lean ====
section
/-!
SUPPORT. The fields of State after each plain update of it: one lemma for each field, so that no proof unfolds a
record update. Generated from the table of updates; every one holds by definition.
-/

namespace Sys2Proof.Machine

/-! ### State.raise -/

@[simp] theorem State.raise_sr (s : State) (c : Cause) : (s.raise c).sr = s.sr := rfl
@[simp] theorem State.raise_pins (s : State) (c : Cause) : (s.raise c).pins = s.pins := rfl
@[simp] theorem State.raise_cl (s : State) (c : Cause) : (s.raise c).cl = s.cl := rfl
@[simp] theorem State.raise_pf (s : State) (c : Cause) : (s.raise c).pf = s.pf := rfl
@[simp] theorem State.raise_su (s : State) (c : Cause) : (s.raise c).su = s.su := rfl
@[simp] theorem State.raise_rd (s : State) (c : Cause) : (s.raise c).rd = s.rd := rfl
@[simp] theorem State.raise_ae (s : State) (c : Cause) : (s.raise c).ae = s.ae := rfl
@[simp] theorem State.raise_array (s : State) (c : Cause) : (s.raise c).array = s.array := rfl
@[simp] theorem State.raise_ledger (s : State) (c : Cause) : (s.raise c).ledger = s.ledger := rfl
@[simp] theorem State.raise_bc (s : State) (c : Cause) : (s.raise c).bc = s.bc := rfl
@[simp] theorem State.raise_pu (s : State) (c : Cause) : (s.raise c).pu = s.pu := rfl
@[simp] theorem State.raise_eu (s : State) (c : Cause) :
    (s.raise c).eu = { s.eu with latched := s.eu.latched ||| c.mask } := rfl
@[simp] theorem State.raise_cs (s : State) (c : Cause) : (s.raise c).cs = s.cs := rfl
@[simp] theorem State.raise_inputs (s : State) (c : Cause) : (s.raise c).inputs = s.inputs := rfl
@[simp] theorem State.raise_pending (s : State) (c : Cause) : (s.raise c).pending = s.pending := rfl
@[simp] theorem State.raise_freeCount (s : State) (c : Cause) : (s.raise c).freeCount = s.freeCount := rfl

/-! ### State.setSlot -/

@[simp] theorem State.setSlot_sr (s : State) (i : Nat) (x : Slot) : (s.setSlot i x).sr = s.sr := rfl
@[simp] theorem State.setSlot_pins (s : State) (i : Nat) (x : Slot) : (s.setSlot i x).pins = s.pins := rfl
@[simp] theorem State.setSlot_cl (s : State) (i : Nat) (x : Slot) : (s.setSlot i x).cl = s.cl := rfl
@[simp] theorem State.setSlot_pf (s : State) (i : Nat) (x : Slot) : (s.setSlot i x).pf = s.pf := rfl
@[simp] theorem State.setSlot_su (s : State) (i : Nat) (x : Slot) : (s.setSlot i x).su = s.su := rfl
@[simp] theorem State.setSlot_rd (s : State) (i : Nat) (x : Slot) :
    (s.setSlot i x).rd = { s.rd with slots := s.rd.slots.set i x } := rfl
@[simp] theorem State.setSlot_ae (s : State) (i : Nat) (x : Slot) : (s.setSlot i x).ae = s.ae := rfl
@[simp] theorem State.setSlot_array (s : State) (i : Nat) (x : Slot) : (s.setSlot i x).array = s.array := rfl
@[simp] theorem State.setSlot_ledger (s : State) (i : Nat) (x : Slot) :
    (s.setSlot i x).ledger = s.ledger := rfl
@[simp] theorem State.setSlot_bc (s : State) (i : Nat) (x : Slot) : (s.setSlot i x).bc = s.bc := rfl
@[simp] theorem State.setSlot_pu (s : State) (i : Nat) (x : Slot) : (s.setSlot i x).pu = s.pu := rfl
@[simp] theorem State.setSlot_eu (s : State) (i : Nat) (x : Slot) : (s.setSlot i x).eu = s.eu := rfl
@[simp] theorem State.setSlot_cs (s : State) (i : Nat) (x : Slot) : (s.setSlot i x).cs = s.cs := rfl
@[simp] theorem State.setSlot_inputs (s : State) (i : Nat) (x : Slot) :
    (s.setSlot i x).inputs = s.inputs := rfl
@[simp] theorem State.setSlot_pending (s : State) (i : Nat) (x : Slot) :
    (s.setSlot i x).pending = s.pending := rfl
@[simp] theorem State.setSlot_freeCount (s : State) (i : Nat) (x : Slot) :
    (s.setSlot i x).freeCount = s.freeCount := rfl

/-! ### State.unqueue -/

@[simp] theorem State.unqueue_sr (s : State) (i : Nat) : (s.unqueue i).sr = s.sr := rfl
@[simp] theorem State.unqueue_pins (s : State) (i : Nat) : (s.unqueue i).pins = s.pins := rfl
@[simp] theorem State.unqueue_cl (s : State) (i : Nat) : (s.unqueue i).cl = s.cl := rfl
@[simp] theorem State.unqueue_pf (s : State) (i : Nat) : (s.unqueue i).pf = s.pf := rfl
@[simp] theorem State.unqueue_su (s : State) (i : Nat) : (s.unqueue i).su = s.su := rfl
@[simp] theorem State.unqueue_rd (s : State) (i : Nat) :
    (s.unqueue i).rd = { s.rd with queue := s.rd.queue.filter (fun j => j != i) } := rfl
@[simp] theorem State.unqueue_ae (s : State) (i : Nat) : (s.unqueue i).ae = s.ae := rfl
@[simp] theorem State.unqueue_array (s : State) (i : Nat) : (s.unqueue i).array = s.array := rfl
@[simp] theorem State.unqueue_ledger (s : State) (i : Nat) : (s.unqueue i).ledger = s.ledger := rfl
@[simp] theorem State.unqueue_bc (s : State) (i : Nat) : (s.unqueue i).bc = s.bc := rfl
@[simp] theorem State.unqueue_pu (s : State) (i : Nat) : (s.unqueue i).pu = s.pu := rfl
@[simp] theorem State.unqueue_eu (s : State) (i : Nat) : (s.unqueue i).eu = s.eu := rfl
@[simp] theorem State.unqueue_cs (s : State) (i : Nat) : (s.unqueue i).cs = s.cs := rfl
@[simp] theorem State.unqueue_inputs (s : State) (i : Nat) : (s.unqueue i).inputs = s.inputs := rfl
@[simp] theorem State.unqueue_pending (s : State) (i : Nat) : (s.unqueue i).pending = s.pending := rfl
@[simp] theorem State.unqueue_freeCount (s : State) (i : Nat) : (s.unqueue i).freeCount = s.freeCount := rfl

/-! ### State.setSlotState -/

@[simp] theorem State.setSlotState_sr (s : State) (i : Nat) (st : SlotState) :
    (s.setSlotState i st).sr = s.sr := rfl
@[simp] theorem State.setSlotState_pins (s : State) (i : Nat) (st : SlotState) :
    (s.setSlotState i st).pins = s.pins := rfl
@[simp] theorem State.setSlotState_cl (s : State) (i : Nat) (st : SlotState) :
    (s.setSlotState i st).cl = s.cl := rfl
@[simp] theorem State.setSlotState_pf (s : State) (i : Nat) (st : SlotState) :
    (s.setSlotState i st).pf = s.pf := rfl
@[simp] theorem State.setSlotState_su (s : State) (i : Nat) (st : SlotState) :
    (s.setSlotState i st).su = s.su := rfl
@[simp] theorem State.setSlotState_rd (s : State) (i : Nat) (st : SlotState) :
    (s.setSlotState i st).rd = { s.rd with slots := s.rd.slots.set i { s.slot i with state := st } } := rfl
@[simp] theorem State.setSlotState_ae (s : State) (i : Nat) (st : SlotState) :
    (s.setSlotState i st).ae = s.ae := rfl
@[simp] theorem State.setSlotState_array (s : State) (i : Nat) (st : SlotState) :
    (s.setSlotState i st).array = s.array := rfl
@[simp] theorem State.setSlotState_ledger (s : State) (i : Nat) (st : SlotState) :
    (s.setSlotState i st).ledger = s.ledger := rfl
@[simp] theorem State.setSlotState_bc (s : State) (i : Nat) (st : SlotState) :
    (s.setSlotState i st).bc = s.bc := rfl
@[simp] theorem State.setSlotState_pu (s : State) (i : Nat) (st : SlotState) :
    (s.setSlotState i st).pu = s.pu := rfl
@[simp] theorem State.setSlotState_eu (s : State) (i : Nat) (st : SlotState) :
    (s.setSlotState i st).eu = s.eu := rfl
@[simp] theorem State.setSlotState_cs (s : State) (i : Nat) (st : SlotState) :
    (s.setSlotState i st).cs = s.cs := rfl
@[simp] theorem State.setSlotState_inputs (s : State) (i : Nat) (st : SlotState) :
    (s.setSlotState i st).inputs = s.inputs := rfl
@[simp] theorem State.setSlotState_pending (s : State) (i : Nat) (st : SlotState) :
    (s.setSlotState i st).pending = s.pending := rfl
@[simp] theorem State.setSlotState_freeCount (s : State) (i : Nat) (st : SlotState) :
    (s.setSlotState i st).freeCount = s.freeCount := rfl

/-! ### State.takeSlot -/

@[simp] theorem State.takeSlot_sr (s : State) (i : Nat) (tag : Byte) (r : Request) :
    (s.takeSlot i tag r).sr = s.sr := rfl
@[simp] theorem State.takeSlot_pins (s : State) (i : Nat) (tag : Byte) (r : Request) :
    (s.takeSlot i tag r).pins = s.pins := rfl
@[simp] theorem State.takeSlot_cl (s : State) (i : Nat) (tag : Byte) (r : Request) :
    (s.takeSlot i tag r).cl = s.cl := rfl
@[simp] theorem State.takeSlot_pf (s : State) (i : Nat) (tag : Byte) (r : Request) :
    (s.takeSlot i tag r).pf = s.pf := rfl
@[simp] theorem State.takeSlot_su (s : State) (i : Nat) (tag : Byte) (r : Request) :
    (s.takeSlot i tag r).su = s.su := rfl
@[simp] theorem State.takeSlot_rd (s : State) (i : Nat) (tag : Byte) (r : Request) :
    (s.takeSlot i tag r).rd = { s.rd with slots := s.rd.slots.set i { state := .answered, tag := tag, request := r } } := rfl
@[simp] theorem State.takeSlot_ae (s : State) (i : Nat) (tag : Byte) (r : Request) :
    (s.takeSlot i tag r).ae = s.ae := rfl
@[simp] theorem State.takeSlot_array (s : State) (i : Nat) (tag : Byte) (r : Request) :
    (s.takeSlot i tag r).array = s.array := rfl
@[simp] theorem State.takeSlot_ledger (s : State) (i : Nat) (tag : Byte) (r : Request) :
    (s.takeSlot i tag r).ledger = s.ledger := rfl
@[simp] theorem State.takeSlot_bc (s : State) (i : Nat) (tag : Byte) (r : Request) :
    (s.takeSlot i tag r).bc = s.bc := rfl
@[simp] theorem State.takeSlot_pu (s : State) (i : Nat) (tag : Byte) (r : Request) :
    (s.takeSlot i tag r).pu = s.pu := rfl
@[simp] theorem State.takeSlot_eu (s : State) (i : Nat) (tag : Byte) (r : Request) :
    (s.takeSlot i tag r).eu = s.eu := rfl
@[simp] theorem State.takeSlot_cs (s : State) (i : Nat) (tag : Byte) (r : Request) :
    (s.takeSlot i tag r).cs = s.cs := rfl
@[simp] theorem State.takeSlot_inputs (s : State) (i : Nat) (tag : Byte) (r : Request) :
    (s.takeSlot i tag r).inputs = s.inputs := rfl
@[simp] theorem State.takeSlot_pending (s : State) (i : Nat) (tag : Byte) (r : Request) :
    (s.takeSlot i tag r).pending = s.pending := rfl
@[simp] theorem State.takeSlot_freeCount (s : State) (i : Nat) (tag : Byte) (r : Request) :
    (s.takeSlot i tag r).freeCount = s.freeCount := rfl

/-! ### State.answer -/

@[simp] theorem State.answer_sr (s : State) (i : Nat) (st : Status) (results : List Byte) :
    (s.answer i st results).sr = s.sr := rfl
@[simp] theorem State.answer_pins (s : State) (i : Nat) (st : Status) (results : List Byte) :
    (s.answer i st results).pins = s.pins := rfl
@[simp] theorem State.answer_cl (s : State) (i : Nat) (st : Status) (results : List Byte) :
    (s.answer i st results).cl = s.cl := rfl
@[simp] theorem State.answer_pf (s : State) (i : Nat) (st : Status) (results : List Byte) :
    (s.answer i st results).pf = s.pf := rfl
@[simp] theorem State.answer_su (s : State) (i : Nat) (st : Status) (results : List Byte) :
    (s.answer i st results).su = s.su := rfl
@[simp] theorem State.answer_rd (s : State) (i : Nat) (st : Status) (results : List Byte) :
    (s.answer i st results).rd = { s.rd with
      slots := s.rd.slots.set i { s.slot i with
        state := .answered, completion := s.rd.nextCompletion
        response := responseOf (s.slot i).request.code st results }
      nextCompletion := s.rd.nextCompletion + 1 } := rfl
@[simp] theorem State.answer_ae (s : State) (i : Nat) (st : Status) (results : List Byte) :
    (s.answer i st results).ae = s.ae := rfl
@[simp] theorem State.answer_array (s : State) (i : Nat) (st : Status) (results : List Byte) :
    (s.answer i st results).array = s.array := rfl
@[simp] theorem State.answer_ledger (s : State) (i : Nat) (st : Status) (results : List Byte) :
    (s.answer i st results).ledger = s.ledger := rfl
@[simp] theorem State.answer_bc (s : State) (i : Nat) (st : Status) (results : List Byte) :
    (s.answer i st results).bc = s.bc := rfl
@[simp] theorem State.answer_pu (s : State) (i : Nat) (st : Status) (results : List Byte) :
    (s.answer i st results).pu = s.pu := rfl
@[simp] theorem State.answer_eu (s : State) (i : Nat) (st : Status) (results : List Byte) :
    (s.answer i st results).eu = s.eu := rfl
@[simp] theorem State.answer_cs (s : State) (i : Nat) (st : Status) (results : List Byte) :
    (s.answer i st results).cs = s.cs := rfl
@[simp] theorem State.answer_inputs (s : State) (i : Nat) (st : Status) (results : List Byte) :
    (s.answer i st results).inputs = s.inputs := rfl
@[simp] theorem State.answer_pending (s : State) (i : Nat) (st : Status) (results : List Byte) :
    (s.answer i st results).pending = s.pending := rfl
@[simp] theorem State.answer_freeCount (s : State) (i : Nat) (st : Status) (results : List Byte) :
    (s.answer i st results).freeCount = s.freeCount := rfl

/-! ### State.refuseHead -/

@[simp] theorem State.refuseHead_sr (s : State) (i : Nat) (st : Status) : (s.refuseHead i st).sr = s.sr := rfl
@[simp] theorem State.refuseHead_pins (s : State) (i : Nat) (st : Status) :
    (s.refuseHead i st).pins = s.pins := rfl
@[simp] theorem State.refuseHead_cl (s : State) (i : Nat) (st : Status) : (s.refuseHead i st).cl = s.cl := rfl
@[simp] theorem State.refuseHead_pf (s : State) (i : Nat) (st : Status) : (s.refuseHead i st).pf = s.pf := rfl
@[simp] theorem State.refuseHead_su (s : State) (i : Nat) (st : Status) : (s.refuseHead i st).su = s.su := rfl
@[simp] theorem State.refuseHead_ae (s : State) (i : Nat) (st : Status) : (s.refuseHead i st).ae = s.ae := rfl
@[simp] theorem State.refuseHead_array (s : State) (i : Nat) (st : Status) :
    (s.refuseHead i st).array = s.array := rfl
@[simp] theorem State.refuseHead_ledger (s : State) (i : Nat) (st : Status) :
    (s.refuseHead i st).ledger = s.ledger := rfl
@[simp] theorem State.refuseHead_bc (s : State) (i : Nat) (st : Status) : (s.refuseHead i st).bc = s.bc := rfl
@[simp] theorem State.refuseHead_pu (s : State) (i : Nat) (st : Status) : (s.refuseHead i st).pu = s.pu := rfl
@[simp] theorem State.refuseHead_eu (s : State) (i : Nat) (st : Status) : (s.refuseHead i st).eu = s.eu := rfl
@[simp] theorem State.refuseHead_cs (s : State) (i : Nat) (st : Status) : (s.refuseHead i st).cs = s.cs := rfl
@[simp] theorem State.refuseHead_inputs (s : State) (i : Nat) (st : Status) :
    (s.refuseHead i st).inputs = s.inputs := rfl
@[simp] theorem State.refuseHead_pending (s : State) (i : Nat) (st : Status) :
    (s.refuseHead i st).pending = s.pending := rfl
@[simp] theorem State.refuseHead_freeCount (s : State) (i : Nat) (st : Status) :
    (s.refuseHead i st).freeCount = s.freeCount := rfl

/-! ### State.startHead -/

@[simp] theorem State.startHead_sr (s : State) (i : Nat) : (s.startHead i).sr = s.sr := rfl
@[simp] theorem State.startHead_pins (s : State) (i : Nat) : (s.startHead i).pins = s.pins := rfl
@[simp] theorem State.startHead_cl (s : State) (i : Nat) : (s.startHead i).cl = s.cl := rfl
@[simp] theorem State.startHead_pf (s : State) (i : Nat) : (s.startHead i).pf = s.pf := rfl
@[simp] theorem State.startHead_su (s : State) (i : Nat) : (s.startHead i).su = s.su := rfl
@[simp] theorem State.startHead_ae (s : State) (i : Nat) :
    (s.startHead i).ae = { s.ae with engine := s.startEngine i (s.slot i).request } := rfl
@[simp] theorem State.startHead_array (s : State) (i : Nat) : (s.startHead i).array = s.array := rfl
@[simp] theorem State.startHead_ledger (s : State) (i : Nat) : (s.startHead i).ledger = s.ledger := rfl
@[simp] theorem State.startHead_bc (s : State) (i : Nat) : (s.startHead i).bc = s.bc := rfl
@[simp] theorem State.startHead_pu (s : State) (i : Nat) : (s.startHead i).pu = s.pu := rfl
@[simp] theorem State.startHead_eu (s : State) (i : Nat) : (s.startHead i).eu = s.eu := rfl
@[simp] theorem State.startHead_cs (s : State) (i : Nat) : (s.startHead i).cs = s.cs := rfl
@[simp] theorem State.startHead_inputs (s : State) (i : Nat) : (s.startHead i).inputs = s.inputs := rfl
@[simp] theorem State.startHead_pending (s : State) (i : Nat) : (s.startHead i).pending = s.pending := rfl
@[simp] theorem State.startHead_freeCount (s : State) (i : Nat) :
    (s.startHead i).freeCount = s.freeCount := rfl

/-! ### State.spendFree -/

@[simp] theorem State.spendFree_sr (s : State) (n : Nat) : (s.spendFree n).sr = s.sr := rfl
@[simp] theorem State.spendFree_pins (s : State) (n : Nat) : (s.spendFree n).pins = s.pins := rfl
@[simp] theorem State.spendFree_cl (s : State) (n : Nat) : (s.spendFree n).cl = s.cl := rfl
@[simp] theorem State.spendFree_pf (s : State) (n : Nat) : (s.spendFree n).pf = s.pf := rfl
@[simp] theorem State.spendFree_su (s : State) (n : Nat) : (s.spendFree n).su = s.su := rfl
@[simp] theorem State.spendFree_rd (s : State) (n : Nat) : (s.spendFree n).rd = s.rd := rfl
@[simp] theorem State.spendFree_ae (s : State) (n : Nat) : (s.spendFree n).ae = s.ae := rfl
@[simp] theorem State.spendFree_array (s : State) (n : Nat) : (s.spendFree n).array = s.array := rfl
@[simp] theorem State.spendFree_ledger (s : State) (n : Nat) : (s.spendFree n).ledger = s.ledger := rfl
@[simp] theorem State.spendFree_bc (s : State) (n : Nat) : (s.spendFree n).bc = s.bc := rfl
@[simp] theorem State.spendFree_pu (s : State) (n : Nat) : (s.spendFree n).pu = s.pu := rfl
@[simp] theorem State.spendFree_eu (s : State) (n : Nat) : (s.spendFree n).eu = s.eu := rfl
@[simp] theorem State.spendFree_cs (s : State) (n : Nat) : (s.spendFree n).cs = s.cs := rfl
@[simp] theorem State.spendFree_inputs (s : State) (n : Nat) : (s.spendFree n).inputs = s.inputs := rfl
@[simp] theorem State.spendFree_pending (s : State) (n : Nat) : (s.spendFree n).pending = s.pending := rfl
@[simp] theorem State.spendFree_freeCount (s : State) (n : Nat) :
    (s.spendFree n).freeCount = s.freeCount + n := rfl

/-! ### State.ledgerOpen -/

@[simp] theorem State.ledgerOpen_sr (s : State) (k : Nat) : (s.ledgerOpen k).sr = s.sr := rfl
@[simp] theorem State.ledgerOpen_pins (s : State) (k : Nat) : (s.ledgerOpen k).pins = s.pins := rfl
@[simp] theorem State.ledgerOpen_cl (s : State) (k : Nat) : (s.ledgerOpen k).cl = s.cl := rfl
@[simp] theorem State.ledgerOpen_pf (s : State) (k : Nat) : (s.ledgerOpen k).pf = s.pf := rfl
@[simp] theorem State.ledgerOpen_su (s : State) (k : Nat) : (s.ledgerOpen k).su = s.su := rfl
@[simp] theorem State.ledgerOpen_rd (s : State) (k : Nat) : (s.ledgerOpen k).rd = s.rd := rfl
@[simp] theorem State.ledgerOpen_ae (s : State) (k : Nat) : (s.ledgerOpen k).ae = s.ae := rfl
@[simp] theorem State.ledgerOpen_array (s : State) (k : Nat) : (s.ledgerOpen k).array = s.array := rfl
@[simp] theorem State.ledgerOpen_ledger (s : State) (k : Nat) :
    (s.ledgerOpen k).ledger = s.ledger.set k { condition := .torn, wear := min maxWear ((s.entry k).wear + 1) } := rfl
@[simp] theorem State.ledgerOpen_bc (s : State) (k : Nat) : (s.ledgerOpen k).bc = s.bc := rfl
@[simp] theorem State.ledgerOpen_pu (s : State) (k : Nat) : (s.ledgerOpen k).pu = s.pu := rfl
@[simp] theorem State.ledgerOpen_eu (s : State) (k : Nat) : (s.ledgerOpen k).eu = s.eu := rfl
@[simp] theorem State.ledgerOpen_cs (s : State) (k : Nat) : (s.ledgerOpen k).cs = s.cs := rfl
@[simp] theorem State.ledgerOpen_inputs (s : State) (k : Nat) : (s.ledgerOpen k).inputs = s.inputs := rfl
@[simp] theorem State.ledgerOpen_pending (s : State) (k : Nat) : (s.ledgerOpen k).pending = s.pending := rfl
@[simp] theorem State.ledgerOpen_freeCount (s : State) (k : Nat) :
    (s.ledgerOpen k).freeCount = s.freeCount := rfl

/-! ### State.ledgerClose -/

@[simp] theorem State.ledgerClose_sr (s : State) (k : Nat) (c : Condition) :
    (s.ledgerClose k c).sr = s.sr := rfl
@[simp] theorem State.ledgerClose_pins (s : State) (k : Nat) (c : Condition) :
    (s.ledgerClose k c).pins = s.pins := rfl
@[simp] theorem State.ledgerClose_cl (s : State) (k : Nat) (c : Condition) :
    (s.ledgerClose k c).cl = s.cl := rfl
@[simp] theorem State.ledgerClose_pf (s : State) (k : Nat) (c : Condition) :
    (s.ledgerClose k c).pf = s.pf := rfl
@[simp] theorem State.ledgerClose_su (s : State) (k : Nat) (c : Condition) :
    (s.ledgerClose k c).su = s.su := rfl
@[simp] theorem State.ledgerClose_rd (s : State) (k : Nat) (c : Condition) :
    (s.ledgerClose k c).rd = s.rd := rfl
@[simp] theorem State.ledgerClose_ae (s : State) (k : Nat) (c : Condition) :
    (s.ledgerClose k c).ae = s.ae := rfl
@[simp] theorem State.ledgerClose_array (s : State) (k : Nat) (c : Condition) :
    (s.ledgerClose k c).array = s.array := rfl
@[simp] theorem State.ledgerClose_ledger (s : State) (k : Nat) (c : Condition) :
    (s.ledgerClose k c).ledger = s.ledger.set k { (s.entry k) with condition := c } := rfl
@[simp] theorem State.ledgerClose_bc (s : State) (k : Nat) (c : Condition) :
    (s.ledgerClose k c).bc = s.bc := rfl
@[simp] theorem State.ledgerClose_pu (s : State) (k : Nat) (c : Condition) :
    (s.ledgerClose k c).pu = s.pu := rfl
@[simp] theorem State.ledgerClose_eu (s : State) (k : Nat) (c : Condition) :
    (s.ledgerClose k c).eu = s.eu := rfl
@[simp] theorem State.ledgerClose_cs (s : State) (k : Nat) (c : Condition) :
    (s.ledgerClose k c).cs = s.cs := rfl
@[simp] theorem State.ledgerClose_inputs (s : State) (k : Nat) (c : Condition) :
    (s.ledgerClose k c).inputs = s.inputs := rfl
@[simp] theorem State.ledgerClose_pending (s : State) (k : Nat) (c : Condition) :
    (s.ledgerClose k c).pending = s.pending := rfl
@[simp] theorem State.ledgerClose_freeCount (s : State) (k : Nat) (c : Condition) :
    (s.ledgerClose k c).freeCount = s.freeCount := rfl

/-! ### State.keepEngine -/

@[simp] theorem State.keepEngine_sr (s : State) (e : Engine) : (s.keepEngine e).sr = s.sr := rfl
@[simp] theorem State.keepEngine_pins (s : State) (e : Engine) : (s.keepEngine e).pins = s.pins := rfl
@[simp] theorem State.keepEngine_cl (s : State) (e : Engine) : (s.keepEngine e).cl = s.cl := rfl
@[simp] theorem State.keepEngine_pf (s : State) (e : Engine) : (s.keepEngine e).pf = s.pf := rfl
@[simp] theorem State.keepEngine_su (s : State) (e : Engine) : (s.keepEngine e).su = s.su := rfl
@[simp] theorem State.keepEngine_rd (s : State) (e : Engine) : (s.keepEngine e).rd = s.rd := rfl
@[simp] theorem State.keepEngine_ae (s : State) (e : Engine) :
    (s.keepEngine e).ae = { s.ae with engine := e } := rfl
@[simp] theorem State.keepEngine_array (s : State) (e : Engine) : (s.keepEngine e).array = s.array := rfl
@[simp] theorem State.keepEngine_ledger (s : State) (e : Engine) : (s.keepEngine e).ledger = s.ledger := rfl
@[simp] theorem State.keepEngine_bc (s : State) (e : Engine) : (s.keepEngine e).bc = s.bc := rfl
@[simp] theorem State.keepEngine_pu (s : State) (e : Engine) : (s.keepEngine e).pu = s.pu := rfl
@[simp] theorem State.keepEngine_eu (s : State) (e : Engine) : (s.keepEngine e).eu = s.eu := rfl
@[simp] theorem State.keepEngine_cs (s : State) (e : Engine) : (s.keepEngine e).cs = s.cs := rfl
@[simp] theorem State.keepEngine_inputs (s : State) (e : Engine) : (s.keepEngine e).inputs = s.inputs := rfl
@[simp] theorem State.keepEngine_pending (s : State) (e : Engine) :
    (s.keepEngine e).pending = s.pending := rfl
@[simp] theorem State.keepEngine_freeCount (s : State) (e : Engine) :
    (s.keepEngine e).freeCount = s.freeCount := rfl

/-! ### State.clearBatch -/

@[simp] theorem State.clearBatch_sr (s : State) : (s.clearBatch).sr = s.sr := rfl
@[simp] theorem State.clearBatch_pins (s : State) : (s.clearBatch).pins = s.pins := rfl
@[simp] theorem State.clearBatch_cl (s : State) : (s.clearBatch).cl = s.cl := rfl
@[simp] theorem State.clearBatch_pf (s : State) : (s.clearBatch).pf = s.pf := rfl
@[simp] theorem State.clearBatch_su (s : State) : (s.clearBatch).su = s.su := rfl
@[simp] theorem State.clearBatch_rd (s : State) : (s.clearBatch).rd = s.rd := rfl
@[simp] theorem State.clearBatch_ae (s : State) : (s.clearBatch).ae = s.ae := rfl
@[simp] theorem State.clearBatch_array (s : State) : (s.clearBatch).array = s.array := rfl
@[simp] theorem State.clearBatch_ledger (s : State) : (s.clearBatch).ledger = s.ledger := rfl
@[simp] theorem State.clearBatch_bc (s : State) : (s.clearBatch).bc = {} := rfl
@[simp] theorem State.clearBatch_pu (s : State) : (s.clearBatch).pu = s.pu := rfl
@[simp] theorem State.clearBatch_eu (s : State) : (s.clearBatch).eu = s.eu := rfl
@[simp] theorem State.clearBatch_cs (s : State) : (s.clearBatch).cs = s.cs := rfl
@[simp] theorem State.clearBatch_inputs (s : State) : (s.clearBatch).inputs = s.inputs := rfl
@[simp] theorem State.clearBatch_pending (s : State) : (s.clearBatch).pending = s.pending := rfl
@[simp] theorem State.clearBatch_freeCount (s : State) : (s.clearBatch).freeCount = s.freeCount := rfl

/-! ### State.startSpacing -/

@[simp] theorem State.startSpacing_sr (s : State) : (s.startSpacing).sr = s.sr := rfl
@[simp] theorem State.startSpacing_pins (s : State) : (s.startSpacing).pins = s.pins := rfl
@[simp] theorem State.startSpacing_cl (s : State) : (s.startSpacing).cl = s.cl := rfl
@[simp] theorem State.startSpacing_pf (s : State) : (s.startSpacing).pf = s.pf := rfl
@[simp] theorem State.startSpacing_su (s : State) : (s.startSpacing).su = s.su := rfl
@[simp] theorem State.startSpacing_rd (s : State) : (s.startSpacing).rd = s.rd := rfl
@[simp] theorem State.startSpacing_ae (s : State) : (s.startSpacing).ae = s.ae := rfl
@[simp] theorem State.startSpacing_array (s : State) : (s.startSpacing).array = s.array := rfl
@[simp] theorem State.startSpacing_ledger (s : State) : (s.startSpacing).ledger = s.ledger := rfl
@[simp] theorem State.startSpacing_bc (s : State) :
    (s.startSpacing).bc = { s.bc with spacing := .running s.spacingTicks } := rfl
@[simp] theorem State.startSpacing_pu (s : State) : (s.startSpacing).pu = s.pu := rfl
@[simp] theorem State.startSpacing_eu (s : State) : (s.startSpacing).eu = s.eu := rfl
@[simp] theorem State.startSpacing_cs (s : State) : (s.startSpacing).cs = s.cs := rfl
@[simp] theorem State.startSpacing_inputs (s : State) : (s.startSpacing).inputs = s.inputs := rfl
@[simp] theorem State.startSpacing_pending (s : State) : (s.startSpacing).pending = s.pending := rfl
@[simp] theorem State.startSpacing_freeCount (s : State) : (s.startSpacing).freeCount = s.freeCount := rfl

/-! ### State.skipSector -/

@[simp] theorem State.skipSector_sr (s : State) (k : Nat) : (s.skipSector k).sr = s.sr := rfl
@[simp] theorem State.skipSector_pins (s : State) (k : Nat) : (s.skipSector k).pins = s.pins := rfl
@[simp] theorem State.skipSector_cl (s : State) (k : Nat) : (s.skipSector k).cl = s.cl := rfl
@[simp] theorem State.skipSector_pf (s : State) (k : Nat) : (s.skipSector k).pf = s.pf := rfl
@[simp] theorem State.skipSector_su (s : State) (k : Nat) : (s.skipSector k).su = s.su := rfl
@[simp] theorem State.skipSector_rd (s : State) (k : Nat) : (s.skipSector k).rd = s.rd := rfl
@[simp] theorem State.skipSector_ae (s : State) (k : Nat) : (s.skipSector k).ae = s.ae := rfl
@[simp] theorem State.skipSector_array (s : State) (k : Nat) : (s.skipSector k).array = s.array := rfl
@[simp] theorem State.skipSector_ledger (s : State) (k : Nat) : (s.skipSector k).ledger = s.ledger := rfl
@[simp] theorem State.skipSector_bc (s : State) (k : Nat) :
    (s.skipSector k).bc = s.bc.setRole k (.done .skippedProtected) := rfl
@[simp] theorem State.skipSector_pu (s : State) (k : Nat) : (s.skipSector k).pu = s.pu := rfl
@[simp] theorem State.skipSector_eu (s : State) (k : Nat) : (s.skipSector k).eu = s.eu := rfl
@[simp] theorem State.skipSector_cs (s : State) (k : Nat) : (s.skipSector k).cs = s.cs := rfl
@[simp] theorem State.skipSector_inputs (s : State) (k : Nat) : (s.skipSector k).inputs = s.inputs := rfl
@[simp] theorem State.skipSector_pending (s : State) (k : Nat) : (s.skipSector k).pending = s.pending := rfl
@[simp] theorem State.skipSector_freeCount (s : State) (k : Nat) :
    (s.skipSector k).freeCount = s.freeCount := rfl

/-! ### State.gatherOn -/

@[simp] theorem State.gatherOn_sr (s : State) : (s.gatherOn).sr = s.sr := rfl
@[simp] theorem State.gatherOn_pins (s : State) : (s.gatherOn).pins = s.pins := rfl
@[simp] theorem State.gatherOn_cl (s : State) : (s.gatherOn).cl = s.cl := rfl
@[simp] theorem State.gatherOn_pf (s : State) : (s.gatherOn).pf = s.pf := rfl
@[simp] theorem State.gatherOn_su (s : State) : (s.gatherOn).su = s.su := rfl
@[simp] theorem State.gatherOn_rd (s : State) : (s.gatherOn).rd = s.rd := rfl
@[simp] theorem State.gatherOn_ae (s : State) : (s.gatherOn).ae = s.ae := rfl
@[simp] theorem State.gatherOn_array (s : State) : (s.gatherOn).array = s.array := rfl
@[simp] theorem State.gatherOn_ledger (s : State) : (s.gatherOn).ledger = s.ledger := rfl
@[simp] theorem State.gatherOn_bc (s : State) :
    (s.gatherOn).bc = { s.bc with state := .gathering, gather := .running s.gatherTicks } := rfl
@[simp] theorem State.gatherOn_pu (s : State) : (s.gatherOn).pu = s.pu := rfl
@[simp] theorem State.gatherOn_eu (s : State) : (s.gatherOn).eu = s.eu := rfl
@[simp] theorem State.gatherOn_cs (s : State) : (s.gatherOn).cs = s.cs := rfl
@[simp] theorem State.gatherOn_inputs (s : State) : (s.gatherOn).inputs = s.inputs := rfl
@[simp] theorem State.gatherOn_pending (s : State) : (s.gatherOn).pending = s.pending := rfl
@[simp] theorem State.gatherOn_freeCount (s : State) : (s.gatherOn).freeCount = s.freeCount := rfl

/-! ### State.yieldBatch -/

@[simp] theorem State.yieldBatch_sr (s : State) : (s.yieldBatch).sr = s.sr := rfl
@[simp] theorem State.yieldBatch_pins (s : State) : (s.yieldBatch).pins = s.pins := rfl
@[simp] theorem State.yieldBatch_cl (s : State) : (s.yieldBatch).cl = s.cl := rfl
@[simp] theorem State.yieldBatch_pf (s : State) : (s.yieldBatch).pf = s.pf := rfl
@[simp] theorem State.yieldBatch_su (s : State) : (s.yieldBatch).su = s.su := rfl
@[simp] theorem State.yieldBatch_rd (s : State) : (s.yieldBatch).rd = s.rd := rfl
@[simp] theorem State.yieldBatch_ae (s : State) : (s.yieldBatch).ae = s.ae := rfl
@[simp] theorem State.yieldBatch_array (s : State) : (s.yieldBatch).array = s.array := rfl
@[simp] theorem State.yieldBatch_ledger (s : State) : (s.yieldBatch).ledger = s.ledger := rfl
@[simp] theorem State.yieldBatch_bc (s : State) :
    (s.yieldBatch).bc = { s.bc with state := .yielded, yieldCount := 0, spacing := .stopped } := rfl
@[simp] theorem State.yieldBatch_pu (s : State) : (s.yieldBatch).pu = s.pu := rfl
@[simp] theorem State.yieldBatch_eu (s : State) : (s.yieldBatch).eu = s.eu := rfl
@[simp] theorem State.yieldBatch_cs (s : State) : (s.yieldBatch).cs = s.cs := rfl
@[simp] theorem State.yieldBatch_inputs (s : State) : (s.yieldBatch).inputs = s.inputs := rfl
@[simp] theorem State.yieldBatch_pending (s : State) : (s.yieldBatch).pending = s.pending := rfl
@[simp] theorem State.yieldBatch_freeCount (s : State) : (s.yieldBatch).freeCount = s.freeCount := rfl

/-! ### State.countServed -/

@[simp] theorem State.countServed_sr (s : State) : (s.countServed).sr = s.sr := rfl
@[simp] theorem State.countServed_pins (s : State) : (s.countServed).pins = s.pins := rfl
@[simp] theorem State.countServed_cl (s : State) : (s.countServed).cl = s.cl := rfl
@[simp] theorem State.countServed_pf (s : State) : (s.countServed).pf = s.pf := rfl
@[simp] theorem State.countServed_su (s : State) : (s.countServed).su = s.su := rfl
@[simp] theorem State.countServed_rd (s : State) : (s.countServed).rd = s.rd := rfl
@[simp] theorem State.countServed_ae (s : State) : (s.countServed).ae = s.ae := rfl
@[simp] theorem State.countServed_array (s : State) : (s.countServed).array = s.array := rfl
@[simp] theorem State.countServed_ledger (s : State) : (s.countServed).ledger = s.ledger := rfl
@[simp] theorem State.countServed_bc (s : State) :
    (s.countServed).bc = { s.bc with yieldCount := s.bc.yieldCount + 1 } := rfl
@[simp] theorem State.countServed_pu (s : State) : (s.countServed).pu = s.pu := rfl
@[simp] theorem State.countServed_eu (s : State) : (s.countServed).eu = s.eu := rfl
@[simp] theorem State.countServed_cs (s : State) : (s.countServed).cs = s.cs := rfl
@[simp] theorem State.countServed_inputs (s : State) : (s.countServed).inputs = s.inputs := rfl
@[simp] theorem State.countServed_pending (s : State) : (s.countServed).pending = s.pending := rfl
@[simp] theorem State.countServed_freeCount (s : State) : (s.countServed).freeCount = s.freeCount := rfl

/-! ### State.addMember -/

@[simp] theorem State.addMember_sr (s : State) (i : Nat) : (s.addMember i).sr = s.sr := rfl
@[simp] theorem State.addMember_pins (s : State) (i : Nat) : (s.addMember i).pins = s.pins := rfl
@[simp] theorem State.addMember_cl (s : State) (i : Nat) : (s.addMember i).cl = s.cl := rfl
@[simp] theorem State.addMember_pf (s : State) (i : Nat) : (s.addMember i).pf = s.pf := rfl
@[simp] theorem State.addMember_su (s : State) (i : Nat) : (s.addMember i).su = s.su := rfl
@[simp] theorem State.addMember_ae (s : State) (i : Nat) : (s.addMember i).ae = s.ae := rfl
@[simp] theorem State.addMember_array (s : State) (i : Nat) : (s.addMember i).array = s.array := rfl
@[simp] theorem State.addMember_ledger (s : State) (i : Nat) : (s.addMember i).ledger = s.ledger := rfl
@[simp] theorem State.addMember_pu (s : State) (i : Nat) : (s.addMember i).pu = s.pu := rfl
@[simp] theorem State.addMember_eu (s : State) (i : Nat) : (s.addMember i).eu = s.eu := rfl
@[simp] theorem State.addMember_cs (s : State) (i : Nat) : (s.addMember i).cs = s.cs := rfl
@[simp] theorem State.addMember_inputs (s : State) (i : Nat) : (s.addMember i).inputs = s.inputs := rfl
@[simp] theorem State.addMember_pending (s : State) (i : Nat) : (s.addMember i).pending = s.pending := rfl
@[simp] theorem State.addMember_freeCount (s : State) (i : Nat) :
    (s.addMember i).freeCount = s.freeCount := rfl

/-! ### State.characterEnd -/

@[simp] theorem State.characterEnd_sr (s : State) : (s.characterEnd).sr = { s.sr with idleTimer := 0 } := rfl
@[simp] theorem State.characterEnd_pins (s : State) :
    (s.characterEnd).pins = { s.pins with rxd := true } := rfl
@[simp] theorem State.characterEnd_cl (s : State) :
    (s.characterEnd).cl = { s.cl with receiver := .idle, breakTimer := .stopped } := rfl
@[simp] theorem State.characterEnd_pf (s : State) : (s.characterEnd).pf = s.pf := rfl
@[simp] theorem State.characterEnd_su (s : State) : (s.characterEnd).su = s.su := rfl
@[simp] theorem State.characterEnd_rd (s : State) : (s.characterEnd).rd = s.rd := rfl
@[simp] theorem State.characterEnd_ae (s : State) : (s.characterEnd).ae = s.ae := rfl
@[simp] theorem State.characterEnd_array (s : State) : (s.characterEnd).array = s.array := rfl
@[simp] theorem State.characterEnd_ledger (s : State) : (s.characterEnd).ledger = s.ledger := rfl
@[simp] theorem State.characterEnd_bc (s : State) : (s.characterEnd).bc = s.bc := rfl
@[simp] theorem State.characterEnd_pu (s : State) : (s.characterEnd).pu = s.pu := rfl
@[simp] theorem State.characterEnd_eu (s : State) : (s.characterEnd).eu = s.eu := rfl
@[simp] theorem State.characterEnd_cs (s : State) : (s.characterEnd).cs = s.cs := rfl
@[simp] theorem State.characterEnd_inputs (s : State) : (s.characterEnd).inputs = s.inputs := rfl
@[simp] theorem State.characterEnd_pending (s : State) : (s.characterEnd).pending = s.pending := rfl
@[simp] theorem State.characterEnd_freeCount (s : State) : (s.characterEnd).freeCount = s.freeCount := rfl

/-! ### State.clearHeld -/

@[simp] theorem State.clearHeld_sr (s : State) : (s.clearHeld).sr = s.sr := rfl
@[simp] theorem State.clearHeld_pins (s : State) : (s.clearHeld).pins = s.pins := rfl
@[simp] theorem State.clearHeld_cl (s : State) :
    (s.clearHeld).cl = { s.cl with held := false, holdTimer := .stopped, tx := s.cl.tx.resumed s.characterTime } := rfl
@[simp] theorem State.clearHeld_pf (s : State) : (s.clearHeld).pf = s.pf := rfl
@[simp] theorem State.clearHeld_su (s : State) : (s.clearHeld).su = s.su := rfl
@[simp] theorem State.clearHeld_rd (s : State) : (s.clearHeld).rd = s.rd := rfl
@[simp] theorem State.clearHeld_ae (s : State) : (s.clearHeld).ae = s.ae := rfl
@[simp] theorem State.clearHeld_array (s : State) : (s.clearHeld).array = s.array := rfl
@[simp] theorem State.clearHeld_ledger (s : State) : (s.clearHeld).ledger = s.ledger := rfl
@[simp] theorem State.clearHeld_bc (s : State) : (s.clearHeld).bc = s.bc := rfl
@[simp] theorem State.clearHeld_pu (s : State) : (s.clearHeld).pu = s.pu := rfl
@[simp] theorem State.clearHeld_eu (s : State) : (s.clearHeld).eu = s.eu := rfl
@[simp] theorem State.clearHeld_cs (s : State) : (s.clearHeld).cs = s.cs := rfl
@[simp] theorem State.clearHeld_inputs (s : State) : (s.clearHeld).inputs = s.inputs := rfl
@[simp] theorem State.clearHeld_pending (s : State) : (s.clearHeld).pending = s.pending := rfl
@[simp] theorem State.clearHeld_freeCount (s : State) : (s.clearHeld).freeCount = s.freeCount := rfl

/-! ### State.freeTransmitter -/

@[simp] theorem State.freeTransmitter_sr (s : State) : (s.freeTransmitter).sr = s.sr := rfl
@[simp] theorem State.freeTransmitter_pins (s : State) : (s.freeTransmitter).pins = s.pins := rfl
@[simp] theorem State.freeTransmitter_cl (s : State) :
    (s.freeTransmitter).cl = { s.cl with tx := .free } := rfl
@[simp] theorem State.freeTransmitter_pf (s : State) : (s.freeTransmitter).pf = s.pf := rfl
@[simp] theorem State.freeTransmitter_su (s : State) : (s.freeTransmitter).su = s.su := rfl
@[simp] theorem State.freeTransmitter_rd (s : State) : (s.freeTransmitter).rd = s.rd := rfl
@[simp] theorem State.freeTransmitter_ae (s : State) : (s.freeTransmitter).ae = s.ae := rfl
@[simp] theorem State.freeTransmitter_array (s : State) : (s.freeTransmitter).array = s.array := rfl
@[simp] theorem State.freeTransmitter_ledger (s : State) : (s.freeTransmitter).ledger = s.ledger := rfl
@[simp] theorem State.freeTransmitter_bc (s : State) : (s.freeTransmitter).bc = s.bc := rfl
@[simp] theorem State.freeTransmitter_pu (s : State) : (s.freeTransmitter).pu = s.pu := rfl
@[simp] theorem State.freeTransmitter_eu (s : State) : (s.freeTransmitter).eu = s.eu := rfl
@[simp] theorem State.freeTransmitter_cs (s : State) : (s.freeTransmitter).cs = s.cs := rfl
@[simp] theorem State.freeTransmitter_inputs (s : State) : (s.freeTransmitter).inputs = s.inputs := rfl
@[simp] theorem State.freeTransmitter_pending (s : State) : (s.freeTransmitter).pending = s.pending := rfl
@[simp] theorem State.freeTransmitter_freeCount (s : State) :
    (s.freeTransmitter).freeCount = s.freeCount := rfl

/-! ### State.setReceiver -/

@[simp] theorem State.setReceiver_sr (s : State) (r : Receiver) : (s.setReceiver r).sr = s.sr := rfl
@[simp] theorem State.setReceiver_pins (s : State) (r : Receiver) : (s.setReceiver r).pins = s.pins := rfl
@[simp] theorem State.setReceiver_cl (s : State) (r : Receiver) :
    (s.setReceiver r).cl = { s.cl with receiver := r } := rfl
@[simp] theorem State.setReceiver_pf (s : State) (r : Receiver) : (s.setReceiver r).pf = s.pf := rfl
@[simp] theorem State.setReceiver_su (s : State) (r : Receiver) : (s.setReceiver r).su = s.su := rfl
@[simp] theorem State.setReceiver_rd (s : State) (r : Receiver) : (s.setReceiver r).rd = s.rd := rfl
@[simp] theorem State.setReceiver_ae (s : State) (r : Receiver) : (s.setReceiver r).ae = s.ae := rfl
@[simp] theorem State.setReceiver_array (s : State) (r : Receiver) : (s.setReceiver r).array = s.array := rfl
@[simp] theorem State.setReceiver_ledger (s : State) (r : Receiver) :
    (s.setReceiver r).ledger = s.ledger := rfl
@[simp] theorem State.setReceiver_bc (s : State) (r : Receiver) : (s.setReceiver r).bc = s.bc := rfl
@[simp] theorem State.setReceiver_pu (s : State) (r : Receiver) : (s.setReceiver r).pu = s.pu := rfl
@[simp] theorem State.setReceiver_eu (s : State) (r : Receiver) : (s.setReceiver r).eu = s.eu := rfl
@[simp] theorem State.setReceiver_cs (s : State) (r : Receiver) : (s.setReceiver r).cs = s.cs := rfl
@[simp] theorem State.setReceiver_inputs (s : State) (r : Receiver) :
    (s.setReceiver r).inputs = s.inputs := rfl
@[simp] theorem State.setReceiver_pending (s : State) (r : Receiver) :
    (s.setReceiver r).pending = s.pending := rfl
@[simp] theorem State.setReceiver_freeCount (s : State) (r : Receiver) :
    (s.setReceiver r).freeCount = s.freeCount := rfl

/-! ### State.nextOctet -/

@[simp] theorem State.nextOctet_sr (s : State) (os : List Byte) : (s.nextOctet os).sr = s.sr := rfl
@[simp] theorem State.nextOctet_pins (s : State) (os : List Byte) : (s.nextOctet os).pins = s.pins := rfl
@[simp] theorem State.nextOctet_cl (s : State) (os : List Byte) :
    (s.nextOctet os).cl = { s.cl with tx := if s.cl.held then .paused os else .sending os s.characterTime } := rfl
@[simp] theorem State.nextOctet_pf (s : State) (os : List Byte) : (s.nextOctet os).pf = s.pf := rfl
@[simp] theorem State.nextOctet_su (s : State) (os : List Byte) : (s.nextOctet os).su = s.su := rfl
@[simp] theorem State.nextOctet_rd (s : State) (os : List Byte) : (s.nextOctet os).rd = s.rd := rfl
@[simp] theorem State.nextOctet_ae (s : State) (os : List Byte) : (s.nextOctet os).ae = s.ae := rfl
@[simp] theorem State.nextOctet_array (s : State) (os : List Byte) : (s.nextOctet os).array = s.array := rfl
@[simp] theorem State.nextOctet_ledger (s : State) (os : List Byte) :
    (s.nextOctet os).ledger = s.ledger := rfl
@[simp] theorem State.nextOctet_bc (s : State) (os : List Byte) : (s.nextOctet os).bc = s.bc := rfl
@[simp] theorem State.nextOctet_pu (s : State) (os : List Byte) : (s.nextOctet os).pu = s.pu := rfl
@[simp] theorem State.nextOctet_eu (s : State) (os : List Byte) : (s.nextOctet os).eu = s.eu := rfl
@[simp] theorem State.nextOctet_cs (s : State) (os : List Byte) : (s.nextOctet os).cs = s.cs := rfl
@[simp] theorem State.nextOctet_inputs (s : State) (os : List Byte) :
    (s.nextOctet os).inputs = s.inputs := rfl
@[simp] theorem State.nextOctet_pending (s : State) (os : List Byte) :
    (s.nextOctet os).pending = s.pending := rfl
@[simp] theorem State.nextOctet_freeCount (s : State) (os : List Byte) :
    (s.nextOctet os).freeCount = s.freeCount := rfl

/-! ### State.dropRecords -/

@[simp] theorem State.dropRecords_sr (s : State) (l : List Word16) : (s.dropRecords l).sr = s.sr := rfl
@[simp] theorem State.dropRecords_pins (s : State) (l : List Word16) : (s.dropRecords l).pins = s.pins := rfl
@[simp] theorem State.dropRecords_cl (s : State) (l : List Word16) : (s.dropRecords l).cl = s.cl := rfl
@[simp] theorem State.dropRecords_pf (s : State) (l : List Word16) : (s.dropRecords l).pf = s.pf := rfl
@[simp] theorem State.dropRecords_su (s : State) (l : List Word16) : (s.dropRecords l).su = s.su := rfl
@[simp] theorem State.dropRecords_rd (s : State) (l : List Word16) : (s.dropRecords l).rd = s.rd := rfl
@[simp] theorem State.dropRecords_ae (s : State) (l : List Word16) : (s.dropRecords l).ae = s.ae := rfl
@[simp] theorem State.dropRecords_array (s : State) (l : List Word16) :
    (s.dropRecords l).array = s.array := rfl
@[simp] theorem State.dropRecords_ledger (s : State) (l : List Word16) :
    (s.dropRecords l).ledger = s.ledger := rfl
@[simp] theorem State.dropRecords_bc (s : State) (l : List Word16) : (s.dropRecords l).bc = s.bc := rfl
@[simp] theorem State.dropRecords_pu (s : State) (l : List Word16) : (s.dropRecords l).pu = s.pu := rfl
@[simp] theorem State.dropRecords_eu (s : State) (l : List Word16) :
    (s.dropRecords l).eu = { s.eu with log := s.eu.log.filter (fun r => !l.contains r.serial) } := rfl
@[simp] theorem State.dropRecords_cs (s : State) (l : List Word16) : (s.dropRecords l).cs = s.cs := rfl
@[simp] theorem State.dropRecords_inputs (s : State) (l : List Word16) :
    (s.dropRecords l).inputs = s.inputs := rfl
@[simp] theorem State.dropRecords_pending (s : State) (l : List Word16) :
    (s.dropRecords l).pending = s.pending := rfl
@[simp] theorem State.dropRecords_freeCount (s : State) (l : List Word16) :
    (s.dropRecords l).freeCount = s.freeCount := rfl

/-! ### State.takeRecords -/

@[simp] theorem State.takeRecords_sr (s : State) (n : Nat) : (s.takeRecords n).sr = s.sr := rfl
@[simp] theorem State.takeRecords_pins (s : State) (n : Nat) : (s.takeRecords n).pins = s.pins := rfl
@[simp] theorem State.takeRecords_cl (s : State) (n : Nat) : (s.takeRecords n).cl = s.cl := rfl
@[simp] theorem State.takeRecords_pf (s : State) (n : Nat) : (s.takeRecords n).pf = s.pf := rfl
@[simp] theorem State.takeRecords_su (s : State) (n : Nat) : (s.takeRecords n).su = s.su := rfl
@[simp] theorem State.takeRecords_rd (s : State) (n : Nat) : (s.takeRecords n).rd = s.rd := rfl
@[simp] theorem State.takeRecords_ae (s : State) (n : Nat) : (s.takeRecords n).ae = s.ae := rfl
@[simp] theorem State.takeRecords_array (s : State) (n : Nat) : (s.takeRecords n).array = s.array := rfl
@[simp] theorem State.takeRecords_ledger (s : State) (n : Nat) : (s.takeRecords n).ledger = s.ledger := rfl
@[simp] theorem State.takeRecords_bc (s : State) (n : Nat) : (s.takeRecords n).bc = s.bc := rfl
@[simp] theorem State.takeRecords_pu (s : State) (n : Nat) : (s.takeRecords n).pu = s.pu := rfl
@[simp] theorem State.takeRecords_eu (s : State) (n : Nat) :
    (s.takeRecords n).eu = { s.eu with log := s.eu.log.drop n } := rfl
@[simp] theorem State.takeRecords_cs (s : State) (n : Nat) : (s.takeRecords n).cs = s.cs := rfl
@[simp] theorem State.takeRecords_inputs (s : State) (n : Nat) : (s.takeRecords n).inputs = s.inputs := rfl
@[simp] theorem State.takeRecords_pending (s : State) (n : Nat) : (s.takeRecords n).pending = s.pending := rfl
@[simp] theorem State.takeRecords_freeCount (s : State) (n : Nat) :
    (s.takeRecords n).freeCount = s.freeCount := rfl

/-! ### State.advanceClocks -/

@[simp] theorem State.advanceClocks_pins (s : State) : (s.advanceClocks).pins = s.pins := rfl
@[simp] theorem State.advanceClocks_pf (s : State) : (s.advanceClocks).pf = s.pf := rfl
@[simp] theorem State.advanceClocks_rd (s : State) : (s.advanceClocks).rd = s.rd := rfl
@[simp] theorem State.advanceClocks_ae (s : State) : (s.advanceClocks).ae = s.ae := rfl
@[simp] theorem State.advanceClocks_array (s : State) : (s.advanceClocks).array = s.array := rfl
@[simp] theorem State.advanceClocks_ledger (s : State) : (s.advanceClocks).ledger = s.ledger := rfl
@[simp] theorem State.advanceClocks_pu (s : State) :
    (s.advanceClocks).pu = { s.pu with candidate := s.sampledCandidate } := rfl
@[simp] theorem State.advanceClocks_eu (s : State) : (s.advanceClocks).eu = s.eu := rfl
@[simp] theorem State.advanceClocks_cs (s : State) : (s.advanceClocks).cs = s.cs := rfl
@[simp] theorem State.advanceClocks_inputs (s : State) : (s.advanceClocks).inputs = s.inputs := rfl
@[simp] theorem State.advanceClocks_pending (s : State) : (s.advanceClocks).pending = s.pending := rfl
@[simp] theorem State.advanceClocks_freeCount (s : State) : (s.advanceClocks).freeCount = s.freeCount := rfl

/-! ### State.elapse -/

@[simp] theorem State.elapse_sr (s : State) (n : Nat) :
    (s.elapse n).sr = { s.sr with phase := s.sr.phase + n } := rfl
@[simp] theorem State.elapse_pins (s : State) (n : Nat) : (s.elapse n).pins = s.pins := rfl
@[simp] theorem State.elapse_pf (s : State) (n : Nat) : (s.elapse n).pf = s.pf := rfl
@[simp] theorem State.elapse_su (s : State) (n : Nat) : (s.elapse n).su = s.su := rfl
@[simp] theorem State.elapse_rd (s : State) (n : Nat) : (s.elapse n).rd = s.rd := rfl
@[simp] theorem State.elapse_ae (s : State) (n : Nat) : (s.elapse n).ae = s.ae := rfl
@[simp] theorem State.elapse_array (s : State) (n : Nat) : (s.elapse n).array = s.array := rfl
@[simp] theorem State.elapse_ledger (s : State) (n : Nat) : (s.elapse n).ledger = s.ledger := rfl
@[simp] theorem State.elapse_bc (s : State) (n : Nat) : (s.elapse n).bc = s.bc := rfl
@[simp] theorem State.elapse_pu (s : State) (n : Nat) : (s.elapse n).pu = s.pu := rfl
@[simp] theorem State.elapse_eu (s : State) (n : Nat) : (s.elapse n).eu = s.eu := rfl
@[simp] theorem State.elapse_cs (s : State) (n : Nat) : (s.elapse n).cs = s.cs := rfl
@[simp] theorem State.elapse_inputs (s : State) (n : Nat) :
    (s.elapse n).inputs = inputsAfter n s.inputs := rfl
@[simp] theorem State.elapse_pending (s : State) (n : Nat) : (s.elapse n).pending = s.pending := rfl
@[simp] theorem State.elapse_freeCount (s : State) (n : Nat) : (s.elapse n).freeCount = s.freeCount := rfl

/-! ### State.framingEvent -/

@[simp] theorem State.framingEvent_sr (s : State) : (s.framingEvent).sr = s.sr := rfl
@[simp] theorem State.framingEvent_pins (s : State) : (s.framingEvent).pins = s.pins := rfl
@[simp] theorem State.framingEvent_cl (s : State) : (s.framingEvent).cl = s.cl := rfl
@[simp] theorem State.framingEvent_pf (s : State) : (s.framingEvent).pf = s.pf.framingError := rfl
@[simp] theorem State.framingEvent_su (s : State) : (s.framingEvent).su = s.su := rfl
@[simp] theorem State.framingEvent_rd (s : State) : (s.framingEvent).rd = s.rd := rfl
@[simp] theorem State.framingEvent_ae (s : State) : (s.framingEvent).ae = s.ae := rfl
@[simp] theorem State.framingEvent_array (s : State) : (s.framingEvent).array = s.array := rfl
@[simp] theorem State.framingEvent_ledger (s : State) : (s.framingEvent).ledger = s.ledger := rfl
@[simp] theorem State.framingEvent_bc (s : State) : (s.framingEvent).bc = s.bc := rfl
@[simp] theorem State.framingEvent_pu (s : State) : (s.framingEvent).pu = s.pu := rfl
@[simp] theorem State.framingEvent_eu (s : State) : (s.framingEvent).eu = s.eu := rfl
@[simp] theorem State.framingEvent_cs (s : State) : (s.framingEvent).cs = s.cs := rfl
@[simp] theorem State.framingEvent_inputs (s : State) : (s.framingEvent).inputs = s.inputs := rfl
@[simp] theorem State.framingEvent_pending (s : State) : (s.framingEvent).pending = s.pending := rfl
@[simp] theorem State.framingEvent_freeCount (s : State) : (s.framingEvent).freeCount = s.freeCount := rfl

/-! ### State.enterDoze -/

@[simp] theorem State.enterDoze_sr (s : State) : (s.enterDoze).sr = { s.sr with top := .doze } := rfl
@[simp] theorem State.enterDoze_pins (s : State) : (s.enterDoze).pins = s.pins := rfl
@[simp] theorem State.enterDoze_cl (s : State) :
    (s.enterDoze).cl = { s.cl with receiver := .dormant, breakTimer := .stopped, lostCharacter := false } := rfl
@[simp] theorem State.enterDoze_pf (s : State) : (s.enterDoze).pf = s.pf := rfl
@[simp] theorem State.enterDoze_su (s : State) : (s.enterDoze).su = s.su := rfl
@[simp] theorem State.enterDoze_rd (s : State) : (s.enterDoze).rd = s.rd := rfl
@[simp] theorem State.enterDoze_ae (s : State) : (s.enterDoze).ae = s.ae := rfl
@[simp] theorem State.enterDoze_array (s : State) : (s.enterDoze).array = s.array := rfl
@[simp] theorem State.enterDoze_ledger (s : State) : (s.enterDoze).ledger = s.ledger := rfl
@[simp] theorem State.enterDoze_bc (s : State) : (s.enterDoze).bc = s.bc := rfl
@[simp] theorem State.enterDoze_pu (s : State) : (s.enterDoze).pu = s.pu := rfl
@[simp] theorem State.enterDoze_eu (s : State) : (s.enterDoze).eu = s.eu := rfl
@[simp] theorem State.enterDoze_cs (s : State) : (s.enterDoze).cs = s.cs := rfl
@[simp] theorem State.enterDoze_inputs (s : State) : (s.enterDoze).inputs = s.inputs := rfl
@[simp] theorem State.enterDoze_pending (s : State) : (s.enterDoze).pending = s.pending := rfl
@[simp] theorem State.enterDoze_freeCount (s : State) : (s.enterDoze).freeCount = s.freeCount := rfl

/-! ### State.dropSlots -/

@[simp] theorem State.dropSlots_sr (s : State) : (s.dropSlots).sr = s.sr := rfl
@[simp] theorem State.dropSlots_pins (s : State) : (s.dropSlots).pins = s.pins := rfl
@[simp] theorem State.dropSlots_cl (s : State) : (s.dropSlots).cl = s.cl := rfl
@[simp] theorem State.dropSlots_pf (s : State) : (s.dropSlots).pf = s.pf := rfl
@[simp] theorem State.dropSlots_su (s : State) : (s.dropSlots).su = s.su := rfl
@[simp] theorem State.dropSlots_rd (s : State) :
    (s.dropSlots).rd = { s.rd with slots := s.rd.slots.map Slot.afterTeardown, queue := [] } := rfl
@[simp] theorem State.dropSlots_ae (s : State) : (s.dropSlots).ae = s.ae := rfl
@[simp] theorem State.dropSlots_array (s : State) : (s.dropSlots).array = s.array := rfl
@[simp] theorem State.dropSlots_ledger (s : State) : (s.dropSlots).ledger = s.ledger := rfl
@[simp] theorem State.dropSlots_bc (s : State) : (s.dropSlots).bc = s.bc := rfl
@[simp] theorem State.dropSlots_pu (s : State) : (s.dropSlots).pu = s.pu := rfl
@[simp] theorem State.dropSlots_eu (s : State) : (s.dropSlots).eu = s.eu := rfl
@[simp] theorem State.dropSlots_cs (s : State) : (s.dropSlots).cs = s.cs := rfl
@[simp] theorem State.dropSlots_inputs (s : State) : (s.dropSlots).inputs = s.inputs := rfl
@[simp] theorem State.dropSlots_pending (s : State) : (s.dropSlots).pending = s.pending := rfl
@[simp] theorem State.dropSlots_freeCount (s : State) : (s.dropSlots).freeCount = s.freeCount := rfl

/-! ### State.detach -/

@[simp] theorem State.detach_sr (s : State) (r : TeardownReason) : (s.detach r).sr = s.sr := rfl
@[simp] theorem State.detach_pins (s : State) (r : TeardownReason) : (s.detach r).pins = s.pins := rfl
@[simp] theorem State.detach_pf (s : State) (r : TeardownReason) : (s.detach r).pf = s.pf := rfl
@[simp] theorem State.detach_su (s : State) (r : TeardownReason) : (s.detach r).su = s.su.tornDown r := rfl
@[simp] theorem State.detach_rd (s : State) (r : TeardownReason) : (s.detach r).rd = s.rd := rfl
@[simp] theorem State.detach_ae (s : State) (r : TeardownReason) : (s.detach r).ae = s.ae := rfl
@[simp] theorem State.detach_array (s : State) (r : TeardownReason) : (s.detach r).array = s.array := rfl
@[simp] theorem State.detach_ledger (s : State) (r : TeardownReason) : (s.detach r).ledger = s.ledger := rfl
@[simp] theorem State.detach_bc (s : State) (r : TeardownReason) : (s.detach r).bc = s.bc := rfl
@[simp] theorem State.detach_pu (s : State) (r : TeardownReason) : (s.detach r).pu = s.pu := rfl
@[simp] theorem State.detach_eu (s : State) (r : TeardownReason) :
    (s.detach r).eu = { s.eu with log := s.eu.log.map (fun x => { x with inFlight := false }) } := rfl
@[simp] theorem State.detach_cs (s : State) (r : TeardownReason) : (s.detach r).cs = s.cs := rfl
@[simp] theorem State.detach_inputs (s : State) (r : TeardownReason) : (s.detach r).inputs = s.inputs := rfl
@[simp] theorem State.detach_pending (s : State) (r : TeardownReason) :
    (s.detach r).pending = s.pending := rfl
@[simp] theorem State.detach_freeCount (s : State) (r : TeardownReason) :
    (s.detach r).freeCount = s.freeCount := rfl

/-! ### State.restartRetransmit -/

@[simp] theorem State.restartRetransmit_sr (s : State) : (s.restartRetransmit).sr = s.sr := rfl
@[simp] theorem State.restartRetransmit_pins (s : State) : (s.restartRetransmit).pins = s.pins := rfl
@[simp] theorem State.restartRetransmit_cl (s : State) : (s.restartRetransmit).cl = s.cl := rfl
@[simp] theorem State.restartRetransmit_pf (s : State) : (s.restartRetransmit).pf = s.pf := rfl
@[simp] theorem State.restartRetransmit_su (s : State) :
    (s.restartRetransmit).su = { s.su with retransmit := .running s.retransmitTicks } := rfl
@[simp] theorem State.restartRetransmit_rd (s : State) : (s.restartRetransmit).rd = s.rd := rfl
@[simp] theorem State.restartRetransmit_ae (s : State) : (s.restartRetransmit).ae = s.ae := rfl
@[simp] theorem State.restartRetransmit_array (s : State) : (s.restartRetransmit).array = s.array := rfl
@[simp] theorem State.restartRetransmit_ledger (s : State) : (s.restartRetransmit).ledger = s.ledger := rfl
@[simp] theorem State.restartRetransmit_bc (s : State) : (s.restartRetransmit).bc = s.bc := rfl
@[simp] theorem State.restartRetransmit_pu (s : State) : (s.restartRetransmit).pu = s.pu := rfl
@[simp] theorem State.restartRetransmit_eu (s : State) : (s.restartRetransmit).eu = s.eu := rfl
@[simp] theorem State.restartRetransmit_cs (s : State) : (s.restartRetransmit).cs = s.cs := rfl
@[simp] theorem State.restartRetransmit_inputs (s : State) : (s.restartRetransmit).inputs = s.inputs := rfl
@[simp] theorem State.restartRetransmit_pending (s : State) : (s.restartRetransmit).pending = s.pending := rfl
@[simp] theorem State.restartRetransmit_freeCount (s : State) :
    (s.restartRetransmit).freeCount = s.freeCount := rfl

/-! ### State.setUpPass -/

@[simp] theorem State.setUpPass_sr (s : State) : (s.setUpPass).sr = s.sr := rfl
@[simp] theorem State.setUpPass_pins (s : State) : (s.setUpPass).pins = s.pins := rfl
@[simp] theorem State.setUpPass_cl (s : State) : (s.setUpPass).cl = s.cl := rfl
@[simp] theorem State.setUpPass_pf (s : State) : (s.setUpPass).pf = s.pf := rfl
@[simp] theorem State.setUpPass_su (s : State) :
    (s.setUpPass).su = { s.su with pass := s.su.window.map (fun e => e.ns), retransmit := .running s.retransmitTicks } := rfl
@[simp] theorem State.setUpPass_rd (s : State) : (s.setUpPass).rd = s.rd := rfl
@[simp] theorem State.setUpPass_ae (s : State) : (s.setUpPass).ae = s.ae := rfl
@[simp] theorem State.setUpPass_array (s : State) : (s.setUpPass).array = s.array := rfl
@[simp] theorem State.setUpPass_ledger (s : State) : (s.setUpPass).ledger = s.ledger := rfl
@[simp] theorem State.setUpPass_bc (s : State) : (s.setUpPass).bc = s.bc := rfl
@[simp] theorem State.setUpPass_pu (s : State) : (s.setUpPass).pu = s.pu := rfl
@[simp] theorem State.setUpPass_eu (s : State) : (s.setUpPass).eu = s.eu := rfl
@[simp] theorem State.setUpPass_cs (s : State) : (s.setUpPass).cs = s.cs := rfl
@[simp] theorem State.setUpPass_inputs (s : State) : (s.setUpPass).inputs = s.inputs := rfl
@[simp] theorem State.setUpPass_pending (s : State) : (s.setUpPass).pending = s.pending := rfl
@[simp] theorem State.setUpPass_freeCount (s : State) : (s.setUpPass).freeCount = s.freeCount := rfl

/-! ### State.countUnattached -/

@[simp] theorem State.countUnattached_sr (s : State) : (s.countUnattached).sr = s.sr := rfl
@[simp] theorem State.countUnattached_pins (s : State) : (s.countUnattached).pins = s.pins := rfl
@[simp] theorem State.countUnattached_cl (s : State) : (s.countUnattached).cl = s.cl := rfl
@[simp] theorem State.countUnattached_pf (s : State) : (s.countUnattached).pf = s.pf := rfl
@[simp] theorem State.countUnattached_su (s : State) :
    (s.countUnattached).su = { s.su with unattached := s.su.unattached + 1 } := rfl
@[simp] theorem State.countUnattached_rd (s : State) : (s.countUnattached).rd = s.rd := rfl
@[simp] theorem State.countUnattached_ae (s : State) : (s.countUnattached).ae = s.ae := rfl
@[simp] theorem State.countUnattached_array (s : State) : (s.countUnattached).array = s.array := rfl
@[simp] theorem State.countUnattached_ledger (s : State) : (s.countUnattached).ledger = s.ledger := rfl
@[simp] theorem State.countUnattached_bc (s : State) : (s.countUnattached).bc = s.bc := rfl
@[simp] theorem State.countUnattached_pu (s : State) : (s.countUnattached).pu = s.pu := rfl
@[simp] theorem State.countUnattached_eu (s : State) : (s.countUnattached).eu = s.eu := rfl
@[simp] theorem State.countUnattached_cs (s : State) : (s.countUnattached).cs = s.cs := rfl
@[simp] theorem State.countUnattached_inputs (s : State) : (s.countUnattached).inputs = s.inputs := rfl
@[simp] theorem State.countUnattached_pending (s : State) : (s.countUnattached).pending = s.pending := rfl
@[simp] theorem State.countUnattached_freeCount (s : State) :
    (s.countUnattached).freeCount = s.freeCount := rfl

/-! ### State.setHostBusy -/

@[simp] theorem State.setHostBusy_sr (s : State) (p : List Byte) : (s.setHostBusy p).sr = s.sr := rfl
@[simp] theorem State.setHostBusy_pins (s : State) (p : List Byte) : (s.setHostBusy p).pins = s.pins := rfl
@[simp] theorem State.setHostBusy_cl (s : State) (p : List Byte) : (s.setHostBusy p).cl = s.cl := rfl
@[simp] theorem State.setHostBusy_pf (s : State) (p : List Byte) : (s.setHostBusy p).pf = s.pf := rfl
@[simp] theorem State.setHostBusy_su (s : State) (p : List Byte) :
    (s.setHostBusy p).su = { s.su with hostBusy := (p.headD 0).getLsbD 0 } := rfl
@[simp] theorem State.setHostBusy_rd (s : State) (p : List Byte) : (s.setHostBusy p).rd = s.rd := rfl
@[simp] theorem State.setHostBusy_ae (s : State) (p : List Byte) : (s.setHostBusy p).ae = s.ae := rfl
@[simp] theorem State.setHostBusy_array (s : State) (p : List Byte) : (s.setHostBusy p).array = s.array := rfl
@[simp] theorem State.setHostBusy_ledger (s : State) (p : List Byte) :
    (s.setHostBusy p).ledger = s.ledger := rfl
@[simp] theorem State.setHostBusy_bc (s : State) (p : List Byte) : (s.setHostBusy p).bc = s.bc := rfl
@[simp] theorem State.setHostBusy_pu (s : State) (p : List Byte) : (s.setHostBusy p).pu = s.pu := rfl
@[simp] theorem State.setHostBusy_eu (s : State) (p : List Byte) : (s.setHostBusy p).eu = s.eu := rfl
@[simp] theorem State.setHostBusy_cs (s : State) (p : List Byte) : (s.setHostBusy p).cs = s.cs := rfl
@[simp] theorem State.setHostBusy_inputs (s : State) (p : List Byte) :
    (s.setHostBusy p).inputs = s.inputs := rfl
@[simp] theorem State.setHostBusy_pending (s : State) (p : List Byte) :
    (s.setHostBusy p).pending = s.pending := rfl
@[simp] theorem State.setHostBusy_freeCount (s : State) (p : List Byte) :
    (s.setHostBusy p).freeCount = s.freeCount := rfl

/-! ### State.acceptSequence -/

@[simp] theorem State.acceptSequence_sr (s : State) : (s.acceptSequence).sr = s.sr := rfl
@[simp] theorem State.acceptSequence_pins (s : State) : (s.acceptSequence).pins = s.pins := rfl
@[simp] theorem State.acceptSequence_cl (s : State) : (s.acceptSequence).cl = s.cl := rfl
@[simp] theorem State.acceptSequence_pf (s : State) : (s.acceptSequence).pf = s.pf := rfl
@[simp] theorem State.acceptSequence_su (s : State) :
    (s.acceptSequence).su = { s.su with vr := s.su.vr + 1, ackOwed := true, rejectSent := false, rejPending := false } := rfl
@[simp] theorem State.acceptSequence_rd (s : State) : (s.acceptSequence).rd = s.rd := rfl
@[simp] theorem State.acceptSequence_ae (s : State) : (s.acceptSequence).ae = s.ae := rfl
@[simp] theorem State.acceptSequence_array (s : State) : (s.acceptSequence).array = s.array := rfl
@[simp] theorem State.acceptSequence_ledger (s : State) : (s.acceptSequence).ledger = s.ledger := rfl
@[simp] theorem State.acceptSequence_bc (s : State) : (s.acceptSequence).bc = s.bc := rfl
@[simp] theorem State.acceptSequence_pu (s : State) : (s.acceptSequence).pu = s.pu := rfl
@[simp] theorem State.acceptSequence_eu (s : State) : (s.acceptSequence).eu = s.eu := rfl
@[simp] theorem State.acceptSequence_cs (s : State) : (s.acceptSequence).cs = s.cs := rfl
@[simp] theorem State.acceptSequence_inputs (s : State) : (s.acceptSequence).inputs = s.inputs := rfl
@[simp] theorem State.acceptSequence_pending (s : State) : (s.acceptSequence).pending = s.pending := rfl
@[simp] theorem State.acceptSequence_freeCount (s : State) : (s.acceptSequence).freeCount = s.freeCount := rfl

/-! ### State.attach -/

@[simp] theorem State.attach_sr (s : State) (tag w o : Byte) : (s.attach tag w o).sr = s.sr := rfl
@[simp] theorem State.attach_pins (s : State) (tag w o : Byte) : (s.attach tag w o).pins = s.pins := rfl
@[simp] theorem State.attach_cl (s : State) (tag w o : Byte) : (s.attach tag w o).cl = s.cl := rfl
@[simp] theorem State.attach_pf (s : State) (tag w o : Byte) : (s.attach tag w o).pf = s.pf := rfl
@[simp] theorem State.attach_rd (s : State) (tag w o : Byte) : (s.attach tag w o).rd = s.rd := rfl
@[simp] theorem State.attach_ae (s : State) (tag w o : Byte) : (s.attach tag w o).ae = s.ae := rfl
@[simp] theorem State.attach_array (s : State) (tag w o : Byte) : (s.attach tag w o).array = s.array := rfl
@[simp] theorem State.attach_ledger (s : State) (tag w o : Byte) : (s.attach tag w o).ledger = s.ledger := rfl
@[simp] theorem State.attach_bc (s : State) (tag w o : Byte) : (s.attach tag w o).bc = s.bc := rfl
@[simp] theorem State.attach_pu (s : State) (tag w o : Byte) : (s.attach tag w o).pu = s.pu := rfl
@[simp] theorem State.attach_eu (s : State) (tag w o : Byte) : (s.attach tag w o).eu = s.eu := rfl
@[simp] theorem State.attach_cs (s : State) (tag w o : Byte) : (s.attach tag w o).cs = s.cs := rfl
@[simp] theorem State.attach_inputs (s : State) (tag w o : Byte) : (s.attach tag w o).inputs = s.inputs := rfl
@[simp] theorem State.attach_pending (s : State) (tag w o : Byte) :
    (s.attach tag w o).pending = s.pending := rfl
@[simp] theorem State.attach_freeCount (s : State) (tag w o : Byte) :
    (s.attach tag w o).freeCount = s.freeCount := rfl

/-! ### State.transmit -/

@[simp] theorem State.transmit_sr (s : State) (cls : Byte) (ns nr : Seq) (tag : Byte) (p : List Byte) :
    (s.transmit cls ns nr tag p).sr = s.sr := rfl
@[simp] theorem State.transmit_pins (s : State) (cls : Byte) (ns nr : Seq) (tag : Byte) (p : List Byte) :
    (s.transmit cls ns nr tag p).pins = s.pins := rfl
@[simp] theorem State.transmit_cl (s : State) (cls : Byte) (ns nr : Seq) (tag : Byte) (p : List Byte) :
    (s.transmit cls ns nr tag p).cl = { s.cl with tx := .sending (encodeParcel cls ns nr tag p) s.characterTime } := rfl
@[simp] theorem State.transmit_pf (s : State) (cls : Byte) (ns nr : Seq) (tag : Byte) (p : List Byte) :
    (s.transmit cls ns nr tag p).pf = s.pf := rfl
@[simp] theorem State.transmit_su (s : State) (cls : Byte) (ns nr : Seq) (tag : Byte) (p : List Byte) :
    (s.transmit cls ns nr tag p).su = s.su := rfl
@[simp] theorem State.transmit_rd (s : State) (cls : Byte) (ns nr : Seq) (tag : Byte) (p : List Byte) :
    (s.transmit cls ns nr tag p).rd = s.rd := rfl
@[simp] theorem State.transmit_ae (s : State) (cls : Byte) (ns nr : Seq) (tag : Byte) (p : List Byte) :
    (s.transmit cls ns nr tag p).ae = s.ae := rfl
@[simp] theorem State.transmit_array (s : State) (cls : Byte) (ns nr : Seq) (tag : Byte) (p : List Byte) :
    (s.transmit cls ns nr tag p).array = s.array := rfl
@[simp] theorem State.transmit_ledger (s : State) (cls : Byte) (ns nr : Seq) (tag : Byte) (p : List Byte) :
    (s.transmit cls ns nr tag p).ledger = s.ledger := rfl
@[simp] theorem State.transmit_bc (s : State) (cls : Byte) (ns nr : Seq) (tag : Byte) (p : List Byte) :
    (s.transmit cls ns nr tag p).bc = s.bc := rfl
@[simp] theorem State.transmit_pu (s : State) (cls : Byte) (ns nr : Seq) (tag : Byte) (p : List Byte) :
    (s.transmit cls ns nr tag p).pu = s.pu := rfl
@[simp] theorem State.transmit_eu (s : State) (cls : Byte) (ns nr : Seq) (tag : Byte) (p : List Byte) :
    (s.transmit cls ns nr tag p).eu = s.eu := rfl
@[simp] theorem State.transmit_cs (s : State) (cls : Byte) (ns nr : Seq) (tag : Byte) (p : List Byte) :
    (s.transmit cls ns nr tag p).cs = s.cs := rfl
@[simp] theorem State.transmit_inputs (s : State) (cls : Byte) (ns nr : Seq) (tag : Byte) (p : List Byte) :
    (s.transmit cls ns nr tag p).inputs = s.inputs := rfl
@[simp] theorem State.transmit_pending (s : State) (cls : Byte) (ns nr : Seq) (tag : Byte) (p : List Byte) :
    (s.transmit cls ns nr tag p).pending = s.pending := rfl
@[simp] theorem State.transmit_freeCount (s : State) (cls : Byte) (ns nr : Seq) (tag : Byte) (p : List Byte) :
    (s.transmit cls ns nr tag p).freeCount = s.freeCount := rfl

/-! ### State.sendReply -/

@[simp] theorem State.sendReply_sr (s : State) (r : Reply) (rest : List Reply) :
    (s.sendReply r rest).sr = s.sr := rfl
@[simp] theorem State.sendReply_pins (s : State) (r : Reply) (rest : List Reply) :
    (s.sendReply r rest).pins = s.pins := rfl
@[simp] theorem State.sendReply_pf (s : State) (r : Reply) (rest : List Reply) :
    (s.sendReply r rest).pf = s.pf := rfl
@[simp] theorem State.sendReply_su (s : State) (r : Reply) (rest : List Reply) :
    (s.sendReply r rest).su = { s.su with replies := rest } := rfl
@[simp] theorem State.sendReply_rd (s : State) (r : Reply) (rest : List Reply) :
    (s.sendReply r rest).rd = s.rd := rfl
@[simp] theorem State.sendReply_ae (s : State) (r : Reply) (rest : List Reply) :
    (s.sendReply r rest).ae = s.ae := rfl
@[simp] theorem State.sendReply_array (s : State) (r : Reply) (rest : List Reply) :
    (s.sendReply r rest).array = s.array := rfl
@[simp] theorem State.sendReply_ledger (s : State) (r : Reply) (rest : List Reply) :
    (s.sendReply r rest).ledger = s.ledger := rfl
@[simp] theorem State.sendReply_bc (s : State) (r : Reply) (rest : List Reply) :
    (s.sendReply r rest).bc = s.bc := rfl
@[simp] theorem State.sendReply_pu (s : State) (r : Reply) (rest : List Reply) :
    (s.sendReply r rest).pu = s.pu := rfl
@[simp] theorem State.sendReply_eu (s : State) (r : Reply) (rest : List Reply) :
    (s.sendReply r rest).eu = s.eu := rfl
@[simp] theorem State.sendReply_cs (s : State) (r : Reply) (rest : List Reply) :
    (s.sendReply r rest).cs = s.cs := rfl
@[simp] theorem State.sendReply_inputs (s : State) (r : Reply) (rest : List Reply) :
    (s.sendReply r rest).inputs = s.inputs := rfl
@[simp] theorem State.sendReply_pending (s : State) (r : Reply) (rest : List Reply) :
    (s.sendReply r rest).pending = s.pending := rfl
@[simp] theorem State.sendReply_freeCount (s : State) (r : Reply) (rest : List Reply) :
    (s.sendReply r rest).freeCount = s.freeCount := rfl

/-! ### State.sendRej -/

@[simp] theorem State.sendRej_sr (s : State) : (s.sendRej).sr = s.sr := rfl
@[simp] theorem State.sendRej_pins (s : State) : (s.sendRej).pins = s.pins := rfl
@[simp] theorem State.sendRej_pf (s : State) : (s.sendRej).pf = s.pf := rfl
@[simp] theorem State.sendRej_su (s : State) :
    (s.sendRej).su = { s.su with rejPending := false, ackOwed := false, rejSent := s.su.rejSent + 1 } := rfl
@[simp] theorem State.sendRej_rd (s : State) : (s.sendRej).rd = s.rd := rfl
@[simp] theorem State.sendRej_ae (s : State) : (s.sendRej).ae = s.ae := rfl
@[simp] theorem State.sendRej_array (s : State) : (s.sendRej).array = s.array := rfl
@[simp] theorem State.sendRej_ledger (s : State) : (s.sendRej).ledger = s.ledger := rfl
@[simp] theorem State.sendRej_bc (s : State) : (s.sendRej).bc = s.bc := rfl
@[simp] theorem State.sendRej_pu (s : State) : (s.sendRej).pu = s.pu := rfl
@[simp] theorem State.sendRej_eu (s : State) : (s.sendRej).eu = s.eu := rfl
@[simp] theorem State.sendRej_cs (s : State) : (s.sendRej).cs = s.cs := rfl
@[simp] theorem State.sendRej_inputs (s : State) : (s.sendRej).inputs = s.inputs := rfl
@[simp] theorem State.sendRej_pending (s : State) : (s.sendRej).pending = s.pending := rfl
@[simp] theorem State.sendRej_freeCount (s : State) : (s.sendRej).freeCount = s.freeCount := rfl

/-! ### State.sendAgain -/

@[simp] theorem State.sendAgain_sr (s : State) (e : WindowEntry) (rest : List Seq) :
    (s.sendAgain e rest).sr = s.sr := rfl
@[simp] theorem State.sendAgain_pins (s : State) (e : WindowEntry) (rest : List Seq) :
    (s.sendAgain e rest).pins = s.pins := rfl
@[simp] theorem State.sendAgain_pf (s : State) (e : WindowEntry) (rest : List Seq) :
    (s.sendAgain e rest).pf = s.pf := rfl
@[simp] theorem State.sendAgain_su (s : State) (e : WindowEntry) (rest : List Seq) :
    (s.sendAgain e rest).su = { s.su with pass := rest, ackOwed := false, retransmitted := s.su.retransmitted + 1 } := rfl
@[simp] theorem State.sendAgain_rd (s : State) (e : WindowEntry) (rest : List Seq) :
    (s.sendAgain e rest).rd = s.rd := rfl
@[simp] theorem State.sendAgain_ae (s : State) (e : WindowEntry) (rest : List Seq) :
    (s.sendAgain e rest).ae = s.ae := rfl
@[simp] theorem State.sendAgain_array (s : State) (e : WindowEntry) (rest : List Seq) :
    (s.sendAgain e rest).array = s.array := rfl
@[simp] theorem State.sendAgain_ledger (s : State) (e : WindowEntry) (rest : List Seq) :
    (s.sendAgain e rest).ledger = s.ledger := rfl
@[simp] theorem State.sendAgain_bc (s : State) (e : WindowEntry) (rest : List Seq) :
    (s.sendAgain e rest).bc = s.bc := rfl
@[simp] theorem State.sendAgain_pu (s : State) (e : WindowEntry) (rest : List Seq) :
    (s.sendAgain e rest).pu = s.pu := rfl
@[simp] theorem State.sendAgain_eu (s : State) (e : WindowEntry) (rest : List Seq) :
    (s.sendAgain e rest).eu = s.eu := rfl
@[simp] theorem State.sendAgain_cs (s : State) (e : WindowEntry) (rest : List Seq) :
    (s.sendAgain e rest).cs = s.cs := rfl
@[simp] theorem State.sendAgain_inputs (s : State) (e : WindowEntry) (rest : List Seq) :
    (s.sendAgain e rest).inputs = s.inputs := rfl
@[simp] theorem State.sendAgain_pending (s : State) (e : WindowEntry) (rest : List Seq) :
    (s.sendAgain e rest).pending = s.pending := rfl
@[simp] theorem State.sendAgain_freeCount (s : State) (e : WindowEntry) (rest : List Seq) :
    (s.sendAgain e rest).freeCount = s.freeCount := rfl

/-! ### State.sendNew -/

@[simp] theorem State.sendNew_sr (s : State) (k : WindowKind) (tag : Byte) (p : List Byte) :
    (s.sendNew k tag p).sr = s.sr := rfl
@[simp] theorem State.sendNew_pins (s : State) (k : WindowKind) (tag : Byte) (p : List Byte) :
    (s.sendNew k tag p).pins = s.pins := rfl
@[simp] theorem State.sendNew_pf (s : State) (k : WindowKind) (tag : Byte) (p : List Byte) :
    (s.sendNew k tag p).pf = s.pf := rfl
@[simp] theorem State.sendNew_rd (s : State) (k : WindowKind) (tag : Byte) (p : List Byte) :
    (s.sendNew k tag p).rd = s.rd := rfl
@[simp] theorem State.sendNew_ae (s : State) (k : WindowKind) (tag : Byte) (p : List Byte) :
    (s.sendNew k tag p).ae = s.ae := rfl
@[simp] theorem State.sendNew_array (s : State) (k : WindowKind) (tag : Byte) (p : List Byte) :
    (s.sendNew k tag p).array = s.array := rfl
@[simp] theorem State.sendNew_ledger (s : State) (k : WindowKind) (tag : Byte) (p : List Byte) :
    (s.sendNew k tag p).ledger = s.ledger := rfl
@[simp] theorem State.sendNew_bc (s : State) (k : WindowKind) (tag : Byte) (p : List Byte) :
    (s.sendNew k tag p).bc = s.bc := rfl
@[simp] theorem State.sendNew_pu (s : State) (k : WindowKind) (tag : Byte) (p : List Byte) :
    (s.sendNew k tag p).pu = s.pu := rfl
@[simp] theorem State.sendNew_eu (s : State) (k : WindowKind) (tag : Byte) (p : List Byte) :
    (s.sendNew k tag p).eu = s.eu := rfl
@[simp] theorem State.sendNew_cs (s : State) (k : WindowKind) (tag : Byte) (p : List Byte) :
    (s.sendNew k tag p).cs = s.cs := rfl
@[simp] theorem State.sendNew_inputs (s : State) (k : WindowKind) (tag : Byte) (p : List Byte) :
    (s.sendNew k tag p).inputs = s.inputs := rfl
@[simp] theorem State.sendNew_pending (s : State) (k : WindowKind) (tag : Byte) (p : List Byte) :
    (s.sendNew k tag p).pending = s.pending := rfl
@[simp] theorem State.sendNew_freeCount (s : State) (k : WindowKind) (tag : Byte) (p : List Byte) :
    (s.sendNew k tag p).freeCount = s.freeCount := rfl

/-! ### State.sendAck -/

@[simp] theorem State.sendAck_sr (s : State) : (s.sendAck).sr = s.sr := rfl
@[simp] theorem State.sendAck_pins (s : State) : (s.sendAck).pins = s.pins := rfl
@[simp] theorem State.sendAck_pf (s : State) : (s.sendAck).pf = s.pf := rfl
@[simp] theorem State.sendAck_rd (s : State) : (s.sendAck).rd = s.rd := rfl
@[simp] theorem State.sendAck_ae (s : State) : (s.sendAck).ae = s.ae := rfl
@[simp] theorem State.sendAck_array (s : State) : (s.sendAck).array = s.array := rfl
@[simp] theorem State.sendAck_ledger (s : State) : (s.sendAck).ledger = s.ledger := rfl
@[simp] theorem State.sendAck_bc (s : State) : (s.sendAck).bc = s.bc := rfl
@[simp] theorem State.sendAck_pu (s : State) : (s.sendAck).pu = s.pu := rfl
@[simp] theorem State.sendAck_eu (s : State) : (s.sendAck).eu = s.eu := rfl
@[simp] theorem State.sendAck_cs (s : State) : (s.sendAck).cs = s.cs := rfl
@[simp] theorem State.sendAck_inputs (s : State) : (s.sendAck).inputs = s.inputs := rfl
@[simp] theorem State.sendAck_pending (s : State) : (s.sendAck).pending = s.pending := rfl
@[simp] theorem State.sendAck_freeCount (s : State) : (s.sendAck).freeCount = s.freeCount := rfl

/-! ### State.markInFlight -/

@[simp] theorem State.markInFlight_sr (s : State) (n : Word16) : (s.markInFlight n).sr = s.sr := rfl
@[simp] theorem State.markInFlight_pins (s : State) (n : Word16) : (s.markInFlight n).pins = s.pins := rfl
@[simp] theorem State.markInFlight_cl (s : State) (n : Word16) : (s.markInFlight n).cl = s.cl := rfl
@[simp] theorem State.markInFlight_pf (s : State) (n : Word16) : (s.markInFlight n).pf = s.pf := rfl
@[simp] theorem State.markInFlight_su (s : State) (n : Word16) : (s.markInFlight n).su = s.su := rfl
@[simp] theorem State.markInFlight_rd (s : State) (n : Word16) : (s.markInFlight n).rd = s.rd := rfl
@[simp] theorem State.markInFlight_ae (s : State) (n : Word16) : (s.markInFlight n).ae = s.ae := rfl
@[simp] theorem State.markInFlight_array (s : State) (n : Word16) : (s.markInFlight n).array = s.array := rfl
@[simp] theorem State.markInFlight_ledger (s : State) (n : Word16) :
    (s.markInFlight n).ledger = s.ledger := rfl
@[simp] theorem State.markInFlight_bc (s : State) (n : Word16) : (s.markInFlight n).bc = s.bc := rfl
@[simp] theorem State.markInFlight_pu (s : State) (n : Word16) : (s.markInFlight n).pu = s.pu := rfl
@[simp] theorem State.markInFlight_eu (s : State) (n : Word16) :
    (s.markInFlight n).eu = { s.eu with
      log := s.eu.log.map (fun r => if r.serial = n then { r with inFlight := true } else r) } := rfl
@[simp] theorem State.markInFlight_cs (s : State) (n : Word16) : (s.markInFlight n).cs = s.cs := rfl
@[simp] theorem State.markInFlight_inputs (s : State) (n : Word16) :
    (s.markInFlight n).inputs = s.inputs := rfl
@[simp] theorem State.markInFlight_pending (s : State) (n : Word16) :
    (s.markInFlight n).pending = s.pending := rfl
@[simp] theorem State.markInFlight_freeCount (s : State) (n : Word16) :
    (s.markInFlight n).freeCount = s.freeCount := rfl

/-! ### State.lockGroups -/

@[simp] theorem State.lockGroups_sr (s : State) (m : Word16) : (s.lockGroups m).sr = s.sr := rfl
@[simp] theorem State.lockGroups_pins (s : State) (m : Word16) : (s.lockGroups m).pins = s.pins := rfl
@[simp] theorem State.lockGroups_cl (s : State) (m : Word16) : (s.lockGroups m).cl = s.cl := rfl
@[simp] theorem State.lockGroups_pf (s : State) (m : Word16) : (s.lockGroups m).pf = s.pf := rfl
@[simp] theorem State.lockGroups_su (s : State) (m : Word16) : (s.lockGroups m).su = s.su := rfl
@[simp] theorem State.lockGroups_rd (s : State) (m : Word16) : (s.lockGroups m).rd = s.rd := rfl
@[simp] theorem State.lockGroups_ae (s : State) (m : Word16) : (s.lockGroups m).ae = s.ae := rfl
@[simp] theorem State.lockGroups_array (s : State) (m : Word16) : (s.lockGroups m).array = s.array := rfl
@[simp] theorem State.lockGroups_ledger (s : State) (m : Word16) : (s.lockGroups m).ledger = s.ledger := rfl
@[simp] theorem State.lockGroups_bc (s : State) (m : Word16) : (s.lockGroups m).bc = s.bc := rfl
@[simp] theorem State.lockGroups_pu (s : State) (m : Word16) :
    (s.lockGroups m).pu = { s.pu with lockMask := s.pu.lockMask ||| m } := rfl
@[simp] theorem State.lockGroups_eu (s : State) (m : Word16) : (s.lockGroups m).eu = s.eu := rfl
@[simp] theorem State.lockGroups_cs (s : State) (m : Word16) : (s.lockGroups m).cs = s.cs := rfl
@[simp] theorem State.lockGroups_inputs (s : State) (m : Word16) : (s.lockGroups m).inputs = s.inputs := rfl
@[simp] theorem State.lockGroups_pending (s : State) (m : Word16) :
    (s.lockGroups m).pending = s.pending := rfl
@[simp] theorem State.lockGroups_freeCount (s : State) (m : Word16) :
    (s.lockGroups m).freeCount = s.freeCount := rfl

/-! ### State.setCopy -/

@[simp] theorem State.setCopy_sr (s : State) (id : CopyId) (c : StoredCopy) :
    (s.setCopy id c).sr = s.sr := rfl
@[simp] theorem State.setCopy_pins (s : State) (id : CopyId) (c : StoredCopy) :
    (s.setCopy id c).pins = s.pins := rfl
@[simp] theorem State.setCopy_cl (s : State) (id : CopyId) (c : StoredCopy) :
    (s.setCopy id c).cl = s.cl := rfl
@[simp] theorem State.setCopy_pf (s : State) (id : CopyId) (c : StoredCopy) :
    (s.setCopy id c).pf = s.pf := rfl
@[simp] theorem State.setCopy_su (s : State) (id : CopyId) (c : StoredCopy) :
    (s.setCopy id c).su = s.su := rfl
@[simp] theorem State.setCopy_rd (s : State) (id : CopyId) (c : StoredCopy) :
    (s.setCopy id c).rd = s.rd := rfl
@[simp] theorem State.setCopy_ae (s : State) (id : CopyId) (c : StoredCopy) :
    (s.setCopy id c).ae = s.ae := rfl
@[simp] theorem State.setCopy_array (s : State) (id : CopyId) (c : StoredCopy) :
    (s.setCopy id c).array = s.array := rfl
@[simp] theorem State.setCopy_ledger (s : State) (id : CopyId) (c : StoredCopy) :
    (s.setCopy id c).ledger = s.ledger := rfl
@[simp] theorem State.setCopy_bc (s : State) (id : CopyId) (c : StoredCopy) :
    (s.setCopy id c).bc = s.bc := rfl
@[simp] theorem State.setCopy_pu (s : State) (id : CopyId) (c : StoredCopy) :
    (s.setCopy id c).pu = s.pu := rfl
@[simp] theorem State.setCopy_eu (s : State) (id : CopyId) (c : StoredCopy) :
    (s.setCopy id c).eu = s.eu := rfl
@[simp] theorem State.setCopy_cs (s : State) (id : CopyId) (c : StoredCopy) :
    (s.setCopy id c).cs = s.cs.setCopy id c := rfl
@[simp] theorem State.setCopy_inputs (s : State) (id : CopyId) (c : StoredCopy) :
    (s.setCopy id c).inputs = s.inputs := rfl
@[simp] theorem State.setCopy_pending (s : State) (id : CopyId) (c : StoredCopy) :
    (s.setCopy id c).pending = s.pending := rfl
@[simp] theorem State.setCopy_freeCount (s : State) (id : CopyId) (c : StoredCopy) :
    (s.setCopy id c).freeCount = s.freeCount := rfl

/-! ### State.configStage -/

@[simp] theorem State.configStage_sr (s : State) (i : Nat) (r : Settings) (id : CopyId) (g : Byte) (st : CopyStage) :
    (s.configStage i r id g st).sr = s.sr := rfl
@[simp] theorem State.configStage_pins (s : State) (i : Nat) (r : Settings) (id : CopyId) (g : Byte) (st : CopyStage) :
    (s.configStage i r id g st).pins = s.pins := rfl
@[simp] theorem State.configStage_cl (s : State) (i : Nat) (r : Settings) (id : CopyId) (g : Byte) (st : CopyStage) :
    (s.configStage i r id g st).cl = s.cl := rfl
@[simp] theorem State.configStage_pf (s : State) (i : Nat) (r : Settings) (id : CopyId) (g : Byte) (st : CopyStage) :
    (s.configStage i r id g st).pf = s.pf := rfl
@[simp] theorem State.configStage_su (s : State) (i : Nat) (r : Settings) (id : CopyId) (g : Byte) (st : CopyStage) :
    (s.configStage i r id g st).su = s.su := rfl
@[simp] theorem State.configStage_rd (s : State) (i : Nat) (r : Settings) (id : CopyId) (g : Byte) (st : CopyStage) :
    (s.configStage i r id g st).rd = s.rd := rfl
@[simp] theorem State.configStage_ae (s : State) (i : Nat) (r : Settings) (id : CopyId) (g : Byte) (st : CopyStage) :
    (s.configStage i r id g st).ae = { s.ae with engine := .storing (.config i r id g st) } := rfl
@[simp] theorem State.configStage_array (s : State) (i : Nat) (r : Settings) (id : CopyId) (g : Byte) (st : CopyStage) :
    (s.configStage i r id g st).array = s.array := rfl
@[simp] theorem State.configStage_ledger (s : State) (i : Nat) (r : Settings) (id : CopyId) (g : Byte) (st : CopyStage) :
    (s.configStage i r id g st).ledger = s.ledger := rfl
@[simp] theorem State.configStage_bc (s : State) (i : Nat) (r : Settings) (id : CopyId) (g : Byte) (st : CopyStage) :
    (s.configStage i r id g st).bc = s.bc := rfl
@[simp] theorem State.configStage_pu (s : State) (i : Nat) (r : Settings) (id : CopyId) (g : Byte) (st : CopyStage) :
    (s.configStage i r id g st).pu = s.pu := rfl
@[simp] theorem State.configStage_eu (s : State) (i : Nat) (r : Settings) (id : CopyId) (g : Byte) (st : CopyStage) :
    (s.configStage i r id g st).eu = s.eu := rfl
@[simp] theorem State.configStage_cs (s : State) (i : Nat) (r : Settings) (id : CopyId) (g : Byte) (st : CopyStage) :
    (s.configStage i r id g st).cs = s.cs := rfl
@[simp] theorem State.configStage_inputs (s : State) (i : Nat) (r : Settings) (id : CopyId) (g : Byte) (st : CopyStage) :
    (s.configStage i r id g st).inputs = s.inputs := rfl
@[simp] theorem State.configStage_pending (s : State) (i : Nat) (r : Settings) (id : CopyId) (g : Byte) (st : CopyStage) :
    (s.configStage i r id g st).pending = s.pending := rfl
@[simp] theorem State.configStage_freeCount (s : State) (i : Nat) (r : Settings) (id : CopyId) (g : Byte) (st : CopyStage) :
    (s.configStage i r id g st).freeCount = s.freeCount := rfl

/-! ### State.delivered -/

@[simp] theorem State.delivered_sr (s : State) : (s.delivered).sr = { s.sr with idleTimer := 0 } := rfl
@[simp] theorem State.delivered_pins (s : State) : (s.delivered).pins = { s.pins with rxd := true } := rfl
@[simp] theorem State.delivered_cl (s : State) :
    (s.delivered).cl = { s.cl with receiver := .idle, breakTimer := .stopped } := rfl
@[simp] theorem State.delivered_pf (s : State) : (s.delivered).pf = s.pf.openEmpty := rfl
@[simp] theorem State.delivered_su (s : State) : (s.delivered).su = s.su := rfl
@[simp] theorem State.delivered_rd (s : State) : (s.delivered).rd = s.rd := rfl
@[simp] theorem State.delivered_ae (s : State) : (s.delivered).ae = s.ae := rfl
@[simp] theorem State.delivered_array (s : State) : (s.delivered).array = s.array := rfl
@[simp] theorem State.delivered_ledger (s : State) : (s.delivered).ledger = s.ledger := rfl
@[simp] theorem State.delivered_bc (s : State) : (s.delivered).bc = s.bc := rfl
@[simp] theorem State.delivered_pu (s : State) : (s.delivered).pu = s.pu := rfl
@[simp] theorem State.delivered_eu (s : State) : (s.delivered).eu = s.eu := rfl
@[simp] theorem State.delivered_cs (s : State) : (s.delivered).cs = s.cs := rfl
@[simp] theorem State.delivered_inputs (s : State) : (s.delivered).inputs = s.inputs := rfl
@[simp] theorem State.delivered_pending (s : State) : (s.delivered).pending = s.pending := rfl
@[simp] theorem State.delivered_freeCount (s : State) : (s.delivered).freeCount = s.freeCount := rfl

/-! ### State.withAnswer -/

@[simp] theorem State.withAnswer_sr (s : State) (i : Nat) (tag : Byte) (r : Request) (p : List Byte) :
    (s.withAnswer i tag r p).sr = s.sr := rfl
@[simp] theorem State.withAnswer_pins (s : State) (i : Nat) (tag : Byte) (r : Request) (p : List Byte) :
    (s.withAnswer i tag r p).pins = s.pins := rfl
@[simp] theorem State.withAnswer_cl (s : State) (i : Nat) (tag : Byte) (r : Request) (p : List Byte) :
    (s.withAnswer i tag r p).cl = s.cl := rfl
@[simp] theorem State.withAnswer_pf (s : State) (i : Nat) (tag : Byte) (r : Request) (p : List Byte) :
    (s.withAnswer i tag r p).pf = s.pf := rfl
@[simp] theorem State.withAnswer_su (s : State) (i : Nat) (tag : Byte) (r : Request) (p : List Byte) :
    (s.withAnswer i tag r p).su = s.su := rfl
@[simp] theorem State.withAnswer_ae (s : State) (i : Nat) (tag : Byte) (r : Request) (p : List Byte) :
    (s.withAnswer i tag r p).ae = s.ae := rfl
@[simp] theorem State.withAnswer_array (s : State) (i : Nat) (tag : Byte) (r : Request) (p : List Byte) :
    (s.withAnswer i tag r p).array = s.array := rfl
@[simp] theorem State.withAnswer_ledger (s : State) (i : Nat) (tag : Byte) (r : Request) (p : List Byte) :
    (s.withAnswer i tag r p).ledger = s.ledger := rfl
@[simp] theorem State.withAnswer_bc (s : State) (i : Nat) (tag : Byte) (r : Request) (p : List Byte) :
    (s.withAnswer i tag r p).bc = s.bc := rfl
@[simp] theorem State.withAnswer_pu (s : State) (i : Nat) (tag : Byte) (r : Request) (p : List Byte) :
    (s.withAnswer i tag r p).pu = s.pu := rfl
@[simp] theorem State.withAnswer_eu (s : State) (i : Nat) (tag : Byte) (r : Request) (p : List Byte) :
    (s.withAnswer i tag r p).eu = s.eu := rfl
@[simp] theorem State.withAnswer_cs (s : State) (i : Nat) (tag : Byte) (r : Request) (p : List Byte) :
    (s.withAnswer i tag r p).cs = s.cs := rfl
@[simp] theorem State.withAnswer_inputs (s : State) (i : Nat) (tag : Byte) (r : Request) (p : List Byte) :
    (s.withAnswer i tag r p).inputs = s.inputs := rfl
@[simp] theorem State.withAnswer_pending (s : State) (i : Nat) (tag : Byte) (r : Request) (p : List Byte) :
    (s.withAnswer i tag r p).pending = s.pending := rfl
@[simp] theorem State.withAnswer_freeCount (s : State) (i : Nat) (tag : Byte) (r : Request) (p : List Byte) :
    (s.withAnswer i tag r p).freeCount = s.freeCount := rfl

/-! ### State.withSlot -/

@[simp] theorem State.withSlot_sr (s : State) (i : Nat) (st : SlotState) (tag : Byte) (r : Request) :
    (s.withSlot i st tag r).sr = s.sr := rfl
@[simp] theorem State.withSlot_pins (s : State) (i : Nat) (st : SlotState) (tag : Byte) (r : Request) :
    (s.withSlot i st tag r).pins = s.pins := rfl
@[simp] theorem State.withSlot_cl (s : State) (i : Nat) (st : SlotState) (tag : Byte) (r : Request) :
    (s.withSlot i st tag r).cl = s.cl := rfl
@[simp] theorem State.withSlot_pf (s : State) (i : Nat) (st : SlotState) (tag : Byte) (r : Request) :
    (s.withSlot i st tag r).pf = s.pf := rfl
@[simp] theorem State.withSlot_su (s : State) (i : Nat) (st : SlotState) (tag : Byte) (r : Request) :
    (s.withSlot i st tag r).su = s.su := rfl
@[simp] theorem State.withSlot_rd (s : State) (i : Nat) (st : SlotState) (tag : Byte) (r : Request) :
    (s.withSlot i st tag r).rd = { s.rd with slots := s.rd.slots.set i { state := st, tag := tag, request := r } } := rfl
@[simp] theorem State.withSlot_ae (s : State) (i : Nat) (st : SlotState) (tag : Byte) (r : Request) :
    (s.withSlot i st tag r).ae = s.ae := rfl
@[simp] theorem State.withSlot_array (s : State) (i : Nat) (st : SlotState) (tag : Byte) (r : Request) :
    (s.withSlot i st tag r).array = s.array := rfl
@[simp] theorem State.withSlot_ledger (s : State) (i : Nat) (st : SlotState) (tag : Byte) (r : Request) :
    (s.withSlot i st tag r).ledger = s.ledger := rfl
@[simp] theorem State.withSlot_bc (s : State) (i : Nat) (st : SlotState) (tag : Byte) (r : Request) :
    (s.withSlot i st tag r).bc = s.bc := rfl
@[simp] theorem State.withSlot_pu (s : State) (i : Nat) (st : SlotState) (tag : Byte) (r : Request) :
    (s.withSlot i st tag r).pu = s.pu := rfl
@[simp] theorem State.withSlot_eu (s : State) (i : Nat) (st : SlotState) (tag : Byte) (r : Request) :
    (s.withSlot i st tag r).eu = s.eu := rfl
@[simp] theorem State.withSlot_cs (s : State) (i : Nat) (st : SlotState) (tag : Byte) (r : Request) :
    (s.withSlot i st tag r).cs = s.cs := rfl
@[simp] theorem State.withSlot_inputs (s : State) (i : Nat) (st : SlotState) (tag : Byte) (r : Request) :
    (s.withSlot i st tag r).inputs = s.inputs := rfl
@[simp] theorem State.withSlot_pending (s : State) (i : Nat) (st : SlotState) (tag : Byte) (r : Request) :
    (s.withSlot i st tag r).pending = s.pending := rfl
@[simp] theorem State.withSlot_freeCount (s : State) (i : Nat) (st : SlotState) (tag : Byte) (r : Request) :
    (s.withSlot i st tag r).freeCount = s.freeCount := rfl

end Sys2Proof.Machine
end

