-- ==== Sys2Proof/Laws/Ops.lean ====
section
/-!
SUPPORT. What the shared operations can do, each said once: the events and causes, slots, responses, the end of a
running request, Held, the wake and the octets of the line.
-/

namespace Sys2Proof.Machine

/-! ### Events and causes -/

/-- Raising a cause sets its bit. -/
theorem State.raise_eq (s : State) (c : Cause) : s.raise c = { s with eu := s.eu.raised c.mask } := rfl

/-- Offering an event touches the Event Unit alone. -/
theorem State.offer_eq (s : State) (e : Event) : s.offer e = { s with eu := s.eu.offered s.sr.tick e } := by
  unfold State.offer EventUnit.offered logCapacity
  split <;> rfl

/-- Reporting lost events touches the Event Unit alone. -/
theorem State.reportLost_eq (s : State) : s.reportLost = { s with eu := s.eu.lostReported s.sr.tick } := by
  unfold State.reportLost EventUnit.lostReported logCapacity
  by_cases h : s.eu.lost = 0 ∨ 16 ≤ s.eu.log.length
  · rw [if_pos h, if_pos h]
  · rw [if_neg h, if_neg h, State.offer_eq]
    unfold EventUnit.offered
    rw [if_pos (by omega)]

/-- The end of a step touches the Event Unit alone (R185). -/
theorem State.endStep_eq (s : State) (left : Bool) :
    s.endStep left = { s with eu := if left then s.eu.lostReported s.sr.tick else s.eu } := by
  unfold State.endStep
  cases left
  · rfl
  · exact State.reportLost_eq s

@[simp] theorem State.endStep_false (s : State) : s.endStep false = s := rfl

/-- An ORPHAN_RESULT touches the Event Unit alone (R182). -/
theorem State.orphanResult_eq (s : State) (code tag : Byte) (st : Status) (erased failed : Nat) :
    s.orphanResult code tag st erased failed =
      { s with eu := (s.eu.offered s.sr.tick (.orphanResult code tag st erased failed)).raised 0x10 } := by
  unfold State.orphanResult
  rw [State.offer_eq]
  rfl

@[simp] theorem EventUnit.offered_latched (u : EventUnit) (t : Word16) (e : Event) :
    (u.offered t e).latched = u.latched := by
  unfold EventUnit.offered
  split <;> rfl

@[simp] theorem EventUnit.offered_enable (u : EventUnit) (t : Word16) (e : Event) :
    (u.offered t e).enable = u.enable := by
  unfold EventUnit.offered
  split <;> rfl

@[simp] theorem EventUnit.lostReported_latched (u : EventUnit) (t : Word16) :
    (u.lostReported t).latched = u.latched := by
  unfold EventUnit.lostReported
  split <;> rfl

@[simp] theorem EventUnit.lostReported_enable (u : EventUnit) (t : Word16) :
    (u.lostReported t).enable = u.enable := by
  unfold EventUnit.lostReported
  split <;> rfl

/-- The log never grows past its capacity by an offer (R183, R184). -/
theorem EventUnit.offered_log_length (u : EventUnit) (t : Word16) (e : Event) (h : u.log.length ≤ 16) :
    (u.offered t e).log.length ≤ 16 := by
  unfold EventUnit.offered
  split
  · simp only [List.length_append, List.length_cons, List.length_nil]
    omega
  · exact h

/-! ### Slots -/

/-- Reading a slot after another is written. -/
theorem State.slot_setSlot_ne (s : State) {i j : Nat} (x : Slot) (h : i ≠ j) : (s.setSlot i x).slot j = s.slot j := by
  simp [State.slot, State.setSlot, List.getD_eq_getElem?_getD, List.getElem?_set_ne h]

/-- Reading the slot just written. -/
theorem State.slot_setSlot_same (s : State) {i : Nat} (x : Slot) (h : i < s.rd.slots.length) :
    (s.setSlot i x).slot i = x := by
  simp [State.slot, State.setSlot, List.getD_eq_getElem?_getD, h]

/-- A slot beyond the list reads as Free, written or not. -/
theorem State.slot_out (s : State) {i : Nat} (h : s.rd.slots.length ≤ i) : s.slot i = {} := by
  simp [State.slot, List.getD_eq_getElem?_getD, List.getElem?_eq_none h]

/-- A slot that is not Free is one of the list. -/
theorem State.lt_of_slot_state (s : State) {i : Nat} (h : (s.slot i).state ≠ .free) : i < s.rd.slots.length := by
  by_contra hn
  rw [State.slot_out s (by omega)] at h
  exact h rfl

@[simp] theorem State.length_setSlot (s : State) (i : Nat) (x : Slot) :
    (s.setSlot i x).rd.slots.length = s.rd.slots.length := by
  simp [State.setSlot]

@[simp] theorem State.length_answer (s : State) (i : Nat) (st : Status) (results : List Byte) :
    (s.answer i st results).rd.slots.length = s.rd.slots.length := by
  simp

/-- A slot other than the one answered is as before. -/
theorem State.slot_answer_ne (s : State) {i j : Nat} (st : Status) (results : List Byte) (h : i ≠ j) :
    (s.answer i st results).slot j = s.slot j := by
  simp [State.slot, List.getD_eq_getElem?_getD, List.getElem?_set_ne h]

/-- The slot answered holds its response and the next completion number (R89). -/
theorem State.slot_answer_same (s : State) {i : Nat} (st : Status) (results : List Byte)
    (h : i < s.rd.slots.length) :
    (s.answer i st results).slot i =
      { s.slot i with
        state := .answered, completion := s.rd.nextCompletion
        response := responseOf (s.slot i).request.code st results } := by
  simp [State.slot, List.getD_eq_getElem?_getD, h]

/-- The Session Unit after a slot has become Free (R64). -/
def SessionUnit.noted (u : SessionUnit) : SessionUnit :=
  if u.link == .attached && u.busyReported then { u with busyReported := false, busyNotePending := true } else u

/-- A busy note touches two flags of the Session Unit (R64). -/
theorem State.busyNote_eq (s : State) : s.busyNote = { s with su := s.su.noted } := by
  unfold State.busyNote SessionUnit.noted State.isAttached
  split <;> rfl

/-- A released slot is Free, and the busy note may follow (R64, R90). -/
theorem State.releaseSlot_eq (s : State) (i : Nat) :
    s.releaseSlot i = { s with rd := { s.rd with slots := s.rd.slots.set i {} }, su := s.su.noted } := by
  unfold State.releaseSlot
  rw [State.busyNote_eq]
  rfl

/-- A running request that is not orphaned ends: the engine is Idle and the slot answered (R100). -/
theorem State.finishRunning_answered (s : State) (i : Nat) (st : Status) (results : List Byte)
    (h : (s.slot i).orphaned = false) :
    s.finishRunning i st results = State.answer { s with ae := { s.ae with engine := .idle } } i st results := by
  unfold State.finishRunning
  simp only [h, Bool.false_eq_true, if_false]

/-- An orphaned request ends: reported, its slot released (R100, R131). -/
theorem State.finishRunning_orphaned (s : State) (i : Nat) (st : Status) (results : List Byte)
    (h : (s.slot i).orphaned = true) :
    s.finishRunning i st results =
      (State.orphanResult { s with ae := { s.ae with engine := .idle } }
        (s.slot i).request.code (s.slot i).tag st 0 0).releaseSlot i := by
  unfold State.finishRunning
  simp only [h, if_true]

/-! ### Held and the wake -/

/-- A cleared Held resumes a Paused parcel (R30). -/
theorem State.clearHeld_eq (s : State) :
    s.clearHeld =
      { s with cl := { s.cl with
        held := false, holdTimer := .stopped, tx := s.cl.tx.resumed s.characterTime } } := rfl

/-- A wake outside Doze does nothing (R13). -/
theorem State.wake_of_awake (s : State) (rxd : Bool) (h : s.sr.top ≠ .doze) : s.wake rxd = s := by
  unfold State.wake
  exact if_neg h

/-- A wake touches the Supply & Reset block, RXD and the receiver alone (R13, R32). -/
theorem State.wake_frame (s : State) (rxd : Bool) :
    (s.wake rxd).su = s.su ∧ (s.wake rxd).rd = s.rd ∧ (s.wake rxd).ae = s.ae ∧ (s.wake rxd).bc = s.bc ∧
      (s.wake rxd).pf = s.pf ∧ (s.wake rxd).pu = s.pu ∧ (s.wake rxd).eu = s.eu ∧ (s.wake rxd).cs = s.cs ∧
      (s.wake rxd).array = s.array ∧ (s.wake rxd).ledger = s.ledger ∧ (s.wake rxd).pending = s.pending ∧
      (s.wake rxd).inputs = s.inputs ∧ (s.wake rxd).freeCount = s.freeCount ∧ (s.wake rxd).sr.tick = s.sr.tick ∧
      (s.wake rxd).sr.monitor = s.sr.monitor ∧ (s.wake rxd).sr.cause = s.sr.cause := by
  unfold State.wake
  split <;> simp

/-! ### Characters nobody takes -/

/-- Characters that are not taken touch the Supply & Reset block, RXD and the receiver alone (R12, R23, R26). -/
theorem State.unheard_frame (s : State) (level : Bool) (b : Timer) :
    (s.unheard level b).su = s.su ∧ (s.unheard level b).rd = s.rd ∧ (s.unheard level b).ae = s.ae ∧
      (s.unheard level b).bc = s.bc ∧ (s.unheard level b).pf = s.pf ∧ (s.unheard level b).pu = s.pu ∧
      (s.unheard level b).eu = s.eu ∧ (s.unheard level b).cs = s.cs ∧ (s.unheard level b).array = s.array ∧
      (s.unheard level b).ledger = s.ledger ∧ (s.unheard level b).inputs = s.inputs ∧
      (s.unheard level b).pending = s.pending ∧ (s.unheard level b).freeCount = s.freeCount := by
  unfold State.unheard State.wake
  split
  · dsimp only
    split <;> simp
  · simp
  · simp

end Sys2Proof.Machine
end

