-- ==== Sys2Proof/Laws/Batch.lean ====
section
/-!
SUPPORT. What the service queue, the batch and the head examination can touch: the slots, the engine, the batch,
the ledger, the Event Unit and two flags of the Session Unit. One lemma an operation; the provers cite these and
unfold none of the operations for their frame.
-/

namespace Sys2Proof.Machine

/-- The blocks and fields that no operation of the batch or the service queue touches. -/
structure State.SameBeyondBatch (s t : State) : Prop where
  sr : t.sr = s.sr
  pins : t.pins = s.pins
  cl : t.cl = s.cl
  pf : t.pf = s.pf
  array : t.array = s.array
  pu : t.pu = s.pu
  cs : t.cs = s.cs
  inputs : t.inputs = s.inputs
  pending : t.pending = s.pending
  freeCount : t.freeCount = s.freeCount
  supplyLow : t.ae.supplyLow = s.ae.supplyLow

theorem State.SameBeyondBatch.refl (s : State) : s.SameBeyondBatch s :=
  ⟨rfl, rfl, rfl, rfl, rfl, rfl, rfl, rfl, rfl, rfl, rfl⟩

theorem State.SameBeyondBatch.trans {a b c : State} (h : a.SameBeyondBatch b) (k : b.SameBeyondBatch c) :
    a.SameBeyondBatch c :=
  ⟨k.sr.trans h.sr, k.pins.trans h.pins, k.cl.trans h.cl, k.pf.trans h.pf, k.array.trans h.array,
    k.pu.trans h.pu, k.cs.trans h.cs, k.inputs.trans h.inputs, k.pending.trans h.pending, k.freeCount.trans h.freeCount,
    k.supplyLow.trans h.supplyLow⟩

/-! ### Slots and the queue -/

theorem State.answer_frame (s : State) (i : Nat) (st : Status) (results : List Byte) :
    s.SameBeyondBatch (s.answer i st results) :=
  ⟨rfl, rfl, rfl, rfl, rfl, rfl, rfl, rfl, rfl, rfl, rfl⟩

theorem State.orphanResult_frame (s : State) (code tag : Byte) (st : Status) (erased failed : Nat) :
    s.SameBeyondBatch (s.orphanResult code tag st erased failed) := by
  rw [State.orphanResult_eq]
  exact ⟨rfl, rfl, rfl, rfl, rfl, rfl, rfl, rfl, rfl, rfl, rfl⟩

theorem State.releaseSlot_frame (s : State) (i : Nat) : s.SameBeyondBatch (s.releaseSlot i) := by
  rw [State.releaseSlot_eq]
  exact ⟨rfl, rfl, rfl, rfl, rfl, rfl, rfl, rfl, rfl, rfl, rfl⟩

theorem State.refuseHead_frame (s : State) (i : Nat) (st : Status) : s.SameBeyondBatch (s.refuseHead i st) :=
  ⟨rfl, rfl, rfl, rfl, rfl, rfl, rfl, rfl, rfl, rfl, rfl⟩

theorem State.startHead_frame (s : State) (i : Nat) : s.SameBeyondBatch (s.startHead i) :=
  ⟨rfl, rfl, rfl, rfl, rfl, rfl, rfl, rfl, rfl, rfl, rfl⟩

theorem State.finishRunning_frame (s : State) (i : Nat) (st : Status) (results : List Byte) :
    s.SameBeyondBatch (s.finishRunning i st results) := by
  have h0 : s.SameBeyondBatch { s with ae := { s.ae with engine := .idle } } :=
    ⟨rfl, rfl, rfl, rfl, rfl, rfl, rfl, rfl, rfl, rfl, rfl⟩
  cases h : (s.slot i).orphaned with
  | true =>
    rw [State.finishRunning_orphaned s i st results h]
    exact (h0.trans (State.orphanResult_frame _ _ _ _ _ _)).trans (State.releaseSlot_frame _ _)
  | false =>
    rw [State.finishRunning_answered s i st results h]
    exact h0.trans (State.answer_frame _ _ _ _)

/-! ### The end of a batch -/

theorem State.settleMember_frame (s : State) (m : Member) : s.SameBeyondBatch (s.settleMember m) := by
  unfold State.settleMember
  split
  · exact State.releaseSlot_frame _ _
  · exact State.answer_frame _ _ _ _

theorem State.settleMembers_frame (s : State) (ms : List Member) :
    s.SameBeyondBatch (ms.foldl State.settleMember s) := by
  induction ms generalizing s with
  | nil => exact State.SameBeyondBatch.refl s
  | cons m rest ih => exact (State.settleMember_frame s m).trans (ih _)

theorem State.reportOrphans_frame (s before : State) : s.SameBeyondBatch (s.reportOrphans before) := by
  unfold State.reportOrphans
  split
  · exact State.SameBeyondBatch.refl s
  · exact State.orphanResult_frame _ _ _ _ _ _

theorem State.clearBatch_frame (s : State) : s.SameBeyondBatch s.clearBatch :=
  ⟨rfl, rfl, rfl, rfl, rfl, rfl, rfl, rfl, rfl, rfl, rfl⟩

theorem State.completeBatch_frame (s : State) : s.SameBeyondBatch s.completeBatch := by
  have h1 := (State.settleMembers_frame s s.bc.members).trans (State.reportOrphans_frame _ s)
  exact h1.trans ⟨rfl, rfl, rfl, rfl, rfl, rfl, rfl, rfl, rfl, rfl, rfl⟩

theorem State.finishBatch_frame (s : State) : s.SameBeyondBatch s.finishBatch := by
  unfold State.finishBatch
  split
  · exact State.clearBatch_frame s
  · exact State.completeBatch_frame s

theorem State.finishIfDone_frame (s : State) : s.SameBeyondBatch s.finishIfDone := by
  unfold State.finishIfDone
  split
  · exact State.SameBeyondBatch.refl s
  · exact State.finishBatch_frame s

theorem State.abortBatch_frame (s : State) : s.SameBeyondBatch s.abortBatch :=
  State.SameBeyondBatch.trans (b := { s with bc := { s.bc.abortRest with held := none } })
    ⟨rfl, rfl, rfl, rfl, rfl, rfl, rfl, rfl, rfl, rfl, rfl⟩ (State.finishBatch_frame _)

/-! ### Sector work -/

theorem State.startSpacing_frame (s : State) : s.SameBeyondBatch s.startSpacing :=
  ⟨rfl, rfl, rfl, rfl, rfl, rfl, rfl, rfl, rfl, rfl, rfl⟩

theorem State.openSector_frame (s : State) (k : Nat) : s.SameBeyondBatch (s.openSector k) := by
  simp only [State.openSector]
  split <;> exact ⟨rfl, rfl, rfl, rfl, rfl, rfl, rfl, rfl, rfl, rfl, rfl⟩

theorem reachFrom_frame (ks : List Nat) (s : State) : s.SameBeyondBatch (reachFrom ks s) := by
  induction ks generalizing s with
  | nil => exact State.finishBatch_frame s
  | cons k rest ih =>
    unfold reachFrom
    split
    · exact State.abortBatch_frame s
    · split
      · exact State.SameBeyondBatch.trans (b := s.skipSector k)
          ⟨rfl, rfl, rfl, rfl, rfl, rfl, rfl, rfl, rfl, rfl, rfl⟩ (ih (s.skipSector k))
      · exact State.openSector_frame s k

theorem State.beginWork_frame (s : State) : s.SameBeyondBatch s.beginWork := by
  unfold State.beginWork
  split
  · split
    · exact State.abortBatch_frame s
    · exact ⟨rfl, rfl, rfl, rfl, rfl, rfl, rfl, rfl, rfl, rfl, rfl⟩
  · exact reachFrom_frame _ s

theorem State.enterErasing_frame (s : State) : s.SameBeyondBatch s.enterErasing := by
  have h0 : s.SameBeyondBatch { s with bc := { s.bc with state := .erasing, gather := .stopped } } :=
    ⟨rfl, rfl, rfl, rfl, rfl, rfl, rfl, rfl, rfl, rfl, rfl⟩
  unfold State.enterErasing
  dsimp only
  split
  · exact h0.trans (State.beginWork_frame _)
  · exact h0

theorem State.addMember_frame (s : State) (i : Nat) : s.SameBeyondBatch (s.addMember i) :=
  ⟨rfl, rfl, rfl, rfl, rfl, rfl, rfl, rfl, rfl, rfl, rfl⟩

theorem State.enterBatch_frame (s : State) (i : Nat) : s.SameBeyondBatch (s.enterBatch i) := by
  have h0 := State.addMember_frame s i
  unfold State.enterBatch
  dsimp only
  split
  · exact h0.trans (State.enterErasing_frame _)
  · split
    · exact h0.trans (State.enterErasing_frame _)
    · exact h0.trans ⟨rfl, rfl, rfl, rfl, rfl, rfl, rfl, rfl, rfl, rfl, rfl⟩

/-! ### The head examination -/

/-- The state a look at the head leaves, whether it goes on or stops. -/
def HeadStep.state : HeadStep → State
  | .again s => s
  | .stop s => s

theorem State.refuseKind_frame (s : State) (i : Nat) (k : HeadKind) (t : State) (h : s.refuseKind i k = some t) :
    s.SameBeyondBatch t := by
  unfold State.refuseKind at h
  split at h <;> first | (cases h; exact State.refuseHead_frame _ _ _) | cases h

theorem State.tryStart_frame (s : State) (i : Nat) : s.SameBeyondBatch (s.tryStart i).state := by
  unfold State.tryStart
  split
  · exact State.refuseHead_frame _ _ _
  · exact State.startHead_frame _ _

theorem State.headNoBatch_frame (s : State) (i : Nat) : s.SameBeyondBatch (s.headNoBatch i).state := by
  unfold State.headNoBatch
  split
  · exact State.enterBatch_frame _ _
  · split
    · exact State.tryStart_frame _ _
    · exact State.SameBeyondBatch.refl s

theorem State.headGathering_frame (s : State) (i : Nat) : s.SameBeyondBatch (s.headGathering i).state := by
  unfold State.headGathering
  split
  · exact State.enterBatch_frame _ _
  · exact State.enterErasing_frame _

theorem State.headErasing_frame (s : State) (i : Nat) : s.SameBeyondBatch (s.headErasing i).state := by
  unfold State.headErasing
  split
  · exact State.refuseKind_frame s i _ _ ‹_›
  · show s.SameBeyondBatch (if s.mayYield then s.yieldBatch else s)
    split
    · exact ⟨rfl, rfl, rfl, rfl, rfl, rfl, rfl, rfl, rfl, rfl, rfl⟩
    · exact State.SameBeyondBatch.refl s

theorem State.headYielded_frame (s : State) (i : Nat) : s.SameBeyondBatch (s.headYielded i).state := by
  unfold State.headYielded
  split
  · exact State.refuseKind_frame s i _ _ ‹_›
  · split
    · exact State.SameBeyondBatch.refl s
    · split
      · have ht := State.tryStart_frame s i
        split
        · rename_i s1 hs
          rw [hs] at ht
          exact ht.trans ⟨rfl, rfl, rfl, rfl, rfl, rfl, rfl, rfl, rfl, rfl, rfl⟩
        · rename_i s1 hs
          rw [hs] at ht
          exact ht
      · exact State.enterErasing_frame s

theorem State.headParked_frame (s : State) (i : Nat) : s.SameBeyondBatch (s.headParked i).state := by
  unfold State.headParked
  split
  · exact State.refuseKind_frame s i _ _ ‹_›
  · split
    · exact State.tryStart_frame s i
    · exact State.SameBeyondBatch.refl s

theorem State.lookAtHead_frame (s : State) : s.SameBeyondBatch s.lookAtHead.state := by
  unfold State.lookAtHead
  split
  · split
    · exact State.enterErasing_frame s
    · exact State.SameBeyondBatch.refl s
  · split
    · exact State.headNoBatch_frame _ _
    · exact State.headGathering_frame _ _
    · exact State.headErasing_frame _ _
    · exact State.headYielded_frame _ _
    · exact State.headParked_frame _ _

theorem examineFor_frame (n : Nat) (s : State) : s.SameBeyondBatch (examineFor n s) := by
  induction n generalizing s with
  | zero => exact State.SameBeyondBatch.refl s
  | succ n ih =>
    have h := State.lookAtHead_frame s
    unfold examineFor
    split
    · rename_i t ht
      rw [ht] at h
      exact h
    · rename_i t ht
      rw [ht] at h
      exact h.trans (ih t)

/-- The head examination touches no block beyond the batch's own. -/
theorem State.examine_frame (s : State) : s.SameBeyondBatch s.examine := examineFor_frame _ s

theorem State.engineFreed_frame (s : State) : s.SameBeyondBatch s.engineFreed := by
  unfold State.engineFreed
  split
  · exact (State.beginWork_frame s).trans (State.examine_frame _)
  · exact State.examine_frame s

theorem State.examineIfMoved_frame (s before : State) : s.SameBeyondBatch (s.examineIfMoved before) := by
  unfold State.examineIfMoved
  split
  · exact State.SameBeyondBatch.refl s
  · exact State.examine_frame s

/-! ### Examinations that stop at once -/

/-- With an empty queue and no yield to end, the examination changes nothing. -/
theorem State.examine_empty (s : State) (hq : s.rd.queue = [])
    (hb : (decide (s.bc.state = .yielded) && s.engineIdle) = false) : s.examine = s := by
  have h : s.lookAtHead = .stop s := by
    unfold State.lookAtHead State.head
    simp [hq, hb]
  have hf : 4 * s.rd.queue.length + 4 = 3 + 1 := by simp [hq]
  unfold State.examine
  rw [hf]
  unfold examineFor
  rw [h]

/-- With no batch the engine's freedom leads to the head examination alone. -/
theorem State.engineFreed_noBatch (s : State) (h : s.bc.state = .none) : s.engineFreed = s.examine := by
  unfold State.engineFreed
  simp [h]

/-- With no batch and an empty queue the engine's freedom changes nothing. -/
theorem State.engineFreed_quiet (s : State) (h : s.bc.state = .none) (hq : s.rd.queue = []) : s.engineFreed = s := by
  rw [State.engineFreed_noBatch s h]
  exact State.examine_empty s hq (by simp [h])

/-! ### Suspension, parking and cancelling -/

theorem State.suspendSector_frame (s : State) (op : EraseOp) : s.SameBeyondBatch (s.suspendSector op) :=
  State.SameBeyondBatch.trans
    (b := { s with ae := { s.ae with engine := .idle }, bc := { s.bc with held := some op } })
    ⟨rfl, rfl, rfl, rfl, rfl, rfl, rfl, rfl, rfl, rfl, rfl⟩ (State.engineFreed_frame _)

theorem State.afterSector_frame (s : State) : s.SameBeyondBatch s.afterSector := by
  unfold State.afterSector
  split
  · dsimp only
    split
    · exact (reachFrom_frame _ s).trans (State.examine_frame _)
    · exact (reachFrom_frame _ s).trans (State.examineIfMoved_frame _ _)
  · exact (State.finishIfDone_frame s).trans (State.examine_frame _)

theorem State.parkBatch_frame (s : State) : s.SameBeyondBatch s.parkBatch := by
  unfold State.parkBatch
  split <;> exact ⟨rfl, rfl, rfl, rfl, rfl, rfl, rfl, rfl, rfl, rfl, rfl⟩

theorem State.unparkBatch_frame (s : State) : s.SameBeyondBatch s.unparkBatch := by
  unfold State.unparkBatch
  split
  · dsimp only
    split
    · exact (State.enterErasing_frame s).trans (State.startSpacing_frame _)
    · exact State.enterErasing_frame s
  · exact State.SameBeyondBatch.refl s

/-- A batch that is not Parked is left alone by an unpark. -/
theorem State.unparkBatch_of_not_parked (s : State) (h : s.bc.state ≠ .parked) : s.unparkBatch = s := by
  unfold State.unparkBatch
  exact if_neg h

theorem State.afterWithdrawal_frame (s : State) : s.SameBeyondBatch s.afterWithdrawal := by
  unfold State.afterWithdrawal
  split
  · split
    · exact State.SameBeyondBatch.refl s
    · exact State.clearBatch_frame s
  · exact State.finishIfDone_frame s

theorem State.cancelMember_frame (s : State) (m : Member) : s.SameBeyondBatch (s.cancelMember m) := by
  have h0 : s.SameBeyondBatch { s with bc := s.bc.withdraw m } :=
    ⟨rfl, rfl, rfl, rfl, rfl, rfl, rfl, rfl, rfl, rfl, rfl⟩
  unfold State.cancelMember
  dsimp only
  split
  · exact ((h0.trans (State.orphanResult_frame _ _ _ _ _ _)).trans (State.releaseSlot_frame _ _)).trans
      (State.afterWithdrawal_frame _)
  · exact (h0.trans (State.answer_frame _ _ _ _)).trans (State.afterWithdrawal_frame _)

end Sys2Proof.Machine
end

