-- ==== Sys2Proof/Laws/Framer.lean ====
section
/-!
SUPPORT. The laws of the framer: the CRC of a string with its own check appended, one escaped octet through the
automaton, a whole string of them, and the runs the statements about the line need.
-/

namespace Sys2Proof.Machine

/-! ### The CRC -/

/-- A data bit equal to the top bit of the register only shifts it (R45). -/
theorem crcBit_top (r : Word16) : crcBit r (r.getLsbD 15) = r <<< 1 := by
  unfold crcBit
  simp

theorem crcBit_eq_shift {r : Word16} {b : Bool} (h : b = r.getLsbD 15) : crcBit r b = r <<< 1 := by
  subst h
  exact crcBit_top r

/-- The register fed its own two octets, high octet first, becomes 0 (R45). -/
theorem crc_own_octets (r : Word16) : crcOctet (crcOctet r (r.extractLsb' 8 8)) (r.extractLsb' 0 8) = 0 := by
  have hi : crcOctet r (r.extractLsb' 8 8) = r <<< 8 := by
    simp only [crcOctet, List.foldl]
    rw [crcBit_eq_shift (r := r) (by simp), crcBit_eq_shift (r := r <<< 1) (by simp),
      crcBit_eq_shift (r := r <<< 1 <<< 1) (by simp),
      crcBit_eq_shift (r := r <<< 1 <<< 1 <<< 1) (by simp),
      crcBit_eq_shift (r := r <<< 1 <<< 1 <<< 1 <<< 1) (by simp),
      crcBit_eq_shift (r := r <<< 1 <<< 1 <<< 1 <<< 1 <<< 1) (by simp),
      crcBit_eq_shift (r := r <<< 1 <<< 1 <<< 1 <<< 1 <<< 1 <<< 1) (by simp),
      crcBit_eq_shift (r := r <<< 1 <<< 1 <<< 1 <<< 1 <<< 1 <<< 1 <<< 1) (by simp)]
    simp only [← BitVec.shiftLeft_add]
  rw [hi]
  simp only [crcOctet, List.foldl]
  rw [crcBit_eq_shift (r := r <<< 8) (by simp), crcBit_eq_shift (r := r <<< 8 <<< 1) (by simp),
    crcBit_eq_shift (r := r <<< 8 <<< 1 <<< 1) (by simp),
    crcBit_eq_shift (r := r <<< 8 <<< 1 <<< 1 <<< 1) (by simp),
    crcBit_eq_shift (r := r <<< 8 <<< 1 <<< 1 <<< 1 <<< 1) (by simp),
    crcBit_eq_shift (r := r <<< 8 <<< 1 <<< 1 <<< 1 <<< 1 <<< 1) (by simp),
    crcBit_eq_shift (r := r <<< 8 <<< 1 <<< 1 <<< 1 <<< 1 <<< 1 <<< 1) (by simp),
    crcBit_eq_shift (r := r <<< 8 <<< 1 <<< 1 <<< 1 <<< 1 <<< 1 <<< 1 <<< 1) (by simp)]
  simp only [← BitVec.shiftLeft_add]
  exact BitVec.shiftLeft_eq_zero (by decide)

theorem crcFrom_append (r : Word16) (a b : List Byte) : crcFrom r (a ++ b) = crcFrom (crcFrom r a) b := by
  simp [crcFrom, List.foldl_append]

/-- A string with its own check appended leaves 0 in the register (R45, R46). -/
theorem crc16_with_check (os : List Byte) : crc16 (os ++ octets16 (crc16 os)) = 0 := by
  unfold crc16
  rw [crcFrom_append]
  exact crc_own_octets _

/-! ### Escaping -/

/-- No octet as it stands on the line between two fences is a Go, a Hold or a Fence (R49). -/
theorem escapeOctet_raw (b c : Byte) (h : c ∈ escapeOctet b) : c ≠ goOctet ∧ c ≠ holdOctet ∧ c ≠ fenceOctet := by
  revert h
  unfold escapeOctet
  split
  · rename_i hr
    simp only [reserved, Bool.or_eq_true, beq_iff_eq] at hr
    intro hc
    simp only [List.mem_cons, List.not_mem_nil, or_false] at hc
    rcases hc with rfl | rfl
    · decide
    · rcases hr with ((rfl | rfl) | rfl) | rfl <;> decide
  · rename_i hr
    intro hc
    simp only [List.mem_cons, List.not_mem_nil, or_false] at hc
    subst hc
    simp only [reserved, Bool.or_eq_true, beq_iff_eq, not_or] at hr
    exact ⟨hr.1.1.1, hr.1.1.2, hr.2⟩

/-- An octet takes one or two on the line. -/
theorem escapeOctet_length (b : Byte) : 1 ≤ (escapeOctet b).length ∧ (escapeOctet b).length ≤ 2 := by
  unfold escapeOctet
  split <;> simp

/-- A string takes at least its own length on the line, and at most twice that. -/
theorem escapeOctets_length (os : List Byte) :
    os.length ≤ (escapeOctets os).length ∧ (escapeOctets os).length ≤ 2 * os.length := by
  unfold escapeOctets
  induction os with
  | nil => simp
  | cons b rest ih =>
    have := escapeOctet_length b
    simp only [List.flatMap_cons, List.length_append, List.length_cons]
    omega

theorem escapeOctets_cons (b : Byte) (os : List Byte) : escapeOctets (b :: os) = escapeOctet b ++ escapeOctets os := by
  simp [escapeOctets]

/-! ### The automaton over strings -/

@[simp] theorem framerRun_nil (f : ParcelFramer) : framerRun f [] = (f, []) := rfl

theorem framerRun_cons (f : ParcelFramer) (b : Byte) (os : List Byte) :
    framerRun f (b :: os) =
      ((framerRun (f.octetEvent b).1 os).1, (f.octetEvent b).2 :: (framerRun (f.octetEvent b).1 os).2) := rfl

/-- A run over two strings is the second run after the first. -/
theorem framerRun_append (f : ParcelFramer) (a b : List Byte) :
    framerRun f (a ++ b) =
      ((framerRun (framerRun f a).1 b).1, (framerRun f a).2 ++ (framerRun (framerRun f a).1 b).2) := by
  induction a generalizing f with
  | nil => rfl
  | cons c rest ih => simp only [List.cons_append, framerRun_cons, ih]

/-- An octet that is not reserved is appended to an open assembly (R36). -/
theorem octetEvent_plain {f : ParcelFramer} {b : Byte} (hp : f.phase = .opened) (hs : f.shieldPending = false)
    (hb : reserved b = false) : f.octetEvent b = (f.append b, .nothing) := by
  have h : (b = goOctet → False) ∧ (b = holdOctet → False) ∧ (b = shieldOctet → False) ∧
      (b = fenceOctet → False) := by
    refine ⟨?_, ?_, ?_, ?_⟩ <;> (rintro rfl; revert hb; decide)
  unfold ParcelFramer.octetEvent
  rw [if_neg h.2.1, if_neg h.1, hp]
  simp only [hs, Bool.false_eq_true, if_false, if_neg h.2.2.2, if_neg h.2.2.1]

/-- A Shield in an open assembly sets the flag (R37). -/
theorem octetEvent_shield {f : ParcelFramer} (hp : f.phase = .opened) (hs : f.shieldPending = false) :
    f.octetEvent shieldOctet = ({ f with shieldPending := true }, .nothing) := by
  unfold ParcelFramer.octetEvent
  rw [if_neg (by decide), if_neg (by decide), hp]
  simp only [hs, Bool.false_eq_true, if_false, if_neg (show ¬shieldOctet = fenceOctet by decide), if_true]

/-- The octet after a Shield, if it is an escaped form, is appended with bit 6 inverted (R37). -/
theorem octetEvent_escaped {f : ParcelFramer} {b : Byte} (hp : f.phase = .opened) (hs : f.shieldPending = true)
    (hb : reserved b = true) : f.octetEvent (flipBit6 b) = (f.append b, .nothing) := by
  simp only [reserved, Bool.or_eq_true, beq_iff_eq] at hb
  unfold ParcelFramer.octetEvent
  rcases hb with ((rfl | rfl) | rfl) | rfl <;>
    (rw [if_neg (by decide), if_neg (by decide), hp]
     simp only [hs, if_true]
     rw [if_neg (by decide), if_pos (by decide)]
     rfl)

/-- The framer after octets have been collected in an open assembly. -/
def ParcelFramer.collected (f : ParcelFramer) (os : List Byte) : ParcelFramer :=
  { f with assembly := f.assembly ++ os, shieldPending := false }

/-- One escaped octet joins an open assembly with room for it (R36, R37, R49). -/
theorem framerRun_escapeOctet {f : ParcelFramer} (hp : f.phase = .opened) (hs : f.shieldPending = false)
    (hn : f.assembly.length < 78) (b : Byte) :
    (framerRun f (escapeOctet b)).1 = f.collected [b] ∧
      ∀ g ∈ (framerRun f (escapeOctet b)).2, g = FramerSignal.nothing := by
  have happ : ∀ f' : ParcelFramer, f'.assembly = f.assembly → f'.phase = f.phase → f'.counters = f.counters →
      f'.append b = f.collected [b] := by
    intro f' ha hph hc
    obtain ⟨p, a, sh, c⟩ := f'
    simp only at ha hph hc
    subst ha hph hc
    unfold ParcelFramer.append ParcelFramer.collected
    exact if_pos hn
  unfold escapeOctet
  split
  · rename_i hr
    rw [framerRun_cons, octetEvent_shield hp hs, framerRun_cons,
      octetEvent_escaped (f := { f with shieldPending := true }) hp rfl hr]
    refine ⟨happ _ rfl rfl rfl, ?_⟩
    intro g hg
    simpa using hg
  · rename_i hr
    rw [framerRun_cons, octetEvent_plain hp hs (by simpa using hr)]
    refine ⟨happ _ rfl rfl rfl, ?_⟩
    intro g hg
    simpa using hg

/-- Escaped octets join an open assembly that has room for all of them, with no signal (R36, R37, R49). -/
theorem framerRun_escapeOctets {f : ParcelFramer} (os : List Byte) (hp : f.phase = .opened)
    (hs : f.shieldPending = false) (hn : f.assembly.length + os.length ≤ 78) :
    (framerRun f (escapeOctets os)).1 = f.collected os ∧
      ∀ g ∈ (framerRun f (escapeOctets os)).2, g = FramerSignal.nothing := by
  induction os generalizing f with
  | nil =>
    refine ⟨?_, by simp [escapeOctets]⟩
    obtain ⟨p, a, sh, c⟩ := f
    simp only at hs
    subst hs
    simp [escapeOctets, ParcelFramer.collected]
  | cons b rest ih =>
    simp only [List.length_cons] at hn
    obtain ⟨h1, h2⟩ := framerRun_escapeOctet hp hs (by omega) b
    obtain ⟨h3, h4⟩ := ih (f := f.collected [b]) hp rfl (by simp [ParcelFramer.collected]; omega)
    rw [escapeOctets_cons, framerRun_append, h1]
    refine ⟨?_, ?_⟩
    · rw [h3]
      simp [ParcelFramer.collected]
    · intro g hg
      rcases List.mem_append.mp hg with hg | hg
      · exact h2 g hg
      · exact h4 g hg

/-- A Fence in Hunting opens an assembly (R35). -/
theorem octetEvent_fence_hunting {f : ParcelFramer} (hp : f.phase = .hunting) :
    f.octetEvent fenceOctet = (f.openEmpty, .nothing) := by
  unfold ParcelFramer.octetEvent
  rw [if_neg (by decide), if_neg (by decide), hp]
  rfl

/-- A Fence ends an open assembly that holds octets and opens the next (R35). -/
theorem octetEvent_fence_opened {f : ParcelFramer} (hp : f.phase = .opened) (hs : f.shieldPending = false)
    (hn : f.assembly ≠ []) : f.octetEvent fenceOctet = (f.openEmpty, .ended f.assembly) := by
  unfold ParcelFramer.octetEvent
  rw [if_neg (by decide), if_neg (by decide), hp]
  simp only [hs, Bool.false_eq_true, if_false, if_true, if_neg hn]

/-- A Fence after a Shield counts an abort and opens the next assembly (R38). -/
theorem octetEvent_abort {f : ParcelFramer} (hp : f.phase = .opened) (hs : f.shieldPending = true) :
    f.octetEvent fenceOctet = (f.countAbort, .nothing) := by
  unfold ParcelFramer.octetEvent
  rw [if_neg (by decide), if_neg (by decide), hp]
  simp only [hs, if_true]

/-! ### The device over strings -/

/-- Octets that make the framer give no signal move the framer alone. -/
theorem State.octetEvents_quiet (s : State) (os : List Byte)
    (h : ∀ g ∈ (framerRun s.pf os).2, g = FramerSignal.nothing) :
    s.octetEvents os = { s with pf := (framerRun s.pf os).1 } := by
  unfold State.octetEvents
  induction os generalizing s with
  | nil => rfl
  | cons b rest ih =>
    rw [framerRun_cons] at h
    have h1 : (s.pf.octetEvent b).2 = FramerSignal.nothing := h _ (by simp)
    have h2 : s.octetEvent b = { s with pf := (s.pf.octetEvent b).1 } := by
      unfold State.octetEvent
      simp only [h1]
    rw [List.foldl_cons, h2, ih _ (fun g hg => h g (List.mem_cons_of_mem _ hg)), framerRun_cons]

theorem State.octetEvents_append (s : State) (a b : List Byte) :
    s.octetEvents (a ++ b) = (s.octetEvents a).octetEvents b := by
  simp [State.octetEvents, List.foldl_append]

end Sys2Proof.Machine
end

