-- ==== Sys2Proof/Laws/Memory.lean ====
section
/-!
SUPPORT. The laws of the array: reading after writing, and every operation on it keeps the canonical form. The
octets of an interrupted program and of an erased sector are said once, by what each address then reads.
-/

namespace Sys2Proof.Machine

/-! ### Addresses below a list -/

/-- Every address of a memory lies above `a`. -/
def Memory.above (a : Nat) (m : Memory) : Prop := ∀ c ∈ m, a < c.1

theorem Memory.above_nil (a : Nat) : Memory.above a [] := by intro c hc; cases hc

theorem Memory.above_cons {a : Nat} {c : Host.Cell} {m : Memory} :
    Memory.above a (c :: m) ↔ a < c.1 ∧ Memory.above a m := by
  simp [Memory.above]

theorem Memory.above_mono {a b : Nat} {m : Memory} (hab : a ≤ b) (h : Memory.above b m) : Memory.above a m :=
  fun c hc => Nat.lt_of_le_of_lt hab (h c hc)

/-- The canonical form of a memory with a first cell. -/
theorem Memory.wf_cons {k : Nat} {v : Byte} {m : Memory} :
    Memory.wf ((k, v) :: m) = true ↔ v ≠ erasedOctet ∧ Memory.above k m ∧ Memory.wf m = true := by
  induction m generalizing k v with
  | nil => simp [Memory.wf, Memory.above]
  | cons c rest ih =>
    obtain ⟨k', v'⟩ := c
    have hw : Memory.wf ((k, v) :: (k', v') :: rest) =
        (v != erasedOctet && decide (k < k') && Memory.wf ((k', v') :: rest)) := rfl
    rw [hw]
    constructor
    · intro h
      simp only [Bool.and_eq_true, bne_iff_ne, decide_eq_true_eq] at h
      obtain ⟨⟨hv, hk⟩, hr⟩ := h
      refine ⟨hv, Memory.above_cons.mpr ⟨hk, ?_⟩, hr⟩
      exact Memory.above_mono (Nat.le_of_lt hk) (ih.mp hr).2.1
    · rintro ⟨hv, ha, hr⟩
      simp only [Bool.and_eq_true, bne_iff_ne, decide_eq_true_eq]
      exact ⟨⟨hv, (Memory.above_cons.mp ha).1⟩, hr⟩

@[simp] theorem Memory.read_nil (a : Nat) : Memory.read [] a = erasedOctet := rfl

theorem Memory.read_cons (k : Nat) (v : Byte) (m : Memory) (a : Nat) :
    Memory.read ((k, v) :: m) a = if k = a then v else m.read a := rfl

/-- An address below every listed one reads as erased. -/
theorem Memory.read_of_above {a : Nat} {m : Memory} (h : Memory.above a m) : m.read a = erasedOctet := by
  induction m with
  | nil => rfl
  | cons c rest ih =>
    obtain ⟨k, v⟩ := c
    have h2 := Memory.above_cons.mp h
    rw [Memory.read_cons, if_neg (by have := h2.1; simp only at this; omega)]
    exact ih h2.2

/-! ### Writing -/

theorem Memory.above_write {n a : Nat} {b : Byte} {m : Memory} (hn : n < a) (h : Memory.above n m) :
    Memory.above n (m.write a b) := by
  induction m with
  | nil =>
    simp only [Memory.write]
    split
    · exact Memory.above_nil n
    · exact Memory.above_cons.mpr ⟨hn, Memory.above_nil n⟩
  | cons c rest ih =>
    obtain ⟨k, v⟩ := c
    have h2 := Memory.above_cons.mp h
    simp only [Memory.write]
    split
    · split
      · exact h
      · exact Memory.above_cons.mpr ⟨hn, h⟩
    · split
      · split
        · exact h2.2
        · exact Memory.above_cons.mpr ⟨hn, h2.2⟩
      · exact Memory.above_cons.mpr ⟨h2.1, ih h2.2⟩

/-- A write keeps the canonical form. -/
theorem Memory.write_wf {m : Memory} (h : m.wf = true) (a : Nat) (b : Byte) : (m.write a b).wf = true := by
  induction m with
  | nil =>
    simp only [Memory.write]
    split
    · rfl
    · rename_i hb
      exact Memory.wf_cons.mpr ⟨hb, Memory.above_nil a, rfl⟩
  | cons c rest ih =>
    obtain ⟨k, v⟩ := c
    obtain ⟨hv, ha, hr⟩ := Memory.wf_cons.mp h
    simp only [Memory.write]
    split
    · rename_i hak
      split
      · exact h
      · rename_i hb
        exact Memory.wf_cons.mpr
          ⟨hb, Memory.above_cons.mpr ⟨hak, Memory.above_mono (Nat.le_of_lt hak) ha⟩, h⟩
    · split
      · rename_i hak
        split
        · exact hr
        · rename_i hb
          exact Memory.wf_cons.mpr ⟨hb, hak ▸ ha, hr⟩
      · rename_i h1 h2
        exact Memory.wf_cons.mpr ⟨hv, Memory.above_write (by omega) ha, ih hr⟩

/-- A read after a write: the octet written at its address, and what was there elsewhere. -/
theorem Memory.read_write {m : Memory} (h : m.wf = true) (a x : Nat) (b : Byte) :
    (m.write a b).read x = if x = a then b else m.read x := by
  induction m with
  | nil =>
    simp only [Memory.write]
    split
    · rename_i hb
      split
      · rw [hb]; rfl
      · rfl
    · rw [Memory.read_cons]
      split <;> split <;> first | rfl | omega
  | cons c rest ih =>
    obtain ⟨k, v⟩ := c
    obtain ⟨hv, ha, hr⟩ := Memory.wf_cons.mp h
    simp only [Memory.write]
    split
    · rename_i hak
      split
      · rename_i hb
        split
        · rename_i hx
          rw [hx, hb]
          exact Memory.read_of_above
            (Memory.above_cons.mpr ⟨hak, Memory.above_mono (Nat.le_of_lt hak) ha⟩)
        · rfl
      · rw [Memory.read_cons]
        split <;> split <;> first | rfl | omega
    · split
      · rename_i hak
        split
        · rename_i hb
          split
          · rename_i hx
            rw [hx, hb]
            exact Memory.read_of_above (hak ▸ ha)
          · rename_i hx
            rw [Memory.read_cons, if_neg (by omega)]
        · rw [Memory.read_cons, Memory.read_cons]
          subst hak
          by_cases hx : x = a
          · rw [if_pos hx.symm, if_pos hx]
          · rw [if_neg (Ne.symm hx), if_neg hx, if_neg (Ne.symm hx)]
      · rename_i h1 h2
        rw [Memory.read_cons, Memory.read_cons, ih hr]
        split
        · rw [if_neg (by omega)]
        · rfl

/-- The octet just written is read back. -/
theorem Memory.read_write_same {m : Memory} (h : m.wf = true) (a : Nat) (b : Byte) : (m.write a b).read a = b := by
  simp [Memory.read_write h]

/-- A write leaves every other address alone. -/
theorem Memory.read_write_other {m : Memory} (h : m.wf = true) {a x : Nat} (b : Byte) (hx : x ≠ a) :
    (m.write a b).read x = m.read x := by
  simp [Memory.read_write h, hx]

/-! ### Erasing a sector -/

theorem Memory.above_filter {n : Nat} {m : Memory} (p : Host.Cell → Bool) (h : Memory.above n m) :
    Memory.above n (m.filter p) :=
  fun c hc => h c (List.mem_filter.mp hc).1

/-- A part of a canonical memory is canonical. -/
theorem Memory.filter_wf {m : Memory} (h : m.wf = true) (p : Host.Cell → Bool) :
    Memory.wf (m.filter p) = true := by
  induction m with
  | nil => rfl
  | cons c rest ih =>
    obtain ⟨k, v⟩ := c
    obtain ⟨hv, ha, hr⟩ := Memory.wf_cons.mp h
    rw [List.filter_cons]
    split
    · exact Memory.wf_cons.mpr ⟨hv, Memory.above_filter p ha, ih hr⟩
    · exact ih hr

/-- Erasing a sector keeps the canonical form. -/
theorem Memory.eraseSector_wf {m : Memory} (h : m.wf = true) (k : Nat) : (m.eraseSector k).wf = true :=
  Memory.filter_wf h _

/-- An erased sector reads FFh throughout, and every other octet reads as before. -/
theorem Memory.read_eraseSector (m : Memory) (k a : Nat) :
    (m.eraseSector k).read a = if sectorOf a = k then erasedOctet else m.read a := by
  unfold Memory.eraseSector
  induction m with
  | nil => simp
  | cons c rest ih =>
    obtain ⟨n, v⟩ := c
    rw [List.filter_cons]
    split
    · rename_i hp
      rw [Memory.read_cons, Memory.read_cons]
      split
      · rename_i hn
        subst hn
        rw [if_neg (by simpa using hp)]
      · exact ih
    · rename_i hp
      rw [ih, Memory.read_cons]
      split
      · rfl
      · rename_i hs
        rw [if_neg]
        intro hn
        subst hn
        exact hs (by simpa using hp)

/-! ### An interrupted program -/

/-- What an interruption leaves keeps the canonical form. -/
theorem interruptedOctets_wf {m : Memory} (h : m.wf = true) (addr i free : Nat) (data : List Byte) :
    (interruptedOctets m addr i free data).wf = true := by
  induction data generalizing m i free with
  | nil => exact h
  | cons d rest ih => exact ih (Memory.write_wf h _ _) _ _

/-- A pulse clears only bits that are 1 in the octet and 0 in the target. -/
theorem pulseOnce_le (old target clears : Byte) : pulseOnce old target clears &&& old = pulseOnce old target clears := by
  unfold pulseOnce
  ext i hi
  simp only [BitVec.getElem_and, BitVec.getElem_or, BitVec.getElem_not]
  cases old[i] <;> simp

/-- A pulse leaves every bit of the target that is in the octet. -/
theorem pulseOnce_ge (old target clears : Byte) :
    old &&& target &&& pulseOnce old target clears = old &&& target := by
  unfold pulseOnce
  ext i hi
  simp only [BitVec.getElem_and, BitVec.getElem_or, BitVec.getElem_not]
  cases old[i] <;> cases target[i] <;> simp

/-- What an address reads after an interruption: as before outside what was still to be done; inside, one pulse
with free bits of the octet that stood there. -/
theorem read_interruptedOctets {m : Memory} (h : m.wf = true) (addr i free : Nat) (data : List Byte) (a : Nat) :
    (interruptedOctets m addr i free data).read a =
      if addr + i ≤ a ∧ a < addr + i + data.length then
        pulseOnce (m.read a) (m.read a &&& data.getD (a - (addr + i)) 0)
          (Config.freeByte (free + (a - (addr + i))))
      else m.read a := by
  induction data generalizing m i free with
  | nil => rw [if_neg (by simp)]; rfl
  | cons d rest ih =>
    simp only [interruptedOctets]
    rw [ih (Memory.write_wf h _ _), Memory.read_write h]
    by_cases ha : a = addr + i
    · subst ha
      rw [if_neg (by omega), if_pos rfl, if_pos (by simp)]
      simp
    · rw [if_neg ha]
      by_cases hb : addr + (i + 1) ≤ a ∧ a < addr + (i + 1) + rest.length
      · have e : a - (addr + i) = (a - (addr + (i + 1))) + 1 := by omega
        have hf : free + 1 + (a - (addr + (i + 1))) = free + (a - (addr + i)) := by omega
        rw [if_pos hb, if_pos (by simp only [List.length_cons]; omega), e, List.getD_cons_succ, hf, e]
      · rw [if_neg hb, if_neg (by simp only [List.length_cons]; omega)]

/-! ### Reset -/

/-- The array of the reset state is canonical: nothing is listed. -/
theorem State.reset_array_wf : State.reset.array.wf = true := rfl

end Sys2Proof.Machine
end

