-- ==== Sys2Proof/Laws/Receiver.lean ====
section
/-!
SUPPORT. What the receiver, the hand-over of a parcel and the passing of time can do, said once.
-/

namespace Sys2Proof.Machine

/-! ### Octets and parcels -/

/-- The data bits of an octet, collected in the order of the line, give the octet again (R19, R21). -/
@[simp] theorem bitsOctet_dataBits (b : Byte) : bitsOctet (dataBits b) = b := by
  revert b; decide

/-- The header of an encoded parcel is read back (R48, R49). -/
@[simp] theorem parcelHead_parcelOctets (cls : Byte) (ns nr : Seq) (tag : Byte) (payload : List Byte) :
    parcelHead (parcelOctets cls ns nr tag payload) = { ns := ns, nr := nr, tag := tag } := by
  simp only [parcelHead, parcelOctets, parcelBody, List.cons_append, List.getD_cons_succ, List.getD_cons_zero,
    ParcelHead.mk.injEq, and_true]
  constructor
  · exact BitVec.extractLsb'_append_eq_left
  · exact BitVec.extractLsb'_append_eq_right

/-- The payload of an encoded parcel is read back (R48, R49). -/
theorem parcelPayload_parcelOctets (cls : Byte) (ns nr : Seq) (tag : Byte) (payload : List Byte)
    (h : payload.length ≤ 72) : parcelPayload (parcelOctets cls ns nr tag payload) = payload := by
  have hl : (octet payload.length).toNat = payload.length := by
    simp only [octet, BitVec.toNat_ofNat]; omega
  simp [parcelPayload, parcelOctets, parcelBody, hl]

/-- Three octets of a number put it together again. -/
theorem octets24_join (w : Word24) : w.extractLsb' 16 8 ++ w.extractLsb' 8 8 ++ w.extractLsb' 0 8 = w := by
  ext i hi
  simp only [BitVec.getElem_append, BitVec.getElem_extractLsb']
  split
  · rw [← BitVec.getLsbD_eq_getElem]; congr 1; omega
  · split <;> (rw [← BitVec.getLsbD_eq_getElem]; congr 1; omega)

/-- Two octets of a number put it together again. -/
theorem octets16_join (w : Word16) : w.extractLsb' 8 8 ++ w.extractLsb' 0 8 = w := by
  ext i hi
  simp only [BitVec.getElem_append, BitVec.getElem_extractLsb']
  split <;> (rw [← BitVec.getLsbD_eq_getElem]; congr 1; omega)

/-- The pairs of a CONFIG_SET are read back (R202). -/
theorem pairsOf_flatMap (ps : List (Byte × Byte)) : pairsOf (ps.flatMap (fun p => [p.1, p.2])) = ps := by
  induction ps with
  | nil => rfl
  | cons p ps ih => simpa [pairsOf] using ih

/-- A configuration record is read back from its octets (section 10.1). -/
theorem Settings.ofOctets_octets (r : Settings) : Settings.ofOctets r.octets = r := by cases r; rfl

/-- A request of the request code table is read back from its payload (R83). -/
theorem Request.ofPayload_payload (r : Request) (h : formOk r.payload = true) (hk : ∀ p, r ≠ .unknown p) :
    Request.ofPayload r.payload = r := by
  cases r <;>
    simp_all [Request.ofPayload, Request.payload, Request.code, word24At, word16At, octets24, octets16,
      octets24_join, octets16_join, pairsOf_flatMap, Settings.ofOctets_octets]

/-! ### Character events -/

/-- A framing-error event reaches the framer alone (R41). -/
theorem State.framingEvent_eq (s : State) : s.framingEvent = { s with pf := s.pf.framingError } := rfl

/-- The end of Settling touches the character link, and the framer where a character was lost (R23, R32). -/
theorem State.settle_eq (s : State) :
    s.settle = { s with
      pf := if s.cl.lostCharacter then s.pf.framingError else s.pf
      cl := { s.cl with receiver := .idle, lostCharacter := false, settleCount := 0, breakTimer := .stopped } } := by
  cases h : s.cl.lostCharacter <;> simp [State.settle, h, State.framingEvent]

/-- An octet event that is no signal and ends no assembly stays in the framer (R34). -/
theorem State.octetEvent_nothing (s : State) (b : Byte) (h : (s.pf.octetEvent b).2 = .nothing) :
    s.octetEvent b = { s with pf := (s.pf.octetEvent b).1 } := by
  simp [State.octetEvent, h]

/-- An octet event that ends an assembly (R43, R48). -/
theorem State.octetEvent_ended (s : State) (b : Byte) (assembly : List Byte)
    (h : (s.pf.octetEvent b).2 = .ended assembly) :
    s.octetEvent b = State.endAssembly { s with pf := (s.pf.octetEvent b).1 } assembly := by
  simp [State.octetEvent, h]

/-- An assembly that fails a check is counted, and nothing else happens (R43). -/
theorem State.endAssembly_fault (s : State) (assembly : List Byte) (f : ParcelFault)
    (h : parcelFault assembly = some f) :
    s.endAssembly assembly = { s with pf := { s.pf with counters := s.pf.counters.countFault f } } := by
  simp [State.endAssembly, h]

/-- An assembly that passes every check is handed over (R48). -/
theorem State.endAssembly_valid (s : State) (assembly : List Byte) (h : parcelFault assembly = none) :
    s.endAssembly assembly = s.receiveParcel assembly := by
  simp [State.endAssembly, h]

/-! ### Edges -/

/-- A level that does not change is no edge. -/
@[simp] theorem State.setRxd_same (s : State) : s.setRxd s.pins.rxd = s := by simp [State.setRxd]

/-- A falling edge that a listening or settling receiver sees (R21, R23, R24, R26). -/
theorem State.setRxd_fall (s : State) (ht : s.sr.top = .active) (hp : s.pins.rxd = true)
    (hr : s.cl.receiver ≠ .inBreak) :
    s.setRxd false = { s with
      pins := { s.pins with rxd := false }
      sr := { s.sr with idleTimer := 0 }
      cl := { s.cl with
        receiver := if s.cl.receiver = .idle then .inCharacter [] (s.bitTime / 2) else s.cl.receiver
        settleCount := 0
        breakTimer := .running breakTicks } } := by
  cases h : s.cl.receiver <;> simp_all [State.setRxd, State.fallingEdge, State.bitTime]

/-- A rising edge in Running-Active (R22, R23, R24). -/
theorem State.setRxd_rise (s : State) (ht : s.sr.top = .active) (hp : s.pins.rxd = false) :
    s.setRxd true = { s with
      pins := { s.pins with rxd := true }
      cl := { s.cl with
        receiver := if s.cl.receiver = .inBreak then .idle else s.cl.receiver
        settleCount := 0
        breakTimer := .stopped } } := by
  simp [State.setRxd, State.risingEdge, hp, ht]

/-! ### Samples -/

/-- A start bit that is high in its middle is noise: Idle, and no event (R21). -/
theorem State.sampleBit_noise (s : State) (h : s.pins.rxd = true) : s.sampleBit [] = s.setReceiver .idle := by
  simp [State.sampleBit, h]

/-- A sample of the start bit or of a data bit is collected, one bit time before the next (R21). -/
theorem State.sampleBit_collects (s : State) (samples : List Bool) (hn : samples = [] → s.pins.rxd = false)
    (hl : samples.length < bitsBeforeStop) :
    s.sampleBit samples = s.setReceiver (.inCharacter (samples ++ [s.pins.rxd]) s.bitTime) := by
  have : ¬(samples = [] ∧ s.pins.rxd = true) := fun h => by simp [hn h.1] at h
  simp [State.sampleBit, this, hl]

/-- A high stop bit ends the character with its octet (R21). -/
theorem State.sampleBit_octet (s : State) (start : Bool) (b : Byte) (h : s.pins.rxd = true) :
    s.sampleBit (start :: dataBits b) = (s.setReceiver .idle).octetEvent b := by
  simp [State.sampleBit, dataBits, bitsBeforeStop, h]
  exact congrArg _ (bitsOctet_dataBits b)

/-- A low stop bit is a framing error, and the receiver is In-break (R22). -/
theorem State.sampleBit_framing (s : State) (start : Bool) (b : Byte) (h : s.pins.rxd = false) :
    s.sampleBit (start :: dataBits b) = (s.setReceiver .inBreak).framingEvent := by
  simp [State.sampleBit, dataBits, bitsBeforeStop, h]

/-! ### The passing of time -/

/-- Within the units that pass nothing happens but the passing (assumption 6). -/
theorem State.elapse_frame (s : State) (units : Nat) :
    (s.elapse units).pins = s.pins ∧ (s.elapse units).pf = s.pf ∧ (s.elapse units).su = s.su ∧
      (s.elapse units).rd = s.rd ∧ (s.elapse units).ae = s.ae ∧ (s.elapse units).array = s.array ∧
      (s.elapse units).ledger = s.ledger ∧ (s.elapse units).bc = s.bc ∧ (s.elapse units).pu = s.pu ∧
      (s.elapse units).eu = s.eu ∧ (s.elapse units).cs = s.cs ∧ (s.elapse units).pending = s.pending ∧
      (s.elapse units).freeCount = s.freeCount ∧
      (s.elapse units).sr = { s.sr with phase := s.sr.phase + units } :=
  ⟨rfl, rfl, rfl, rfl, rfl, rfl, rfl, rfl, rfl, rfl, rfl, rfl, rfl, rfl⟩

/-- A minimum over a list is no more than the value it starts from. -/
theorem foldl_min_le (l : List Nat) (n : Nat) : l.foldl min n ≤ n := by
  induction l generalizing n with
  | nil => exact Nat.le_refl n
  | cons a l ih => exact Nat.le_trans (ih (min n a)) (Nat.min_le_left n a)

/-- The next instant is no later than the next tick. -/
theorem State.gap_le_tickGap (s : State) : s.gap ≤ s.tickGap := foldl_min_le _ _

/-- Time that passes does not pass the next tick (assumption 6). -/
theorem State.passTime_phase (s : State) (h : s.sr.phase ≤ unitsPerTick) : s.passTime.sr.phase ≤ unitsPerTick := by
  have hg := s.gap_le_tickGap
  simp only [State.tickGap] at hg
  simp only [State.passTime, State.elapse]
  omega

/-- A tick in a Running state (R7, R10, R14). -/
theorem State.tickOnce_running (s : State) (h : s.isRunning = true) :
    s.tickOnce = (State.advanceClocks { s with sr := { s.sr with phase := 0 } }).dozeTest.dueSupply := by
  cases ht : s.sr.top <;> simp_all [State.tickOnce, State.isRunning]

/-! ### What is due -/

/-- A reset that is due is a change of RSTn or VDD of the present instant (R2, R14). -/
theorem State.dueReset_some (s : State) (d : Due) (h : s.dueReset = some d) :
    ∃ c ∈ s.inputs, d = .input c ∧ c.after = 0 ∧ c.event.isReset = true := by
  simp only [State.dueReset, Option.map_eq_some_iff] at h
  obtain ⟨c, hc, rfl⟩ := h
  have hp := List.find?_some hc
  have hm := List.mem_of_find?_eq_some hc
  exact ⟨c, (List.takeWhile_sublist _).mem hm, rfl, by simpa using List.mem_takeWhile_imp hm, hp⟩

/-- A change of RSTn or VDD comes before the other changes of its instant, and leaves them to come (R14). -/
theorem State.dueReset_behind (s : State) (earlier later : List PinChange) (c : PinChange)
    (hi : s.inputs = earlier ++ c :: later) (ha : c.after = 0) (hc : c.event.isReset = true)
    (he : ∀ e ∈ earlier, e.after = 0 ∧ e.event.isReset = false) :
    s.dueReset = some (.input c) ∧
      s.takeInput c = State.pinEvent { s with inputs := earlier ++ later } c.event := by
  have hn : c ∉ earlier := fun hm => by simp [(he c hm).2] at hc
  constructor
  · have hall : ∀ e ∈ earlier, (e.after == 0) = true := fun e hm => by simp [(he e hm).1]
    have hnone : earlier.find? (fun e => e.event.isReset) = none :=
      List.find?_eq_none.2 (fun e hm => by simp [(he e hm).2])
    simp [State.dueReset, State.nextReset, hi, List.takeWhile_append_of_pos hall, ha, hc,
      List.find?_append, hnone]
  · simp [State.takeInput, hi, List.erase_append_right _ hn]

/-- A reset that is due is due first (R14). -/
theorem State.due_reset (s : State) (d : Due) (h : s.dueReset = some d) : s.due = some d := by
  simp [State.due, h]

/-- A tick comes after a reset and before all else (R14). -/
theorem State.due_tick (s : State) (h : s.dueReset = none) (ht : unitsPerTick ≤ s.sr.phase) :
    s.due = some .tick := by
  simp [State.due, State.dueTick, State.tickDue, h, ht]

/-- Between a tick and all else that is due the Doze conditions are tested (R10). -/
theorem State.due_doze (s : State) (h : s.dueReset = none) (ht : s.sr.phase < unitsPerTick)
    (hd : s.mayDoze = true) : s.due = some .doze := by
  simp [State.due, State.dueTick, State.tickDue, h, hd, ht]

/-- Where an occurrence is due the device's own step handles it and nothing else (R14). -/
theorem State.runningStep_due (s : State) (d : Due) (h : s.due = some d) : s.runningStep = s.handle d := by
  simp [State.runningStep, h]

/-- With nothing due and nothing to select, time passes (R10, R73). -/
theorem State.runningStep_idle (s : State) (h : s.due = none) (hs : s.select = none) : s.runningStep = s.passTime := by
  simp [State.runningStep, h, hs]

end Sys2Proof.Machine
end

