-- ==== Sys2Proof/Laws/Session.lean ====
section
/-!
SUPPORT. What the session operations can do, each said once: the teardown, the processing of an Nr, the hand-over of
a parcel, and the acceptance of a request in the terms of Safety.lean.
-/

namespace Sys2Proof.Machine

/-! ### Outcomes -/

/-- An outcome that goes on answers whatever holds of its state. -/
theorem Answers.of_next {t : State} {P : State → Prop} (h : P t) : Answers (.next t) P := ⟨t, rfl, h⟩

/-- What an outcome answers may be weakened. -/
theorem Answers.mono {o : Result} {P Q : State → Prop} (h : Answers o P) (hpq : ∀ t, P t → Q t) : Answers o Q := by
  obtain ⟨t, ht, hp⟩ := h
  exact ⟨t, ht, hpq t hp⟩

/-! ### Teardown -/

/-- A detached device has nothing to tear down (R77). -/
theorem State.teardown_of_detached (s : State) (r : TeardownReason) (h : s.su.link = .detached) :
    s.teardown r = s := by
  unfold State.teardown State.isAttached
  simp [h]

/-- The dropped slots, in the terms of Safety.lean (R106). -/
theorem State.dropSlots_rd_eq (s : State) : s.dropSlots.rd = s.rd.tornDown := rfl

/-- A teardown of an attached session whose batch is not Parked, as one change of state (R77 to R79, R106). -/
theorem State.teardown_eq (s : State) (r : TeardownReason) (ha : s.su.link = .attached)
    (hp : s.bc.state ≠ .parked) :
    s.teardown r =
      { s with
        su := s.su.tornDown r
        rd := s.rd.tornDown
        cl := { s.cl with held := false, holdTimer := .stopped, tx := s.cl.tx.resumed s.characterTime }
        eu := s.eu.tornDown s.sr.tick r s.su.epoch s.rd.droppable } := by
  have hq : (s.dropSlots).bc.state ≠ .parked := hp
  have hrd := State.dropSlots_rd_eq s
  have hd : s.dropSlots = { s with rd := s.rd.tornDown } := by
    rw [← hrd]
    rfl
  unfold State.teardown State.isAttached
  rw [ha, if_pos (by rfl), State.unparkBatch_of_not_parked _ hq, hd]
  dsimp only
  rw [State.offer_eq]
  unfold State.detach
  rw [State.clearHeld_eq]
  unfold EventUnit.tornDown SessionUnit.tornDown State.droppedCount Dispatcher.droppable
  split <;> rfl

/-- What a teardown leaves, in the terms of Safety.lean. -/
theorem State.teardown_tornDown (s : State) (r : TeardownReason) (ha : s.su.link = .attached)
    (hp : s.bc.state ≠ .parked) : TornDown s (s.teardown r) r := by
  rw [State.teardown_eq s r ha hp]
  exact ⟨rfl, rfl, rfl, rfl, rfl, rfl, rfl, rfl, rfl, rfl, rfl, rfl, rfl, rfl⟩

/-- What no teardown touches, whatever the batch. -/
theorem State.teardown_frame (s : State) (r : TeardownReason) :
    (s.teardown r).sr = s.sr ∧ (s.teardown r).pins = s.pins ∧ (s.teardown r).pf = s.pf ∧
      (s.teardown r).array = s.array ∧ (s.teardown r).pu = s.pu ∧ (s.teardown r).cs = s.cs ∧
      (s.teardown r).inputs = s.inputs ∧ (s.teardown r).pending = s.pending ∧ (s.teardown r).freeCount = s.freeCount := by
  have h : s.SameBeyondBatch s.dropSlots.unparkBatch :=
    State.SameBeyondBatch.trans (b := s.dropSlots)
      ⟨rfl, rfl, rfl, rfl, rfl, rfl, rfl, rfl, rfl, rfl, rfl⟩ (State.unparkBatch_frame _)
  unfold State.teardown
  split
  · dsimp only
    rw [State.offer_eq]
    split
    · exact ⟨h.sr, h.pins, h.pf, h.array, h.pu, h.cs, h.inputs, h.pending, h.freeCount⟩
    · exact ⟨h.sr, h.pins, h.pf, h.array, h.pu, h.cs, h.inputs, h.pending, h.freeCount⟩
  · exact ⟨rfl, rfl, rfl, rfl, rfl, rfl, rfl, rfl, rfl⟩

/-! ### Nr processing -/

/-- A restarted keepalive timer is all a valid parcel changes of itself (R76). -/
theorem State.touchKeepalive_eq (s : State) :
    s.touchKeepalive =
      { s with su := { s.su with
        keepalive := if s.su.keepalive = .stopped then .stopped else Timer.start s.keepaliveTicks } } := by
  unfold State.touchKeepalive Timer.runs
  cases h : s.su.keepalive with
  | stopped => simp [← h]
  | running n => simp

/-- An acknowledgement touches the Session Unit and the Event Unit alone (R61). -/
theorem State.acknowledge_eq (s : State) (nr : Seq) :
    s.acknowledge nr = { s with su := (s.acknowledge nr).su, eu := (s.acknowledge nr).eu } := by
  unfold State.acknowledge
  dsimp only
  split
  · rfl
  · rfl

/-- An Nr that acknowledges nothing changes nothing (R61). -/
theorem State.acknowledge_none (s : State) : s.acknowledge s.su.va = s := by
  unfold State.acknowledge
  simp

/-- What an acknowledgement leaves of the Session Unit as it was (R61). -/
theorem State.acknowledge_su (s : State) (nr : Seq) :
    (s.acknowledge nr).su.link = s.su.link ∧ (s.acknowledge nr).su.vr = s.su.vr ∧
      (s.acknowledge nr).su.vs = s.su.vs ∧ (s.acknowledge nr).su.replies = s.su.replies ∧
      (s.acknowledge nr).su.keepalive = s.su.keepalive ∧ (s.acknowledge nr).su.epoch = s.su.epoch ∧
      (s.acknowledge nr).su.hostBusy = s.su.hostBusy ∧
      (s.acknowledge nr).su.busyReported = s.su.busyReported ∧
      (s.acknowledge nr).su.noticesWanted = s.su.noticesWanted ∧
      (s.acknowledge nr).su.rejectSent = s.su.rejectSent := by
  unfold State.acknowledge
  dsimp only
  split
  · exact ⟨rfl, rfl, rfl, rfl, rfl, rfl, rfl, rfl, rfl, rfl⟩
  · exact ⟨rfl, rfl, rfl, rfl, rfl, rfl, rfl, rfl, rfl, rfl⟩

/-- The causes and the enable set are no matter of an acknowledgement, nor is the lost count. -/
theorem State.acknowledge_causes (s : State) (nr : Seq) :
    (s.acknowledge nr).eu.latched = s.eu.latched ∧ (s.acknowledge nr).eu.enable = s.eu.enable ∧
      (s.acknowledge nr).eu.lost = s.eu.lost ∧ (s.acknowledge nr).eu.nextSerial = s.eu.nextSerial := by
  unfold State.acknowledge
  dsimp only
  split
  · exact ⟨rfl, rfl, rfl, rfl⟩
  · exact ⟨rfl, rfl, rfl, rfl⟩

/-! ### Parcels -/

/-- A parcel whose closing Fence is heard is handed over in the delivered state (R35, R48). -/
theorem State.onParcel_of_hears (s : State) (handle : State → State) (h : s.hears = true) :
    s.onParcel handle = handle s.delivered := by
  unfold State.hears at h
  simp only [Bool.and_eq_true, beq_iff_eq] at h
  unfold State.onParcel
  rw [if_pos h.1]
  simp only [h.2]
  rfl

/-- Where the receiver does not listen the characters are lost (R21, R23). -/
theorem State.onParcel_of_deaf (s : State) (handle : State → State) (h : s.listening = false) :
    s.onParcel handle = s.unheard true .stopped := by
  unfold State.onParcel
  simp [h]

/-- An Nr takes the records of the notices it acknowledges out of the log, and nothing else decides whether any
leaves (R61, R187). -/
theorem State.losesRecords_eq (s : State) (nr : Seq) :
    s.losesRecords nr =
      decide ((s.eu.log.filter (fun r =>
        !(noticeSerials (s.su.window.take (nr - s.su.va).toNat)).contains r.serial)).length < s.eu.log.length) := by
  unfold State.losesRecords State.acknowledge
  dsimp only
  split
  · rename_i h
    simp [h, noticeSerials]
  · rfl

/-- The keepalive timer has no part in what an Nr takes out of the log. -/
theorem State.losesRecords_touchKeepalive (s : State) (nr : Seq) :
    s.touchKeepalive.losesRecords nr = s.losesRecords nr := by
  rw [State.touchKeepalive_eq, State.losesRecords_eq, State.losesRecords_eq]

/-- The end of the step of a delivered parcel, in the terms of Safety.lean (R185). -/
theorem State.endStep_delivered (s t : State) (h : ParcelHead) :
    t.endStep (s.delivered.losesRecords h.nr) = s.atEnd h t := by
  have hd : s.delivered.losesRecords h.nr = s.losesRecords h.nr := by
    rw [State.losesRecords_eq, State.losesRecords_eq]
    rfl
  rw [hd]
  unfold State.endStep State.atEnd
  split
  · exact State.reportLost_eq t
  · rfl

/-- A valid Nr is processed before what the parcel does (R59, R60). -/
theorem State.withNr_of_valid (s : State) (nr : Seq) (rest : State → State) (h : s.nrValid nr = true) :
    s.withNr nr rest =
      (rest (s.touchKeepalive.acknowledge nr)).endStep (s.losesRecords nr) := by
  have h2 : s.touchKeepalive.nrValid nr = true := by
    rw [State.touchKeepalive_eq]
    exact h
  unfold State.withNr
  dsimp only
  rw [State.losesRecords_touchKeepalive, if_pos h2]

/-- An Nr outside the span ends the session (R60). -/
theorem State.withNr_of_invalid (s : State) (nr : Seq) (rest : State → State) (h : s.nrValid nr = false) :
    s.withNr nr rest = s.touchKeepalive.teardown .protocol := by
  have h2 : s.touchKeepalive.nrValid nr = false := by
    rw [State.touchKeepalive_eq]
    exact h
  unfold State.withNr
  simp [h2]

/-! ### Acceptance -/

/-- The hand-over state keeps the slots, the engine and the batch (R59, R61, R62). -/
theorem State.beforeAcceptance_frame (s : State) (h : ParcelHead) :
    (s.beforeAcceptance h).rd = s.rd ∧ (s.beforeAcceptance h).ae = s.ae ∧ (s.beforeAcceptance h).bc = s.bc ∧
      (s.beforeAcceptance h).pu = s.pu ∧ (s.beforeAcceptance h).cs = s.cs ∧
      (s.beforeAcceptance h).array = s.array ∧ (s.beforeAcceptance h).ledger = s.ledger ∧
      (s.beforeAcceptance h).inputs = s.inputs ∧ (s.beforeAcceptance h).pending = s.pending ∧ (s.beforeAcceptance h).freeCount = s.freeCount := by
  unfold State.beforeAcceptance
  rw [State.acknowledge_eq, State.touchKeepalive_eq]
  exact ⟨rfl, rfl, rfl, rfl, rfl, rfl, rfl, rfl, rfl, rfl⟩

/-- A request the device takes is accepted in the hand-over state, whatever it is (R59 to R62, R91). -/
theorem requestStep_of_takes (s : State) (h : ParcelHead) (i : Nat) (r : Request)
    (check : Option (Status × List Byte)) (service : Service) (ht : s.takes h i = true) :
    requestStep h r check service s =
      .next (s.atEnd h ((s.beforeAcceptance h).accept i h.tag r check service)) := by
  unfold State.takes at ht
  simp only [Bool.and_eq_true, beq_iff_eq] at ht
  obtain ⟨⟨⟨⟨⟨hh, ha⟩, hv⟩, hns⟩, hf⟩, -⟩ := ht
  unfold requestStep
  rw [State.onParcel_of_hears s _ hh]
  have ha2 : s.delivered.isAttached = true := ha
  have hv2 : s.delivered.nrValid h.nr = true := hv
  unfold State.receiveRequest
  rw [if_pos ha2, State.withNr_of_valid _ _ _ hv2, State.endStep_delivered]
  have hvr : (s.delivered.touchKeepalive.acknowledge h.nr).su.vr = s.su.vr := by
    rw [(State.acknowledge_su _ _).2.1, State.touchKeepalive_eq]
    rfl
  have hfree : (s.delivered.touchKeepalive.acknowledge h.nr).freeSlot = some i := by
    rw [State.acknowledge_eq, State.touchKeepalive_eq]
    exact hf
  unfold State.classify
  simp only [hvr, hns, hfree]
  simp only [BitVec.sub_self, BitVec.toNat_zero, if_true, State.beforeAcceptance]

/-- A tag no other slot holds stays so in the hand-over state. -/
theorem State.tagInUse_beforeAcceptance (s : State) (h : ParcelHead) (i : Nat) (tag : Byte) :
    (s.beforeAcceptance h).tagInUse i tag = s.tagInUse i tag := by
  have hr := (State.beforeAcceptance_frame s h).1
  unfold State.tagInUse State.slot
  rw [hr]

/-- A taken request that passes its form and static checks goes to its service (R91). -/
theorem requestStep_of_takes_service (s : State) (h : ParcelHead) (i : Nat) (r : Request) (service : Service)
    (ht : s.takes h i = true) (hf : formOk r.payload = true) :
    requestStep h r none service s =
      .next (s.atEnd h (service i ((s.beforeAcceptance h).takeSlot i h.tag r))) := by
  rw [requestStep_of_takes s h i r none service ht]
  unfold State.takes at ht
  simp only [Bool.and_eq_true, Bool.not_eq_true'] at ht
  unfold State.accept
  rw [State.tagInUse_beforeAcceptance, ht.2]
  simp [hf]

/-- An answer in the slot just taken, in the terms of Safety.lean (R86, R89). -/
theorem State.answer_takeSlot (s : State) (i : Nat) (tag : Byte) (r : Request) (st : Status) (results : List Byte)
    (hi : i < s.rd.slots.length) :
    (s.takeSlot i tag r).answer i st results = s.withAnswer i tag r (responseOf r.code st results) := by
  unfold State.answer
  rw [show (s.takeSlot i tag r).slot i = { state := .answered, tag := tag, request := r } from
    State.slot_setSlot_same s _ hi]
  unfold State.takeSlot State.setSlot State.withAnswer
  simp

/-- The slot a request takes is one of the list. -/
theorem State.freeSlot_lt (s : State) {i : Nat} (h : s.freeSlot = some i) : i < s.rd.slots.length := by
  unfold State.freeSlot at h
  exact (List.findIdx?_eq_some_iff_findIdx_eq.mp h).1

/-- The slot a taken request finds, in the list of the hand-over state. -/
theorem State.takes_lt (s : State) {h : ParcelHead} {i : Nat} (ht : s.takes h i = true) :
    i < (s.beforeAcceptance h).rd.slots.length := by
  rw [(State.beforeAcceptance_frame s h).1]
  unfold State.takes at ht
  simp only [Bool.and_eq_true, beq_iff_eq] at ht
  exact State.freeSlot_lt s ht.1.2

/-- A taken immediate request that only answers (R93). -/
theorem requestStep_respond (s : State) (h : ParcelHead) (i : Nat) (r : Request) (st : Status)
    (results : State → List Byte) (ht : s.takes h i = true) (hf : formOk r.payload = true) :
    requestStep h r none (respond st results) s =
      .next (s.atEnd h ((s.beforeAcceptance h).withAnswer i h.tag r
        (responseOf r.code st (results ((s.beforeAcceptance h).takeSlot i h.tag r))))) := by
  rw [requestStep_of_takes_service s h i r _ ht hf]
  unfold respond
  rw [State.answer_takeSlot _ _ _ _ _ _ (State.takes_lt s ht)]

/-- A taken request that fails a static check is answered with what the check carries (R85, R86). -/
theorem requestStep_refused (s : State) (h : ParcelHead) (i : Nat) (r : Request) (st : Status)
    (results : List Byte) (service : Service) (ht : s.takes h i = true) (hf : formOk r.payload = true) :
    requestStep h r (some (st, results)) service s =
      .next (s.atEnd h ((s.beforeAcceptance h).withAnswer i h.tag r (responseOf r.code st results))) := by
  rw [requestStep_of_takes s h i r _ service ht]
  have hlt := State.takes_lt s ht
  unfold State.takes at ht
  simp only [Bool.and_eq_true, Bool.not_eq_true'] at ht
  unfold State.accept
  rw [State.tagInUse_beforeAcceptance, ht.2]
  simp only [Bool.false_eq_true, if_false, hf, Bool.not_true]
  rw [State.answer_takeSlot _ _ _ _ _ _ hlt]

end Sys2Proof.Machine
end

