-- ==== Sys2Proof/Tests/Slice0.lean ====
section
/-!
SUPPORT. The model's own tests: an ill-formed command for each check of WellFormed.lean; one or two small tests a
command, each one step from a small state, its expected values taken from the spec (chapter 11 and the rules named);
and, for each obligation with hypotheses, a witness that meets them, clause by clause.
-/

namespace Sys2Proof.Tests

open Sys2Proof.Machine

set_option Elab.async false

/-! ### States and readings -/

/-- The device after reset with its receiver Idle. -/
def awake : State := { State.reset with cl := { State.reset.cl with receiver := .idle } }

/-- The same with an assembly open: a parcel can end. -/
def hearing : State := { awake with pf := { awake.pf with phase := .opened } }

/-- A session at its start, attached as step 4 of section 11.1 has it, notices not wanted. -/
def inSession : State :=
  { hearing with su := { hearing.su with link := .attached, epoch := 1, attachCount := 1, effWindow := 4 } }

/-- The next request of a session at its start. -/
def next : ParcelHead := { ns := 0, nr := 0, tag := 0x31 }

/-- A state with one slot filled and the engine at work. -/
def working (s : State) (x : Slot) (e : Engine) : State :=
  { s with
    rd := { s.rd with slots := s.rd.slots.set 0 x }
    ae := { s.ae with engine := e } }

/-- A slot whose request runs. -/
def running (r : Request) : Slot := { state := .running, tag := 0x20, request := r }

/-- An outcome that goes on. -/
def goes : Result → Bool
  | .next _ => true
  | .fault _ => false
  | .refused _ => false

/-- What a state shows after an outcome, if it goes on. -/
def after {α : Type} (o : Result) (f : State → α) : Option α :=
  match o with
  | .next t => some (f t)
  | .fault _ => none
  | .refused _ => none

/-- The response in slot 0. -/
def response (s : State) : List Byte := (s.slot 0).response

/-! ### WellFormed: a term each check refuses -/

theorem test_wellFormed_power : Instr.wellFormed (.initialisationComplete true true .off) = false := by decide
theorem test_wellFormed_abort : Instr.wellFormed (.abort (List.replicate 79 0)) = false := by decide
theorem test_wellFormed_escape_long :
    Instr.wellFormed (.escapeViolation (List.replicate 79 0) 0x00) = false := by decide
theorem test_wellFormed_escape_good_follower : Instr.wellFormed (.escapeViolation [] 0xA4) = false := by decide
theorem test_wellFormed_escape_fence : Instr.wellFormed (.escapeViolation [] 0xE7) = false := by decide
theorem test_wellFormed_overlong : Instr.wellFormed (.overlong (List.replicate 78 0)) = false := by decide
theorem test_wellFormed_discarded_empty : Instr.wellFormed (.parcelDiscarded []) = false := by decide
theorem test_wellFormed_discarded_long :
    Instr.wellFormed (.parcelDiscarded (List.replicate 79 0)) = false := by decide +kernel
theorem test_wellFormed_discarded_valid :
    Instr.wellFormed (.parcelDiscarded (parcelOctets 0x44 0 3 0 [])) = false := by decide +kernel
theorem test_wellFormed_hail : Instr.wellFormed (.hail next (List.replicate 73 0)) = false := by decide
theorem test_wellFormed_ack : Instr.wellFormed (.ackReceived next (List.replicate 73 0)) = false := by decide
theorem test_wellFormed_rej : Instr.wellFormed (.rejReceived next (List.replicate 73 0)) = false := by decide
theorem test_wellFormed_unknown_known : Instr.wellFormed (.unknownRequest next [0x11]) = false := by decide
theorem test_wellFormed_unknown_long :
    Instr.wellFormed (.unknownRequest next (List.replicate 73 0)) = false := by decide
theorem test_wellFormed_program_empty : Instr.wellFormed (.program next 0 0 []) = false := by decide
theorem test_wellFormed_program_long :
    Instr.wellFormed (.program next 0 0 (List.replicate 65 0)) = false := by decide
theorem test_wellFormed_erase_empty : Instr.wellFormed (.eraseSectors next []) = false := by decide
theorem test_wellFormed_erase_long :
    Instr.wellFormed (.eraseSectors next (List.replicate 17 0)) = false := by decide
theorem test_wellFormed_configSet_empty : Instr.wellFormed (.configSet next []) = false := by decide
theorem test_wellFormed_configSet_long :
    Instr.wellFormed (.configSet next (List.replicate 9 (1, 2))) = false := by decide
theorem test_wellFormed_ping : Instr.wellFormed (.ping next (List.replicate 65 0)) = false := by decide
theorem test_wellFormed_programStep : Instr.wellFormed (.programStep (List.replicate 17 0)) = false := by decide
theorem test_wellFormed_configStoreStep :
    Instr.wellFormed (.configStoreStep true (List.replicate 17 0)) = false := by decide

/-! ### The check and the line (R45, R49) -/

/-- The reference values of R45 and R124. -/
theorem test_crc_reference : crc16 [0x31, 0x32, 0x33, 0x34, 0x35, 0x36, 0x37, 0x38, 0x39] = 0x29B1 := by decide +kernel
theorem test_crc_erased_octet : crc16 [0xFF] = 0xFF00 := by decide +kernel
/-- A tag of E5h is escaped as E6h A5h (R37, R49). -/
theorem test_escape_hold : escapeOctets [0x01, 0xE5, 0x02] = [0x01, 0xE6, 0xA5, 0x02] := by decide

/-! ### Supply, reset and power (chapter 1) -/

theorem test_powerOn_initialises :
    after (exec (.powerOn true) { State.reset with sr := { top := .off } }) (fun t => (t.sr.top, t.sr.cause)) =
      some (.initialising, .powerOn) := by decide +kernel
theorem test_powerOn_held :
    after (exec (.powerOn false) { State.reset with sr := { top := .off } }) (fun t => t.sr.top) =
      some .resetHeld := by decide +kernel
theorem test_powerOff_drives_nothing :
    after (exec .powerOff inSession) (fun t => (t.sr.top, t.attnLevel, t.txdOctets)) =
      some (.off, .notDriven, none) := by decide +kernel
/-- Step 1 of 11.5: BUSYn is driven low, the session is gone. -/
theorem test_pinReset_ends_session :
    after (exec .pinReset inSession) (fun t => (t.sr.top, t.busyLevel, t.su.link)) =
      some (.resetHeld, .low, .detached) := by decide +kernel
theorem test_resetRelease_pin :
    after (exec .resetRelease { State.reset with sr := { top := .resetHeld } }) (fun t => (t.sr.top, t.sr.cause)) =
      some (.initialising, .pin) := by decide +kernel
theorem test_resetRelease_from_off :
    after (exec .resetRelease { State.reset with sr := { top := .resetHeld, heldFromOff := true } })
      (fun t => t.sr.cause) = some .powerOn := by decide +kernel
/-- Steps 1 and 2 of 11.1: RESET_DONE with serial 0 and detail 01h 01h 00h 00h 00h; ATTNn low, BUSYn high. -/
theorem test_initialisation_delivered :
    after (exec (.initialisationComplete false true .good) { State.reset with sr := { top := .initialising } })
      (fun t => (t.eu.log.map LogRecord.octets, t.rawSet, t.attnLevel, t.busyLevel)) =
      some ([[0, 0, 1, 0, 0, 1, 1, 0, 0, 0]], 0x05, .low, .high) := by decide +kernel
/-- Step 2 of 11.5: with sector 40 Torn the raw set is 25h. -/
theorem test_initialisation_torn :
    after (exec (.initialisationComplete false true .good)
        { State.reset with
          sr := { top := .initialising, cause := .pin }
          ledger := State.reset.ledger.set 40 { condition := .torn, wear := 118 } })
      (fun t => (t.eu.log.map LogRecord.octets, t.rawSet)) =
      some ([[0, 0, 1, 0, 0, 2, 1, 1, 0, 0]], 0x25) := by decide +kernel
/-- R8: the flag, SUPPLY_LOW (kind 4) and bit 6. -/
theorem test_supplyLowEntry :
    after (exec (.supplyLowEntry true) awake) (fun t => (t.ae.supplyLow, t.eu.log.map (fun r => r.event.kind), t.rawSet)) =
      some (true, [1, 4], 0x45) := by decide +kernel
/-- R129: a running PROGRAM is answered SUPPLY_LOW (14) with the header alone. -/
theorem test_supplyLowEntry_program :
    after (exec (.supplyLowEntry true)
        (working awake (running (.program 1 0 [0])) (.programming { slot := 0, addr := 0, data := [0], strict := true })))
      response = some [0x02, 14] := by decide +kernel
/-- R9: SUPPLY_OK (kind 5), no cause. -/
theorem test_supplyLowExit :
    after (exec (.supplyLowExit true)
        { awake with sr := { awake.sr with monitor := .inhibit }, ae := { awake.ae with supplyLow := true } })
      (fun t => (t.ae.supplyLow, t.eu.log.map (fun r => r.event.kind), t.eu.latched)) =
      some (false, [1, 5], 0x01) := by decide +kernel
/-- R10: with the idle timer mature, and one tick before. -/
theorem test_dozeEntry_quiet :
    after (exec .dozeEntry { awake with sr := { awake.sr with idleTimer := 50 } }) (fun t => t.sr.top) = some .doze ∧
      after (exec .dozeEntry { awake with sr := { awake.sr with idleTimer := 49 } }) (fun t => t.sr.top) =
        some .active := by decide +kernel
/-- R10: Held keeps the device awake. -/
theorem test_dozeEntry_held :
    after (exec .dozeEntry
        { awake with sr := { awake.sr with idleTimer := 50 }, cl := { awake.cl with held := true } }) (fun t => t.sr.top) =
      some .active := by decide +kernel
/-- R32: the waking character is lost, the receiver settles. -/
theorem test_dozeWake :
    after (exec .dozeWake { awake with sr := { awake.sr with top := .doze } })
      (fun t => (t.sr.top, t.cl.receiver, t.cl.lostCharacter)) = some (.active, .settling, true) := by decide +kernel

/-! ### The receiver and the framer (chapters 2 and 3) -/

/-- Step 1 of 11.2: the lost Fence is one framing error, which puts the framer into Hunting. -/
theorem test_settleComplete_lost_character :
    after (exec .settleComplete { hearing with cl := { hearing.cl with
        receiver := .settling, settleCount := 800, lostCharacter := true } })
      (fun t => (t.cl.receiver, t.pf.phase, t.pf.counters.framing)) = some (.idle, .hunting, 1) := by decide +kernel
theorem test_framingError_low :
    after (exec (.framingError true) hearing) (fun t => (t.cl.receiver, t.pf.phase, t.pf.counters.framing)) =
      some (.inBreak, .hunting, 1) := by decide +kernel
theorem test_shortBreak :
    after (exec .shortBreak { awake with cl := { awake.cl with receiver := .inBreak } }) (fun t => t.cl.receiver) =
      some .idle := by decide +kernel
/-- R79: SESSION_ENDED with reason 6 and the epoch; SESSION_LOST is bit 1. -/
theorem test_longBreak_tears_down :
    after (exec .longBreak { inSession with cl := { inSession.cl with breakTimer := .running 0 } })
      (fun t => (t.su.link, t.eu.log.map LogRecord.octets, t.eu.latched)) =
      some (.detached, [[0, 0, 1, 0, 0, 1, 1, 0, 0, 0], [0, 1, 2, 0, 0, 6, 1, 0, 0, 0]], 0x03) := by decide +kernel
/-- R27: the default hold limit is 10 s; the octet in transmission is completed. -/
theorem test_hold_completes_octet :
    after (exec .hold { awake with cl := { awake.cl with tx := .sending [0xE7] 5 } })
      (fun t => (t.cl.held, t.cl.holdTimer, t.cl.tx)) = some (true, .running 10000, .sending [0xE7] 5) := by decide +kernel
/-- R30: the octet's end with Held set; at 115200 baud a character takes 800 of the 9216 units of a tick. -/
theorem test_octet_end_pauses :
    after (step { awake with cl := { awake.cl with held := true, tx := .sending [0x11, 0xE7] 0 } }) (fun t => t.cl.tx) =
        some (.paused [0xE7]) ∧
      after (step { awake with cl := { awake.cl with tx := .sending [0x11, 0xE7] 0 } }) (fun t => t.cl.tx) =
        some (.sending [0xE7] 800) := by decide +kernel
theorem test_go_resumes :
    after (exec .go { awake with cl := { awake.cl with held := true, tx := .paused [0xE7] } })
      (fun t => (t.cl.held, t.cl.tx)) = some (false, .sending [0xE7] 800) := by decide +kernel
theorem test_openingFence_opens : after (exec .openingFence awake) (fun t => t.pf.phase) = some .opened := by decide +kernel
theorem test_abort_counts :
    after (exec (.abort [0x11]) hearing) (fun t => (t.pf.phase, t.pf.assembly, t.pf.counters.abort)) =
      some (.opened, [], 1) := by decide +kernel
theorem test_escapeViolation_counts :
    after (exec (.escapeViolation [0x11] 0x11) hearing) (fun t => (t.pf.phase, t.pf.counters.escapeViolation)) =
      some (.hunting, 1) := by decide +kernel
theorem test_overlong_counts :
    after (exec (.overlong (List.replicate 79 0xE5)) hearing) (fun t => (t.pf.phase, t.pf.counters.overlong)) =
      some (.hunting, 1) := by decide +kernel
theorem test_parcelDiscarded_runt :
    after (exec (.parcelDiscarded [0x11, 0, 0, 0, 0]) hearing) (fun t => t.pf.counters.list) =
      some [1, 0, 0, 0, 0, 0, 0, 0, 0] := by decide +kernel
/-- Class 22h is a device class (R47); its check is right. -/
theorem test_parcelDiscarded_direction :
    after (exec (.parcelDiscarded (parcelOctets 0x22 0 0 0 [])) hearing) (fun t => t.pf.counters.list) =
      some [0, 0, 0, 0, 1, 0, 0, 0, 0] := by decide +kernel

/-! ### Sessions (chapter 4) -/

/-- Steps 4 and 5 of 11.1. -/
theorem test_hail_attaches :
    after (exec (.hail { ns := 0, nr := 2, tag := 1 } [4, 1]) hearing)
      (fun t => (t.su.link, t.su.replies.map Reply.payload, t.rawSet)) =
      some (.attached, [[0, 1, 1, 1, 0, 4, 8, 72, 4]], 0x01) := by decide +kernel
theorem test_hail_bad_window :
    after (exec (.hail next [5, 0]) hearing) (fun t => (t.su.link, t.su.replies.map (fun r => r.status))) =
      some (.detached, [.refused]) := by decide +kernel
/-- Step 7 of 11.1: Nr 1 acknowledges the notice, whose record leaves the log; step 10: host Busy clear. -/
theorem test_ack_notice :
    after (exec (.ackReceived { ns := 0, nr := 1, tag := 0 } [])
        { inSession with
          su := { inSession.su with
            noticesWanted := true, vs := 1, retransmit := .running 9
            window := [{ kind := .ntc 0, ns := 0, tag := 0, payload := [] }] }
          eu := { inSession.eu with log := inSession.eu.log.map (fun r => { r with inFlight := true }) } })
      (fun t => (t.su.va, t.su.window, t.eu.log, t.su.retransmit)) = some (1, [], [], .stopped) := by decide +kernel
theorem test_ack_busy : after (exec (.ackReceived next [1]) inSession) (fun t => t.su.hostBusy) = some true := by decide +kernel
/-- After 11.3: a REJ with Nr 7 retransmits Ns 7 and costs one retry. -/
theorem test_rej_retransmits :
    after (exec (.rejReceived { ns := 0, nr := 7, tag := 0 } [])
        { inSession with su := { inSession.su with
          va := 7, vs := 8, window := [{ kind := .rsp, ns := 7, tag := 0x20, payload := [1, 0] }] } })
      (fun t => (t.su.pass, t.su.retry, t.su.rejReceived, t.su.retransmit)) =
      some ([7], 1, 1, .running 250) := by decide +kernel
/-- R84: BAD_REQUEST echoes the code. -/
theorem test_unknownRequest :
    after (exec (.unknownRequest next [0x15, 2]) inSession) response = some [0x15, 1] := by decide +kernel
/-- R65: step 4 of 11.3, d of 15. -/
theorem test_duplicate_request :
    after (exec (.ping { ns := 15, nr := 0, tag := 9 } []) inSession) (fun t => (t.su.vr, t.su.ackOwed, t.slotsUsed)) =
      some (0, true, 0) := by decide +kernel

/-! ### Requests (chapters 5 to 10) -/

theorem test_read_starts :
    after (exec (.read next 0x012340 9) inSession) (fun t => (t.ae.engine.code, t.busyLevel, (t.slot 0).state)) =
      some (1, .low, .running) := by decide +kernel
/-- R115: a span past 7FFFFh is RANGE (3). -/
theorem test_read_range : after (exec (.read next 0x07FFFF 2) inSession) response = some [0x01, 3] := by decide +kernel
/-- The end of 11.2: 0Fh over 31h is refused WOULD_NEED_ERASE (10) in strict mode. -/
theorem test_program_strict :
    after (exec (.program next 1 0x012340 [0x0F]) { inSession with array := [(0x12340, 0x31)] }) response =
      some [0x02, 10] := by decide +kernel
/-- Step 2 of 11.2: the last octet of a line is allowed. -/
theorem test_program_line_end :
    after (exec (.program next 0 0x0123F7 (List.replicate 9 0)) inSession) (fun t => t.ae.engine.code) =
      some 2 := by decide +kernel
theorem test_checkRegion_starts :
    after (exec (.checkRegion next 0 0x080000) inSession) (fun t => t.ae.engine.code) = some 3 := by decide +kernel
/-- Step 1 of 11.4. -/
theorem test_eraseSectors_gathers :
    after (exec (.eraseSectors next [0x16, 0x14, 0x15, 0x14]) inSession)
      (fun t => (t.bc.state, t.bc.pendingSectors, t.bc.gather, t.busyLevel)) =
      some (.gathering, [20, 21, 22], .running 10, .low) := by decide +kernel
/-- Step 1 of 11.6: ERASE_ALL never gathers; sector 0 is opened. -/
theorem test_eraseAll_opens :
    after (exec (.eraseAll next) inSession) (fun t => (t.bc.state, t.ae.engine, t.entry 0)) =
      some (.erasing, .erasingSector { sector := 0 }, { condition := .torn, wear := 1 }) := by decide +kernel
theorem test_parkErase_none : after (exec (.parkErase next) inSession) response = some [0x06, 18] := by decide +kernel
theorem test_unparkErase_none : after (exec (.unparkErase next) inSession) response = some [0x07, 18] := by decide +kernel
theorem test_parkErase_parks :
    after (exec (.parkErase next) { inSession with bc := { state := .gathering, gather := .running 3, set := [(1, .pending)] } })
      (fun t => (t.bc.state, t.bc.gather, response t)) = some (.parked, .stopped, [0x06, 0]) := by decide +kernel
/-- R104: with no slot holding the tag, NOT_FOUND (16) and octet 0. -/
theorem test_cancel_absent : after (exec (.cancel next 0x99) inSession) response = some [0x08, 16, 0] := by decide +kernel
/-- Step 4 of 11.5. -/
theorem test_sectorInfo_torn :
    after (exec (.sectorInfo next 0x28)
        { inSession with ledger := inSession.ledger.set 40 { condition := .torn, wear := 118 } }) response =
      some [0x09, 0x00, 0x28, 0x01, 0x00, 0x00, 0x76, 0x0A, 0x00, 0x00, 0x00] := by decide +kernel
/-- R169: without MAINT, MAINT_REQUIRED (6). -/
theorem test_protectGroup_maint : after (exec (.protectGroup next 15) inSession) response = some [0x0A, 6] := by decide +kernel
/-- R171: a lock refuses, LOCKED (5). -/
theorem test_unprotectAll_locked :
    after (exec (.unprotectAll next) { inSession with pu := { inSession.pu with maintLevel := true, lockMask := 1 } })
      response = some [0x0B, 5] := by decide +kernel
theorem test_lockGroups_ors :
    after (exec (.lockGroups next 0x8001) { inSession with pu := { inSession.pu with lockMask := 0x0100 } })
      (fun t => (t.pu.lockMask, response t)) = some (0x8101, [0x0C, 0, 0x81, 0x01]) := by decide +kernel
/-- R201 on a delivered part: the defaults of section 10.1 and no stored record. -/
theorem test_configGet_delivered :
    after (exec (.configGet next) inSession) response =
      some ([0x0D, 0, 4, 25, 6, 10, 0, 10, 1, 4, 5, 1, 1, 3, 0] ++ List.replicate 12 0) := by decide +kernel
/-- The start of 11.6: field 4 set to 1 restarts the keepalive timer at one second. -/
theorem test_configSet_keepalive :
    after (exec (.configSet next [(4, 1)]) inSession) (fun t => (t.su.keepalive, response t)) =
      some (.running 1000, [0x0E, 0, 4, 25, 6, 10, 1, 10, 1, 4, 5, 1, 1, 3]) := by decide +kernel
/-- R202: the index of the first bad pair, nothing applied. -/
theorem test_configSet_bad_pair :
    after (exec (.configSet next [(1, 30), (2, 16)]) inSession) (fun t => (t.cs.active.retransmitTimeout, response t)) =
      some (25, [0x0E, 2, 1]) := by decide +kernel
theorem test_configStore_bad_field :
    after (exec (.configStore next { yieldBudget := 9 }) inSession) response = some [0x0F, 2, 7] := by decide +kernel
theorem test_configStore_starts :
    after (exec (.configStore next {}) inSession) (fun t => t.ae.engine) =
      some (.storing (.config 0 {} .zero 1 .clearMark)) := by decide +kernel
/-- R208: 46 octets; the first sixteen for a fresh session, its own slot counted, one record in the log. -/
theorem test_status_fresh :
    after (exec (.status next 0) inSession) (fun t => ((response t).take 16, (response t).length)) =
      some ([0x10, 0, 1, 1, 0, 0, 1, 0, 0, 1, 0, 0, 0, 0, 0, 1], 46) := by decide +kernel
theorem test_status_clears :
    after (exec (.status next 1) { inSession with su := { inSession.su with wild := 3 } })
      (fun t => (t.su.wild, ((response t).drop 36).take 2)) = some (0, [0, 3]) := by decide +kernel
/-- Step 8 of 11.1. -/
theorem test_identify :
    after (exec (.identify next) inSession) (fun t => (response t).take 13) =
      some [0x11, 0x00, 0x47, 0x41, 0x60, 0x01, 0x40, 0x20, 0x00, 0x04, 0x08, 0x04, 0x48] := by decide +kernel
/-- Step 9 of 11.1: raw 01h, enable 03h, pending 01h; ATTNn is released. -/
theorem test_attnControl :
    after (exec (.attnControl next 1 0 0) { inSession with su := { inSession.su with noticesWanted := true } })
      (fun t => (response t, t.eu.latched, t.attnLevel)) =
      some ([0x12, 0x00, 0x01, 0x03, 0x01], 0, .released) := by decide +kernel
/-- R188: the one record, oldest first; the log is then empty. -/
theorem test_logTake :
    after (exec (.logTake next 4) inSession) (fun t => (response t, t.eu.log)) =
      some ([0x13, 0, 1, 0, 0, 1, 0, 0, 1, 1, 0, 0, 0], []) := by decide +kernel
theorem test_ping :
    after (exec (.ping next [0xE4, 0xE7]) inSession) response = some [0x14, 0, 0xE4, 0xE7] := by decide +kernel

/-! ### Engine steps -/

/-- Step 2 of 11.3, two octets of it. -/
theorem test_readComplete :
    after (exec .readComplete
        (working { inSession with array := [(0x12340, 0x31)] } (running (.read 0x012340 2))
          (.reading { slot := 0, addr := 0x12340, count := 2, condition := 0 }))) response =
      some [0x01, 0x00, 0x00, 0x31, 0xFF] := by decide +kernel
/-- The end of 11.2: in lenient mode 31h becomes 01h, pulsed 1 and shortfall 1. -/
theorem test_programStep_lenient :
    after (exec (.programStep [0x30])
        (working { inSession with array := [(0x12340, 0x31)] } (running (.program 2 0x012340 [0x0F]))
          (.programming { slot := 0, addr := 0x12340, data := [0x0F], strict := false })))
      (fun t => (t.array.read 0x12340, response t)) = some (0x01, [0x02, 0x00, 0x01, 0x01]) := by decide +kernel
/-- R120: sixteen pulses that clear nothing end in PROGRAM_FAULT (11) with the offset. -/
theorem test_programStep_fault :
    after (exec (.programStep [])
        (working inSession (running (.program 1 0 [0])) (.programming { slot := 0, addr := 0, data := [0], strict := true })))
      (fun t => (t.array.read 0, response t)) = some (0xFF, [0x02, 11, 0]) := by decide +kernel
/-- R124: a one-octet region holding FFh gives FF00h. -/
theorem test_checkRegionStep :
    after (exec .checkRegionStep
        (working inSession (running (.checkRegion 0 1))
          (.checking { slot := 0, addr := 0, len := 1, next := 0, crc := 0xFFFF, condition := 0 }))) response =
      some [0x03, 0x00, 0x00, 0xFF, 0x00] := by decide +kernel
theorem test_protectGroupStep_commits :
    after (exec (.protectGroupStep true)
        (working inSession (running (.protectGroup 15)) (.storing (.protect 0 15 true 3))))
      (fun t => (t.pu.protectBits, response t)) = some (0x8000, [0x0A, 0]) := by decide +kernel
theorem test_unprotectAllStep_opens :
    after (exec (.unprotectAllStep 0 0) (working inSession (running .unprotectAll) (.storing (.unprotect 0 false 0))))
      (fun t => (t.pu.marker, t.ae.engine.code)) = some (true, 4) := by decide +kernel
theorem test_unprotectAllStep_fails :
    after (exec (.unprotectAllStep 1 0)
        (working { inSession with pu := { inSession.pu with marker := true } } (running .unprotectAll)
          (.storing (.unprotect 0 true 99))))
      (fun t => (t.pu.marker, response t)) = some (true, [0x0B, 20]) := by decide +kernel
/-- R205: the commit makes the copy valid and current. -/
theorem test_configStoreStep_commits :
    after (exec (.configStoreStep true [])
        (working { inSession with cs := { inSession.cs with copy1 := { octets := copyImage {} 1 } } }
          (running (.configStore {})) (.storing (.config 0 {} .one 1 .commit))))
      (fun t => (t.cs.current, response t)) = some (some .one, [0x0F, 0]) := by decide +kernel
theorem test_configStoreStep_limit :
    after (exec (.configStoreStep false [])
        (working inSession (running (.configStore {})) (.storing (.config 0 {} .one 1 (.eraseCopy 99))))) response =
      some [0x0F, 20] := by decide +kernel
/-- Step 6 of 11.5: sector 40 closes ERASED; the response is 04h 00h 01h 28h 01h; ERASE_COMPLETE is bit 3. -/
theorem test_sectorEraseStep_erased :
    after (exec (.sectorEraseStep true)
        { inSession with
          array := [(327680, 5)]
          rd := { inSession.rd with
            slots := inSession.rd.slots.set 0
              { state := .batched, tag := 0x52, request := .eraseSectors [0x28] } }
          ae := { inSession.ae with engine := .erasingSector { sector := 40, phase := .erase } }
          ledger := inSession.ledger.set 40 { condition := .torn, wear := 119 }
          bc := { state := .erasing, set := [(40, .erasing)], members := [{ slot := 0, sectors := [40] }] } })
      (fun t => (t.array, t.entry 40, response t, t.eu.latched)) =
      some ([], { condition := .normal, wear := 119 }, [0x04, 0x00, 0x01, 0x28, 0x01], 0x09) := by decide +kernel

/-! ### Timers, MAINT and the transmitter -/

theorem test_holdLimitExpiry_detached :
    after (exec .holdLimitExpiry { awake with cl := { awake.cl with held := true, holdTimer := .running 0 } })
      (fun t => (t.cl.held, t.eu.log.length)) = some (false, 1) := by decide +kernel
/-- Step 3 of 11.6: SESSION_ENDED with detail 04h 03h 00h 00h 00h, SESSION_LOST raised. -/
theorem test_keepaliveExpiry :
    after (exec (.keepaliveExpiry true)
        { inSession with
          su := { inSession.su with epoch := 3, keepalive := .running 0 }
          eu := { inSession.eu with log := [], latched := 0 } })
      (fun t => (t.eu.log.map (fun r => r.event.detail), t.rawSet, t.attnLevel)) =
      some ([[4, 3, 0, 0, 0]], 0x06, .low) := by decide +kernel
/-- Step 5 of 11.3. -/
theorem test_retransmitExpiry :
    after (exec .retransmitExpiry
        { inSession with su := { inSession.su with
          va := 7, vs := 8, retransmit := .running 0
          window := [{ kind := .rsp, ns := 7, tag := 0x20, payload := [1, 0] }] } })
      (fun t => (t.su.retry, t.su.pass)) = some (1, [7]) := by decide +kernel
/-- Step 2 of 11.4. -/
theorem test_gatherExpiry_opens :
    after (exec .gatherExpiry
        { inSession with bc :=
          { state := .gathering, gather := .running 0, set := [(20, .pending), (21, .pending)]
            members := [{ slot := 0, sectors := [20, 21] }] } })
      (fun t => (t.bc.state, t.bc.spacing, t.ae.engine.code, t.entry 20)) =
      some (.erasing, .running 5, 5, { condition := .torn, wear := 1 }) := by decide +kernel
theorem test_spacingExpiry_matures :
    after (exec .spacingExpiry
        { inSession with bc := { state := .erasing, spacing := .running 0, set := [(20, .erasing)] } })
      (fun t => t.bc.spacing) = some .mature := by decide +kernel
/-- R177: MAINT_ASSERTED (kind 6) and bit 7. -/
theorem test_debouncedMaintChange :
    after (exec (.debouncedMaintChange true) awake)
      (fun t => (t.pu.maintLevel, t.eu.log.map (fun r => r.event.kind), t.eu.latched)) =
      some (true, [1, 6], 0x81) := by decide +kernel
/-- Step 4 of 11.3: ACK 44h, 06h, tag 00h, payload 00h, between fences, its check left to R49. -/
theorem test_transmitterFree_ack :
    after (exec .transmitterFree { inSession with su := { inSession.su with vr := 6, ackOwed := true } })
      (fun t => (t.txdOctets.map (fun os => os.take 6), t.su.ackOwed)) =
      some (some [0xE7, 0x44, 0x06, 0x00, 0x01, 0x00], false) := by decide +kernel
/-- Step 6 of 11.1: NTC 33h, 00h with the RESET_DONE record; V(S) becomes 1 and the timer starts at 250 ms. -/
theorem test_transmitterFree_notice :
    after (exec .transmitterFree { inSession with su := { inSession.su with noticesWanted := true } })
      (fun t => (t.txdOctets.map (fun os => os.take 15), t.su.vs, t.su.retransmit, t.eu.log.map LogRecord.inFlight)) =
      some (some [0xE7, 0x33, 0x00, 0x00, 0x0A, 0, 0, 1, 0, 0, 1, 1, 0, 0, 0], 1, .running 250, [true]) := by decide +kernel

/-! ### The queue and the host's two questions -/

theorem test_step_takes_front :
    after (step { awake with pending := [.hold, .go] }) (fun t => (t.cl.held, t.pending)) =
      some (true, [.go]) := by decide +kernel
/-- R23: after reset the receiver settles for one character time, 800 units at the default rate, and is then Idle. -/
theorem test_step_settles :
    after (step State.reset) (fun t => (t.sr.tick, t.cl.receiver, t.cl.settleCount)) = some (0, .settling, 800) ∧
      after (step { State.reset with cl := { State.reset.cl with settleCount := 800 } }) (fun t => t.cl.receiver) =
        some .idle := by decide +kernel
/-- R4: a tick is 9216 units of the oscillator; time passes to its instant, and at it the tick is counted. -/
theorem test_step_ticks :
    after (step { awake with sr := { awake.sr with phase := 9000 } }) (fun t => (t.sr.tick, t.sr.phase)) =
      some (0, 9216) ∧
      after (step { awake with sr := { awake.sr with phase := 9216 } }) (fun t => (t.sr.tick, t.sr.phase)) =
        some (1, 0) := by decide +kernel
/-- R14: RSTn going low is taken before the edge named ahead of it and before the tick of its instant. -/
theorem test_step_reset_first :
    after (step { awake with
        sr := { awake.sr with phase := 9216 }
        inputs := [{ after := 0, event := .rxd false }, { after := 0, event := .rstn false }] })
      (fun t => (t.sr.top, t.inputs)) = some (.resetHeld, [{ after := 0, event := .rxd false }]) := by decide +kernel
/-- R10: the test after a hold expiry comes before the MAINT change of the same tick. -/
theorem test_step_dozes_between :
    after (step { awake with sr := { awake.sr with idleTimer := 50 }, pu := { awake.pu with candidate := 10 } })
      (fun t => (t.sr.top, t.pu.maintLevel)) = some (.doze, false) := by decide +kernel
/-- R21: a falling edge in Idle begins a character, half a bit time before its first sample. -/
theorem test_step_start_bit :
    after (step { awake with inputs := [{ after := 0, event := .rxd false }] })
      (fun t => (t.cl.receiver, t.cl.breakTimer, t.inputs)) =
      some (.inCharacter [] 40, .running 20, []) := by decide +kernel
/-- R47, R48: the closing Fence's last sample hands an ACK over, with Busy set. -/
theorem test_step_hands_over :
    after (step { inSession with
        pf := { inSession.pf with assembly := parcelOctets 0x44 0 0 0 [1] }
        cl := { inSession.cl with
          receiver := .inCharacter [false, true, true, true, false, false, true, true, true] 0 } })
      (fun t => (t.su.hostBusy, t.pf.assembly, t.cl.receiver)) = some (true, [], .idle) := by decide +kernel
/-- The opcode table gives no row bits, so no word spells a command. -/
theorem test_decode_none : decodeTableWord 8 0x14 = none := by decide

/-! ### Witnesses: a state and operands that meet the hypotheses of each obligation -/

theorem next_of_goes {o : Result} (h : goes o = true) : ∃ t, o = .next t := by
  cases o with
  | next t => exact ⟨t, rfl⟩
  | fault f => cases h
  | refused r => cases h

/-- Every bounded quantity at its bound. -/
def atBounds : State :=
  { inSession with
    sr := { inSession.sr with idleTimer := 50, phase := 9216 }
    pf := { inSession.pf with assembly := List.replicate 78 0 }
    pu := { inSession.pu with candidate := 10 }
    eu := { inSession.eu with
      lost := 255
      log := List.replicate 16 { serial := 0, event := .supplyLow, time := 0 } }
    su := { inSession.su with
      window := List.replicate 4 { kind := .rsp, ns := 0, tag := 0, payload := [] }
      replies := List.replicate 4
        { tag := 0, status := .refused, epoch := 0, fresh := true, cause := .pin, previous := .none, effWindow := 0 } }
    ledger := inSession.ledger.set 63 { condition := .torn, wear := 16777215 } }

/-- A PROGRAM of three octets with one done. -/
def programming : State :=
  working inSession (running (.program 1 0x000100 [1, 2, 3]))
    (.programming { slot := 0, addr := 256, data := [1, 2, 3], strict := true, next := 1 })

/-- A running Storing operation. -/
def storing (op : StoreOp) : State := working inSession (running (.configStore {})) (.storing op)

/-- A batch over one sector, its one member in slot 0, the sector's work in the engine. -/
def erasing (phase : ErasePhase) (line pulses : Nat) : State :=
  { working inSession { state := .batched, tag := 0x52, request := .eraseSectors [0x28] }
      (.erasingSector { sector := 40, phase := phase, line := line, pulses := pulses }) with
    bc :=
      { state := .erasing, set := [(40, .erasing)], members := [{ slot := 0, sectors := [40] }]
        spacing := .running 2 } }

/-- A device with a READ waiting in the queue behind the engine's READ. -/
def queued : State :=
  { working inSession (running (.read 0 1)) (.reading { slot := 0, addr := 0, count := 1, condition := 0 }) with
    rd :=
      { slots := [running (.read 0 1), { state := .queued, tag := 0x77, request := .read 0 1 }, {}, {}, {}, {}, {}, {}]
        queue := [1], nextCompletion := 0 } }

/-- A session with a parcel in its window. -/
def unacknowledged : State :=
  { inSession with su := { inSession.su with
    va := 7, vs := 8, retransmit := .running 3
    window := [{ kind := .rsp, ns := 7, tag := 0x20, payload := [1, 0] }] } }

theorem witness_StepRunsTheQueue :
    ({ awake with pending := [.hold] } : State).pending = .hold :: [] ∧ awake.pending = [] ∧ awake.isRunning = true ∧
      (let s : State := { State.reset with sr := { top := .off } }
       s.pending = [] ∧ s.nextInput = none ∧ s.sr.phase < 9216) ∧
      (let s (t : TopState) : State := { State.reset with sr := { top := t, phase := 9216 } }
       (s .initialising).pending = [] ∧ (s .initialising).dueReset = none ∧ 9216 ≤ (s .initialising).sr.phase ∧
        (s .resetHeld).dueReset = none ∧ 9216 ≤ (s .resetHeld).sr.phase) := by decide
theorem witness_ExecLeavesQueue : ∃ t, exec .hold awake = .next t := next_of_goes (by decide +kernel)
theorem witness_StepNeverStops :
    State.reset.coherent = true ∧ queued.coherent = true ∧ programming.coherent = true ∧
      (erasing .erase 0 1999).coherent = true ∧
      (let s : State := { inSession with bc :=
        { state := .parked, set := [(39, .done .erased), (40, .erasing)], held := some { sector := 40 } } }
       s.coherent = true) := by decide +kernel
theorem witness_StepKeepsBounds :
    (∃ t, step atBounds = .next t) ∧ atBounds.bounded = true ∧ atBounds.array.wf = true :=
  ⟨next_of_goes (by decide +kernel), by decide +kernel, by decide +kernel⟩
theorem witness_WearNeverFalls :
    atBounds.ledger.all (fun e => e.wear ≤ 16777215) = true ∧ ∃ t, step atBounds = .next t :=
  ⟨by decide +kernel, next_of_goes (by decide +kernel)⟩
theorem witness_ArrayChangesOnlyByWriters :
    mayChangeArray .hold = false ∧ awake.coherent = true ∧ (∃ t, exec .hold awake = .next t) ∧
      awake.pending = [] ∧ awake.dueReset = none ∧ awake.pins.vdd = .good ∧ ∃ t, step awake = .next t :=
  ⟨rfl, by decide +kernel, next_of_goes (by decide +kernel), rfl, rfl, rfl, next_of_goes (by decide +kernel)⟩
theorem witness_LatchedCausesPersist :
    resetCommand .openingFence = false ∧ isAttnControl .openingFence = false ∧
      inSession.closesParcel .openingFence = false ∧ (∃ t, exec .openingFence inSession = .next t) ∧
      inSession.pending = [] ∧ inSession.ownStepPlain = true ∧ ∃ t, step inSession = .next t :=
  ⟨rfl, rfl, by decide +kernel, next_of_goes (by decide +kernel), rfl, by decide +kernel,
    next_of_goes (by decide +kernel)⟩
theorem witness_LocksAndSettingsPersist :
    resetCommand (.ping next []) = false ∧ isLockGroups (.ping next []) = false ∧
      isConfigSet (.ping next []) = false ∧ inSession.closesParcel (.ping next []) = false ∧
      (∃ t, exec (.ping next []) inSession = .next t) ∧ inSession.pending = [] ∧ inSession.ownStepPlain = true ∧
      ∃ t, step inSession = .next t :=
  ⟨rfl, rfl, rfl, rfl, next_of_goes (by decide +kernel), rfl, by decide +kernel, next_of_goes (by decide +kernel)⟩

/-- Two initialising devices that differ in what is volatile. -/
theorem witness_InitialisationForgets :
    let s : State := { State.reset with sr := { top := .initialising } }
    let u : State := { inSession with sr := { top := .initialising, monitor := .inhibit } }
    s ≠ u ∧ s.sr.top = .initialising ∧ u.sr.top = .initialising ∧ s.array = u.array ∧ s.ledger = u.ledger ∧
      s.cs.copy0 = u.cs.copy0 ∧ s.cs.copy1 = u.cs.copy1 ∧ s.pu.protectBits = u.pu.protectBits ∧
      s.pu.writeCells = u.pu.writeCells ∧ s.pu.marker = u.pu.marker ∧ s.sr.cause = u.sr.cause ∧
      s.sr.tick = u.sr.tick ∧ s.sr.phase = u.sr.phase ∧ s.sr.started = false ∧ u.sr.started = false ∧
      s.inputs = u.inputs ∧ s.pins.rstn = u.pins.rstn ∧ s.pending = u.pending ∧ s.freeCount = u.freeCount := by
  decide +kernel
/-- Before step 8, and from it on, at the thirtieth tick. -/
theorem witness_InitialisationCompletes :
    let s : State := { State.reset with sr := { top := .initialising, tick := 30 } }
    let u : State := { State.reset with sr := { top := .initialising, tick := 30, started := true } }
    s.sr.top = .initialising ∧ s.sr.started = false ∧ s.pending = [] ∧ s.nextInput = none ∧ 30 ≤ s.sr.tick.toNat ∧
      s.sr.phase < 9216 ∧ u.sr.phase < 9216 ∧ u.sr.top = .initialising ∧ u.sr.started = true ∧ u.pending = [] ∧
      u.nextInput = none ∧ 30 ≤ u.sr.tick.toNat ∧ SupplyBand.low ≠ .off := by decide
/-- With nothing ahead of the change, and with an edge and a MAINT change of its instant ahead of it. -/
theorem witness_ResetCommandsMoveTheDevice :
    let due (t : TopState) (e : PinEvent) : State :=
      { State.reset with sr := { top := t }, inputs := [] ++ { after := 0, event := e } :: [] }
    let ahead : List PinChange := [{ after := 0, event := .rxd false }, { after := 0, event := .maint true }]
    let quiet (l : List PinChange) : Bool := l.all (fun e => e.after == 0 && (match e.event with
      | .rxd _ | .maint _ => true
      | .rstn _ | .vdd _ => false))
    let behind : State := { State.reset with inputs := ahead ++ { after := 0, event := .vdd .off } :: [] }
    (due .off (.vdd .good)).sr.top = .off ∧ (due .resetHeld (.rstn true)).sr.top = .resetHeld ∧
      (due .active (.rstn false)).sr.top = .active ∧ (due .active (.rstn false)).pending = [] ∧ quiet [] = true ∧
      quiet ahead = true ∧ behind.pending = [] ∧ behind.inputs = ahead ++ { after := 0, event := .vdd .off } :: [] ∧
      State.reset.ae.engine.isProgramming = false ∧ State.reset.ae.engine.isStoring = false := by decide
/-- The first octet done, the octets still to do at their two ends, and the octet past the span. -/
theorem witness_InterruptedWrites_program :
    (∃ t, exec .powerOff programming = .next t) ∧ (∃ t, exec .pinReset programming = .next t) ∧
      (∃ t, exec (.supplyLowEntry true) programming = .next t) ∧ programming.isRunning = true ∧
      programming.sr.monitor = .normal ∧ programming.array.wf = true ∧
      programming.ae.engine =
        .programming { slot := 0, addr := 256, data := [1, 2, 3], strict := true, next := 1 } ∧
      (256 < 256 + 1 ∧ 256 + 1 ≤ 257 ∧ 258 < 256 + 3 ∧ 256 + 3 ≤ 259) :=
  ⟨next_of_goes (by decide +kernel), next_of_goes (by decide +kernel), next_of_goes (by decide +kernel),
    by decide, by decide, by decide, by decide, by decide⟩
theorem witness_InterruptedWrites_store :
    (∃ t, exec .powerOff (storing (.protect 0 15 true 3)) = .next t) ∧
      (∃ t, exec .pinReset (storing (.unprotect 0 false 0)) = .next t) ∧
      (∃ t, exec .pinReset (storing (.config 0 {} .zero 1 .clearMark)) = .next t) ∧
      (storing (.unprotect 0 false 0)).isRunning = true ∧
      (storing (.config 0 {} .zero 1 .clearMark)).isRunning = true ∧
      (storing (.config 0 {} .zero 1 .clearMark)).cs.copy0.committed = false :=
  ⟨next_of_goes (by decide +kernel), next_of_goes (by decide +kernel), next_of_goes (by decide +kernel),
    by decide, by decide, by decide⟩
/-- A READ going on; a PROGRAM; a store write with no batch and an empty queue; a sector in hand; an exit. -/
theorem witness_SupplyCrossingsAreLogged :
    queued.isRunning = true ∧ queued.sr.monitor = .normal ∧ queued.ae.engine.writesNothing = true ∧
      programming.isRunning = true ∧ programming.sr.monitor = .normal ∧ programming.coherent = true ∧
      (programming.slot 0).orphaned = false ∧
      (let s := storing (.protect 0 15 true 3)
       s.isRunning = true ∧ s.sr.monitor = .normal ∧ s.ae.engine.slot? = some 0 ∧ s.coherent = true ∧
        (s.slot 0).orphaned = false ∧ s.bc.state = .none ∧ s.rd.queue = []) ∧
      (let s := erasing .erase 0 3
       s.isRunning = true ∧ s.sr.monitor = .normal ∧ s.coherent = true ∧ s.rd.queue = [] ∧
        s.bc.members = [{ slot := 0, sectors := [40] }] ∧ (s.slot 0).orphaned = false ∧
        (s.slot 0).request = .eraseSectors [0x28] ∧ 40 ∈ [40] ∧ s.bc.role 40 = some .erasing) ∧
      ({ awake with sr := { awake.sr with monitor := .inhibit } } : State).sr.monitor = .inhibit := by decide +kernel
theorem witness_DozeAndReceiverEvents :
    let settling (n : Nat) : State := { State.reset with cl := { State.reset.cl with settleCount := n } }
    let within (r : Receiver) : State := { awake with cl := { awake.cl with receiver := r } }
    ({ awake with sr := { awake.sr with idleTimer := 50 } } : State).mayDoze = true ∧ awake.mayDoze = false ∧
      ({ awake with sr := { awake.sr with top := .doze } } : State).sr.top = .doze ∧
      ((settling 800).sr.top = .active ∧ (settling 800).cl.receiver = .settling ∧ (settling 800).pins.rxd = true ∧
        10 * (10 * [96, 48, 24, 16, 8, 4, 2, 1].getD (settling 800).cl.rate.toNat 1) ≤ (settling 800).cl.settleCount ∧
        (settling 799).cl.settleCount < 10 * (10 * [96, 48, 24, 16, 8, 4, 2, 1].getD (settling 799).cl.rate.toNat 1)) ∧
      awake.listening = true ∧ (within .inBreak).cl.receiver = .inBreak ∧ awake.pins.rxd = true ∧
      awake.cl.receiver ≠ .inBreak ∧
      ({ awake with pins := { awake.pins with rxd := false } } : State).pins.rxd = false ∧
      (within (.inCharacter [] 0)).cl.receiver = .inCharacter [] 0 ∧
      (within (.inCharacter [false] 0)).cl.receiver = .inCharacter [false] 0 ∧
      requestOf (.ping next []) = some (next, .ping []) := by decide +kernel
/-- A Hold heard with Held clear and set; an octet's end, the last one's end, a Paused parcel. -/
theorem witness_HoldAndGo :
    let s (t : Transmitter) : State := { awake with cl := { awake.cl with tx := t } }
    awake.listening = true ∧
      ({ awake with cl := { awake.cl with held := true } } : State).listening = true ∧
      ((s (.sending [0x11, 0xE7] 0)).pending = [] ∧ (s (.sending [0x11, 0xE7] 0)).isRunning = true ∧
        (s (.sending [0x11, 0xE7] 0)).due = some (.octetSent (0xE7 :: []))) ∧
      (s (.sending [0xE7] 0)).due = some .transmitterFree ∧ (s (.paused [0xE7])).cl.tx = .paused (0xE7 :: []) ∧
      ([0xE7] : List Byte) ≠ [] ∧ awake.sr.top = .active := by decide +kernel
/-- Assemblies of 78 octets (the longest) and 79 (one too many), at both ends of the lengths. -/
theorem witness_FramerEndsAssemblies :
    awake.listening = true ∧ awake.pf.phase = .hunting ∧ hearing.listening = true ∧ hearing.pf.phase = .opened ∧
      hearing.pf.shieldPending = false ∧ hearing.pf.assembly = [] ∧
      hearing.pf.assembly.length + (List.replicate 78 (0 : Byte)).length ≤ 78 ∧
      hearing.pf.assembly.length + (List.replicate 79 (0 : Byte)).length = 79 ∧
      badFollower 0x00 = true ∧ badFollower 0xA3 = true ∧ badFollower 0xA8 = true := by decide
/-- One assembly for each check: five octets, a wrong length, a wrong check, an unknown class, a device's class. -/
theorem witness_DiscardedParcelsAreCounted :
    hearing.hears = true ∧ hearing.pf.assembly = [] ∧ hearing.pf.shieldPending = false ∧
      ([0x44, 0, 0, 0, 0] : List Byte).length ≤ 5 ∧
      ([0x44, 0, 0, 1, 0, 0] : List Byte).length ≠ 1 + 6 ∧
      ([0x44, 0, 0, 0, 0, 0] : List Byte).length = 0 + 6 ∧ crc16 [0x44, 0, 0, 0, 0, 0] ≠ 0 ∧
      crc16 (parcelOctets 0x88 0 0 0 []) = 0 ∧ (parcelOctets 0x88 0 0 0 []).length = 6 ∧
      crc16 (parcelOctets 0x77 0 0 0 [0]) = 0 ∧ (parcelOctets 0x77 0 0 0 [0]).length = 7 ∧
      (List.replicate 78 (0 : Byte)).length ≤ 78 := by decide +kernel
theorem witness_ParcelsSurviveTheLine :
    ([] : List Byte).length ≤ 72 ∧ (List.replicate 72 (0xE7 : Byte)).length ≤ 72 ∧ inSession.hears = true ∧
      inSession.pf.assembly = [] ∧ inSession.pf.shieldPending = false ∧
      Instr.wellFormed (.eraseSectors next (List.replicate 16 0xE5)) = true ∧
      requestOf (.eraseSectors next (List.replicate 16 0xE5)) =
        some (next, .eraseSectors (List.replicate 16 0xE5)) ∧
      Instr.wellFormed (.unknownRequest next [0x15]) = true := by decide
theorem witness_OutboundParcelsHoldNoRawControl :
    (List.replicate 72 (0xE7 : Byte)).length ≤ 72 ∧ ([] : List Byte).length ≤ 72 ∧
      (0xE6 : Byte) ∈ escapeOctets (parcelOctets 0x22 0 0 0xE5 []) := by decide +kernel
/-- Each timer due, attached and detached, and not due; a Parked batch with the sector held, beside a served READ, and
with the suspension still pending. -/
theorem witness_LinkEventsTearDown :
    let due (s : State) : State := { s with
      cl := { s.cl with held := true, holdTimer := .running 0, breakTimer := .running 0 }
      su := { s.su with keepalive := .running 0 } }
    let parked (s : State) (held : Option EraseOp) : State :=
      { s with bc := { state := .parked, set := [(40, .erasing)], held := held } }
    (due inSession).bc.state ≠ .parked ∧ (due inSession).sr.top = .active ∧ (due inSession).su.link = .attached ∧
      (due hearing).su.link = .detached ∧ (due hearing).sr.top = .active ∧
      inSession.cl.breakTimer ≠ .running 0 ∧ inSession.cl.holdTimer ≠ .running 0 ∧
      inSession.su.keepalive ≠ .running 0 ∧
      (let s := parked (due inSession) (some { sector := 40 })
       s.su.link = .attached ∧ s.bc.state = .parked ∧ s.ae.engine = .idle ∧ s.ae.supplyLow = false) ∧
      (let s := parked (due queued) none
       s.su.link = .attached ∧ s.bc.state = .parked ∧ s.ae.engine.slot?.isSome = true) ∧
      (let s := parked (due (erasing .erase 0 3)) none
       s.su.link = .attached ∧ s.bc.state = .parked ∧
        s.ae.engine = .erasingSector { sector := 40, phase := .erase, pulses := 3 }) := by decide +kernel
/-- A retry count one below the limit, and one at it; a timer not due. -/
theorem witness_RetransmitExpirySetsUpAPass :
    let s : State := { unacknowledged with su := { unacknowledged.su with retransmit := .running 0 } }
    s.su.retransmit = .running 0 ∧ s.cl.held = false ∧ 5 + 1 ≤ s.cs.active.retryLimit.toNat ∧
      s.cs.active.retryLimit.toNat < 6 + 1 ∧ s.su.link = .attached ∧ s.bc.state ≠ .parked ∧
      unacknowledged.su.retransmit ≠ .running 0 := by decide
theorem witness_HailAttachesOrIsRefused :
    hearing.hears = true ∧ hearing.su.link = .detached ∧ (1 : Byte).toNat = 1 ∧ (4 : Byte).toNat = 4 ∧
      (1 : Byte) &&& 0xFE = 0 ∧ hailValid [5, 0] = false ∧ hailValid [0, 0] = false ∧ hailValid [4, 2] = false ∧
      hailValid [] = false := by decide
theorem witness_RehailReplacesTheSession :
    inSession.hears = true ∧ inSession.su.link = .attached ∧ inSession.bc.state ≠ .parked ∧
      1 ≤ inSession.su.attachCount ∧ 1 ≤ (4 : Byte).toNat ∧ (4 : Byte).toNat ≤ 4 ∧ (0 : Byte) &&& 0xFE = 0 := by decide
theorem witness_UnattachedParcelsAreCounted :
    hearing.hears = true ∧ hearing.su.link = .detached ∧ requestOf (.ping next []) = some (next, .ping []) := by decide
/-- An Nr one past V(S). -/
theorem witness_InvalidNrEndsTheSession :
    inSession.hears = true ∧ inSession.su.link = .attached ∧ inSession.bc.state ≠ .parked ∧
      (inSession.su.vs - inSession.su.va).toNat < ((1 : Seq) - inSession.su.va).toNat ∧
      requestOf (.ping { next with nr := 1 } []) = some ({ next with nr := 1 }, .ping []) := by decide
/-- Nothing acknowledged; a response; a notice whose record leaves, with no event lost and with one. -/
theorem witness_ParcelsAcknowledgeAndAdvance :
    let noted : State := { unacknowledged with su := { unacknowledged.su with
      window := [{ kind := .ntc 0, ns := 7, tag := 0, payload := [] }] } }
    let lossy : State := { noted with eu := { noted.eu with lost := 1 } }
    let kept (s : State) : List LogRecord :=
      s.eu.log.filter (fun r => !(s.su.window.take 1).any (fun e => e.kind == .ntc r.serial))
    ((0 : Seq) - inSession.su.va).toNat = 0 ∧ ((8 : Seq) - unacknowledged.su.va).toNat = 1 ∧
      kept unacknowledged = unacknowledged.eu.log ∧ kept noted ≠ noted.eu.log ∧ noted.eu.lost = 0 ∧
      kept lossy ≠ lossy.eu.log ∧ lossy.eu.lost ≠ 0 ∧ lossy.eu.log.length < 16 ∧
      inSession.takes next 0 = true := by decide
theorem witness_AckAndRejAct :
    unacknowledged.hears = true ∧ unacknowledged.su.link = .attached ∧
      ((7 : Seq) - unacknowledged.su.va).toNat ≤ (unacknowledged.su.vs - unacknowledged.su.va).toNat ∧
      ((8 : Seq) - unacknowledged.su.va).toNat ≤ (unacknowledged.su.vs - unacknowledged.su.va).toNat ∧
      (7 : Seq) ≠ unacknowledged.su.vs ∧ (8 : Seq) = unacknowledged.su.vs ∧
      unacknowledged.su.retry + 1 ≤ unacknowledged.cs.active.retryLimit.toNat ∧
      unacknowledged.cs.active.retryLimit.toNat < 6 + 1 ∧ unacknowledged.bc.state ≠ .parked := by decide
/-- d of 0 with every slot taken; 1 and 3; 4 and 11; 12. -/
theorem witness_RequestsAreClassified :
    inSession.hears = true ∧ inSession.su.link = .attached ∧
      ({ inSession with rd := { inSession.rd with
        slots := List.replicate 8 { state := .answered } } } : State).rd.slots.all
          (fun x => x.state != .free) = true ∧
      ((0 : Seq) - inSession.su.vr).toNat = 0 ∧ ((1 : Seq) - inSession.su.vr).toNat = 1 ∧
      ((3 : Seq) - inSession.su.vr).toNat = 3 ∧ ((4 : Seq) - inSession.su.vr).toNat = 4 ∧
      ((11 : Seq) - inSession.su.vr).toNat = 11 ∧ 12 ≤ ((12 : Seq) - inSession.su.vr).toNat := by decide
/-- A tag in use; 65 octets for a PING; a count of 0 and of 65; an unknown code. -/
theorem witness_RequestsRefusedAtAcceptance :
    inSession.hears = true ∧ next.ns = inSession.su.vr ∧ inSession.freeSlot = some 0 ∧
      ({ queued with su := { queued.su with vr := 0 } } : State).tagInUse 2 0x77 = true ∧
      inSession.tagInUse 0 next.tag = false ∧ formOk (Request.ping (List.replicate 65 0)).payload = false ∧
      formOk (Request.read 0 0).payload = true ∧ staticCheck (.read 0 0) = some (.badParam, []) ∧
      staticCheck (.read 0 65) = some (.badParam, []) ∧ staticCheck (.read 0x080000 64) = some (.range, []) ∧
      requestOf (.unknownRequest next [0x15]) = some (next, .unknown [0x15]) := by decide +kernel
theorem witness_PingEchoes :
    inSession.takes next 0 = true ∧ (List.replicate 64 (0 : Byte)).length ≤ 64 ∧
      64 < (List.replicate 65 (0 : Byte)).length := by decide
theorem witness_IdentifyReports : inSession.takes next 0 = true := by decide
theorem witness_ReportsAnswer :
    inSession.takes next 0 = true ∧ (63 : Byte).toNat < 64 ∧ 64 ≤ (64 : Byte).toNat := by decide
theorem witness_StatusReportsAndClears : inSession.takes next 0 = true ∧ 2 ≤ (2 : Byte).toNat := by decide
theorem witness_LockGroupsLocks : inSession.takes next 0 = true := by decide
theorem witness_AttnControlReadsThenClears :
    inSession.takes next 0 = true ∧ (1 : Byte).toNat ≤ 1 ∧ 2 ≤ (2 : Byte).toNat := by decide
theorem witness_ConfigSetApplies :
    inSession.takes next 0 = true ∧ ([(10, 1)] : List (Byte × Byte)).all (fun p => !pairBad p) = true ∧
      (List.replicate 8 ((1, 2) : Byte × Byte)).all (fun p => !pairBad p) = true ∧
      pairBad (([(1, 2), (11, 0)] : List (Byte × Byte)).getD 1 (0, 0)) = true ∧
      (([(1, 2), (11, 0)] : List (Byte × Byte)).take 1).all (fun p => !pairBad p) = true := by decide
/-- Notices wanted; nothing lost; events lost with records taken; a maximum of 0, 1, 4 and 5. -/
theorem witness_LogTakeRemovesOldest :
    ({ inSession with su := { inSession.su with noticesWanted := true } } : State).takes next 0 = true ∧
      inSession.takes next 0 = true ∧ inSession.su.noticesWanted = false ∧
      (inSession.beforeAcceptance next).eu.log.take 1 ≠ [] ∧ (inSession.beforeAcceptance next).eu.lost = 0 ∧
      (({ inSession with eu := { inSession.eu with lost := 255 } } : State).beforeAcceptance next).eu.lost ≠ 0 ∧
      ((1 : Byte).toNat = 1 ∧ (4 : Byte).toNat = 4 ∧ (0 : Byte).toNat < 1 ∧ 4 < (5 : Byte).toNat) := by decide +kernel

/-- A device with a Running, a Queued, a Batched and an Answered slot, its next Free slot the fifth. -/
def crowded : State :=
  { queued with
    rd :=
      { slots :=
          [running (.read 0 1), { state := .queued, tag := 0x77, request := .read 0 1 },
           { state := .batched, tag := 0x52, request := .eraseSectors [0x28] },
           { state := .answered, tag := 0x53, request := .ping [], response := [0x14, 0] }, {}, {}, {}, {}]
        queue := [1], nextCompletion := 0 }
    bc := { state := .gathering, gather := .running 2, set := [(40, .pending)], members := [{ slot := 2, sectors := [40] }] } }

/-- The target a CANCEL in the fifth slot of `crowded` finds. -/
def targetOf (target : Byte) : Option Nat :=
  ((crowded.beforeAcceptance next).setSlot 4
    { state := .answered, tag := next.tag, request := .cancel target }).cancelTarget target

theorem witness_CancelActs :
    crowded.takes next 4 = true ∧ crowded.coherent = true ∧ targetOf 0x99 = none ∧ targetOf 0x20 = some 0 ∧
      (crowded.slot 0).state = .running ∧ targetOf 0x31 = some 4 ∧ targetOf 0x53 = some 3 ∧
      (crowded.slot 3).state = .answered ∧ targetOf 0x77 = some 1 ∧ (crowded.slot 1).state = .queued := by
  decide +kernel

/-- An attached device with a Parked batch of some members, in slots 2 and 3, and no request waiting. -/
def batched (set : List (Nat × Role)) (members : List Member) (orphaned : Bool) : State :=
  { inSession with
    rd :=
      { slots :=
          [{}, {}, { state := .batched, tag := 0x52, request := .eraseSectors [0x28], orphaned := orphaned },
           { state := .batched, tag := 0x53, request := .eraseSectors [0x29] }, {}, {}, {}, {}]
        queue := [], nextCompletion := 0 }
    bc :=
      { state := .parked, set := set, members := members
        held := if set.any (fun e => e.2 == .erasing) then some { sector := 40 } else none } }

/-- A batch of one or two members is a witness for a CANCEL of the first, in slot 2. -/
def cancels (s : State) : Bool :=
  s.takes next 0 && s.coherent && (s.slot 2).state == .batched && s.rd.queue == [] &&
    ((s.beforeAcceptance next).setSlot 0
      { state := .answered, tag := next.tag, request := .cancel 0x52 }).cancelTarget 0x52 == some 2 &&
    s.bc.members.find? (fun x => x.slot == 2) == some { slot := 2, sectors := [40] }

/-- What is left: a member and a Pending sector; a member and none; neither; the sector in hand alone; an orphan. -/
theorem witness_CancelActs_batched :
    let one : Member := { slot := 2, sectors := [40] }
    let two : Member := { slot := 3, sectors := [41] }
    cancels (batched [(40, .pending), (41, .pending)] [one, two] false) = true ∧
      cancels (batched [(40, .pending), (41, .done .erased)] [one, two] false) = true ∧
      cancels (batched [(40, .pending)] [one] false) = true ∧
      cancels (batched [(40, .erasing)] [one] false) = true ∧
      cancels (batched [(40, .erasing)] [one] true) = true ∧
      ((batched [(40, .erasing)] [one] true).slot 2).orphaned = true := by decide +kernel
/-- No batch; an active one; a Parked one with the sector held, with none, on a low supply, beside a served READ, and
with its suspension pending. -/
theorem witness_ParkAndUnpark :
    let parked (s : State) (i : Nat) : Bool := s.takes next i && s.coherent && s.bc.state == .parked
    let resting (set : List (Nat × Role)) (held : Option EraseOp) (low : Bool) : State :=
      { inSession with bc := { state := .parked, set := set, held := held }
                       ae := { inSession.ae with supplyLow := low } }
    inSession.takes next 0 = true ∧ inSession.coherent = true ∧ inSession.bc.state = .none ∧
      crowded.takes next 4 = true ∧ crowded.coherent = true ∧ crowded.bc.state = .gathering ∧
      parked (resting [(40, .erasing)] (some { sector := 40 }) false) 0 = true ∧
      parked (resting [(40, .pending)] none false) 0 = true ∧
      (resting [(40, .pending)] none false).bc.pendingSectors = 40 :: [] ∧
      (resting [(40, .pending)] none false).isProtected 40 = false ∧
      parked (resting [(40, .erasing)] (some { sector := 40 }) true) 0 = true ∧
      (let s : State := { crowded with bc := { crowded.bc with state := .parked } }
       parked s 4 = true ∧ s.ae.engine.slot?.isSome = true) ∧
      (let s : State := { erasing .erase 0 3 with bc := { (erasing .erase 0 3).bc with state := .parked } }
       parked s 1 = true ∧ s.ae.engine = .erasingSector { sector := 40, phase := .erase, pulses := 3 }) := by
  decide +kernel
theorem witness_QueuedRequestsWait :
    queued.takes next 2 = true ∧ requestOf (.read next 0 64) = some (next, .read 0 64) ∧
      (Request.read 0 64).queuedKind = true ∧ formOk (Request.read 0 64).payload = true ∧
      staticCheck (.read 0 64) = none ∧ queued.rd.queue ≠ [] := by decide +kernel
/-- Spans that end with the array and with a program line. -/
theorem witness_ArrayRequestsStart :
    inSession.takes next 0 = true ∧ inSession.clearWay = true ∧
      ((0x07FFC0 : Word24).toNat + (64 : Byte).toNat ≤ 524288 ∧ 1 ≤ (1 : Byte).toNat) ∧
      ((0x0001C0 : Word24).toNat % 256 + (List.replicate 64 (0 : Byte)).length ≤ 256 ∧ (2 : Byte).toNat ≤ 2) ∧
      inSession.ae.supplyLow = false ∧ (inSession.entry 0).condition = .normal ∧ inSession.isProtected 0 = false ∧
      ((List.range 64).all (fun k =>
        (List.replicate 64 (0 : Byte)).getD k 0 &&& ~~~(inSession.array.read (0x1C0 + k)) == 0)) = true ∧
      ((0 : Word24).toNat + (0x080000 : Word24).toNat ≤ 524288 ∧ 1 ≤ (0x080000 : Word24).toNat) := by decide +kernel
theorem witness_StoreRequestsStart :
    let s : State := { inSession with pu := { inSession.pu with maintLevel := true } }
    s.takes next 0 = true ∧ s.clearWay = true ∧ s.ae.supplyLow = false ∧ (15 : Byte).toNat < 16 ∧
      s.pu.maintLevel = true ∧ s.pu.lockMask = 0 ∧
      (List.range 12).all (fun k => fieldInRange k (({} : Settings).octets.getD k 0)) = true := by decide
theorem witness_RequestsRefusedAtStart :
    inSession.takes next 0 = true ∧ inSession.clearWay = true ∧
      (let s : State := { inSession with ae := { inSession.ae with supplyLow := true } }
       s.takes next 0 = true ∧ s.clearWay = true ∧ s.ae.supplyLow = true) ∧
      (let s : State := { inSession with pu := { inSession.pu with lockMask := 1, maintLevel := true } }
       s.takes next 0 = true ∧ s.clearWay = true ∧ s.pu.lockMask ≠ 0 ∧ s.isProtected 3 = true) ∧
      inSession.pu.maintLevel = false ∧
      (let s : State := { inSession with ledger := inSession.ledger.set 63 { condition := .faulted, wear := 1 } }
       s.takes next 0 = true ∧ s.clearWay = true ∧ (s.entry 63).condition ≠ .normal) ∧
      formOk (Request.configStore {}).payload = true ∧ staticCheck (.configStore {}) = none ∧
      formOk (Request.protectGroup 15).payload = true ∧ staticCheck (.protectGroup 15) = none ∧
      formOk Request.unprotectAll.payload = true ∧ formOk (Request.program 2 0x07FFFF [0]).payload = true ∧
      staticCheck (.program 2 0x07FFFF [0]) = none ∧
      (let s : State := { inSession with array := [(0x12340, 0x31)] }
       s.takes next 0 = true ∧ s.clearWay = true ∧ s.ae.supplyLow = false ∧
        (s.entry (0x12340 / 8192)).condition = .normal ∧ s.isProtected (0x12340 / 8192) = false ∧
        (0x0F : Byte) &&& ~~~(s.array.read 0x12340) ≠ 0) ∧
      (let s := erasing .erase 0 3
       s.takes next 1 = true ∧ s.rd.queue = [] ∧ s.bc.state = .erasing ∧
        s.bc.set.any (fun e => 327680 / 8192 ≤ e.1 && e.1 ≤ (327680 + 1 - 1) / 8192) = true ∧
        formOk (Request.read 0x050000 1).payload = true ∧ staticCheck (.read 0x050000 1) = none) := by decide +kernel
/-- A gather window and none; no batch and a Gathering one; an engine at work, a supply that is low, sector 0 protected
and every sector protected. -/
theorem witness_EraseRequestsMakeABatch :
    let here (s : State) (i : Nat) : Bool := s.takes next i && s.coherent && s.rd.queue == []
    let prompt (s : State) : State := { s with cs := { s.cs with active := { s.cs.active with gatherWindow := 0 } } }
    let gathering (s : State) : State := { s with
      rd := { s.rd with slots := s.rd.slots.set 1 { state := .batched, tag := 0x52, request := .eraseSectors [0x28] } }
      bc := { state := .gathering, gather := .running 1, set := [(40, .pending)]
              members := [{ slot := 1, sectors := [40] }] } }
    let shielded (bits : Word16) (s : State) : State := { s with pu := { s.pu with protectBits := bits } }
    let low (s : State) : State := { s with ae := { s.ae with supplyLow := true } }
    let busy : State :=
      working inSession (running (.read 0 1)) (.reading { slot := 0, addr := 0, count := 1, condition := 0 })
    (List.replicate 16 (63 : Byte)).all (fun b => b.toNat < 64) = true ∧
      here inSession 0 = true ∧ inSession.cs.active.gatherWindow ≠ 0 ∧ inSession.bc.state = .none ∧
      here (gathering inSession) 0 = true ∧ ((gathering inSession).bc.role 40).isSome = true ∧
      (gathering inSession).bc.role 41 = none ∧
      here (prompt inSession) 0 = true ∧ (prompt inSession).cs.active.gatherWindow = 0 ∧
      here (prompt (gathering inSession)) 0 = true ∧ (prompt (gathering inSession)).bc.state = .gathering ∧
      here (prompt (gathering busy)) 2 = true ∧ (prompt (gathering busy)).ae.engine ≠ .idle ∧
      here (prompt (shielded 1 (gathering inSession))) 0 = true ∧
      ([3, 40] : List Nat).dropWhile (shielded 1 (gathering inSession)).isProtected = 40 :: [] ∧
      here (shielded 1 inSession) 0 = true ∧
      (List.range 64).dropWhile (shielded 1 inSession).isProtected = 4 :: (List.range 64).drop 5 ∧
      here (shielded 0xFFFF inSession) 0 = true ∧ (List.range 64).all (shielded 0xFFFF inSession).isProtected = true ∧
      here (low (gathering inSession)) 0 = true ∧ (low (gathering inSession)).ae.engine = .idle ∧
      here (low inSession) 0 = true ∧ (low inSession).ae.supplyLow = true := by decide +kernel
/-- A CHECK_REGION of two lines. -/
def checking (n : Nat) : State :=
  working inSession (running (.checkRegion 0 512))
    (.checking { slot := 0, addr := 0, len := 512, next := n, crc := 0xFFFF, condition := 0 })

theorem witness_ReadsAndChecksComplete :
    queued.coherent = true ∧ (queued.slot 0).orphaned = false ∧
      queued.ae.engine = .reading { slot := 0, addr := 0, count := 1, condition := 0 } ∧
      (checking 0).coherent = true ∧ (0 + min (256 - 0 % 256) (0 + 512 - 0) < 0 + 512) ∧
      (checking 256).coherent = true ∧ (0 + 512 ≤ 256 + min (256 - 256 % 256) (0 + 512 - 256)) ∧
      ((checking 256).slot 0).orphaned = false := by decide +kernel
/-- An orphan of each kind at its end: the last line and the last octet, the sixteenth and the hundredth pulse; pulses that
clear what they should and none; a busy note owed and none; what a supply-low entry abandons. -/
theorem witness_OrphansAreReported :
    let orphan (r : Request) (e : Engine) : State := working inSession { running r with orphaned := true } e
    let left (s : State) : Bool :=
      s.coherent && s.ae.engine.slot? == some 0 && (s.slot 0).orphaned && s.bc == {} && s.rd.queue == []
    let reading := orphan (.read 0x07FFFF 1) (.reading { slot := 0, addr := 524287, count := 1, condition := 0 })
    let lastOctet := orphan (.program 1 0x000100 [1, 2])
      (.programming { slot := 0, addr := 256, data := [1, 2], strict := true, next := 1 })
    let store (op : StoreOp) : State := orphan (.configStore {}) (.storing op)
    left reading = true ∧
      (left { reading with su := { reading.su with busyReported := true } } = true) ∧
      (left { reading with su := { reading.su with link := .detached } } = true) ∧
      (left (orphan (.checkRegion 0 512)
        (.checking { slot := 0, addr := 0, len := 512, next := 256, crc := 0xFFFF, condition := 0 })) = true ∧
        0 + 512 ≤ 256 + min (256 - 256 % 256) (0 + 512 - 256)) ∧
      (left lastOctet = true ∧ ([1, 2] : List Byte)[1]? = some 2 ∧ ([1, 2] : List Byte).length ≤ 1 + 1 ∧
        lastOctet.array.read 257 &&& ((lastOctet.array.read 257 &&& 2) ||| ~~~(0xFF : Byte)) =
          lastOctet.array.read 257 &&& 2 ∧
        lastOctet.array.read 257 &&& ((lastOctet.array.read 257 &&& 2) ||| ~~~(0 : Byte)) ≠
          lastOctet.array.read 257 &&& 2 ∧
        lastOctet.ae.engine.writesNothing = false ∧ lastOctet.isRunning = true ∧ lastOctet.sr.monitor = .normal) ∧
      (let s := store (.protect 0 15 false 0)
       left { s with pu := { s.pu with protectBits := 0x8000 } } = true ∧ (0x8000 : Word16).getLsbD 15 = true) ∧
      (left (store (.protect 0 15 true 15)) = true ∧ 16 ≤ 15 + 1) ∧
      (left (store (.unprotect 0 true 99)) = true ∧ (1 : Word16) ≠ 0 ∧ 100 ≤ 99 + 1) ∧
      (left (store (.config 0 {} .one 1 (.eraseCopy 99))) = true) ∧
      (left (store (.config 0 {} .one 1 (.programOctet 0 0))) = true ∧
        (store (.config 0 {} .one 1 (.programOctet 0 0))).cs.copy1.octets.getD 0 0xFF &&&
          ((0xFF &&& (copyImage {} 1).getD 0 0xFF) ||| ~~~(0 : Byte)) ≠ 0xFF &&& (copyImage {} 1).getD 0 0xFF) ∧
      left (store (.config 0 {} .one 1 .commit)) = true := by decide +kernel
/-- An octet in the middle, the last octet, and an octet whose pulses leave a bit. -/
theorem witness_ProgramStepClearsBits :
    programming.coherent = true ∧ programming.array.wf = true ∧ ([1, 2, 3] : List Byte)[1]? = some 2 ∧ (programming.slot 0).orphaned = false ∧
      (programming.array.read 257 &&& 2) =
        programming.array.read 257 &&& ((programming.array.read 257 &&& 2) ||| ~~~(0xFF : Byte)) ∧
      1 + 1 < ([1, 2, 3] : List Byte).length ∧ ([1, 2, 3] : List Byte)[2]? = some 3 ∧
      ([1, 2, 3] : List Byte).length ≤ 2 + 1 ∧
      programming.array.read 257 &&& ((programming.array.read 257 &&& 2) ||| ~~~(0 : Byte)) ≠
        programming.array.read 257 &&& 2 := by decide +kernel
/-- A bit set already and one clear; the fifteenth and the sixteenth pulse, the ninety-ninth and the hundredth. -/
theorem witness_ProtectStoreSteps :
    (let s := storing (.protect 0 15 false 0)
     let u : State := { s with pu := { s.pu with protectBits := 0x8000 } }
     s.coherent = true ∧ (s.slot 0).orphaned = false ∧ s.pu.protectBits.getLsbD 15 = false ∧ u.coherent = true ∧
      (u.slot 0).orphaned = false ∧ u.pu.protectBits.getLsbD 15 = true) ∧
      (storing (.protect 0 15 true 14)).coherent = true ∧ 14 + 1 < 16 ∧
      (storing (.protect 0 15 true 15)).coherent = true ∧ 16 ≤ 15 + 1 ∧
      (storing (.unprotect 0 false 0)).coherent = true ∧ (storing (.unprotect 0 true 98)).coherent = true ∧
      98 + 1 < 100 ∧ (storing (.unprotect 0 true 99)).coherent = true ∧ 100 ≤ 99 + 1 ∧
      ((storing (.unprotect 0 true 99)).slot 0).orphaned = false ∧ (1 : Word16) ≠ 0 := by decide +kernel
theorem witness_ConfigStoreSteps :
    (storing (.config 0 {} .one 1 .clearMark)).coherent = true ∧
      ((storing (.config 0 {} .one 1 .clearMark)).slot 0).orphaned = false ∧
      (storing (.config 0 {} .one 1 (.eraseCopy 98))).coherent = true ∧ 98 + 1 < 100 ∧
      (storing (.config 0 {} .one 1 (.eraseCopy 99))).coherent = true ∧ 100 ≤ 99 + 1 ∧
      (let s := storing (.config 0 {} .one 1 (.programOctet 14 0))
       let target := (0xFF : Byte) &&& (copyImage {} 1).getD 14 0xFF
       s.coherent = true ∧ s.cs.copy1.octets.getD 14 0xFF = 0xFF ∧
        (0xFF : Byte) &&& (target ||| ~~~(0xFF : Byte)) = target ∧ (0xFF : Byte) &&& (target ||| ~~~(0 : Byte)) ≠ target) ∧
      (let s := storing (.config 0 {} .one 1 .commit)
       let u : State := { s with cs := { s.cs with copy1 := { octets := copyImage {} 1 } } }
       u.coherent = true ∧ u.cs.copy1.octets = copyImage {} 1 ∧ ({} : Settings).inRange = true ∧
        (u.cs.copy CopyId.one.other).valid = false) ∧
      (let s := storing (.config 0 {} .one 1 .commit)
       let u : State := { s with cs := { s.cs with
         copy0 := { octets := copyImage {} 0, committed := true }, copy1 := { octets := copyImage {} 1 } } }
       (u.cs.copy CopyId.one.other).valid = true ∧ (1 : Byte) = (u.cs.copy CopyId.one.other).generation + 1) := by
  decide +kernel
/-- Line 30 and 31; the pulse before the last and the last; two sectors Pending behind it, one protected; a Parked and a
Yielded batch, the latter with a READ at the head and with one served. -/
theorem witness_SectorEraseSteps :
    let in_ (b : BatchState) (s : State) : State := { s with bc := { s.bc with state := b } }
    let behind : State :=
      { erasing .erase 0 3 with
        bc := { (erasing .erase 0 3).bc with set := [(40, .erasing), (43, .pending), (44, .pending)] }
        pu := { inSession.pu with protectBits := 0x0400 } }
    let waiting : State :=
      { in_ .yielded (erasing .erase 0 3) with
        rd :=
          { slots := [{ state := .batched, tag := 0x52, request := .eraseSectors [0x28] },
              { state := .queued, tag := 0x77, request := .read 0 1 }, {}, {}, {}, {}, {}, {}]
            queue := [1], nextCompletion := 0 } }
    let served : State :=
      { working inSession (running (.read 0 1)) (.reading { slot := 0, addr := 0, count := 1, condition := 0 }) with
        bc := { state := .yielded, set := [(40, .erasing)], held := some { sector := 40 } } }
    (erasing .preProgram 30 0).bc.state = .erasing ∧ (erasing .preProgram 30 0).rd.queue = [] ∧
      (erasing .preProgram 30 0).coherent = true ∧ (erasing .preProgram 31 0).coherent = true ∧ 30 < 31 ∧ ¬31 < 31 ∧
      (erasing .erase 0 1998).bc.state = .erasing ∧ (erasing .erase 0 1998).coherent = true ∧ 1998 + 1 < 2000 ∧
      (erasing .erase 0 1999).coherent = true ∧ 2000 ≤ 1999 + 1 ∧
      (behind.coherent = true ∧ behind.isProtected 43 = true ∧
        behind.bc.pendingSectors.dropWhile behind.isProtected = 44 :: [] ∧ behind.ae.supplyLow = false) ∧
      (in_ .parked (erasing .erase 0 3)).coherent = true ∧ (in_ .yielded (erasing .erase 0 3)).coherent = true ∧
      (waiting.coherent = true ∧ waiting.bc.state = .yielded ∧ waiting.rd.queue = 1 :: [] ∧
        (waiting.slot 1).request = .read 0 1 ∧ waiting.headKind (.read 0 1) = .runnable ∧
        waiting.cs.active.yieldEnable = 1 ∧ waiting.bc.yieldCount < waiting.cs.active.yieldBudget.toNat) ∧
      (served.coherent = true ∧ served.bc.state = .yielded ∧ served.rd.queue = [] ∧
        served.ae.supplyLow = false) := by decide +kernel
/-- One member; three members of several sectors, an orphan and an ERASE_ALL among them, in a Parked batch; the protected
sector behind it; no member left; the last pulse and the one at which all reads FFh. -/
theorem witness_BatchCompletes :
    let ends (s : State) (pulses : Nat) : Bool := s.coherent && s.rd.queue == [] &&
      s.ae.engine == .erasingSector { sector := 40, phase := .erase, pulses := pulses } &&
      (s.bc.pendingSectors == [] || (s.bc.state == .erasing && !s.ae.supplyLow &&
        s.bc.pendingSectors.all s.isProtected))
    let one := erasing .erase 0 1999
    let many : State := { one with
      rd := { one.rd with slots :=
        [{ state := .batched, tag := 0x52, request := .eraseSectors [0x28] },
         { state := .batched, tag := 0x53, request := .eraseSectors [0x03, 0x28], orphaned := true }, {},
         { state := .batched, tag := 0x54, request := .eraseAll }, {}, {}, {}, {}] }
      bc :=
        { state := .parked
          set := (List.range 64).map (fun k => (k, if k = 40 then .erasing else if k = 3 then .done .failed else .done .erased))
          members := [{ slot := 1, sectors := [3, 40] }, { slot := 0, sectors := [40] },
            { slot := 3, sectors := List.range 64 }] } }
    let shielded : State := { one with
      bc := { one.bc with set := [(40, .erasing), (41, .pending)] }, pu := { one.pu with protectBits := 0x0400 } }
    ends one 1999 = true ∧ 2000 ≤ 1999 + 1 ∧ ends (erasing .erase 0 0) 0 = true ∧ ends many 1999 = true ∧
      many.bc.members ≠ [] ∧ ends shielded 1999 = true ∧ shielded.bc.pendingSectors = [41] ∧
      (let s : State := { inSession with
        ae := one.ae, bc := { one.bc with members := [] } }
       ends s 1999 = true ∧ s.bc.members = []) := by decide +kernel
theorem witness_BatchTimersExpire :
    (let s : State := { inSession with bc :=
      { state := .gathering, gather := .running 0, set := [(20, .pending), (21, .pending)] } }
     s.bc.state = .gathering ∧ s.bc.gather = .running 0 ∧ s.ae.engine = .idle ∧ s.rd.queue = [] ∧
      s.bc.held = none ∧ s.bc.spacing = .stopped ∧ s.ae.supplyLow = false ∧
      s.bc.pendingSectors = 20 :: [21] ∧ s.isProtected 20 = false ∧ s.bc.spacing ≠ .running 0) ∧
      (let s : State := { erasing .erase 0 0 with bc := { (erasing .erase 0 0).bc with spacing := .running 0 } }
       let u : State := { s with rd :=
        { slots := [{ state := .batched, request := .eraseSectors [0x28] },
            { state := .queued, request := .read 0 1 }, {}, {}, {}, {}, {}, {}]
          queue := [1], nextCompletion := 0 } }
       s.bc.spacing = .running 0 ∧ s.rd.queue = [] ∧ s.bc.gather ≠ .running 0 ∧ u.bc.spacing = .running 0 ∧
        u.bc.state = .erasing ∧ u.rd.queue.head? = some 1 ∧ u.headKind (u.slot 1).request = .runnable ∧
        u.cs.active.yieldEnable = 1 ∧ u.ae.engine = .erasingSector { sector := 40, phase := .erase }) := by
  decide +kernel
theorem witness_MaintChangeIsLogged : awake.isRunning = true := by decide
/-- Items 1 to 3 of the selection, and Held. -/
theorem witness_TransmitterSelects_first :
    let held : State := { hearing with cl := { hearing.cl with held := true } }
    let reply : State := { atBounds with su := { atBounds.su with replies := atBounds.su.replies.take 1 } }
    let rej : State := { inSession with su := { inSession.su with rejPending := true } }
    let again : State := { unacknowledged with su := { unacknowledged.su with pass := [7] } }
    (held.sr.top = .active ∧ held.cl.held = true ∧ held.cl.tx.finished = true) ∧
      (reply.sr.top = .active ∧ reply.cl.held = false ∧ reply.su.replies =
        { tag := 0, status := .refused, epoch := 0, fresh := true, cause := .pin, previous := .none, effWindow := 0 } :: []) ∧
      (rej.sr.top = .active ∧ rej.cl.held = false ∧ rej.su.replies = [] ∧ rej.su.rejPending = true) ∧
      (again.sr.top = .active ∧ again.cl.held = false ∧ again.su.replies = [] ∧ again.su.rejPending = false ∧
        again.su.pass = 7 :: [] ∧ again.su.window.find? (fun x => x.ns == 7) =
          some { kind := .rsp, ns := 7, tag := 0x20, payload := [1, 0] }) := by decide +kernel
/-- Items 4 and 5 of the selection, and nothing to send. -/
theorem witness_TransmitterSelects_then :
    let wanting : State := { inSession with su := { inSession.su with noticesWanted := true } }
    let owing : State := { inSession with su := { inSession.su with ackOwed := true } }
    let noting : State := { inSession with su := { inSession.su with busyNotePending := true } }
    let full : State := { wanting with su := { wanting.su with
      ackOwed := true, effWindow := 1, window := [{ kind := .rsp, ns := 0, tag := 0, payload := [] }] } }
    let quiet (s : State) : Bool :=
      s.sr.top == .active && s.cl.tx.finished && !s.cl.held && s.su.replies == [] && !s.su.rejPending && s.su.pass == []
    (quiet crowded = true ∧ crowded.su.link = .attached ∧ crowded.su.window.length < crowded.su.effWindow ∧
      crowded.su.hostBusy = false ∧ crowded.oldestAnswered = some 3) ∧
      (quiet wanting = true ∧ wanting.su.link = .attached ∧ wanting.su.window.length < wanting.su.effWindow ∧
        wanting.su.hostBusy = false ∧ wanting.oldestAnswered = none ∧ wanting.su.noticesWanted = true ∧
        wanting.eu.log.find? (fun x => !x.inFlight) =
          some { serial := 0, event := .resetDone .powerOn true 0 0 false, time := 0 }) ∧
      (quiet owing = true ∧ owing.su.link = .attached ∧ owing.oldestAnswered = none ∧
        owing.su.noticesWanted = false ∧ owing.su.ackOwed = true) ∧
      (quiet noting = true ∧ noting.su.link = .attached ∧ noting.oldestAnswered = none ∧
        noting.su.noticesWanted = false ∧ noting.su.busyNotePending = true) ∧
      (quiet full = true ∧ full.su.link = .attached ∧ full.su.effWindow ≤ full.su.window.length ∧
        full.su.noticesWanted = true ∧ full.su.ackOwed = true) ∧
      (quiet inSession = true ∧ inSession.su.link = .attached ∧ inSession.oldestAnswered = none ∧
        inSession.su.noticesWanted = false ∧ inSession.su.ackOwed = false ∧ inSession.su.busyNotePending = false) ∧
      (quiet hearing = true ∧ hearing.su.link = .detached) := by decide +kernel
theorem witness_OldestResponseFirst :
    crowded.oldestAnswered = some 3 ∧ (crowded.slot 3).state = .answered ∧ inSession.oldestAnswered = none := by
  decide +kernel
/-- Each top-level state; a start bit, a data bit, the stop bit and the instant after it. -/
theorem witness_OutputsFollowTheState :
    let at_ (t : TopState) : State := { State.reset with sr := { State.reset.sr with top := t } }
    (at_ .active).sr.top = .active ∧ (at_ .doze).sr.top = .doze ∧ (at_ .resetHeld).sr.top = .resetHeld ∧
      (at_ .initialising).sr.started = false ∧ (at_ .off).sr.top = .off ∧
      ({ State.reset with sr := { top := .initialising, started := true } } : State).sr.started = true ∧
      State.reset.eu.latched.getLsbD 2 = false ∧
      (9 - 0) * (10 * 8) < 800 ∧ 800 ≤ (10 - 0) * (10 * 8) ∧ (9 - 8) * (10 * 8) < 81 ∧ 81 ≤ (10 - 8) * (10 * 8) ∧
      (9 - 9) * (10 * 8) < 1 ∧ 1 ≤ (10 - 9) * (10 * 8) := by decide
/-- An instant before the tick; the tick: nothing to sample, a Doze entry, a supply found low, found good again, and
gone. -/
theorem witness_TickSamples :
    let at_ (m : Monitor) (v : SupplyBand) : State := { awake with
      sr := { awake.sr with phase := 9216, monitor := m }
      pins := { awake.pins with vdd := v } }
    let ticks (s : State) : Bool := s.pending == [] && s.isRunning && s.dueReset == none && decide (9216 ≤ s.sr.phase)
    (State.reset.pending = [] ∧ State.reset.isRunning = true ∧ State.reset.due = none ∧
      State.reset.select.isNone = true) ∧
      ticks (at_ .normal .good) = true ∧
      (let s : State := { at_ .normal .good with sr := { awake.sr with phase := 9216, idleTimer := 49 } }
       ticks s = true ∧ (s.advanceClocks).mayDoze = true) ∧
      ticks (at_ .normal .low) = true ∧ ticks (at_ .inhibit .good) = true ∧ ticks (at_ .normal .off) = true := by
  decide +kernel
end Sys2Proof.Tests
end

