-- ==== Sys2Proof/Proofs/Frames.lean ====
section
/-!
PROOFS. What the session operations, the services of the requests and the commands leave unchanged, each said once.
The last theorem settles O2.
-/

namespace Sys2Proof.Machine

/-! ### What no session operation touches -/

/-- The blocks and fields that no received parcel touches, whatever it brings. -/
structure State.SameBeyondSession (s t : State) : Prop where
  sr : t.sr = s.sr
  pins : t.pins = s.pins
  array : t.array = s.array
  inputs : t.inputs = s.inputs
  pending : t.pending = s.pending
  freeCount : t.freeCount = s.freeCount
  supplyLow : t.ae.supplyLow = s.ae.supplyLow

theorem State.SameBeyondSession.refl (s : State) : s.SameBeyondSession s := ⟨rfl, rfl, rfl, rfl, rfl, rfl, rfl⟩

theorem State.SameBeyondSession.trans {a b c : State} (h : a.SameBeyondSession b) (k : b.SameBeyondSession c) :
    a.SameBeyondSession c :=
  ⟨k.sr.trans h.sr, k.pins.trans h.pins, k.array.trans h.array, k.inputs.trans h.inputs,
    k.pending.trans h.pending, k.freeCount.trans h.freeCount, k.supplyLow.trans h.supplyLow⟩

/-- The batch and the service queue touch less than the session does. -/
theorem State.SameBeyondBatch.beyondSession {s t : State} (h : s.SameBeyondBatch t) : s.SameBeyondSession t :=
  ⟨h.sr, h.pins, h.array, h.inputs, h.pending, h.freeCount, h.supplyLow⟩

/-! ### The session -/

theorem State.endStep_beyondSession (s : State) (left : Bool) : s.SameBeyondSession (s.endStep left) := by
  rw [State.endStep_eq]
  exact ⟨rfl, rfl, rfl, rfl, rfl, rfl, rfl⟩

theorem State.touchKeepalive_beyondSession (s : State) : s.SameBeyondSession s.touchKeepalive := by
  rw [State.touchKeepalive_eq]
  exact ⟨rfl, rfl, rfl, rfl, rfl, rfl, rfl⟩

theorem State.acknowledge_beyondSession (s : State) (nr : Seq) : s.SameBeyondSession (s.acknowledge nr) := by
  rw [State.acknowledge_eq]
  exact ⟨rfl, rfl, rfl, rfl, rfl, rfl, rfl⟩

/-- A teardown sets no supply flag: of the Array Engine only the operation can change, by an unpark (R79). -/
theorem State.teardown_supplyLow (s : State) (r : TeardownReason) : (s.teardown r).ae.supplyLow = s.ae.supplyLow := by
  have h := (State.unparkBatch_frame s.dropSlots).supplyLow
  unfold State.teardown
  split
  · dsimp only
    rw [State.offer_eq]
    split <;> exact h
  · rfl

theorem State.teardown_beyondSession (s : State) (r : TeardownReason) : s.SameBeyondSession (s.teardown r) := by
  obtain ⟨hsr, hpins, -, harray, -, -, hinputs, hpending, hfree⟩ := State.teardown_frame s r
  exact ⟨hsr, hpins, harray, hinputs, hpending, hfree, State.teardown_supplyLow s r⟩

theorem State.retryOnce_beyondSession (s : State) : s.SameBeyondSession s.retryOnce := by
  have hcount : s.SameBeyondSession { s with su := { s.su with retry := s.su.retry + 1 } } :=
    ⟨rfl, rfl, rfl, rfl, rfl, rfl, rfl⟩
  unfold State.retryOnce
  dsimp only
  split
  · exact hcount.trans (State.teardown_beyondSession _ _)
  · exact ⟨rfl, rfl, rfl, rfl, rfl, rfl, rfl⟩

theorem State.appendReply_beyondSession (s : State) (tag : Byte) (status : ReplyStatus) :
    s.SameBeyondSession (s.appendReply tag status) := by
  unfold State.appendReply
  split <;> exact ⟨rfl, rfl, rfl, rfl, rfl, rfl, rfl⟩

/-- A parcel with an Nr touches what its own effect does, the session and the Event Unit (R59). -/
theorem State.withNr_beyondSession (s : State) (nr : Seq) (rest : State → State)
    (hrest : ∀ t : State, t.SameBeyondSession (rest t)) : s.SameBeyondSession (s.withNr nr rest) := by
  have hk := State.touchKeepalive_beyondSession s
  unfold State.withNr
  dsimp only
  split
  · exact ((hk.trans (State.acknowledge_beyondSession _ nr)).trans (hrest _)).trans (State.endStep_beyondSession _ _)
  · exact hk.trans (State.teardown_beyondSession _ _)

theorem State.receiveHail_beyondSession (s : State) (tag : Byte) (payload : List Byte) :
    s.SameBeyondSession (s.receiveHail tag payload) := by
  have hk : s.SameBeyondSession (if s.isAttached then s.touchKeepalive else s) := by
    split
    · exact State.touchKeepalive_beyondSession s
    · exact State.SameBeyondSession.refl s
  unfold State.receiveHail
  dsimp only
  split
  · exact (hk.trans (State.teardown_beyondSession _ _)).trans ⟨rfl, rfl, rfl, rfl, rfl, rfl, rfl⟩
  · exact hk.trans (State.appendReply_beyondSession _ _ _)

theorem State.receiveAck_beyondSession (s : State) (nr : Seq) (payload : List Byte) :
    s.SameBeyondSession (s.receiveAck nr payload) := by
  unfold State.receiveAck
  split
  · exact State.withNr_beyondSession s nr _ (fun _ => ⟨rfl, rfl, rfl, rfl, rfl, rfl, rfl⟩)
  · exact ⟨rfl, rfl, rfl, rfl, rfl, rfl, rfl⟩

theorem State.rejAfterNr_beyondSession (s : State) : s.SameBeyondSession s.rejAfterNr := by
  have hcount : s.SameBeyondSession { s with su := { s.su with rejReceived := s.su.rejReceived + 1 } } :=
    ⟨rfl, rfl, rfl, rfl, rfl, rfl, rfl⟩
  unfold State.rejAfterNr
  dsimp only
  split
  · exact hcount
  · exact hcount.trans (State.retryOnce_beyondSession _)

theorem State.receiveRej_beyondSession (s : State) (nr : Seq) : s.SameBeyondSession (s.receiveRej nr) := by
  unfold State.receiveRej
  split
  · exact State.withNr_beyondSession s nr _ State.rejAfterNr_beyondSession
  · exact ⟨rfl, rfl, rfl, rfl, rfl, rfl, rfl⟩

/-! ### The services of the requests -/

/-- A service touches nothing beyond what a session operation may. -/
def Service.StaysInSession (service : Service) : Prop := ∀ (i : Nat) (s : State), s.SameBeyondSession (service i s)

theorem State.answer_beyondSession (s : State) (i : Nat) (st : Status) (results : List Byte) :
    s.SameBeyondSession (s.answer i st results) := (State.answer_frame s i st results).beyondSession

theorem respond_staysInSession (st : Status) (results : State → List Byte) :
    Service.StaysInSession (respond st results) := fun i s => s.answer_beyondSession i st (results s)

theorem enqueue_staysInSession : Service.StaysInSession enqueue := by
  intro i s
  unfold enqueue
  dsimp only
  split
  · refine State.SameBeyondSession.trans ?_ (State.examine_frame _).beyondSession
    exact ⟨rfl, rfl, rfl, rfl, rfl, rfl, rfl⟩
  · exact ⟨rfl, rfl, rfl, rfl, rfl, rfl, rfl⟩

theorem parkService_staysInSession : Service.StaysInSession parkService := by
  intro i s
  unfold parkService
  split
  · exact s.answer_beyondSession i _ _
  · exact (((State.parkBatch_frame s).trans (State.answer_frame _ _ _ _)).trans
      (State.examineIfMoved_frame _ _)).beyondSession

theorem unparkService_staysInSession : Service.StaysInSession unparkService := by
  intro i s
  unfold unparkService
  split
  · exact s.answer_beyondSession i _ _
  · exact (((State.unparkBatch_frame s).trans (State.answer_frame _ _ _ _)).trans
      (State.examineIfMoved_frame _ _)).beyondSession

theorem State.cancelQueued_frame (s : State) (i j : Nat) : s.SameBeyondBatch (s.cancelQueued i j) := by
  have h : s.SameBeyondBatch (((s.unqueue j).answer j .cancelled []).answer i .ok [1]) :=
    ⟨rfl, rfl, rfl, rfl, rfl, rfl, rfl, rfl, rfl, rfl, rfl⟩
  unfold State.cancelQueued
  dsimp only
  split
  · exact h.trans (State.examine_frame _)
  · exact h

theorem State.cancelBatched_frame (s : State) (i j : Nat) : s.SameBeyondBatch (s.cancelBatched i j) := by
  unfold State.cancelBatched
  split
  · exact ((State.cancelMember_frame s _).trans (State.answer_frame _ _ _ _)).trans (State.examineIfMoved_frame _ _)
  · exact State.answer_frame _ _ _ _

theorem cancelService_staysInSession (target : Byte) : Service.StaysInSession (cancelService target) := by
  intro i s
  unfold cancelService
  split
  · exact s.answer_beyondSession i _ _
  · split
    · exact s.answer_beyondSession i _ _
    · exact (s.cancelQueued_frame i _).beyondSession
    · exact s.answer_beyondSession i _ _
    · exact (s.cancelBatched_frame i _).beyondSession
    · exact s.answer_beyondSession i _ _

theorem lockService_staysInSession (mask : Word16) : Service.StaysInSession (lockService mask) :=
  fun _ _ => ⟨rfl, rfl, rfl, rfl, rfl, rfl, rfl⟩

theorem configSetService_staysInSession (pairs : List (Byte × Byte)) :
    Service.StaysInSession (configSetService pairs) := by
  intro i s
  have h : s.SameBeyondSession (s.applySettings (s.cs.active.applyPairs pairs)) := by
    unfold State.applySettings
    dsimp only
    split <;> exact ⟨rfl, rfl, rfl, rfl, rfl, rfl, rfl⟩
  exact h.trans (State.answer_beyondSession _ _ _ _)

theorem statusService_staysInSession (flags : Byte) : Service.StaysInSession (statusService flags) := by
  intro i s
  unfold statusService
  dsimp only
  split <;> exact ⟨rfl, rfl, rfl, rfl, rfl, rfl, rfl⟩

theorem attnService_staysInSession (clearMask writeEnable enableMask : Byte) :
    Service.StaysInSession (attnService clearMask writeEnable enableMask) :=
  fun _ _ => ⟨rfl, rfl, rfl, rfl, rfl, rfl, rfl⟩

theorem logTakeService_staysInSession (maximum : Byte) : Service.StaysInSession (logTakeService maximum) := by
  intro i s
  unfold logTakeService
  split
  · exact s.answer_beyondSession i _ _
  · refine State.SameBeyondSession.trans ?_ (State.endStep_beyondSession _ _)
    exact ⟨rfl, rfl, rfl, rfl, rfl, rfl, rfl⟩

/-- Every request's service stays within the session, the queue, the batch and its own block (R93, R94). -/
theorem Request.service_staysInSession (r : Request) : Service.StaysInSession r.service := by
  cases r with
  | unknown | sectorInfo | configGet | identify | ping => exact respond_staysInSession _ _
  | read | program | checkRegion | eraseSectors | eraseAll | protectGroup | unprotectAll | configStore =>
    exact enqueue_staysInSession
  | parkErase => exact parkService_staysInSession
  | unparkErase => exact unparkService_staysInSession
  | cancel target => exact cancelService_staysInSession target
  | lockGroups mask => exact lockService_staysInSession mask
  | configSet pairs => exact configSetService_staysInSession pairs
  | status flags => exact statusService_staysInSession flags
  | attnControl c w e => exact attnService_staysInSession c w e
  | logTake maximum => exact logTakeService_staysInSession maximum

/-! ### Requests and parcels -/

theorem State.accept_beyondSession (s : State) (i : Nat) (tag : Byte) (r : Request)
    (check : Option (Status × List Byte)) {service : Service} (h : service.StaysInSession) :
    s.SameBeyondSession (s.accept i tag r check service) := by
  have ht : s.SameBeyondSession (s.takeSlot i tag r) := ⟨rfl, rfl, rfl, rfl, rfl, rfl, rfl⟩
  unfold State.accept
  dsimp only
  split
  · exact ht.trans (State.answer_beyondSession _ _ _ _)
  · split
    · exact ht.trans (State.answer_beyondSession _ _ _ _)
    · split
      · exact ht.trans (State.answer_beyondSession _ _ _ _)
      · exact ht.trans (h i _)

theorem State.classify_beyondSession (s : State) (ns : Seq) (tag : Byte) (r : Request)
    (check : Option (Status × List Byte)) {service : Service} (h : service.StaysInSession) :
    s.SameBeyondSession (s.classify ns tag r check service) := by
  have hseq : s.SameBeyondSession s.acceptSequence := ⟨rfl, rfl, rfl, rfl, rfl, rfl, rfl⟩
  unfold State.classify
  dsimp only
  split
  · split
    · exact hseq.trans (State.accept_beyondSession _ _ tag r check h)
    · exact ⟨rfl, rfl, rfl, rfl, rfl, rfl, rfl⟩
  · split
    · split <;> exact ⟨rfl, rfl, rfl, rfl, rfl, rfl, rfl⟩
    · split <;> exact ⟨rfl, rfl, rfl, rfl, rfl, rfl, rfl⟩

theorem State.receiveRequest_beyondSession (s : State) (h : ParcelHead) (r : Request)
    (check : Option (Status × List Byte)) {service : Service} (hs : service.StaysInSession) :
    s.SameBeyondSession (s.receiveRequest h r check service) := by
  unfold State.receiveRequest
  split
  · exact State.withNr_beyondSession s h.nr _ (fun t => t.classify_beyondSession h.ns h.tag r check hs)
  · refine State.SameBeyondSession.trans ?_ (State.appendReply_beyondSession _ _ _)
    exact ⟨rfl, rfl, rfl, rfl, rfl, rfl, rfl⟩

theorem State.receiveParcel_beyondSession (s : State) (assembly : List Byte) :
    s.SameBeyondSession (s.receiveParcel assembly) := by
  unfold State.receiveParcel
  dsimp only
  split
  · exact s.receiveHail_beyondSession _ _
  · split
    · exact s.receiveAck_beyondSession _ _
    · split
      · exact s.receiveRej_beyondSession _
      · exact s.receiveRequest_beyondSession _ _ _ (Request.service_staysInSession _)

theorem State.endAssembly_beyondSession (s : State) (assembly : List Byte) :
    s.SameBeyondSession (s.endAssembly assembly) := by
  unfold State.endAssembly
  split
  · exact ⟨rfl, rfl, rfl, rfl, rfl, rfl, rfl⟩
  · exact s.receiveParcel_beyondSession _

theorem State.holdSignal_beyondSession (s : State) : s.SameBeyondSession s.holdSignal := by
  unfold State.holdSignal
  split <;> exact ⟨rfl, rfl, rfl, rfl, rfl, rfl, rfl⟩

theorem State.goSignal_beyondSession (s : State) : s.SameBeyondSession s.goSignal := by
  unfold State.goSignal
  split <;> exact ⟨rfl, rfl, rfl, rfl, rfl, rfl, rfl⟩

theorem State.octetEvent_beyondSession (s : State) (b : Byte) : s.SameBeyondSession (s.octetEvent b) := by
  have h : s.SameBeyondSession { s with pf := (s.pf.octetEvent b).1 } := ⟨rfl, rfl, rfl, rfl, rfl, rfl, rfl⟩
  unfold State.octetEvent
  dsimp only
  split
  · exact h
  · exact h.trans (State.holdSignal_beyondSession _)
  · exact h.trans (State.goSignal_beyondSession _)
  · exact h.trans (State.endAssembly_beyondSession _ _)

theorem State.octetEvents_beyondSession (s : State) (os : List Byte) : s.SameBeyondSession (s.octetEvents os) := by
  unfold State.octetEvents
  induction os generalizing s with
  | nil => exact State.SameBeyondSession.refl s
  | cons b rest ih => exact (s.octetEvent_beyondSession b).trans (ih _)

/-- The expiry of the keepalive timer wakes the device and ends the session (R76). -/
theorem State.keepaliveExpiry_pending (s : State) (rxd : Bool) : (s.keepaliveExpiry rxd).pending = s.pending := by
  have hw : (s.wake rxd).pending = s.pending := by
    unfold State.wake
    split <;> rfl
  exact (State.teardown_beyondSession _ _).pending.trans hw

/-- The expiry of the hold timer ends the session, or clears Held alone (R29). -/
theorem State.holdExpiry_beyondSession (s : State) : s.SameBeyondSession s.holdExpiry := by
  unfold State.holdExpiry
  split
  · exact s.teardown_beyondSession _
  · exact ⟨rfl, rfl, rfl, rfl, rfl, rfl, rfl⟩

theorem State.retransmitExpiry_beyondSession (s : State) : s.SameBeyondSession s.retransmitExpiry :=
  State.SameBeyondSession.trans (b := { s with su := { s.su with retransmit := .stopped } })
    ⟨rfl, rfl, rfl, rfl, rfl, rfl, rfl⟩ (State.retryOnce_beyondSession _)

/-! ### Selection -/

theorem State.sendNew_beyondSession (s : State) (kind : WindowKind) (tag : Byte) (payload : List Byte) :
    s.SameBeyondSession (s.sendNew kind tag payload) := ⟨rfl, rfl, rfl, rfl, rfl, rfl, rfl⟩

theorem State.chooseNew_beyondSession (s t : State) (h : s.chooseNew = some t) : s.SameBeyondSession t := by
  unfold State.chooseNew at h
  split at h
  · split at h
    · cases h
      exact (s.sendNew_beyondSession _ _ _).trans (State.releaseSlot_frame _ _).beyondSession
    · split at h
      · obtain ⟨r, -, rfl⟩ := Option.map_eq_some_iff.mp h
        exact (s.sendNew_beyondSession (.ntc r.serial) r.noticeTag r.octets).trans
          ⟨rfl, rfl, rfl, rfl, rfl, rfl, rfl⟩
      · cases h
  · cases h

theorem State.chooseAgain_beyondSession (s t : State) (h : s.chooseAgain = some t) : s.SameBeyondSession t := by
  unfold State.chooseAgain at h
  split at h
  · cases h
  · obtain ⟨e, -, rfl⟩ := Option.map_eq_some_iff.mp h
    exact ⟨rfl, rfl, rfl, rfl, rfl, rfl, rfl⟩

theorem State.chooseAck_beyondSession (s t : State) (h : s.chooseAck = some t) : s.SameBeyondSession t := by
  unfold State.chooseAck at h
  split at h
  · cases h
    exact ⟨rfl, rfl, rfl, rfl, rfl, rfl, rfl⟩
  · cases h

/-- Whatever is chosen, it is a reply, a REJ, a parcel again, a new one, or an ACK (R73). -/
theorem State.choose_cases (s t : State) (h : s.choose = some t) :
    (∃ r rest, s.su.replies = r :: rest ∧ t = s.sendReply r rest) ∨ t = s.sendRej ∨ s.chooseAgain = some t ∨
      s.chooseNew = some t ∨ s.chooseAck = some t := by
  unfold State.choose at h
  split at h
  · rename_i r rest hr
    cases h
    exact .inl ⟨r, rest, hr, rfl⟩
  · split at h
    · cases h
      exact .inr (.inl rfl)
    · cases ha : s.chooseAgain with
      | some u => simp_all
      | none =>
        cases hn : s.chooseNew with
        | some u => simp_all
        | none => simp_all

theorem State.choose_beyondSession (s t : State) (h : s.choose = some t) : s.SameBeyondSession t := by
  rcases s.choose_cases t h with ⟨r, rest, -, rfl⟩ | rfl | h | h | h
  · exact ⟨rfl, rfl, rfl, rfl, rfl, rfl, rfl⟩
  · exact ⟨rfl, rfl, rfl, rfl, rfl, rfl, rfl⟩
  · exact s.chooseAgain_beyondSession t h
  · exact s.chooseNew_beyondSession t h
  · exact s.chooseAck_beyondSession t h

theorem State.select_beyondSession (s t : State) (h : s.select = some t) : s.SameBeyondSession t := by
  unfold State.select at h
  split at h
  · exact s.choose_beyondSession t h
  · cases h

theorem State.transmitterFree_beyondSession (s : State) : s.SameBeyondSession s.transmitterFree := by
  have h : s.SameBeyondSession s.freeTransmitter := ⟨rfl, rfl, rfl, rfl, rfl, rfl, rfl⟩
  unfold State.transmitterFree
  cases hsel : s.freeTransmitter.select with
  | none => exact h
  | some t => exact h.trans (State.select_beyondSession _ t hsel)

/-! ### Resets and the supply -/

/-- An interruption touches the array, the copies, the protect store and the count of free values alone (R3). -/
theorem State.interrupted_frame (s : State) :
    s.interrupted.sr = s.sr ∧ s.interrupted.pins = s.pins ∧ s.interrupted.cl = s.cl ∧ s.interrupted.pf = s.pf ∧
      s.interrupted.su = s.su ∧ s.interrupted.rd = s.rd ∧ s.interrupted.ae = s.ae ∧
      s.interrupted.ledger = s.ledger ∧ s.interrupted.bc = s.bc ∧ s.interrupted.eu = s.eu ∧
      s.interrupted.inputs = s.inputs ∧ s.interrupted.pending = s.pending := by
  unfold State.interrupted
  split <;> exact ⟨rfl, rfl, rfl, rfl, rfl, rfl, rfl, rfl, rfl, rfl, rfl, rfl⟩

/-- What a supply-low entry's abandoned work leaves alone (R8, R129, R146). -/
structure State.SameBeyondWork (s t : State) : Prop where
  sr : t.sr = s.sr
  pins : t.pins = s.pins
  cl : t.cl = s.cl
  pf : t.pf = s.pf
  inputs : t.inputs = s.inputs
  pending : t.pending = s.pending
  supplyLow : t.ae.supplyLow = s.ae.supplyLow

theorem State.SameBeyondWork.trans {a b c : State} (h : a.SameBeyondWork b) (k : b.SameBeyondWork c) :
    a.SameBeyondWork c :=
  ⟨k.sr.trans h.sr, k.pins.trans h.pins, k.cl.trans h.cl, k.pf.trans h.pf, k.inputs.trans h.inputs,
    k.pending.trans h.pending, k.supplyLow.trans h.supplyLow⟩

theorem State.SameBeyondBatch.beyondWork {s t : State} (h : s.SameBeyondBatch t) : s.SameBeyondWork t :=
  ⟨h.sr, h.pins, h.cl, h.pf, h.inputs, h.pending, h.supplyLow⟩

theorem State.interrupted_beyondWork (s : State) : s.SameBeyondWork s.interrupted := by
  obtain ⟨hsr, hpins, hcl, hpf, -, -, hae, -, -, -, hinputs, hpending⟩ := s.interrupted_frame
  exact ⟨hsr, hpins, hcl, hpf, hinputs, hpending, by rw [hae]⟩

theorem State.finishFreed_frame (s : State) (i : Nat) (st : Status) (results : List Byte) :
    s.SameBeyondBatch (s.finishRunning i st results).engineFreed :=
  (s.finishRunning_frame i st results).trans (State.engineFreed_frame _)

theorem State.abandonWrites_beyondWork (s : State) : s.SameBeyondWork s.abandonWrites := by
  unfold State.abandonWrites
  split
  · exact s.interrupted_beyondWork.trans (State.finishFreed_frame _ _ _ _).beyondWork
  · exact (s.finishFreed_frame _ _ _).beyondWork
  · exact State.SameBeyondWork.trans (b := { s with ae := { s.ae with engine := .idle } })
      ⟨rfl, rfl, rfl, rfl, rfl, rfl, rfl⟩
      ((State.abortBatch_frame _).trans (State.engineFreed_frame _)).beyondWork
  · exact ⟨rfl, rfl, rfl, rfl, rfl, rfl, rfl⟩

/-- A supply-low entry, as one equation: the flag, the record, the cause, then the abandoned work (R8). -/
theorem State.enterInhibit_eq (s : State) :
    s.enterInhibit = State.abandonWrites { s with
      sr := { s.sr with monitor := .inhibit }
      ae := { s.ae with supplyLow := true }
      eu := (s.eu.offered s.sr.tick .supplyLow).raised 0x40 } := by
  unfold State.enterInhibit
  dsimp only
  rw [State.offer_eq]
  rfl

theorem State.enterInhibit_frame (s : State) :
    s.enterInhibit.sr = { s.sr with monitor := .inhibit } ∧ s.enterInhibit.pins = s.pins ∧
      s.enterInhibit.cl = s.cl ∧ s.enterInhibit.pf = s.pf ∧ s.enterInhibit.inputs = s.inputs ∧
      s.enterInhibit.pending = s.pending ∧ s.enterInhibit.ae.supplyLow = true := by
  rw [State.enterInhibit_eq]
  obtain ⟨hsr, hpins, hcl, hpf, hinputs, hpending, hlow⟩ := State.abandonWrites_beyondWork { s with
    sr := { s.sr with monitor := .inhibit }
    ae := { s.ae with supplyLow := true }
    eu := (s.eu.offered s.sr.tick .supplyLow).raised 0x40 }
  exact ⟨hsr, hpins, hcl, hpf, hinputs, hpending, hlow⟩

/-! ### No command changes the queue of waiting commands -/

theorem State.wake_pending (s : State) (rxd : Bool) : (s.wake rxd).pending = s.pending := by
  unfold State.wake
  split <;> rfl

theorem State.unheard_pending (s : State) (level : Bool) (b : Timer) : (s.unheard level b).pending = s.pending := by
  obtain ⟨-, -, -, -, -, -, -, -, -, -, -, h, -⟩ := s.unheard_frame level b
  exact h

theorem State.powerUp_pending (s : State) : s.powerUp.pending = s.pending := by
  unfold State.powerUp
  split
  · split <;> rfl
  · rfl

theorem State.powerDown_pending (s : State) : s.powerDown.pending = s.pending := s.interrupted_beyondWork.pending

theorem State.resetAsserted_pending (s : State) : s.resetAsserted.pending = s.pending := by
  unfold State.resetAsserted
  split
  · exact s.interrupted_beyondWork.pending
  · rfl

theorem State.resetReleased_pending (s : State) : s.resetReleased.pending = s.pending := by
  unfold State.resetReleased
  split <;> rfl

theorem State.supplyLowEntry_pending (s : State) (rxd : Bool) : (s.supplyLowEntry rxd).pending = s.pending := by
  unfold State.supplyLowEntry
  split
  · obtain ⟨-, -, -, -, -, h, -⟩ := (s.wake rxd).enterInhibit_frame
    exact h.trans (s.wake_pending rxd)
  · rfl

theorem State.supplyLowExit_pending (s : State) (rxd : Bool) : (s.supplyLowExit rxd).pending = s.pending := by
  unfold State.supplyLowExit
  split
  · rw [State.offer_eq]
    exact s.wake_pending rxd
  · rfl

theorem State.enterRunning_pending (s : State) (rxd : Bool) (vdd : SupplyBand) :
    (s.enterRunning rxd vdd).pending = s.pending := by
  have hlow : ∀ t : State, t.enterInhibit.pending = t.pending := fun t => by
    obtain ⟨-, -, -, -, -, h, -⟩ := t.enterInhibit_frame
    exact h
  unfold State.enterRunning
  cases vdd with
  | off => exact State.powerDown_pending _
  | low => exact hlow _
  | middle => exact hlow _
  | good => rfl

theorem State.onParcel_pending (s : State) (handle : State → State)
    (h : ∀ t : State, (handle t).pending = t.pending) : (s.onParcel handle).pending = s.pending := by
  unfold State.onParcel
  split
  · dsimp only
    split
    · rfl
    · exact h _
  · exact s.unheard_pending _ _

theorem State.characters_pending (s : State) (os : List Byte) : (s.characters os).pending = s.pending := by
  unfold State.characters
  split
  · exact (State.octetEvents_beyondSession _ os).pending
  · exact s.unheard_pending _ _

theorem State.linkBreakReset_pending (s : State) : s.linkBreakReset.pending = s.pending :=
  (State.teardown_beyondSession _ _).pending

theorem State.settle_pending (s : State) : s.settle.pending = s.pending := by
  rw [State.settle_eq]

theorem State.maintChange_pending (s : State) (rxd : Bool) : (s.maintChange rxd).pending = s.pending := by
  unfold State.maintChange
  split
  · dsimp only
    rw [State.offer_eq]
    exact s.wake_pending rxd
  · rfl

theorem State.gatherExpiry_frame (s : State) : s.SameBeyondBatch s.gatherExpiry := by
  unfold State.gatherExpiry
  split
  · exact (State.enterErasing_frame s).trans (State.examine_frame _)
  · exact ⟨rfl, rfl, rfl, rfl, rfl, rfl, rfl, rfl, rfl, rfl, rfl⟩

theorem State.spacingExpiry_frame (s : State) : s.SameBeyondBatch s.spacingExpiry := by
  have h : s.SameBeyondBatch { s with bc := { s.bc with spacing := .mature } } :=
    ⟨rfl, rfl, rfl, rfl, rfl, rfl, rfl, rfl, rfl, rfl, rfl⟩
  unfold State.spacingExpiry
  dsimp only
  split
  · exact h.trans (State.examine_frame _)
  · exact h

/-! ### The engine's steps -/

theorem State.SameBeyondWork.refl (s : State) : s.SameBeyondWork s := ⟨rfl, rfl, rfl, rfl, rfl, rfl, rfl⟩

theorem State.readDone_frame (s : State) (op : ReadOp) : s.SameBeyondWork (s.readDone op) := by
  refine State.SameBeyondWork.trans ?_ (State.finishFreed_frame (s.spendFree op.count) op.slot .ok _).beyondWork
  exact ⟨rfl, rfl, rfl, rfl, rfl, rfl, rfl⟩

theorem State.programNext_frame (s : State) (op : ProgramOp) : s.SameBeyondWork (s.programNext op) := by
  unfold State.programNext
  split
  · exact ⟨rfl, rfl, rfl, rfl, rfl, rfl, rfl⟩
  · exact (s.finishFreed_frame _ _ _).beyondWork

theorem State.programOctet_frame (s : State) (op : ProgramOp) (d : Byte) (pulses : List Byte) :
    s.SameBeyondWork (s.programOctet op d pulses) := by
  have hw : ∀ m : Memory, s.SameBeyondWork { s with array := m } := fun m => ⟨rfl, rfl, rfl, rfl, rfl, rfl, rfl⟩
  unfold State.programOctet
  dsimp only
  split
  · exact s.programNext_frame _
  · split
    · exact (hw _).trans (State.programNext_frame _ _)
    · exact (hw _).trans (State.finishFreed_frame _ _ _ _).beyondWork

theorem State.checkLine_frame (s : State) (op : CheckOp) : s.SameBeyondWork (s.checkLine op) := by
  have hw : s.SameBeyondWork (s.spendFree op.stepLength) := ⟨rfl, rfl, rfl, rfl, rfl, rfl, rfl⟩
  unfold State.checkLine
  dsimp only
  split
  · exact ⟨rfl, rfl, rfl, rfl, rfl, rfl, rfl⟩
  · exact hw.trans (State.finishFreed_frame _ _ _ _).beyondWork

theorem State.protectStep_frame (s : State) (slot group : Nat) (bitRead : Bool) (pulses : Nat) (verified : Bool) :
    s.SameBeyondWork (s.protectStep slot group bitRead pulses verified) := by
  have hw : ∀ u : ProtectionUnit, s.SameBeyondWork { s with pu := u } := fun u => ⟨rfl, rfl, rfl, rfl, rfl, rfl, rfl⟩
  unfold State.protectStep
  dsimp only
  split
  · split
    · exact (s.finishFreed_frame _ _ _).beyondWork
    · exact ⟨rfl, rfl, rfl, rfl, rfl, rfl, rfl⟩
  · split
    · exact (hw _).trans (State.finishFreed_frame _ _ _ _).beyondWork
    · split
      · exact ⟨rfl, rfl, rfl, rfl, rfl, rfl, rfl⟩
      · exact (hw _).trans (State.finishFreed_frame _ _ _ _).beyondWork

theorem State.unprotectStep_frame (s : State) (slot : Nat) (opened : Bool) (pulses : Nat) (bits cells : Word16) :
    s.SameBeyondWork (s.unprotectStep slot opened pulses bits cells) := by
  have hw : ∀ u : ProtectionUnit, s.SameBeyondWork { s with pu := u } := fun u => ⟨rfl, rfl, rfl, rfl, rfl, rfl, rfl⟩
  unfold State.unprotectStep
  dsimp only
  split
  · exact ⟨rfl, rfl, rfl, rfl, rfl, rfl, rfl⟩
  · split
    · exact (hw _).trans (State.finishFreed_frame _ _ _ _).beyondWork
    · split
      · exact ⟨rfl, rfl, rfl, rfl, rfl, rfl, rfl⟩
      · exact (hw _).trans (State.finishFreed_frame _ _ _ _).beyondWork

theorem State.configStep_frame (s : State) (slot : Nat) (record : Settings) (target : CopyId) (generation : Byte)
    (stage : CopyStage) (erased : Bool) (pulses : List Byte) :
    s.SameBeyondWork (s.configStep slot record target generation stage erased pulses) := by
  have hw : ∀ c : StoredCopy, s.SameBeyondWork (s.setCopy target c) := fun c => ⟨rfl, rfl, rfl, rfl, rfl, rfl, rfl⟩
  cases stage with
  | clearMark => exact ⟨rfl, rfl, rfl, rfl, rfl, rfl, rfl⟩
  | eraseCopy n =>
    simp only [State.configStep]
    split
    · exact ⟨rfl, rfl, rfl, rfl, rfl, rfl, rfl⟩
    · split
      · exact ⟨rfl, rfl, rfl, rfl, rfl, rfl, rfl⟩
      · exact (s.finishFreed_frame _ _ _).beyondWork
  | programOctet index pulseCount =>
    simp only [State.configStep]
    split
    · exact (hw _).trans (State.finishFreed_frame _ _ _ _).beyondWork
    · split <;> exact ⟨rfl, rfl, rfl, rfl, rfl, rfl, rfl⟩
  | commit => exact (hw _).trans (State.finishFreed_frame _ _ _ _).beyondWork

theorem State.sectorGoesOn_frame (s : State) (op : EraseOp) : s.SameBeyondWork (s.sectorGoesOn op) := by
  unfold State.sectorGoesOn
  split
  · exact (s.suspendSector_frame op).beyondWork
  · exact ⟨rfl, rfl, rfl, rfl, rfl, rfl, rfl⟩

theorem State.closeSector_beyondWork (s : State) (sector : Nat) (o : SectorOutcome) :
    s.SameBeyondWork (s.closeSector sector o) := by
  unfold State.closeSector
  dsimp only
  split <;> exact ⟨rfl, rfl, rfl, rfl, rfl, rfl, rfl⟩

theorem State.sectorStep_frame (s : State) (op : EraseOp) (allErased : Bool) :
    s.SameBeyondWork (s.sectorStep op allErased) := by
  have hclose : ∀ o, s.SameBeyondWork (s.closeSector op.sector o).afterSector := fun o =>
    (s.closeSector_beyondWork op.sector o).trans (State.afterSector_frame _).beyondWork
  unfold State.sectorStep
  split
  · split <;> exact s.sectorGoesOn_frame _
  · split
    · exact hclose _
    · split
      · exact s.sectorGoesOn_frame _
      · exact hclose _

/-- The commands that complete a step of the engine (order 5 of R14). -/
def isEngineStep : Instr → Bool
  | .readComplete | .programStep _ | .checkRegionStep | .protectGroupStep _ | .unprotectAllStep _ _
  | .configStoreStep _ _ | .sectorEraseStep _ => true
  | _ => false

/-- What a step of the engine does: nothing where the engine carries another operation, else the step of its own. -/
theorem exec_engineStep_cases (c : Instr) (s t : State) (hc : isEngineStep c = true) (h : exec c s = .next t) :
    t = s ∨
    (∃ op, s.ae.engine = .reading op ∧ t = s.readDone op) ∨
    (∃ op, s.ae.engine = .programming op ∧
      (t = s.programNext op ∧ op.data[op.next]? = none ∨
        ∃ d pulses, op.data[op.next]? = some d ∧ t = s.programOctet op d pulses)) ∨
    (∃ op, s.ae.engine = .checking op ∧ t = s.checkLine op) ∨
    (∃ slot group bitRead pulses verified, s.ae.engine = .storing (.protect slot group bitRead pulses) ∧
      t = s.protectStep slot group bitRead pulses verified) ∨
    (∃ slot opened pulses bits cells, s.ae.engine = .storing (.unprotect slot opened pulses) ∧
      t = s.unprotectStep slot opened pulses bits cells) ∨
    (∃ slot record target generation stage erased pulses,
      s.ae.engine = .storing (.config slot record target generation stage) ∧
      t = s.configStep slot record target generation stage erased pulses) ∨
    (∃ op allErased, s.ae.engine = .erasingSector op ∧ t = s.sectorStep op allErased) := by
  cases c with
  | readComplete =>
    simp only [exec, execReadComplete] at h
    split at h
    · split at h <;> cases h
      exact .inr (.inl ⟨_, ‹_›, rfl⟩)
    · cases h
      exact .inl rfl
  | programStep pulses =>
    simp only [exec, execProgramStep] at h
    split at h
    · split at h
      · split at h <;> cases h
        · exact .inr (.inr (.inl ⟨_, ‹_›, .inr ⟨_, _, ‹_›, rfl⟩⟩))
        · exact .inr (.inr (.inl ⟨_, ‹_›, .inl ⟨rfl, ‹_›⟩⟩))
      · cases h
    · cases h
      exact .inl rfl
  | checkRegionStep =>
    simp only [exec, execCheckRegionStep] at h
    split at h
    · split at h <;> cases h
      exact .inr (.inr (.inr (.inl ⟨_, ‹_›, rfl⟩)))
    · cases h
      exact .inl rfl
  | protectGroupStep verified =>
    simp only [exec, execProtectGroupStep] at h
    split at h <;> cases h
    · exact .inr (.inr (.inr (.inr (.inl ⟨_, _, _, _, _, ‹_›, rfl⟩))))
    · exact .inl rfl
  | unprotectAllStep bits cells =>
    simp only [exec, execUnprotectAllStep] at h
    split at h <;> cases h
    · exact .inr (.inr (.inr (.inr (.inr (.inl ⟨_, _, _, _, _, ‹_›, rfl⟩)))))
    · exact .inl rfl
  | configStoreStep erased pulses =>
    simp only [exec, execConfigStoreStep] at h
    split at h <;> cases h
    · exact .inr (.inr (.inr (.inr (.inr (.inr (.inl ⟨_, _, _, _, _, _, _, ‹_›, rfl⟩))))))
    · exact .inl rfl
  | sectorEraseStep allErased =>
    simp only [exec, execSectorEraseStep] at h
    split at h <;> cases h
    · exact .inr (.inr (.inr (.inr (.inr (.inr (.inr ⟨_, _, ‹_›, rfl⟩))))))
    · exact .inl rfl
  | _ => simp [isEngineStep] at hc

theorem exec_engineStep_frame (c : Instr) (s t : State) (hc : isEngineStep c = true) (h : exec c s = .next t) :
    s.SameBeyondWork t := by
  rcases exec_engineStep_cases c s t hc h with rfl | ⟨op, -, rfl⟩ | ⟨op, -, ⟨rfl, -⟩ | ⟨d, pulses, -, rfl⟩⟩ |
    ⟨op, -, rfl⟩ | ⟨slot, group, bitRead, n, verified, -, rfl⟩ | ⟨slot, opened, n, bits, cells, -, rfl⟩ |
    ⟨slot, record, target, generation, stage, erased, pulses, -, rfl⟩ | ⟨op, allErased, -, rfl⟩
  · exact State.SameBeyondWork.refl _
  · exact s.readDone_frame op
  · exact s.programNext_frame op
  · exact s.programOctet_frame op d pulses
  · exact s.checkLine_frame op
  · exact s.protectStep_frame slot group bitRead n verified
  · exact s.unprotectStep_frame slot opened n bits cells
  · exact s.configStep_frame slot record target generation stage erased pulses
  · exact s.sectorStep_frame op allErased

/-! ### Requests as commands -/

/-- Every request row means the arrival of its REQ parcel, with the checks and the service of its request (R48). -/
theorem exec_request (c : Instr) (h : ParcelHead) (r : Request) (hc : requestOf c = some (h, r)) (s : State) :
    exec c s = requestStep h r (staticCheck r) r.service s := by
  cases c <;> cases hc <;> rfl

/-! ### O2 -/

/-- Settles O2. Every command's meaning ends in an operation that leaves the queue alone: a request or another parcel in
a session operation, an engine step in the engine's work, the rest in one operation of the block it names. -/
theorem execLeavesQueue : Obligations.ExecLeavesQueue := by
  intro c s t h
  cases hr : requestOf c with
  | some hd =>
    rw [exec_request c hd.1 hd.2 hr] at h
    cases h
    exact s.onParcel_pending _
      (fun u => (u.receiveRequest_beyondSession _ _ _ (Request.service_staysInSession _)).pending)
  | none =>
    by_cases he : isEngineStep c = true
    · exact (exec_engineStep_frame c s t he h).pending
    · cases c with
      | powerOn rstn =>
        simp only [exec, execPowerOn] at h
        split at h <;> cases h
        · exact State.powerUp_pending _
        · rfl
      | powerOff => cases h; exact s.powerDown_pending
      | pinReset => cases h; exact s.resetAsserted_pending
      | resetRelease => cases h; exact s.resetReleased_pending
      | initialisationComplete maint rxd vdd =>
        simp only [exec, execInitialisationComplete] at h
        split at h
        · split at h <;> cases h <;> exact State.enterRunning_pending _ _ _
        · cases h; rfl
      | supplyLowEntry rxd => cases h; exact State.supplyLowEntry_pending _ _
      | supplyLowExit rxd => cases h; exact State.supplyLowExit_pending _ _
      | dozeEntry =>
        simp only [exec, execDozeEntry] at h
        split at h <;> cases h <;> rfl
      | dozeWake => cases h; exact s.wake_pending false
      | settleComplete =>
        simp only [exec, execSettleComplete] at h
        split at h <;> cases h
        · exact s.settle_pending
        · rfl
      | framingError low =>
        simp only [exec, execFramingError] at h
        split at h <;> cases h
        · rfl
        · exact State.unheard_pending _ _ _
      | longBreak =>
        simp only [exec, execLongBreak] at h
        split at h <;> cases h
        · exact s.linkBreakReset_pending
        · rfl
      | hold | go | openingFence => cases h; exact s.characters_pending _
      | abort | escapeViolation | overlong | parcelDiscarded => cases h; exact s.characters_pending _
      | hail hd payload => cases h; exact s.onParcel_pending _ (fun u => (u.receiveHail_beyondSession _ _).pending)
      | ackReceived hd payload => cases h; exact s.onParcel_pending _ (fun u => (u.receiveAck_beyondSession _ _).pending)
      | rejReceived hd payload => cases h; exact s.onParcel_pending _ (fun u => (u.receiveRej_beyondSession _).pending)
      | holdLimitExpiry =>
        simp only [exec, execHoldLimitExpiry] at h
        split at h <;> cases h
        · exact s.holdExpiry_beyondSession.pending
        · rfl
      | keepaliveExpiry rxd =>
        simp only [exec, execKeepaliveExpiry] at h
        split at h <;> cases h
        · exact s.keepaliveExpiry_pending rxd
        · rfl
      | retransmitExpiry =>
        simp only [exec, execRetransmitExpiry] at h
        split at h <;> cases h
        · exact s.retransmitExpiry_beyondSession.pending
        · rfl
      | gatherExpiry =>
        simp only [exec, execGatherExpiry] at h
        split at h <;> cases h
        · exact s.gatherExpiry_frame.pending
        · rfl
      | spacingExpiry =>
        simp only [exec, execSpacingExpiry] at h
        split at h <;> cases h
        · exact s.spacingExpiry_frame.pending
        · rfl
      | debouncedMaintChange rxd =>
        simp only [exec, execDebouncedMaintChange] at h
        split at h <;> cases h
        · exact State.maintChange_pending _ _
        · rfl
      | transmitterFree =>
        simp only [exec, execTransmitterFree] at h
        split at h <;> cases h
        · exact s.transmitterFree_beyondSession.pending
        · rfl
      | shortBreak =>
        simp only [exec, execShortBreak] at h
        split at h <;> cases h <;> rfl
      | _ => simp_all [requestOf, isEngineStep]

end Sys2Proof.Machine
end

