-- ==== Sys2Proof/Proofs/Coherence.lean ====
section
/-!
PROOFS. Coherence in three parts that proofs can take apart: the slots agree with who uses them, the ledger has its
size, the batch agrees with the engine. `coherent_iff` ties them to the model's own predicate; then one lemma for each
operation on slots and on the batch.
-/

namespace Sys2Proof.Machine

/-! ### The parts of coherence -/

/-- The sector in hand of an engine that works on one. -/
def Engine.hand : Engine → Option EraseOp
  | .erasingSector op => some op
  | .idle | .reading _ | .programming _ | .checking _ | .storing _ => none

/-- The slots agree with the queue, with the slot `run` of the engine's operation, and with the members of the batch
(R87, R88, R95, R111, R136). -/
structure Dispatcher.Agrees (d : Dispatcher) (run : Option Nat) (members : List Member) : Prop where
  length : d.slots.length = 8
  queued : ∀ i ∈ d.queue, (d.slots.getD i {}).state = .queued ∧ (d.slots.getD i {}).request.inArray = true
  running : ∀ i, run = some i → (d.slots.getD i {}).state = .running
  batched : ∀ m ∈ members, (d.slots.getD m.slot {}).state = .batched
  distinct : (members.map (fun m => m.slot)).Nodup

/-- A sector is in hand: of the engine, or suspended. -/
def InHand (e : Engine) (b : Batch) (op : EraseOp) : Prop := e.hand = some op ∨ b.held = some op

/-- The batch agrees with the engine: the Erasing sectors are those in hand, one at most, in a batch at work; what both
work on lies in the array; a batch that is None is empty, one that gathers holds Pending sectors alone (R109, R111,
R136, R137). -/
structure Batch.Agrees (b : Batch) (e : Engine) : Prop where
  inArray : e.inArray = true
  single : ∀ op, e.hand = some op → b.held = none
  hand : ∀ k, (k, Role.erasing) ∈ b.set ↔ ∃ op, InHand e b op ∧ op.sector = k
  atWork : ∀ op, InHand e b op → b.state.atWork = true
  sectors : ∀ x ∈ b.set, x.1 < sectorCount
  rising : (b.set.map (fun x => x.1)).Pairwise (· < ·)
  empty : b.state = .none → b = {}
  pending : b.state = .gathering → ∀ x ∈ b.set, x.2 = .pending

/-- Coherence but for the clause about the states outside Running. -/
structure State.Agrees (s : State) : Prop where
  slots : s.rd.Agrees s.ae.engine.slot? s.bc.members
  ledger : s.ledger.length = sectorCount
  batch : s.bc.Agrees s.ae.engine

/-- Outside Running no work is in hand (R3). -/
def State.Rests (s : State) : Prop := s.isRunning = true ∨ (s.ae.engine = .idle ∧ s.bc = {})

/-- In a set in rising order the role of a sector is the one entry it has. -/
theorem Batch.role_eq_some_iff (b : Batch) (h : (b.set.map (fun x => x.1)).Pairwise (· < ·)) (k : Nat) (r : Role) :
    b.role k = some r ↔ (k, r) ∈ b.set := by
  obtain ⟨state, set, members, held, gather, spacing, count⟩ := b
  simp only [Batch.role] at h ⊢
  induction set with
  | nil => simp
  | cons x rest ih =>
    obtain ⟨n, role⟩ := x
    simp only [List.map_cons, List.pairwise_cons] at h
    by_cases hn : n = k
    · subst hn
      have hout : (n, r) ∉ rest := fun hm => Nat.lt_irrefl n (h.1 n (List.mem_map_of_mem hm))
      simp [hout, eq_comm]
    · have hkn : ¬k = n := fun e => hn e.symm
      simp [hn, hkn, ih h.2]

theorem Engine.hand_eq_some_iff (e : Engine) (op : EraseOp) : e.hand = some op ↔ e = .erasingSector op := by
  cases e <;> simp [Engine.hand]

/-- The sector in hand by the model's own function, where the engine and a suspended sector exclude each other. -/
theorem State.inHand_eq_some_iff (s : State) (h : ∀ op, s.ae.engine.hand = some op → s.bc.held = none) (op : EraseOp) :
    s.inHand = some op ↔ InHand s.ae.engine s.bc op := by
  unfold State.inHand InHand
  cases he : s.ae.engine with
  | erasingSector op' => simp [Engine.hand, h op' (by simp [he, Engine.hand])]
  | _ => simp [Engine.hand]

/-- The model's clause about the sector in hand, part by part. -/
theorem State.handCoherent_iff (s : State) (hr : (s.bc.set.map (fun x => x.1)).Pairwise (· < ·)) :
    s.handCoherent = true ↔
      (∀ op, s.ae.engine.hand = some op → s.bc.held = none) ∧
      (∀ k, (k, Role.erasing) ∈ s.bc.set ↔ ∃ op, InHand s.ae.engine s.bc op ∧ op.sector = k) ∧
      (∀ op, InHand s.ae.engine s.bc op → s.bc.state.atWork = true) := by
  have hmodel : s.handCoherent = (s.ae.engine.hand.all (fun _ => s.bc.held.isNone) &&
      s.inHand.all (fun op => s.bc.role op.sector == some .erasing && s.bc.state.atWork) &&
      s.bc.set.all (fun e => e.2 != .erasing || s.inHand.any (fun op => op.sector == e.1))) := by
    unfold State.handCoherent Engine.hand
    cases s.ae.engine <;> rfl
  have hsingle : s.ae.engine.hand.all (fun _ => s.bc.held.isNone) = true ↔
      ∀ op, s.ae.engine.hand = some op → s.bc.held = none := by
    simp [Option.all_eq_true]
  rw [hmodel, Bool.and_assoc, Bool.and_eq_true, Bool.and_eq_true, hsingle]
  refine and_congr_right fun h1 => ?_
  have hin := s.inHand_eq_some_iff h1
  simp only [Option.all_eq_true, List.all_eq_true, Bool.and_eq_true, beq_iff_eq, Bool.or_eq_true, bne_iff_ne,
    Option.any_eq_true, hin, Batch.role_eq_some_iff _ hr]
  constructor
  · rintro ⟨hrole, hother⟩
    refine ⟨fun k => ⟨fun hk => ?_, ?_⟩, fun op hop => (hrole op hop).2⟩
    · exact (hother _ hk).resolve_left (fun hne => hne rfl)
    · rintro ⟨op, hop, rfl⟩
      exact (hrole op hop).1
  · rintro ⟨hhand, hwork⟩
    refine ⟨fun op hop => ⟨(hhand _).mpr ⟨op, hop, rfl⟩, hwork op hop⟩, fun x hx => ?_⟩
    obtain ⟨k, r⟩ := x
    by_cases hre : r = .erasing
    · subst hre
      exact .inr ((hhand k).mp hx)
    · exact .inl hre

/-- The model's coherence is the agreement of the slots, the ledger and the batch, and rest outside Running. -/
theorem State.coherent_iff (s : State) : s.coherent = true ↔ s.Agrees ∧ s.Rests := by
  unfold State.coherent
  simp only [Bool.and_eq_true, beq_iff_eq, List.all_eq_true, decide_eq_true_eq, Bool.or_eq_true, bne_iff_ne,
    Option.all_eq_true, ne_eq, State.engineIdle]
  constructor
  · rintro ⟨⟨⟨⟨⟨⟨⟨⟨⟨⟨⟨⟨⟨hlen, hled⟩, hq⟩, hr⟩, hin⟩, hb⟩, hd⟩, hsec⟩, -⟩, hrise⟩, hhand⟩, hnone⟩, hgath⟩, hrest⟩
    obtain ⟨hsingle, hiff, hwork⟩ := (s.handCoherent_iff hrise).mp hhand
    exact ⟨⟨⟨hlen, hq, fun i hi => by rw [hi] at hr; exact beq_iff_eq.mp hr, hb, hd⟩, hled,
      ⟨hin, hsingle, hiff, hwork, hsec, hrise, fun hn => hnone.resolve_left (fun c => c hn),
        fun hg => hgath.resolve_left (fun c => c hg)⟩⟩, hrest⟩
  · rintro ⟨⟨⟨hlen, hq, hr, hb, hd⟩, hled, ⟨hin, hsingle, hiff, hwork, hsec, hrise, hnone, hgath⟩⟩, hrest⟩
    refine ⟨⟨⟨⟨⟨⟨⟨⟨⟨⟨⟨⟨⟨hlen, hled⟩, hq⟩, ?_⟩, hin⟩, hb⟩, hd⟩, hsec⟩, fun op hop => ?_⟩, hrise⟩,
      (s.handCoherent_iff hrise).mpr ⟨hsingle, hiff, hwork⟩⟩, ?_⟩, ?_⟩, hrest⟩
    · split
      · exact beq_iff_eq.mpr (hr _ ‹_›)
      · rfl
    · exact hsec _ ((hiff op.sector).mpr ⟨op, .inr hop, rfl⟩)
    · exact (Classical.em (s.bc.state = .none)).elim (fun h => .inr (hnone h)) .inl
    · exact (Classical.em (s.bc.state = .gathering)).elim (fun h => .inr (hgath h)) .inl

/-! ### The slots -/

/-- Nobody uses the slot `i`: it is not queued, not the engine's, no member's. -/
def Dispatcher.Unused (d : Dispatcher) (run : Option Nat) (members : List Member) (i : Nat) : Prop :=
  i ∉ d.queue ∧ run ≠ some i ∧ ∀ m ∈ members, m.slot ≠ i

/-- A slot that is Free or Answered is used by nobody. -/
theorem Dispatcher.Agrees.unused {d : Dispatcher} {run : Option Nat} {members : List Member}
    (h : d.Agrees run members) {i : Nat}
    (hi : (d.slots.getD i {}).state = .free ∨ (d.slots.getD i {}).state = .answered) : d.Unused run members i := by
  have hne : (d.slots.getD i {}).state ≠ .queued ∧ (d.slots.getD i {}).state ≠ .running ∧
      (d.slots.getD i {}).state ≠ .batched := by
    rcases hi with hi | hi <;> simp only [hi] <;> decide
  exact ⟨fun hq => hne.1 (h.queued i hq).1, fun hr => hne.2.1 (h.running i hr),
    fun m hm hmi => hne.2.2 (hmi ▸ h.batched m hm)⟩

/-- What leaves the queue, the engine or the batch breaks no agreement of the others. -/
theorem Dispatcher.Agrees.shrink {d d' : Dispatcher} {run run' : Option Nat} {members members' : List Member}
    (h : d.Agrees run members) (hs : d'.slots = d.slots) (hq : d'.queue ⊆ d.queue)
    (hr : run' = run ∨ run' = none) (hm : members'.Sublist members) : d'.Agrees run' members' where
  length := hs ▸ h.length
  queued i hi := hs ▸ h.queued i (hq hi)
  running i hi := by
    rcases hr with rfl | rfl
    · exact hs ▸ h.running i hi
    · cases hi
  batched m hmem := hs ▸ h.batched m (hm.subset hmem)
  distinct := h.distinct.sublist (hm.map _)

/-- Reading a slot of a list in which another has been written. -/
theorem getD_set_of_ne (l : List Slot) {i j : Nat} (x : Slot) (h : i ≠ j) : (l.set i x).getD j {} = l.getD j {} := by
  simp [List.getD_eq_getElem?_getD, List.getElem?_set_ne h]

/-- Reading the slot of a list just written. -/
theorem getD_set_self (l : List Slot) {i : Nat} (x : Slot) (h : i < l.length) : (l.set i x).getD i {} = x := by
  simp [List.getD_eq_getElem?_getD, h]

/-- A slot that nobody uses may hold anything. -/
theorem Dispatcher.Agrees.set_unused {d : Dispatcher} {run : Option Nat} {members : List Member}
    (h : d.Agrees run members) {i : Nat} (hi : d.Unused run members i) (x : Slot) (n : Word16) :
    Dispatcher.Agrees { d with slots := d.slots.set i x, nextCompletion := n } run members where
  length := by simpa using h.length
  queued j hj := by
    have hne : i ≠ j := fun e => hi.1 (by rw [e]; exact hj)
    simpa only [getD_set_of_ne _ _ hne] using h.queued j hj
  running j hj := by
    have hne : i ≠ j := fun e => hi.2.1 (by rw [e]; exact hj)
    simpa only [getD_set_of_ne _ _ hne] using h.running j hj
  batched m hm := by
    simpa only [getD_set_of_ne _ _ (hi.2.2 m hm).symm] using h.batched m hm
  distinct := h.distinct

/-- A queued slot is of no other use, so nobody uses it once it has left the queue. -/
theorem Dispatcher.Agrees.unused_of_unqueued {d : Dispatcher} {run : Option Nat} {members : List Member}
    (h : d.Agrees run members) {i : Nat} (hi : (d.slots.getD i {}).state = .queued) :
    Dispatcher.Unused { d with queue := d.queue.filter (fun j => j != i) } run members i := by
  refine ⟨by simp, fun hr => ?_, fun m hm hmi => ?_⟩
  · exact absurd (hi.symm.trans (h.running i hr)) (by decide)
  · exact absurd (hi.symm.trans (hmi ▸ h.batched m hm)) (by decide)

theorem Dispatcher.Agrees.unqueue {d : Dispatcher} {run : Option Nat} {members : List Member}
    (h : d.Agrees run members) (i : Nat) :
    Dispatcher.Agrees { d with queue := d.queue.filter (fun j => j != i) } run members :=
  h.shrink rfl (List.filter_subset_self _) (.inl rfl) (List.Sublist.refl _)

/-- A slot with a state other than Free is one of the list. -/
theorem Dispatcher.lt_of_state (d : Dispatcher) {i : Nat} (h : (d.slots.getD i {}).state ≠ .free) :
    i < d.slots.length := by
  by_contra hn
  rw [List.getD_eq_getElem?_getD, List.getElem?_eq_none (by omega)] at h
  exact h rfl

/-- A state whose slot `i` nobody uses. -/
def State.Unused (s : State) (i : Nat) : Prop := s.rd.Unused s.ae.engine.slot? s.bc.members i

theorem State.Agrees.unused_of_answered {s : State} (h : s.Agrees) {i : Nat} (hi : (s.slot i).state = .answered) :
    s.Unused i := h.slots.unused (.inr hi)

/-- A slot that nobody uses may be answered (R89). -/
theorem State.Agrees.answer {s : State} (h : s.Agrees) {i : Nat} (hi : s.Unused i) (st : Status) (results : List Byte) :
    (s.answer i st results).Agrees := ⟨h.slots.set_unused hi _ _, h.ledger, h.batch⟩

theorem State.Agrees.orphanResult {s : State} (h : s.Agrees) (code tag : Byte) (st : Status) (erased failed : Nat) :
    (s.orphanResult code tag st erased failed).Agrees := by
  rw [State.orphanResult_eq]
  exact ⟨h.slots, h.ledger, h.batch⟩

/-- A slot that nobody uses may be released (R90). -/
theorem State.Agrees.releaseSlot {s : State} (h : s.Agrees) {i : Nat} (hi : s.Unused i) : (s.releaseSlot i).Agrees := by
  rw [State.releaseSlot_eq]
  exact ⟨h.slots.set_unused hi _ s.rd.nextCompletion, h.ledger, h.batch⟩

/-- A queued head may be refused (R98). -/
theorem State.Agrees.refuseHead {s : State} (h : s.Agrees) {i : Nat} (hi : (s.slot i).state = .queued) (st : Status) :
    (s.refuseHead i st).Agrees :=
  State.Agrees.answer (s := s.unqueue i) ⟨h.slots.unqueue i, h.ledger, h.batch⟩ (h.slots.unused_of_unqueued hi) st []

/-! ### The engine changes hands -/

/-- Where no sector is in the engine's hand it may carry any operation that takes none (R111). -/
theorem Batch.Agrees.withEngine {b : Batch} {e e' : Engine} (h : b.Agrees e) (he : e.hand = none) (he' : e'.hand = none)
    (hin : e'.inArray = true) : b.Agrees e' where
  inArray := hin
  single op hop := by simp [he'] at hop
  hand k := by simpa [InHand, he, he'] using h.hand k
  atWork op hop := h.atWork op (by simpa [InHand, he, he'] using hop)
  sectors := h.sectors
  rising := h.rising
  empty := h.empty
  pending := h.pending

theorem Engine.hand_of_slot {e : Engine} {i : Nat} (h : e.slot? = some i) : e.hand = none := by
  cases e <;> simp_all [Engine.slot?, Engine.hand]

/-- A running operation ends: the engine is Idle, the slot used by nobody, then answered or released (R100). -/
theorem State.Agrees.finishRunning {s : State} (h : s.Agrees) {i : Nat} (hi : s.ae.engine.slot? = some i) (st : Status)
    (results : List Byte) : (s.finishRunning i st results).Agrees := by
  have hidle : State.Agrees { s with ae := { s.ae with engine := .idle } } :=
    ⟨h.slots.shrink rfl (List.Subset.refl _) (.inr rfl) (List.Sublist.refl _), h.ledger,
      h.batch.withEngine (Engine.hand_of_slot hi) rfl rfl⟩
  have hrun := h.slots.running i hi
  have hun : State.Unused { s with ae := { s.ae with engine := .idle } } i := by
    refine ⟨fun hq => ?_, by simp [Engine.slot?], fun m hm hmi => ?_⟩
    · exact absurd (hrun.symm.trans (h.slots.queued i hq).1) (by decide)
    · exact absurd (hrun.symm.trans (hmi ▸ h.slots.batched m hm)) (by decide)
  cases ho : (s.slot i).orphaned with
  | true =>
    rw [State.finishRunning_orphaned s i st results ho]
    refine State.Agrees.releaseSlot (hidle.orphanResult _ _ _ _ _) ?_
    rw [State.orphanResult_eq]
    exact hun
  | false =>
    rw [State.finishRunning_answered s i st results ho]
    exact hidle.answer hun st results

/-- The engine goes on with an operation of the same slot in the array (R111). -/
theorem State.Agrees.keepEngine {s : State} (h : s.Agrees) {e : Engine} (hs : e.slot? = s.ae.engine.slot?)
    (hh : s.ae.engine.hand = none) (he : e.hand = none) (hin : e.inArray = true) : (s.keepEngine e).Agrees :=
  ⟨by simpa [hs] using h.slots, h.ledger, h.batch.withEngine hh he hin⟩

/-- The operation a request starts names its slot, works in the array and takes no sector in hand (R111). -/
theorem State.startEngine_facts (s : State) (i : Nat) (r : Request) (hidle : s.ae.engine = .idle)
    (hr : r.inArray = true) :
    (s.startEngine i r).hand = none ∧ (s.startEngine i r).inArray = true ∧
      ((s.startEngine i r).slot? = some i ∨ (s.startEngine i r).slot? = none) := by
  cases r with
  | read | program | checkRegion => exact ⟨rfl, hr, .inl rfl⟩
  | protectGroup | unprotectAll | configStore => exact ⟨rfl, rfl, .inl rfl⟩
  | _ => exact ⟨congrArg Engine.hand hidle, congrArg Engine.inArray hidle, .inr (congrArg Engine.slot? hidle)⟩

/-- A queued head may start while the engine is Idle (R98). -/
theorem State.Agrees.startHead {s : State} (h : s.Agrees) {i : Nat} (hi : i ∈ s.rd.queue)
    (hidle : s.ae.engine = .idle) : (s.startHead i).Agrees := by
  obtain ⟨hq, hin⟩ := h.slots.queued i hi
  obtain ⟨hhand, hspan, hslot⟩ := s.startEngine_facts i (s.slot i).request hidle hin
  have hun := h.slots.unused_of_unqueued hq
  have hset := (h.slots.unqueue i).set_unused hun { s.slot i with state := .running } s.rd.nextCompletion
  refine ⟨⟨hset.length, hset.queued, fun j hj => ?_, hset.batched, hset.distinct⟩, h.ledger,
    h.batch.withEngine (by rw [hidle]; rfl) hhand hspan⟩
  have hj' : (s.startEngine i (s.slot i).request).slot? = some j := hj
  have hji : i = j := by rcases hslot with e | e <;> simp_all
  subst hji
  have hlt : i < s.rd.slots.length := s.rd.lt_of_state (by rw [hq]; decide)
  show ((s.rd.slots.set i { s.slot i with state := .running }).getD i {}).state = .running
  rw [getD_set_self _ _ hlt]

end Sys2Proof.Machine
end

