-- ==== Sys2Proof/Proofs/BatchCoherence.lean ====
section
/-!
PROOFS. The batch keeps coherence: reaching, opening, closing and suspending sectors, the end of a batch, joining,
parking and cancelling; then every look at the head of the service queue.
-/

namespace Sys2Proof.Machine

/-! ### A batch with no sector in hand -/

/-- No sector of the batch is in hand: none suspended, none Erasing. -/
structure Batch.Settled (b : Batch) : Prop where
  held : b.held = none
  noErasing : ∀ k, (k, Role.erasing) ∉ b.set
  sectors : ∀ x ∈ b.set, x.1 < sectorCount
  rising : (b.set.map (fun x => x.1)).Pairwise (· < ·)

/-- A coherent batch is settled while neither the engine nor the batch holds a sector. -/
theorem Batch.Agrees.settled {b : Batch} {e : Engine} (h : b.Agrees e) (he : e.hand = none) (hh : b.held = none) :
    b.Settled where
  held := hh
  noErasing k hk := by
    obtain ⟨op, hop, -⟩ := (h.hand k).mp hk
    simp [InHand, he, hh] at hop
  sectors := h.sectors
  rising := h.rising

/-- A batch that is None or Gathering has no sector in hand. -/
theorem Batch.Agrees.nothingInHand {b : Batch} {e : Engine} (h : b.Agrees e) (hw : b.state.atWork = false) :
    e.hand = none ∧ b.held = none := by
  constructor
  · cases he : e.hand with
    | none => rfl
    | some op => simp [h.atWork op (.inl he)] at hw
  · cases hh : b.held with
    | none => rfl
    | some op => simp [h.atWork op (.inr hh)] at hw

/-- A settled batch at work agrees with every engine that holds no sector. -/
theorem Batch.Settled.agrees {b : Batch} {e : Engine} (h : b.Settled) (hw : b.state.atWork = true) (he : e.hand = none)
    (hin : e.inArray = true) : b.Agrees e where
  inArray := hin
  single op hop := by simp [he] at hop
  hand k := by simp [InHand, he, h.held, h.noErasing k]
  atWork _ _ := hw
  sectors := h.sectors
  rising := h.rising
  empty hn := by simp [hn, BatchState.atWork] at hw
  pending hg := by simp [hg, BatchState.atWork] at hw

/-- The empty batch agrees with every engine that holds no sector. -/
theorem Batch.agrees_empty {e : Engine} (he : e.hand = none) (hin : e.inArray = true) : Batch.Agrees {} e where
  inArray := hin
  single op hop := by simp [he] at hop
  hand k := by simp [InHand, he]
  atWork op hop := by simp [InHand, he] at hop
  sectors := by simp
  rising := by simp
  empty _ := rfl
  pending := by simp

/-- Timers, counts and, at work, the state of a batch are no matter of its agreement (R136, R137). -/
theorem Batch.Agrees.restate {b b' : Batch} {e : Engine} (h : b.Agrees e) (hset : b'.set = b.set)
    (hheld : b'.held = b.held) (hw : b'.state.atWork = true ∨ b'.state = b.state ∧ b.state ≠ .none) : b'.Agrees e where
  inArray := h.inArray
  single op hop := hheld ▸ h.single op hop
  hand k := by simpa [InHand, hset, hheld] using h.hand k
  atWork op hop := hw.elim id (fun hs => hs.1 ▸ h.atWork op (by simpa [InHand, hheld] using hop))
  sectors := hset ▸ h.sectors
  rising := hset ▸ h.rising
  empty hn := by
    rcases hw with hw | ⟨hs, hne⟩
    · simp [hn, BatchState.atWork] at hw
    · exact absurd (hs ▸ hn) hne
  pending hg := by
    rcases hw with hw | ⟨hs, -⟩
    · simp [hg, BatchState.atWork] at hw
    · exact hset ▸ h.pending (hs ▸ hg)

/-! ### Roles -/

/-- What a sector's new role makes of the set: that sector's entry, the others as before. -/
theorem Batch.mem_setRole (b : Batch) (sector : Nat) (r : Role) (k : Nat) (ρ : Role) :
    (k, ρ) ∈ (b.setRole sector r).set ↔
      (k ≠ sector ∧ (k, ρ) ∈ b.set) ∨ (k = sector ∧ ρ = r ∧ ∃ old, (sector, old) ∈ b.set) := by
  simp only [Batch.setRole, List.mem_map]
  constructor
  · rintro ⟨⟨n, old⟩, hx, he⟩
    by_cases hn : n = sector
    · subst hn
      simp only [if_pos, Prod.mk.injEq] at he
      exact .inr ⟨he.1.symm, he.2.symm, old, hx⟩
    · simp only [if_neg hn, Prod.mk.injEq] at he
      obtain ⟨rfl, rfl⟩ := he
      exact .inl ⟨hn, hx⟩
  · rintro (⟨hk, hx⟩ | ⟨rfl, rfl, old, hx⟩)
    · exact ⟨_, hx, by simp [hk]⟩
    · exact ⟨_, hx, by simp⟩

/-- A new role leaves the sectors of the set as they are. -/
theorem Batch.keys_setRole (b : Batch) (sector : Nat) (r : Role) :
    (b.setRole sector r).set.map (fun x => x.1) = b.set.map (fun x => x.1) := by
  simp only [Batch.setRole, List.map_map]
  refine List.map_congr_left fun x _ => ?_
  simp only [Function.comp_apply]
  split <;> simp

theorem Batch.setRole_sectors (b : Batch) (sector : Nat) (r : Role) (h : ∀ x ∈ b.set, x.1 < sectorCount) :
    ∀ x ∈ (b.setRole sector r).set, x.1 < sectorCount := by
  rintro ⟨k, ρ⟩ hx
  rcases (b.mem_setRole sector r k ρ).mp hx with ⟨-, hk⟩ | ⟨rfl, -, old, hk⟩
  · exact h (k, ρ) hk
  · exact h (k, old) hk

/-- A settled batch stays settled when a sector takes another role than Erasing. -/
theorem Batch.Settled.setRole {b : Batch} (h : b.Settled) (sector : Nat) {r : Role} (hr : r ≠ .erasing) :
    (b.setRole sector r).Settled where
  held := h.held
  noErasing k hk := by
    rcases (b.mem_setRole sector r k .erasing).mp hk with ⟨-, hk⟩ | ⟨-, he, -⟩
    · exact h.noErasing k hk
    · exact hr he.symm
  sectors := b.setRole_sectors sector r h.sectors
  rising := by rw [b.keys_setRole]; exact h.rising

/-- A pending sector is a sector of the set. -/
theorem Batch.pendingSectors_subset (b : Batch) : b.pendingSectors ⊆ b.set.map (fun x => x.1) := by
  intro k hk
  obtain ⟨x, hx, he⟩ := List.mem_filterMap.mp hk
  split at he
  · cases he
    exact List.mem_map_of_mem hx
  · cases he

/-! ### The end of a batch -/

/-- Everything but the batch's own sectors agrees, and the engine holds none. -/
structure State.HandFree (s : State) : Prop where
  slots : s.rd.Agrees s.ae.engine.slot? s.bc.members
  ledger : s.ledger.length = sectorCount
  inArray : s.ae.engine.inArray = true
  free : s.ae.engine.hand = none

theorem State.Agrees.handFree {s : State} (h : s.Agrees) (he : s.ae.engine.hand = none) : s.HandFree :=
  ⟨h.slots, h.ledger, h.batch.inArray, he⟩

/-- A member that is dealt with leaves its slot to nobody; the others are as before (stage 1 of R157). -/
theorem State.settleMember_slots (s : State) (m : Member) (rest : List Member) (run : Option Nat)
    (h : s.rd.Agrees run (m :: rest)) : (s.settleMember m).rd.Agrees run rest := by
  have hm := h.batched m (List.mem_cons_self)
  have hdist := List.nodup_cons.mp (List.map_cons ▸ h.distinct)
  have hun : s.rd.Unused run rest m.slot := by
    refine ⟨fun hq => ?_, fun hr => ?_, fun o ho he => ?_⟩
    · exact absurd (hm.symm.trans (h.queued _ hq).1) (by decide)
    · exact absurd (hm.symm.trans (h.running _ hr)) (by decide)
    · exact hdist.1 (he ▸ List.mem_map_of_mem ho)
  have hrest := h.shrink (d' := s.rd) rfl (List.Subset.refl _) (.inl rfl) (List.sublist_cons_self m rest)
  unfold State.settleMember
  split
  · rw [State.releaseSlot_eq]
    exact hrest.set_unused hun _ s.rd.nextCompletion
  · exact hrest.set_unused hun _ _

/-- Dealing with members changes slots and two flags of the Session Unit: no engine, batch or ledger (R157). -/
theorem State.settleMembers_work (s : State) (ms : List Member) :
    (ms.foldl State.settleMember s).ae = s.ae ∧ (ms.foldl State.settleMember s).bc = s.bc ∧
      (ms.foldl State.settleMember s).ledger = s.ledger ∧
      (ms.foldl State.settleMember s).rd.queue = s.rd.queue := by
  induction ms generalizing s with
  | nil => exact ⟨rfl, rfl, rfl, rfl⟩
  | cons m rest ih =>
    have h1 : (s.settleMember m).ae = s.ae ∧ (s.settleMember m).bc = s.bc ∧ (s.settleMember m).ledger = s.ledger ∧
        (s.settleMember m).rd.queue = s.rd.queue := by
      unfold State.settleMember
      split
      · rw [State.releaseSlot_eq]
        exact ⟨rfl, rfl, rfl, rfl⟩
      · exact ⟨rfl, rfl, rfl, rfl⟩
    obtain ⟨ha, hb, hl, hq⟩ := ih (s.settleMember m)
    exact ⟨ha.trans h1.1, hb.trans h1.2.1, hl.trans h1.2.2.1, hq.trans h1.2.2.2⟩

theorem State.settleMembers_slots (s : State) (ms : List Member) (run : Option Nat) (h : s.rd.Agrees run ms) :
    (ms.foldl State.settleMember s).rd.Agrees run [] := by
  induction ms generalizing s with
  | nil => exact h
  | cons m rest ih => exact ih _ (s.settleMember_slots m rest run h)

/-- A report of orphans touches the Event Unit alone (R160). -/
theorem State.reportOrphans_eq (s before : State) : s.reportOrphans before = { s with eu := (s.reportOrphans before).eu } := by
  unfold State.reportOrphans
  split
  · rfl
  · rw [State.orphanResult_eq]

/-- What the end of a batch leaves: no batch, the engine, the ledger and the queue as before (R157, R162). -/
theorem State.finishBatch_work (s : State) :
    s.finishBatch.bc = {} ∧ s.finishBatch.ae = s.ae ∧ s.finishBatch.ledger = s.ledger ∧
      s.finishBatch.rd.queue = s.rd.queue := by
  unfold State.finishBatch
  split
  · exact ⟨rfl, rfl, rfl, rfl⟩
  · obtain ⟨ha, -, hl, hq⟩ := s.settleMembers_work s.bc.members
    unfold State.completeBatch
    rw [State.reportOrphans_eq]
    exact ⟨rfl, ha, hl, hq⟩

/-- The end of a batch whose sectors nobody holds (R157, R162). -/
theorem State.HandFree.finishBatch {s : State} (h : s.HandFree) : s.finishBatch.Agrees := by
  obtain ⟨hbc, hae, hled, -⟩ := s.finishBatch_work
  refine ⟨?_, hled ▸ h.ledger, ?_⟩
  · have hslots : s.finishBatch.rd.Agrees s.ae.engine.slot? [] := by
      unfold State.finishBatch
      split
      · rename_i hnil
        exact hnil ▸ h.slots
      · unfold State.completeBatch
        rw [State.reportOrphans_eq]
        exact s.settleMembers_slots _ _ h.slots
    rw [hae, hbc]
    exact hslots
  · rw [hbc, hae]
    exact Batch.agrees_empty h.free h.inArray

/-- A batch stopped by the supply ends (R143, R146). -/
theorem State.HandFree.abortBatch {s : State} (h : s.HandFree) : s.abortBatch.Agrees :=
  State.HandFree.finishBatch (s := { s with bc := { s.bc.abortRest with held := none } })
    ⟨h.slots, h.ledger, h.inArray, h.free⟩

/-- A batch none of whose sectors is Pending or Erasing ends; another goes on (R157, R162). -/
theorem State.Agrees.finishIfDone {s : State} (h : s.Agrees) : s.finishIfDone.Agrees := by
  unfold State.finishIfDone
  split
  · exact h
  · rename_i hdone
    refine (h.handFree ?_).finishBatch
    cases he : s.ae.engine.hand with
    | none => rfl
    | some op =>
      refine absurd ?_ hdone
      exact List.any_eq_true.mpr ⟨_, (h.batch.hand op.sector).mpr ⟨op, .inl he, rfl⟩, rfl⟩

/-! ### Sector work -/

/-- A batch at work of which a sector of the set is opened agrees with the engine that holds it (step 3 of R143). -/
theorem Batch.Settled.opened {b : Batch} (h : b.Settled) (hw : b.state.atWork = true) {k : Nat}
    (hk : k ∈ b.set.map (fun x => x.1)) :
    Batch.Agrees (b.setRole k .erasing) (.erasingSector { sector := k }) := by
  obtain ⟨⟨n, old⟩, hx, rfl⟩ := List.mem_map.mp hk
  refine ⟨decide_eq_true (h.sectors _ hx), fun _ _ => h.held, fun j => ?_, fun _ _ => hw,
    b.setRole_sectors n _ h.sectors, (b.keys_setRole n _).symm ▸ h.rising, fun hn => ?_, fun hg => ?_⟩
  · rw [b.mem_setRole]
    have hheld : (b.setRole n .erasing).held = none := h.held
    constructor
    · rintro (⟨-, hj⟩ | ⟨rfl, -, -⟩)
      · exact absurd hj (h.noErasing j)
      · exact ⟨_, .inl rfl, rfl⟩
    · rintro ⟨op, hop | hop, rfl⟩
      · cases hop
        exact .inr ⟨rfl, rfl, old, hx⟩
      · rw [hheld] at hop
        cases hop
  · rw [show b.state = .none from hn] at hw
    cases hw
  · rw [show b.state = .gathering from hg] at hw
    cases hw

/-- A sector of a settled batch is opened with the engine holding none (step 3 of R143). -/
theorem State.HandFree.openSector {s : State} (h : s.HandFree) (hb : s.bc.Settled) (hw : s.bc.state.atWork = true)
    {k : Nat} (hk : k ∈ s.bc.set.map (fun x => x.1)) : (s.openSector k).Agrees := by
  have hslots := h.slots.shrink (d' := s.rd) (run' := none) rfl (List.Subset.refl _) (.inr rfl) (List.Sublist.refl _)
  have hled : (s.ledgerOpen k).ledger.length = sectorCount := by simpa using h.ledger
  simp only [State.openSector]
  split
  · exact ⟨hslots, hled, (hb.opened hw hk).restate rfl rfl (.inl hw)⟩
  · exact ⟨hslots, hled, hb.opened hw hk⟩

/-- Reaching sectors of a settled batch at work, in any order of sectors of its set (R143). -/
theorem State.HandFree.reachFrom {s : State} (ks : List Nat) (h : s.HandFree) (hb : s.bc.Settled)
    (hw : s.bc.state.atWork = true) (hks : ks ⊆ s.bc.set.map (fun x => x.1)) : (reachFrom ks s).Agrees := by
  induction ks generalizing s with
  | nil => exact h.finishBatch
  | cons k rest ih =>
    obtain ⟨hk, hrest⟩ := List.cons_subset.mp hks
    unfold Machine.reachFrom
    split
    · exact h.abortBatch
    · split
      · refine ih (s := s.skipSector k) ⟨h.slots, h.ledger, h.inArray, h.free⟩ (hb.setRole k (by decide)) hw ?_
        rw [show (s.skipSector k).bc = s.bc.setRole k (.done .skippedProtected) from rfl, Batch.keys_setRole]
        exact hrest
      · exact h.openSector hb hw hk

/-- A suspended sector resumes: the engine holds it again (R153, R156). -/
theorem Batch.Agrees.resumed {b : Batch} {e : Engine} (h : b.Agrees e) (he : e.hand = none) {op : EraseOp}
    (hop : b.held = some op) : Batch.Agrees { b with held := none } (.erasingSector op) where
  inArray := by
    have hm := (h.hand op.sector).mpr ⟨op, .inr hop, rfl⟩
    exact decide_eq_true (h.sectors _ hm)
  single _ _ := rfl
  hand k := by
    have hk := h.hand k
    simp only [InHand, he, hop] at hk
    simpa [InHand, Engine.hand] using hk
  atWork _ _ := h.atWork op (.inr hop)
  sectors := h.sectors
  rising := h.rising
  empty hn := by simpa [show b.state = .none from hn, BatchState.atWork] using h.atWork op (.inr hop)
  pending := h.pending

/-- The sector work goes on with an Idle engine (R143, R146, R153, R156). -/
theorem State.Agrees.beginWork {s : State} (h : s.Agrees) (hst : s.bc.state = .erasing) (he : s.ae.engine = .idle) :
    s.beginWork.Agrees := by
  have hhand : s.ae.engine.hand = none := by rw [he]; rfl
  have hw : s.bc.state.atWork = true := by rw [hst]; rfl
  unfold State.beginWork
  split
  · rename_i op hop
    split
    · exact (h.handFree hhand).abortBatch
    · exact ⟨h.slots.shrink rfl (List.Subset.refl _) (.inr rfl) (List.Sublist.refl _), h.ledger,
        (h.batch.resumed hhand hop).restate rfl rfl (.inl hw)⟩
  · rename_i hop
    exact (h.handFree hhand).reachFrom _ (h.batch.settled hhand hop) hw s.bc.pendingSectors_subset

/-- A batch enters Erasing (R138, R141, R153, R156), whatever its state was before. -/
theorem State.Agrees.enterErasing {s : State}
    (h : State.Agrees { s with bc := { s.bc with state := .erasing, gather := .stopped } }) : s.enterErasing.Agrees := by
  unfold State.enterErasing
  dsimp only
  split
  · rename_i he
    exact h.beginWork rfl (beq_iff_eq.mp he)
  · exact h

/-- A coherent batch at work or Gathering may enter Erasing. -/
theorem State.Agrees.toErasing {s : State} (h : s.Agrees) : s.enterErasing.Agrees :=
  State.Agrees.enterErasing ⟨h.slots, h.ledger, h.batch.restate rfl rfl (.inl rfl)⟩

/-! ### Joining (section 7.4) -/

theorem mem_insertPending (k : Nat) (l : List (Nat × Role)) (x : Nat × Role) (hx : x ∈ insertPending k l) :
    x = (k, .pending) ∨ x ∈ l := by
  induction l with
  | nil => simpa [insertPending] using hx
  | cons e rest ih =>
    simp only [insertPending] at hx
    split at hx
    · simpa using hx
    · split at hx
      · exact .inr hx
      · rcases List.mem_cons.mp hx with rfl | hx
        · exact .inr List.mem_cons_self
        · exact (ih hx).imp id (List.mem_cons_of_mem e)

theorem insertPending_rising (k : Nat) (l : List (Nat × Role)) (h : (l.map (fun x => x.1)).Pairwise (· < ·)) :
    ((insertPending k l).map (fun x => x.1)).Pairwise (· < ·) := by
  induction l with
  | nil => simp [insertPending]
  | cons e rest ih =>
    simp only [List.map_cons, List.pairwise_cons] at h
    simp only [insertPending]
    split
    · rename_i hlt
      simp only [List.map_cons, List.pairwise_cons]
      refine ⟨fun n hn => ?_, h.1, h.2⟩
      rcases List.mem_cons.mp hn with rfl | hn
      · exact hlt
      · exact Nat.lt_trans hlt (h.1 n hn)
    · split
      · simpa using h
      · rename_i hge hne
        simp only [List.map_cons, List.pairwise_cons]
        refine ⟨fun n hn => ?_, ih h.2⟩
        obtain ⟨x, hx, rfl⟩ := List.mem_map.mp hn
        rcases mem_insertPending k rest x hx with rfl | hx
        · simp only; omega
        · exact h.1 _ (List.mem_map_of_mem hx)

/-- Sectors join a settled batch as Pending ones, the set in order (R138 to R140). -/
theorem Batch.addSectors_facts (b : Batch) (ks : List Nat) (hks : ∀ k ∈ ks, k < sectorCount) (h : b.Settled) :
    (b.addSectors ks).Settled ∧ ∀ x ∈ (b.addSectors ks).set, x.2 = .pending ∨ x ∈ b.set := by
  induction ks generalizing b with
  | nil => exact ⟨h, fun x hx => .inr hx⟩
  | cons k rest ih =>
    have hone : Batch.Settled { b with set := insertPending k b.set } := by
      refine ⟨h.held, fun j hj => ?_, fun x hx => ?_, insertPending_rising k b.set h.rising⟩
      · rcases mem_insertPending k b.set _ hj with hj | hj
        · cases hj
        · exact h.noErasing j hj
      · rcases mem_insertPending k b.set x hx with rfl | hx
        · exact hks k List.mem_cons_self
        · exact h.sectors x hx
    obtain ⟨hset, hpend⟩ := ih { b with set := insertPending k b.set } (fun j hj => hks j (List.mem_cons_of_mem k hj)) hone
    refine ⟨hset, fun x hx => ?_⟩
    rcases hpend x hx with hx | hx
    · exact .inl hx
    · rcases mem_insertPending k b.set x hx with rfl | hx
      · exact .inl rfl
      · exact .inr hx

theorem mem_insertSorted (n : Nat) (l : List Nat) (k : Nat) (hk : k ∈ insertSorted n l) : k = n ∨ k ∈ l := by
  induction l with
  | nil => simpa [insertSorted] using hk
  | cons j rest ih =>
    simp only [insertSorted] at hk
    split at hk
    · simpa using hk
    · split at hk
      · exact .inr hk
      · rcases List.mem_cons.mp hk with rfl | hk
        · exact .inr List.mem_cons_self
        · exact (ih hk).imp id (List.mem_cons_of_mem j)

/-- The sectors a request in the array names exist (R109, R134, R135). -/
theorem Request.sectors_lt (r : Request) (h : r.inArray = true) : ∀ k ∈ r.sectors, k < sectorCount := by
  have hfold : ∀ (bs : List Byte) (acc : List Nat), (∀ b ∈ bs, b.toNat < sectorCount) → (∀ k ∈ acc, k < sectorCount) →
      ∀ k ∈ bs.foldl (fun acc b => insertSorted b.toNat acc) acc, k < sectorCount := by
    intro bs
    induction bs with
    | nil => exact fun acc _ hacc => hacc
    | cons b rest ih =>
      intro acc hbs hacc
      refine ih _ (fun c hc => hbs c (List.mem_cons_of_mem b hc)) fun k hk => ?_
      rcases mem_insertSorted _ _ _ hk with rfl | hk
      · exact hbs b List.mem_cons_self
      · exact hacc k hk
  cases r with
  | eraseSectors bs =>
    exact hfold bs [] (fun b hb => of_decide_eq_true (List.all_eq_true.mp h b hb)) (by simp)
  | eraseAll => exact fun k hk => List.mem_range.mp hk
  | _ => simp [Request.sectors]

/-- A queued head joins: its slot is a member's, no other member's (R138, R139). -/
theorem Dispatcher.Agrees.join {d : Dispatcher} {run : Option Nat} {members : List Member}
    (h : d.Agrees run members) {i : Nat} (hi : (d.slots.getD i {}).state = .queued) (ks : List Nat) :
    Dispatcher.Agrees
      { d with
        slots := d.slots.set i { d.slots.getD i {} with state := .batched }
        queue := d.queue.filter (fun j => j != i) } run (members ++ [{ slot := i, sectors := ks }]) := by
  have hun := h.unused_of_unqueued hi
  have hset := (h.unqueue i).set_unused hun { d.slots.getD i {} with state := .batched } d.nextCompletion
  refine ⟨hset.length, hset.queued, hset.running, fun m hm => ?_, ?_⟩
  · rcases List.mem_append.mp hm with hm | hm
    · exact hset.batched m hm
    · cases List.mem_singleton.mp hm
      simp only
      rw [getD_set_self _ _ (d.lt_of_state (by rw [hi]; decide))]
  · rw [List.map_append, List.nodup_append]
    refine ⟨h.distinct, by simp, fun j hj k hk => ?_⟩
    obtain ⟨m, hm, rfl⟩ := List.mem_map.mp hj
    simp only [List.map_cons, List.map_nil, List.mem_singleton] at hk
    exact hk ▸ hun.2.2 m hm

/-- A queued erase request creates or joins a batch that is None or Gathering (R138 to R140). -/
theorem State.Agrees.enterBatch {s : State} (h : s.Agrees) {i : Nat} (hi : i ∈ s.rd.queue)
    (hst : s.bc.state.atWork = false) : (s.enterBatch i).Agrees := by
  obtain ⟨hq, hin⟩ := h.slots.queued i hi
  obtain ⟨hhand, hheld⟩ := h.batch.nothingInHand hst
  obtain ⟨hset, hpend⟩ :=
    s.bc.addSectors_facts _ ((s.slot i).request.sectors_lt hin) (h.batch.settled hhand hheld)
  have hslots := h.slots.join hq (s.slot i).request.sectors
  have herasing : (s.addMember i).enterErasing.Agrees :=
    State.Agrees.enterErasing ⟨hslots, h.ledger,
      Batch.Settled.agrees ⟨hset.held, hset.noErasing, hset.sectors, hset.rising⟩ rfl hhand h.batch.inArray⟩
  have hallPending : ∀ x ∈ s.bc.set, x.2 = .pending := by
    cases hb : s.bc.state with
    | none => simp [h.batch.empty hb]
    | gathering => exact h.batch.pending hb
    | erasing | yielded | parked => simp [hb, BatchState.atWork] at hst
  have hgather : (s.addMember i).gatherOn.Agrees := by
    refine ⟨hslots, h.ledger, h.batch.inArray, fun op hop => ?_, fun k => ?_, fun op hop => ?_, hset.sectors,
      hset.rising, fun hn => ?_, fun _ x hx => ?_⟩
    · exact hset.held
    · have hno : (k, Role.erasing) ∉ (s.addMember i).gatherOn.bc.set := hset.noErasing k
      refine iff_of_false hno ?_
      rintro ⟨op, hop | hop, -⟩
      · exact absurd (hhand.symm.trans hop) (by simp)
      · exact absurd (hset.held.symm.trans hop) (by simp)
    · rcases hop with hop | hop
      · exact absurd (hhand.symm.trans hop) (by simp)
      · exact absurd (hset.held.symm.trans hop) (by simp)
    · cases hn
    · rcases hpend x hx with hx | hx
      · exact hx
      · exact hallPending x hx
  unfold State.enterBatch
  dsimp only
  split
  · exact herasing
  · split
    · exact herasing
    · exact hgather

/-! ### The head examination (R96, R97) -/

theorem State.mem_queue_of_head (s : State) {i : Nat} (h : s.head = some i) : i ∈ s.rd.queue :=
  List.mem_of_mem_head? h

theorem State.engineIdle_iff (s : State) : s.engineIdle = true ↔ s.ae.engine = .idle := beq_iff_eq

theorem State.Agrees.refuseKind {s t : State} (h : s.Agrees) {i : Nat} (hi : i ∈ s.rd.queue) (k : HeadKind)
    (ht : s.refuseKind i k = some t) : t.Agrees := by
  have hq := (h.slots.queued i hi).1
  unfold State.refuseKind at ht
  split at ht <;> cases ht <;> exact h.refuseHead hq _

/-- A head that meets its dynamic checks with the engine Idle is refused or started (R98). -/
theorem State.Agrees.tryStart {s : State} (h : s.Agrees) {i : Nat} (hi : i ∈ s.rd.queue) (he : s.engineIdle = true) :
    (s.tryStart i).state.Agrees := by
  unfold State.tryStart
  split
  · exact h.refuseHead (h.slots.queued i hi).1 _
  · exact h.startHead hi ((s.engineIdle_iff).mp he)

theorem State.Agrees.headNoBatch {s : State} (h : s.Agrees) {i : Nat} (hi : i ∈ s.rd.queue) (hb : s.bc.state = .none) :
    (s.headNoBatch i).state.Agrees := by
  unfold State.headNoBatch
  split
  · exact h.enterBatch hi (by rw [hb]; rfl)
  · split
    · exact h.tryStart hi ‹_›
    · exact h

theorem State.Agrees.headGathering {s : State} (h : s.Agrees) {i : Nat} (hi : i ∈ s.rd.queue)
    (hb : s.bc.state = .gathering) : (s.headGathering i).state.Agrees := by
  unfold State.headGathering
  split
  · exact h.enterBatch hi (by rw [hb]; rfl)
  · exact h.toErasing

/-- The batch of an engine that holds a sector may yield (R151). -/
theorem State.Agrees.yieldBatch {s : State} (h : s.Agrees) : s.yieldBatch.Agrees :=
  ⟨h.slots, h.ledger, h.batch.restate rfl rfl (.inl rfl)⟩

theorem State.Agrees.headErasing {s : State} (h : s.Agrees) {i : Nat} (hi : i ∈ s.rd.queue) :
    (s.headErasing i).state.Agrees := by
  unfold State.headErasing
  split
  · exact h.refuseKind hi _ ‹_›
  · show State.Agrees (if s.mayYield then s.yieldBatch else s)
    split
    · exact h.yieldBatch
    · exact h

/-- A served request is counted in the yield (R152). -/
theorem State.Agrees.countServed {s : State} (h : s.Agrees) (hb : s.bc.state ≠ .none) : s.countServed.Agrees :=
  ⟨h.slots, h.ledger, h.batch.restate rfl rfl (.inr ⟨rfl, hb⟩)⟩

theorem State.Agrees.headYielded {s : State} (h : s.Agrees) {i : Nat} (hi : i ∈ s.rd.queue)
    (hb : s.bc.state = .yielded) : (s.headYielded i).state.Agrees := by
  unfold State.headYielded
  split
  · exact h.refuseKind hi _ ‹_›
  · split
    · exact h
    · rename_i he
      have he : s.engineIdle = true := by simpa using he
      split
      · have hstart := h.tryStart hi he
        have hsame : (s.tryStart i).state.bc = s.bc := by
          unfold State.tryStart
          split <;> rfl
        split
        · rename_i t ht
          rw [ht] at hstart hsame
          exact State.Agrees.countServed hstart (by rw [show t.bc = s.bc from hsame, hb]; decide)
        · rename_i t ht
          rw [ht] at hstart
          exact hstart
      · exact h.toErasing

theorem State.Agrees.headParked {s : State} (h : s.Agrees) {i : Nat} (hi : i ∈ s.rd.queue) :
    (s.headParked i).state.Agrees := by
  unfold State.headParked
  split
  · exact h.refuseKind hi _ ‹_›
  · split
    · exact h.tryStart hi ‹_›
    · exact h

theorem State.Agrees.lookAtHead {s : State} (h : s.Agrees) : s.lookAtHead.state.Agrees := by
  unfold State.lookAtHead
  split
  · split
    · exact h.toErasing
    · exact h
  · rename_i i hi
    have hq := s.mem_queue_of_head hi
    split
    · exact h.headNoBatch hq ‹_›
    · exact h.headGathering hq ‹_›
    · exact h.headErasing hq
    · exact h.headYielded hq ‹_›
    · exact h.headParked hq

/-- The head examination keeps coherence (R96). -/
theorem State.Agrees.examine {s : State} (h : s.Agrees) : s.examine.Agrees := by
  have hloop : ∀ (n : Nat) (t : State), t.Agrees → (examineFor n t).Agrees := by
    intro n
    induction n with
    | zero => exact fun t ht => ht
    | succ n ih =>
      intro t ht
      have hlook := ht.lookAtHead
      unfold examineFor
      split
      · rename_i u hu
        rw [hu] at hlook
        exact hlook
      · rename_i u hu
        rw [hu] at hlook
        exact ih u hlook
  exact hloop _ s h

theorem State.Agrees.examineIfMoved {s : State} (h : s.Agrees) (before : State) : (s.examineIfMoved before).Agrees := by
  unfold State.examineIfMoved
  split
  · exact h
  · exact h.examine

/-- The engine has entered Idle (R112, R141, R156). -/
theorem State.Agrees.engineFreed {s : State} (h : s.Agrees) : s.engineFreed.Agrees := by
  unfold State.engineFreed
  split
  · rename_i hc
    simp only [Bool.and_eq_true, decide_eq_true_eq] at hc
    exact (h.beginWork hc.1 ((s.engineIdle_iff).mp hc.2)).examine
  · exact h.examine

end Sys2Proof.Machine
end

