-- ==== Sys2Proof/Proofs/StepNeverStops.lean ====
section
/-!
PROOFS. The engine's steps, the session, the requests, the supply and the device's own step keep coherence; the last
theorem settles O3.
-/

namespace Sys2Proof.Machine

/-! ### The end and the suspension of a sector's work -/

/-- The engine goes on with the sector it holds (R144). -/
theorem State.Agrees.keepErasing {s : State} (h : s.Agrees) {op op' : EraseOp} (he : s.ae.engine = .erasingSector op)
    (hs : op'.sector = op.sector) : (s.keepEngine (.erasingSector op')).Agrees := by
  have hb := he ▸ h.batch
  have hheld : s.bc.held = none := hb.single op rfl
  refine ⟨h.slots.shrink rfl (List.Subset.refl _) (.inr rfl) (List.Sublist.refl _), h.ledger,
    ⟨?_, fun _ _ => hheld, fun k => ?_, fun _ _ => hb.atWork op (.inl rfl), hb.sectors, hb.rising, hb.empty, hb.pending⟩⟩
  · exact (congrArg (fun k => decide (k < sectorCount)) hs).trans hb.inArray
  · have hk := hb.hand k
    simp only [InHand, Engine.hand, hheld] at hk
    simpa [InHand, Engine.hand, hheld, hs] using hk

/-- The sector in hand is suspended: the batch holds it, the engine is Idle (R151, R154). -/
theorem State.Agrees.suspendSector {s : State} (h : s.Agrees) {op op' : EraseOp} (he : s.ae.engine = .erasingSector op)
    (hs : op'.sector = op.sector) : (s.suspendSector op').Agrees := by
  have hb := he ▸ h.batch
  have hheld : s.bc.held = none := hb.single op rfl
  have hw := hb.atWork op (.inl rfl)
  refine State.Agrees.engineFreed ⟨h.slots.shrink rfl (List.Subset.refl _) (.inr rfl) (List.Sublist.refl _), h.ledger,
    ⟨rfl, fun op hop => by simp [Engine.hand] at hop, fun k => ?_, fun _ _ => hw, hb.sectors, hb.rising, fun hn => ?_,
      hb.pending⟩⟩
  · have hk := hb.hand k
    simp only [InHand, Engine.hand, hheld] at hk
    simpa [InHand, Engine.hand, hs] using hk
  · rw [show s.bc.state = .none from hn] at hw
    cases hw

theorem State.Agrees.sectorGoesOn {s : State} (h : s.Agrees) {op op' : EraseOp} (he : s.ae.engine = .erasingSector op)
    (hs : op'.sector = op.sector) : (s.sectorGoesOn op').Agrees := by
  unfold State.sectorGoesOn
  split
  · exact h.suspendSector he hs
  · exact h.keepErasing he hs

/-- The batch of which the sector in hand is done is settled. -/
theorem Batch.Agrees.closed {b : Batch} {op : EraseOp} (h : b.Agrees (.erasingSector op)) (o : SectorOutcome) :
    (b.setRole op.sector (.done o)).Settled where
  held := h.single op rfl
  noErasing k hk := by
    rcases (b.mem_setRole op.sector (.done o) k .erasing).mp hk with ⟨hne, hk⟩ | ⟨-, he, -⟩
    · obtain ⟨op', hop' | hop', rfl⟩ := (h.hand k).mp hk
      · cases hop'
        exact hne rfl
      · rw [h.single op rfl] at hop'
        cases hop'
    · cases he
  sectors := b.setRole_sectors _ _ h.sectors
  rising := by rw [b.keys_setRole]; exact h.rising

/-- What the end of a sector's work leaves: an Idle engine, the sector done, the slots as before (R127, R145). -/
theorem State.closeSector_work (s : State) (k : Nat) (o : SectorOutcome) :
    (s.closeSector k o).bc = s.bc.setRole k (.done o) ∧ (s.closeSector k o).ae.engine = .idle ∧
      (s.closeSector k o).rd = s.rd ∧ (s.closeSector k o).ledger.length = s.ledger.length := by
  unfold State.closeSector
  dsimp only
  split <;> simp [State.ledgerClose, State.raise]

/-- A sector's work ends, and what follows it (R145). -/
theorem State.Agrees.closeSector {s : State} (h : s.Agrees) {op : EraseOp} (he : s.ae.engine = .erasingSector op)
    (o : SectorOutcome) : (s.closeSector op.sector o).afterSector.Agrees := by
  obtain ⟨hbc, hidle, hrd, hled⟩ := s.closeSector_work op.sector o
  have hb := he ▸ h.batch
  have hset := hb.closed o
  have hw : (s.bc.setRole op.sector (.done o)).state.atWork = true := hb.atWork op (.inl rfl)
  have hclosed : (s.closeSector op.sector o).Agrees := by
    refine ⟨?_, hled.trans h.ledger, ?_⟩
    · rw [hrd, hidle, hbc]
      exact h.slots.shrink rfl (List.Subset.refl _) (.inr rfl) (List.Sublist.refl _)
    · rw [hbc, hidle]
      exact hset.agrees hw rfl rfl
  unfold State.afterSector
  split
  · have hreach := (hclosed.handFree (by rw [hidle]; rfl)).reachFrom _ (hbc.symm ▸ hset) (hbc.symm ▸ hw)
      (Batch.pendingSectors_subset _)
    dsimp only
    split
    · exact hreach.examine
    · exact hreach.examineIfMoved _
  · exact hclosed.finishIfDone.examine

theorem State.Agrees.sectorStep {s : State} (h : s.Agrees) {op : EraseOp} (he : s.ae.engine = .erasingSector op)
    (allErased : Bool) : (s.sectorStep op allErased).Agrees := by
  unfold State.sectorStep
  split
  · split <;> exact h.sectorGoesOn he rfl
  · split
    · exact h.closeSector he _
    · split
      · exact h.sectorGoesOn he rfl
      · exact h.closeSector he _

/-! ### Steps of the other operations -/

/-- Fields of other blocks are no matter of coherence. -/
theorem State.Agrees.congr {s t : State} (h : s.Agrees) (hrd : t.rd = s.rd) (hae : t.ae.engine = s.ae.engine)
    (hbc : t.bc = s.bc) (hl : t.ledger = s.ledger) : t.Agrees :=
  ⟨by rw [hrd, hae, hbc]; exact h.slots, by rw [hl]; exact h.ledger, by rw [hbc, hae]; exact h.batch⟩

/-- The end of the running operation frees the engine (R100, R112). -/
theorem State.Agrees.finishFreed {s : State} (h : s.Agrees) {i : Nat} (hi : s.ae.engine.slot? = some i) (st : Status)
    (results : List Byte) : (s.finishRunning i st results).engineFreed.Agrees := (h.finishRunning hi st results).engineFreed

theorem State.Agrees.readDone {s : State} (h : s.Agrees) {op : ReadOp} (he : s.ae.engine = .reading op) :
    (s.readDone op).Agrees :=
  State.Agrees.finishFreed (s := s.spendFree op.count) (h.congr rfl rfl rfl rfl)
    (by rw [show (s.spendFree op.count).ae.engine = .reading op from he]; rfl) _ _

theorem State.Agrees.programNext {s : State} (h : s.Agrees) {op op' : ProgramOp} (he : s.ae.engine = .programming op)
    (hslot : op'.slot = op.slot) (haddr : op'.addr = op.addr) (hdata : op'.data = op.data) : (s.programNext op').Agrees := by
  have hs : s.ae.engine.slot? = some op'.slot := by rw [he, hslot]; rfl
  unfold State.programNext
  split
  · refine h.keepEngine hs.symm (by rw [he]; rfl) rfl ?_
    have hin := h.batch.inArray
    rw [he] at hin
    simpa only [Engine.inArray, haddr, hdata] using hin
  · exact h.finishFreed hs _ _

theorem State.Agrees.programOctet {s : State} (h : s.Agrees) {op : ProgramOp} (he : s.ae.engine = .programming op)
    (d : Byte) (pulses : List Byte) : (s.programOctet op d pulses).Agrees := by
  have hw : ∀ m : Memory, State.Agrees { s with array := m } := fun m => h.congr rfl rfl rfl rfl
  unfold State.programOctet
  dsimp only
  split
  · exact h.programNext he rfl rfl rfl
  · split
    · exact (hw _).programNext he rfl rfl rfl
    · exact (hw _).finishFreed (by rw [he]; rfl) _ _

theorem State.Agrees.checkLine {s : State} (h : s.Agrees) {op : CheckOp} (he : s.ae.engine = .checking op) :
    (s.checkLine op).Agrees := by
  have hw : (s.spendFree op.stepLength).Agrees := h.congr rfl rfl rfl rfl
  have he' : (s.spendFree op.stepLength).ae.engine = .checking op := he
  unfold State.checkLine
  dsimp only
  split
  · refine hw.keepEngine (by rw [he']; rfl) (by rw [he']; rfl) rfl ?_
    have hin := h.batch.inArray
    rw [he] at hin
    exact hin
  · exact hw.finishFreed (by rw [he']; rfl) _ _

/-- A Storing operation goes on in another stage of the same slot (R170, R172, R205). -/
theorem State.Agrees.keepStoring {s : State} (h : s.Agrees) {sop sop' : StoreOp} (he : s.ae.engine = .storing sop)
    (hs : sop'.slot = sop.slot) : (s.keepEngine (.storing sop')).Agrees :=
  h.keepEngine (by rw [he]; exact congrArg some hs) (by rw [he]; rfl) rfl rfl

theorem State.Agrees.storeDone {s : State} (h : s.Agrees) {sop : StoreOp} (he : s.ae.engine = .storing sop)
    (st : Status) (results : List Byte) : (s.finishRunning sop.slot st results).engineFreed.Agrees :=
  h.finishFreed (by rw [he]; rfl) st results

theorem State.Agrees.protectStep {s : State} (h : s.Agrees) {slot group : Nat} {bitRead : Bool} {n : Nat}
    (he : s.ae.engine = .storing (.protect slot group bitRead n)) (verified : Bool) :
    (s.protectStep slot group bitRead n verified).Agrees := by
  have hw : ∀ u : ProtectionUnit, State.Agrees { s with pu := u } := fun u => h.congr rfl rfl rfl rfl
  have hdone : ∀ (u : ProtectionUnit) (st : Status),
      (State.finishRunning { s with pu := u } slot st []).engineFreed.Agrees :=
    fun u st => (hw u).storeDone he st []
  unfold State.protectStep
  dsimp only
  split
  · split
    · exact h.storeDone he _ _
    · exact h.keepStoring he rfl
  · split
    · exact hdone _ .ok
    · split
      · exact (hw _).keepStoring he rfl
      · exact hdone _ .storeFault

theorem State.Agrees.unprotectStep {s : State} (h : s.Agrees) {slot : Nat} {opened : Bool} {n : Nat}
    (he : s.ae.engine = .storing (.unprotect slot opened n)) (bits cells : Word16) :
    (s.unprotectStep slot opened n bits cells).Agrees := by
  have hw : ∀ u : ProtectionUnit, State.Agrees { s with pu := u } := fun u => h.congr rfl rfl rfl rfl
  have hdone : ∀ (u : ProtectionUnit) (st : Status),
      (State.finishRunning { s with pu := u } slot st []).engineFreed.Agrees :=
    fun u st => (hw u).storeDone he st []
  unfold State.unprotectStep
  dsimp only
  split
  · exact (hw _).keepStoring he rfl
  · split
    · exact hdone _ .ok
    · split
      · exact (hw _).keepStoring he rfl
      · exact hdone _ .storeFault

theorem State.Agrees.configStep {s : State} (h : s.Agrees) {slot : Nat} {record : Settings} {target : CopyId}
    {generation : Byte} {stage : CopyStage} (he : s.ae.engine = .storing (.config slot record target generation stage))
    (erased : Bool) (pulses : List Byte) :
    (s.configStep slot record target generation stage erased pulses).Agrees := by
  have hw : ∀ c : StoredCopy, (s.setCopy target c).Agrees := fun c => h.congr rfl rfl rfl rfl
  cases stage with
  | clearMark => exact (hw _).keepStoring he rfl
  | eraseCopy n =>
    simp only [State.configStep]
    split
    · exact (hw _).keepStoring he rfl
    · split
      · exact h.keepStoring he rfl
      · exact h.storeDone he _ _
  | programOctet index pulseCount =>
    simp only [State.configStep]
    split
    · exact (hw _).storeDone he _ _
    · split <;> exact (hw _).keepStoring he rfl
  | commit => exact (hw _).storeDone he _ _

/-- A step of the engine keeps coherence, whichever operation it carries. -/
theorem State.Agrees.engineStep {s t : State} (h : s.Agrees) {c : Instr} (hc : isEngineStep c = true)
    (ht : exec c s = .next t) : t.Agrees := by
  rcases exec_engineStep_cases c s t hc ht with rfl | ⟨op, he, rfl⟩ | ⟨op, he, ⟨rfl, -⟩ | ⟨d, pulses, -, rfl⟩⟩ |
    ⟨op, he, rfl⟩ | ⟨slot, group, bitRead, n, verified, he, rfl⟩ | ⟨slot, opened, n, bits, cells, he, rfl⟩ |
    ⟨slot, record, target, generation, stage, erased, pulses, he, rfl⟩ | ⟨op, allErased, he, rfl⟩
  · exact h
  · exact h.readDone he
  · exact h.programNext he rfl rfl rfl
  · exact h.programOctet he d pulses
  · exact h.checkLine he
  · exact h.protectStep he verified
  · exact h.unprotectStep he bits cells
  · exact h.configStep he erased pulses
  · exact h.sectorStep he allErased

/-- A step of the engine raises no fault where the operation lies in the array (R109). -/
theorem exec_engineStep_next (c : Instr) (s : State) (hc : isEngineStep c = true) (hin : s.ae.engine.inArray = true) :
    ∃ t, exec c s = .next t := by
  cases c with
  | readComplete =>
    simp only [exec, execReadComplete]
    split
    · rename_i op he
      rw [he] at hin
      exact ⟨_, if_pos hin⟩
    · exact ⟨_, rfl⟩
  | programStep pulses =>
    simp only [exec, execProgramStep]
    split
    · rename_i op he
      rw [he] at hin
      rw [if_pos (show spanInArray op.addr op.data.length = true from hin)]
      split <;> exact ⟨_, rfl⟩
    · exact ⟨_, rfl⟩
  | checkRegionStep =>
    simp only [exec, execCheckRegionStep]
    split
    · rename_i op he
      rw [he] at hin
      exact ⟨_, if_pos hin⟩
    · exact ⟨_, rfl⟩
  | protectGroupStep =>
    simp only [exec, execProtectGroupStep]
    split <;> exact ⟨_, rfl⟩
  | unprotectAllStep =>
    simp only [exec, execUnprotectAllStep]
    split <;> exact ⟨_, rfl⟩
  | configStoreStep =>
    simp only [exec, execConfigStoreStep]
    split <;> exact ⟨_, rfl⟩
  | sectorEraseStep =>
    simp only [exec, execSectorEraseStep]
    split <;> exact ⟨_, rfl⟩
  | _ => simp [isEngineStep] at hc

/-! ### What only lets go -/

/-- Nobody gains a slot: the queue, the engine's slot and the members shrink. -/
structure State.LetsGo (s t : State) : Prop where
  queue : t.rd.queue ⊆ s.rd.queue
  engine : t.ae.engine.slot? = s.ae.engine.slot? ∨ t.ae.engine.slot? = none
  members : t.bc.members ⊆ s.bc.members

theorem State.LetsGo.refl (s : State) : s.LetsGo s := ⟨List.Subset.refl _, .inl rfl, List.Subset.refl _⟩

theorem State.LetsGo.trans {a b c : State} (h : a.LetsGo b) (k : b.LetsGo c) : a.LetsGo c where
  queue := List.Subset.trans k.queue h.queue
  engine := k.engine.elim (fun e => e ▸ h.engine) .inr
  members := List.Subset.trans k.members h.members

/-- A slot that nobody uses stays so. -/
theorem State.Unused.letsGo {s t : State} {i : Nat} (h : s.Unused i) (hl : s.LetsGo t) : t.Unused i := by
  obtain ⟨hq, hr, hm⟩ := h
  refine ⟨fun hi => hq (hl.queue hi), fun hi => ?_, fun m hmem => hm m (hl.members hmem)⟩
  rcases hl.engine with he | he
  · exact hr (he ▸ hi)
  · rw [he] at hi
    cases hi

theorem State.finishBatch_letsGo (s : State) : s.LetsGo s.finishBatch := by
  obtain ⟨hbc, hae, -, hq⟩ := s.finishBatch_work
  exact ⟨hq ▸ List.Subset.refl _, .inl (by rw [hae]), by rw [hbc]; exact List.nil_subset _⟩

theorem State.abortBatch_letsGo (s : State) : s.LetsGo s.abortBatch :=
  State.LetsGo.trans (b := { s with bc := { s.bc.abortRest with held := none } })
    ⟨List.Subset.refl _, .inl rfl, List.Subset.refl _⟩ (State.finishBatch_letsGo _)

theorem State.openSector_letsGo (s : State) (k : Nat) : s.LetsGo (s.openSector k) := by
  simp only [State.openSector]
  split <;> exact ⟨List.Subset.refl _, .inr rfl, List.Subset.refl _⟩

theorem reachFrom_letsGo (ks : List Nat) (s : State) : s.LetsGo (reachFrom ks s) := by
  induction ks generalizing s with
  | nil => exact s.finishBatch_letsGo
  | cons k rest ih =>
    unfold reachFrom
    split
    · exact s.abortBatch_letsGo
    · split
      · exact State.LetsGo.trans (b := s.skipSector k) ⟨List.Subset.refl _, .inl rfl, List.Subset.refl _⟩ (ih _)
      · exact s.openSector_letsGo k

theorem State.enterErasing_letsGo (s : State) : s.LetsGo s.enterErasing := by
  have h0 : s.LetsGo { s with bc := { s.bc with state := .erasing, gather := .stopped } } :=
    ⟨List.Subset.refl _, .inl rfl, List.Subset.refl _⟩
  unfold State.enterErasing
  dsimp only
  split
  · refine h0.trans ?_
    unfold State.beginWork
    split
    · split
      · exact State.abortBatch_letsGo _
      · exact ⟨List.Subset.refl _, .inr rfl, List.Subset.refl _⟩
    · exact reachFrom_letsGo _ _
  · exact h0

theorem State.parkBatch_letsGo (s : State) : s.LetsGo s.parkBatch := by
  unfold State.parkBatch
  split <;> exact ⟨List.Subset.refl _, .inl rfl, List.Subset.refl _⟩

theorem State.unparkBatch_letsGo (s : State) : s.LetsGo s.unparkBatch := by
  have h := s.enterErasing_letsGo
  unfold State.unparkBatch
  split
  · dsimp only
    split
    · exact ⟨h.queue, h.engine, h.members⟩
    · exact h
  · exact State.LetsGo.refl s

theorem State.finishIfDone_letsGo (s : State) : s.LetsGo s.finishIfDone := by
  unfold State.finishIfDone
  split
  · exact State.LetsGo.refl s
  · exact s.finishBatch_letsGo

theorem State.afterWithdrawal_letsGo (s : State) : s.LetsGo s.afterWithdrawal := by
  unfold State.afterWithdrawal
  split
  · split
    · exact State.LetsGo.refl s
    · exact ⟨List.Subset.refl _, .inl rfl, List.nil_subset _⟩
  · exact s.finishIfDone_letsGo

theorem State.cancelMember_letsGo (s : State) (m : Member) : s.LetsGo (s.cancelMember m) := by
  unfold State.cancelMember
  dsimp only
  refine State.LetsGo.trans ?_ (State.afterWithdrawal_letsGo _)
  split
  · rw [State.releaseSlot_eq, State.orphanResult_eq]
    exact ⟨List.Subset.refl _, .inl rfl, List.filter_subset_self _⟩
  · exact ⟨List.Subset.refl _, .inl rfl, List.filter_subset_self _⟩

/-! ### Parking and cancelling -/

theorem State.Agrees.parkBatch {s : State} (h : s.Agrees) : s.parkBatch.Agrees := by
  unfold State.parkBatch
  split
  · exact h
  · exact h
  · exact ⟨h.slots, h.ledger, h.batch.restate rfl rfl (.inl rfl)⟩

/-- An unpark returns the batch to Erasing; with the engine at a sector its spacing timer starts besides (R156). -/
theorem State.Agrees.unparkBatch {s : State} (h : s.Agrees) : s.unparkBatch.Agrees := by
  unfold State.unparkBatch
  split
  · dsimp only
    split
    · rename_i op he
      have hbusy : s.enterErasing = { s with bc := { s.bc with state := .erasing, gather := .stopped } } := by
        unfold State.enterErasing State.engineIdle
        simp [he]
      rw [hbusy]
      exact ⟨h.slots, h.ledger, h.batch.restate rfl rfl (.inl rfl)⟩
    · exact h.toErasing
  · exact h

/-- What a member withdraws is Pending, so the sectors in hand stay (R161). -/
theorem Batch.Agrees.withdraw {b : Batch} {e : Engine} (h : b.Agrees e) (m : Member) (hne : b.state ≠ .none) :
    (b.withdraw m).Agrees e where
  inArray := h.inArray
  single := h.single
  hand k := by
    refine Iff.trans ?_ (h.hand k)
    refine ⟨fun hk => (List.mem_filter.mp hk).1, fun hk => List.mem_filter.mpr ⟨hk, ?_⟩⟩
    have hrole : b.role k = some .erasing := (b.role_eq_some_iff h.rising k _).mpr hk
    simp [Batch.withdrawable, hrole]
  atWork := h.atWork
  sectors x hx := h.sectors x (List.mem_filter.mp hx).1
  rising := h.rising.sublist (List.filter_sublist.map _)
  empty hn := absurd hn hne
  pending hg x hx := h.pending hg x (List.mem_filter.mp hx).1

/-- After the withdrawals of a CANCEL the batch goes on, is dissolved, or completes (R162). -/
theorem State.Agrees.afterWithdrawal {s : State} (h : s.Agrees) : s.afterWithdrawal.Agrees := by
  unfold State.afterWithdrawal
  split
  · rename_i hm
    split
    · exact h
    · rename_i hno
      have hhand : s.ae.engine.hand = none := by
        cases he : s.ae.engine.hand with
        | none => rfl
        | some op =>
          exact absurd (List.any_eq_true.mpr ⟨_, (h.batch.hand op.sector).mpr ⟨op, .inl he, rfl⟩, rfl⟩) hno
      exact ⟨h.slots.shrink rfl (List.Subset.refl _) (.inl rfl) (List.nil_sublist _), h.ledger,
        Batch.agrees_empty hhand h.batch.inArray⟩
  · exact h.finishIfDone

/-- A CANCEL takes a member out of its batch (R161 to R163). -/
theorem State.Agrees.cancelMember {s : State} (h : s.Agrees) {m : Member} (hm : m ∈ s.bc.members) :
    (s.cancelMember m).Agrees := by
  have hne : s.bc.state ≠ .none := fun hn => by
    rw [h.batch.empty hn] at hm
    cases hm
  have hb := h.slots.batched m hm
  have h1 : State.Agrees { s with bc := s.bc.withdraw m } :=
    ⟨h.slots.shrink rfl (List.Subset.refl _) (.inl rfl) List.filter_sublist, h.ledger, h.batch.withdraw m hne⟩
  have hun : State.Unused { s with bc := s.bc.withdraw m } m.slot := by
    refine ⟨fun hq => ?_, fun hr => ?_, fun o ho he => ?_⟩
    · exact absurd (hb.symm.trans (h.slots.queued _ hq).1) (by decide)
    · exact absurd (hb.symm.trans (h.slots.running _ hr)) (by decide)
    · have hkeep := (List.mem_filter.mp ho).2
      simp [he] at hkeep
  unfold State.cancelMember
  dsimp only
  split
  · refine ((h1.orphanResult _ _ _ _ _).releaseSlot ?_).afterWithdrawal
    rw [State.orphanResult_eq]
    exact hun
  · exact (h1.answer hun _ _).afterWithdrawal

/-! ### Services -/

/-- A service keeps coherence, given a slot that is Answered and a request that lies in the array. -/
def Service.KeepsCoherence (service : Service) : Prop :=
  ∀ (i : Nat) (s : State), s.Agrees → (s.slot i).state = .answered → (s.slot i).request.inArray = true →
    (service i s).Agrees

theorem respond_keepsCoherence (st : Status) (results : State → List Byte) :
    Service.KeepsCoherence (respond st results) :=
  fun _ s h hi _ => h.answer (h.unused_of_answered hi) st (results s)

/-- A request in the array joins the queue (R94). -/
theorem enqueue_keepsCoherence : Service.KeepsCoherence enqueue := by
  intro i s h hi hin
  have hset := h.slots.set_unused (h.unused_of_answered hi) { s.slot i with state := .queued } s.rd.nextCompletion
  have hself : (s.rd.slots.set i { s.slot i with state := .queued }).getD i {} = { s.slot i with state := .queued } :=
    getD_set_self _ _ (s.rd.lt_of_state (by rw [show (s.rd.slots.getD i {}).state = .answered from hi]; decide))
  have hjoined : State.Agrees { (s.setSlotState i .queued) with
      rd := { (s.setSlotState i .queued).rd with queue := (s.setSlotState i .queued).rd.queue ++ [i] } } := by
    refine ⟨⟨hset.length, fun j hj => ?_, hset.running, hset.batched, hset.distinct⟩, h.ledger, h.batch⟩
    rcases List.mem_append.mp hj with hj | hj
    · exact hset.queued j hj
    · cases List.mem_singleton.mp hj
      show ((s.rd.slots.set i { s.slot i with state := .queued }).getD i {}).state = .queued ∧
        ((s.rd.slots.set i { s.slot i with state := .queued }).getD i {}).request.inArray = true
      rw [hself]
      exact ⟨rfl, hin⟩
  unfold enqueue
  dsimp only
  split
  · exact hjoined.examine
  · exact hjoined

theorem parkService_keepsCoherence : Service.KeepsCoherence parkService := by
  intro i s h hi _
  have hun := h.unused_of_answered hi
  unfold parkService
  split
  · exact h.answer hun _ _
  · exact (h.parkBatch.answer (hun.letsGo s.parkBatch_letsGo) _ _).examineIfMoved _

theorem unparkService_keepsCoherence : Service.KeepsCoherence unparkService := by
  intro i s h hi _
  have hun := h.unused_of_answered hi
  unfold unparkService
  split
  · exact h.answer hun _ _
  · exact (h.unparkBatch.answer (hun.letsGo s.unparkBatch_letsGo) _ _).examineIfMoved _

theorem cancelService_keepsCoherence (target : Byte) : Service.KeepsCoherence (cancelService target) := by
  intro i s h hi _
  have hun := h.unused_of_answered hi
  unfold cancelService
  split
  · exact h.answer hun _ _
  · rename_i j _
    split
    · exact h.answer hun _ _
    · rename_i hj
      have hleft : (s.unqueue j).Agrees := ⟨h.slots.unqueue j, h.ledger, h.batch⟩
      have hi' : (s.unqueue j).Unused i := hun.letsGo ⟨List.filter_subset_self _, .inl rfl, List.Subset.refl _⟩
      have hboth := (hleft.answer (h.slots.unused_of_unqueued hj) .cancelled []).answer hi' .ok [1]
      unfold State.cancelQueued
      dsimp only
      split
      · exact hboth.examine
      · exact hboth
    · exact h.answer hun _ _
    · unfold State.cancelBatched
      split
      · rename_i m hm
        exact ((h.cancelMember (List.mem_of_find?_eq_some hm)).answer
          (hun.letsGo (s.cancelMember_letsGo m)) _ _).examineIfMoved _
      · exact h.answer hun _ _
    · exact h.answer hun _ _

/-- New settings change the active record and the keepalive timer (R203). -/
theorem State.applySettings_work (s : State) (r : Settings) :
    (s.applySettings r).rd = s.rd ∧ (s.applySettings r).ae = s.ae ∧ (s.applySettings r).bc = s.bc ∧
      (s.applySettings r).ledger = s.ledger := by
  unfold State.applySettings
  dsimp only
  split <;> exact ⟨rfl, rfl, rfl, rfl⟩

/-- The slots are those of the Dispatcher. -/
theorem State.slot_of_rd (s : State) {t : State} (h : t.rd = s.rd) (i : Nat) : t.slot i = s.slot i := by
  unfold State.slot
  rw [h]

/-- Every request's service keeps coherence (R93, R94). -/
theorem Request.service_keepsCoherence (r : Request) : Service.KeepsCoherence r.service := by
  cases r with
  | unknown | sectorInfo | configGet | identify | ping => exact respond_keepsCoherence _ _
  | read | program | checkRegion | eraseSectors | eraseAll | protectGroup | unprotectAll | configStore =>
    exact enqueue_keepsCoherence
  | parkErase => exact parkService_keepsCoherence
  | unparkErase => exact unparkService_keepsCoherence
  | cancel target => exact cancelService_keepsCoherence target
  | lockGroups mask =>
    exact fun i s h hi _ => State.Agrees.answer (s := s.lockGroups mask) (h.congr rfl rfl rfl rfl)
      (h.unused_of_answered hi) _ _
  | configSet pairs =>
    intro i s h hi _
    obtain ⟨hrd, hae, hbc, hled⟩ := s.applySettings_work (s.cs.active.applyPairs pairs)
    have hset := h.congr (t := s.applySettings (s.cs.active.applyPairs pairs)) hrd (by rw [hae]) hbc hled
    exact hset.answer (hset.unused_of_answered ((congrArg Slot.state (s.slot_of_rd hrd i)).trans hi)) _ _
  | status flags =>
    intro i s h hi _
    have hans := h.answer (h.unused_of_answered hi) .ok s.statusResults
    show State.Agrees (statusService flags i s)
    unfold statusService
    dsimp only
    split
    · exact hans.congr rfl rfl rfl rfl
    · exact hans
  | attnControl c w e =>
    exact fun i s h hi _ => State.Agrees.answer (s := s.attnUpdate c w e) (h.congr rfl rfl rfl rfl)
      (h.unused_of_answered hi) _ _
  | logTake maximum =>
    intro i s h hi _
    show State.Agrees (logTakeService maximum i s)
    unfold logTakeService
    split
    · exact h.answer (h.unused_of_answered hi) _ _
    · dsimp only
      rw [State.endStep_eq]
      exact (State.Agrees.answer (s := s.takeRecords maximum.toNat) (h.congr rfl rfl rfl rfl)
        (h.unused_of_answered hi) _ _).congr rfl rfl rfl rfl

/-! ### The session -/

/-- A list read at a place after a change of every entry that keeps the Free one. -/
theorem getD_map_free (l : List Slot) (f : Slot → Slot) (hf : f {} = {}) (i : Nat) :
    (l.map f).getD i {} = f (l.getD i {}) := by
  simp only [List.getD_eq_getElem?_getD, List.getElem?_map]
  cases l[i]? with
  | none => exact hf.symm
  | some x => rfl

/-- A teardown leaves Running and Batched slots in use, orphaned, and empties the queue (R106). -/
theorem State.Agrees.dropSlots {s : State} (h : s.Agrees) : s.dropSlots.Agrees := by
  have hkeep : ∀ (i : Nat) (st : SlotState), (s.rd.slots.getD i {}).state = st → st = .running ∨ st = .batched →
      ((s.rd.slots.map Slot.afterTeardown).getD i {}).state = st := by
    intro i st hi hst
    rw [getD_map_free _ _ rfl, Slot.afterTeardown]
    rcases hst with rfl | rfl <;> simp only [hi]
  exact ⟨⟨by simpa using h.slots.length, by simp, fun i hi => hkeep i _ (h.slots.running i hi) (.inl rfl),
    fun m hm => hkeep m.slot _ (h.slots.batched m hm) (.inr rfl), h.slots.distinct⟩, h.ledger, h.batch⟩

theorem State.Agrees.teardown {s : State} (h : s.Agrees) (r : TeardownReason) : (s.teardown r).Agrees := by
  have hdrop := h.dropSlots.unparkBatch
  unfold State.teardown
  split
  · dsimp only
    rw [State.offer_eq]
    split <;> exact hdrop.congr rfl rfl rfl rfl
  · exact h

theorem State.Agrees.retryOnce {s : State} (h : s.Agrees) : s.retryOnce.Agrees := by
  unfold State.retryOnce
  dsimp only
  split
  · exact State.Agrees.teardown (s := { s with su := { s.su with retry := s.su.retry + 1 } }) (h.congr rfl rfl rfl rfl) _
  · exact h.congr rfl rfl rfl rfl

theorem State.Agrees.touchKeepalive {s : State} (h : s.Agrees) : s.touchKeepalive.Agrees := by
  rw [State.touchKeepalive_eq]
  exact h.congr rfl rfl rfl rfl

theorem State.Agrees.appendReply {s : State} (h : s.Agrees) (tag : Byte) (status : ReplyStatus) :
    (s.appendReply tag status).Agrees := by
  unfold State.appendReply
  split
  · exact h.congr rfl rfl rfl rfl
  · exact h

theorem State.Agrees.withNr {s : State} (h : s.Agrees) (nr : Seq) {rest : State → State}
    (hrest : ∀ t : State, t.Agrees → (rest t).Agrees) : (s.withNr nr rest).Agrees := by
  unfold State.withNr
  dsimp only
  split
  · rw [State.endStep_eq]
    refine State.Agrees.congr (hrest (s.touchKeepalive.acknowledge nr) ?_) rfl rfl rfl rfl
    rw [State.acknowledge_eq]
    exact h.touchKeepalive.congr rfl rfl rfl rfl
  · exact h.touchKeepalive.teardown _

theorem State.Agrees.receiveHail {s : State} (h : s.Agrees) (tag : Byte) (payload : List Byte) :
    (s.receiveHail tag payload).Agrees := by
  have hk : State.Agrees (if s.isAttached then s.touchKeepalive else s) := by
    split
    · exact h.touchKeepalive
    · exact h
  unfold State.receiveHail
  dsimp only
  split
  · exact (hk.teardown .rehail).congr rfl rfl rfl rfl
  · exact hk.appendReply _ _

theorem State.Agrees.receiveAck {s : State} (h : s.Agrees) (nr : Seq) (payload : List Byte) :
    (s.receiveAck nr payload).Agrees := by
  unfold State.receiveAck
  split
  · exact h.withNr nr (fun t ht => ht.congr rfl rfl rfl rfl)
  · exact h.congr rfl rfl rfl rfl

theorem State.Agrees.receiveRej {s : State} (h : s.Agrees) (nr : Seq) : (s.receiveRej nr).Agrees := by
  unfold State.receiveRej
  split
  · refine h.withNr nr (fun t ht => ?_)
    have hcount : State.Agrees { t with su := { t.su with rejReceived := t.su.rejReceived + 1 } } :=
      ht.congr rfl rfl rfl rfl
    unfold State.rejAfterNr
    dsimp only
    split
    · exact hcount
    · exact hcount.retryOnce
  · exact h.congr rfl rfl rfl rfl

/-! ### Acceptance -/

/-- A span that a PROGRAM's static checks let pass lies in the array (R118). -/
theorem programCheck_inArray (mode : Byte) (addr : Word24) (data : List Byte) (h : programCheck mode addr data = none) :
    (Request.program mode addr data).inArray = true := by
  unfold programCheck at h
  split at h
  · cases h
  · split at h
    · cases h
    · split at h
      · cases h
      · simp only [Request.inArray, spanInArray, Bool.and_eq_true, decide_eq_true_eq]
        simp only [arraySize, lineSize] at *
        omega

/-- A request that passes its static checks lies in the array (R85, R109). -/
theorem Request.inArray_of_staticCheck (r : Request) (h : staticCheck r = none) : r.inArray = true := by
  cases r with
  | read addr count =>
    simp only [staticCheck, readCheck] at h
    split at h
    · cases h
    · split at h
      · assumption
      · cases h
  | program mode addr data => exact programCheck_inArray mode addr data h
  | checkRegion addr len =>
    simp only [staticCheck, checkRegionCheck] at h
    split at h
    · cases h
    · split at h
      · assumption
      · cases h
  | eraseSectors sectors =>
    simp only [staticCheck, eraseSectorsCheck] at h
    split at h
    · assumption
    · cases h
  | _ => rfl

/-- The Free slot that a new request takes is Free (R87). -/
theorem State.slot_freeSlot (s : State) {i : Nat} (h : s.freeSlot = some i) : (s.slot i).state = .free := by
  obtain ⟨hlt, hp, -⟩ := List.findIdx?_eq_some_iff_getElem.mp h
  have hi : s.slot i = s.rd.slots[i] := by simp [State.slot, List.getD_eq_getElem?_getD, hlt]
  exact hi ▸ beq_iff_eq.mp hp

/-- Acceptance keeps coherence where what passes the check lies in the array (R91). -/
theorem State.Agrees.accept {s : State} (h : s.Agrees) {i : Nat} (hi : (s.slot i).state = .free)
    (hlt : i < s.rd.slots.length) (tag : Byte) (r : Request) {check : Option (Status × List Byte)} {service : Service}
    (hserv : service.KeepsCoherence) (hcheck : check = none → r.inArray = true) :
    (s.accept i tag r check service).Agrees := by
  have hun : s.Unused i := h.slots.unused (.inl hi)
  have htake : (s.takeSlot i tag r).Agrees := ⟨h.slots.set_unused hun _ s.rd.nextCompletion, h.ledger, h.batch⟩
  have hself : (s.takeSlot i tag r).slot i = { state := .answered, tag := tag, request := r } :=
    s.slot_setSlot_same _ hlt
  have hans : (s.takeSlot i tag r).Unused i := htake.unused_of_answered (by rw [hself])
  unfold State.accept
  dsimp only
  split
  · exact htake.answer hans _ _
  · split
    · exact htake.answer hans _ _
    · split
      · exact htake.answer hans _ _
      · exact hserv i _ htake (by rw [hself]) (by rw [hself]; exact hcheck rfl)

theorem State.Agrees.receiveRequest {s : State} (h : s.Agrees) (hd : ParcelHead) (r : Request) :
    (s.receiveRequest hd r (staticCheck r) r.service).Agrees := by
  unfold State.receiveRequest
  split
  · refine h.withNr hd.nr (fun t ht => ?_)
    unfold State.classify
    dsimp only
    split
    · split
      · rename_i i hfree
        exact State.Agrees.accept (s := t.acceptSequence) (ht.congr rfl rfl rfl rfl) (t.slot_freeSlot hfree)
          (t.freeSlot_lt hfree) _ r r.service_keepsCoherence r.inArray_of_staticCheck
      · exact ht.congr rfl rfl rfl rfl
    · split
      · split
        · exact ht
        · exact ht.congr rfl rfl rfl rfl
      · split <;> exact ht.congr rfl rfl rfl rfl
  · exact State.Agrees.appendReply (s := s.countUnattached) (h.congr rfl rfl rfl rfl) _ _

/-! ### The octets of the line -/

theorem State.Agrees.octetEvent {s : State} (h : s.Agrees) (b : Byte) : (s.octetEvent b).Agrees := by
  have hf : State.Agrees { s with pf := (s.pf.octetEvent b).1 } := h.congr rfl rfl rfl rfl
  unfold State.octetEvent
  dsimp only
  split
  · exact hf
  · unfold State.holdSignal
    split
    · exact hf
    · exact hf.congr rfl rfl rfl rfl
  · unfold State.goSignal
    split
    · exact hf.congr rfl rfl rfl rfl
    · exact hf
  · unfold State.endAssembly
    split
    · exact hf.congr rfl rfl rfl rfl
    · unfold State.receiveParcel
      dsimp only
      split
      · exact hf.receiveHail _ _
      · split
        · exact hf.receiveAck _ _
        · split
          · exact hf.receiveRej _
          · exact hf.receiveRequest _ _

theorem State.Agrees.octetEvents {s : State} (h : s.Agrees) (os : List Byte) : (s.octetEvents os).Agrees := by
  unfold State.octetEvents
  induction os generalizing s with
  | nil => exact h
  | cons b rest ih => exact ih (h.octetEvent b)

/-! ### Selection -/

/-- The response that is offered next stands in an Answered slot (R89, R101). -/
theorem State.oldestAnswered_answered (s : State) {i : Nat} (h : s.oldestAnswered = some i) :
    (s.slot i).state = .answered := by
  unfold State.oldestAnswered at h
  refine List.foldlRecOn (motive := fun best => ∀ j, best = some j → (s.slot j).state = .answered) _ _
    (fun j hj => by cases hj) (fun best hb k _ j hj => ?_) i h
  dsimp only at hj
  split at hj
  · rename_i hk
    split at hj
    · cases hj
      exact hk
    · split at hj
      · cases hj
        exact hk
      · exact hb j hj
  · exact hb j hj

theorem State.Agrees.choose {s t : State} (h : s.Agrees) (ht : s.choose = some t) : t.Agrees := by
  rcases s.choose_cases t ht with ⟨r, rest, -, rfl⟩ | rfl | ht | ht | ht
  · exact h.congr rfl rfl rfl rfl
  · exact h.congr rfl rfl rfl rfl
  · unfold State.chooseAgain at ht
    split at ht
    · cases ht
    · obtain ⟨e, -, rfl⟩ := Option.map_eq_some_iff.mp ht
      exact h.congr rfl rfl rfl rfl
  · unfold State.chooseNew at ht
    split at ht
    · split at ht
      · rename_i i hi
        cases ht
        have hun := h.unused_of_answered (s.oldestAnswered_answered hi)
        exact State.Agrees.releaseSlot (s := s.sendNew .rsp (s.slot i).tag (s.slot i).response)
          (h.congr rfl rfl rfl rfl) hun
      · split at ht
        · obtain ⟨r, -, rfl⟩ := Option.map_eq_some_iff.mp ht
          exact h.congr rfl rfl rfl rfl
        · cases ht
    · cases ht
  · unfold State.chooseAck at ht
    split at ht
    · cases ht
      exact h.congr rfl rfl rfl rfl
    · cases ht

theorem State.Agrees.select {s t : State} (h : s.Agrees) (ht : s.select = some t) : t.Agrees := by
  unfold State.select at ht
  split at ht
  · exact h.choose ht
  · cases ht

theorem State.Agrees.transmitterFree {s : State} (h : s.Agrees) : s.transmitterFree.Agrees := by
  have hf : s.freeTransmitter.Agrees := h.congr rfl rfl rfl rfl
  unfold State.transmitterFree
  cases ht : s.freeTransmitter.select with
  | none => exact hf
  | some t => exact hf.select ht

/-! ### From agreement to coherence -/

/-- A Running state is coherent as soon as its parts agree. -/
theorem State.coherent_of_running {s : State} (h : s.Agrees) (hr : s.isRunning = true) : s.coherent = true :=
  (s.coherent_iff).mpr ⟨h, .inl hr⟩

theorem State.agrees_of_coherent {s : State} (h : s.coherent = true) : s.Agrees := ((s.coherent_iff).mp h).1

/-- A device with empty slots, an Idle engine and no batch is coherent in every top-level state (R3). -/
theorem State.coherent_of_rest {s : State} (hl : s.ledger.length = sectorCount) (hrd : s.rd = {}) (hae : s.ae = {})
    (hbc : s.bc = {}) : s.coherent = true := by
  refine (s.coherent_iff).mpr ⟨⟨?_, hl, ?_⟩, .inr ⟨by rw [hae], hbc⟩⟩
  · rw [hrd, hae, hbc]
    exact ⟨rfl, by simp, by simp [Engine.slot?], by simp, by simp⟩
  · rw [hbc, hae]
    exact Batch.agrees_empty rfl rfl

/-- Coherence rests on the slots, the engine, the batch, the ledger and on whether the device is Running. -/
theorem State.coherent_congr {s t : State} (h : s.coherent = true) (hrd : t.rd = s.rd)
    (hae : t.ae.engine = s.ae.engine) (hbc : t.bc = s.bc) (hl : t.ledger = s.ledger)
    (hr : s.isRunning = true → t.isRunning = true) : t.coherent = true := by
  obtain ⟨hs, hrest⟩ := (s.coherent_iff).mp h
  exact (t.coherent_iff).mpr ⟨hs.congr hrd hae hbc hl, hrest.imp hr (by rw [hae, hbc]; exact id)⟩

theorem State.isRunning_congr {s t : State} (h : t.sr = s.sr) : t.isRunning = s.isRunning := by
  unfold State.isRunning
  rw [h]

theorem State.isRunning_of_active {s : State} (h : s.sr.top = .active) : s.isRunning = true := by
  simp [State.isRunning, h]

/-- What the device makes of a Running state is coherent where the parts agree and the top-level state stays. -/
theorem State.coherent_of_sr {s t : State} (ht : t.Agrees) (hr : s.isRunning = true) (hsr : t.sr = s.sr) :
    t.coherent = true := State.coherent_of_running ht ((State.isRunning_congr hsr).trans hr)

/-! ### The session outside Running -/

/-- A teardown keeps coherence in every state: outside Running there is no batch to unpark (R3, R79). -/
theorem State.coherent_teardown {s : State} (h : s.coherent = true) (r : TeardownReason) :
    (s.teardown r).coherent = true := by
  obtain ⟨hs, hrest⟩ := (s.coherent_iff).mp h
  rcases hrest with hr | ⟨he, hb⟩
  · exact State.coherent_of_sr (hs.teardown r) hr (s.teardown_beyondSession r).sr
  · refine ((s.teardown r).coherent_iff).mpr ⟨hs.teardown r, .inr ?_⟩
    cases hl : s.su.link with
    | detached =>
      rw [s.teardown_of_detached r hl]
      exact ⟨he, hb⟩
    | attached =>
      rw [s.teardown_eq r hl (by rw [hb]; decide)]
      exact ⟨he, hb⟩

theorem State.coherent_holdExpiry {s : State} (h : s.coherent = true) : s.holdExpiry.coherent = true := by
  unfold State.holdExpiry
  split
  · exact State.coherent_teardown h _
  · exact State.coherent_congr h rfl rfl rfl rfl id

/-- A wake keeps coherence: it leads from one Running state to the other (R13). -/
theorem State.coherent_wake {s : State} (h : s.coherent = true) (rxd : Bool) : (s.wake rxd).coherent = true := by
  unfold State.wake
  split
  · exact State.coherent_congr h rfl rfl rfl rfl (fun _ => State.isRunning_of_active rfl)
  · exact h

theorem State.coherent_keepaliveExpiry {s : State} (h : s.coherent = true) (rxd : Bool) :
    (s.keepaliveExpiry rxd).coherent = true :=
  State.coherent_teardown
    (s := { s.wake rxd with su := { (s.wake rxd).su with keepalive := .stopped } })
    (State.coherent_congr (State.coherent_wake h rxd) rfl rfl rfl rfl id) _

theorem State.coherent_retransmitExpiry {s : State} (h : s.coherent = true) : s.retransmitExpiry.coherent = true := by
  unfold State.retransmitExpiry State.retryOnce
  dsimp only
  split
  · exact State.coherent_teardown
      (s := { s with su := { s.su with retransmit := .stopped, retry := s.su.retry + 1 } })
      (State.coherent_congr h rfl rfl rfl rfl id) _
  · exact State.coherent_congr h rfl rfl rfl rfl id

/-! ### The line -/

theorem State.listening_top {s : State} (h : s.listening = true) : s.sr.top = .active := by
  simp only [State.listening, Bool.and_eq_true, beq_iff_eq] at h
  exact h.1

theorem State.coherent_unheard {s : State} (h : s.coherent = true) (level : Bool) (b : Timer) :
    (s.unheard level b).coherent = true := by
  obtain ⟨-, hrd, hae, hbc, -, -, -, -, -, hl, -⟩ := s.unheard_frame level b
  refine State.coherent_congr h hrd (by rw [hae]) hbc hl (fun hr => ?_)
  unfold State.unheard State.wake
  split
  · rename_i hd
    rw [if_pos hd]
    exact State.isRunning_of_active rfl
  · exact hr
  · exact hr

theorem State.coherent_onParcel {s : State} (h : s.coherent = true) {handle : State → State}
    (hag : ∀ t : State, t.Agrees → (handle t).Agrees) (hsr : ∀ t : State, (handle t).sr = t.sr) :
    (s.onParcel handle).coherent = true := by
  have hend : ∀ f : ParcelFramer, State.Agrees { s.characterEnd with pf := f } :=
    fun f => (State.agrees_of_coherent h).congr rfl rfl rfl rfl
  unfold State.onParcel
  split
  · rename_i hlis
    have hr : ∀ f : ParcelFramer, State.isRunning { s.characterEnd with pf := f } = true :=
      fun f => State.isRunning_of_active (show s.sr.top = .active from State.listening_top hlis)
    dsimp only
    split
    · exact State.coherent_of_running (hend _) (hr _)
    · exact State.coherent_of_sr (hag _ (hend _)) (hr _) (hsr _)
  · exact State.coherent_unheard h _ _

theorem State.coherent_characters {s : State} (h : s.coherent = true) (os : List Byte) :
    (s.characters os).coherent = true := by
  unfold State.characters
  split
  · rename_i hlis
    have hend : s.characterEnd.Agrees := (State.agrees_of_coherent h).congr rfl rfl rfl rfl
    have ht : s.characterEnd.sr.top = .active := show s.sr.top = .active from State.listening_top hlis
    exact State.coherent_of_sr (hend.octetEvents os) (State.isRunning_of_active ht)
      (State.octetEvents_beyondSession _ os).sr
  · exact State.coherent_unheard h _ _

/-- The edges of RXD touch no work, and keep a Running device Running (R12, R21 to R24). -/
theorem State.coherent_setRxd {s : State} (h : s.coherent = true) (high : Bool) : (s.setRxd high).coherent = true := by
  have hlevel : State.coherent { s with pins := { s.pins with rxd := high } } = true :=
    State.coherent_congr h rfl rfl rfl rfl id
  unfold State.setRxd
  split
  · exact h
  · dsimp only
    split
    · unfold State.risingEdge
      split <;> exact State.coherent_congr h rfl rfl rfl rfl id
    · unfold State.fallingEdge
      split
      · exact State.coherent_wake hlevel false
      · exact State.coherent_congr h rfl rfl rfl rfl id
      · exact State.coherent_congr h rfl rfl rfl rfl id
      · exact State.coherent_congr h rfl rfl rfl rfl id

theorem State.coherent_sampleBit {s : State} (h : s.coherent = true) (hr : s.isRunning = true) (samples : List Bool) :
    (s.sampleBit samples).coherent = true := by
  have hidle : (s.setReceiver .idle).Agrees := (State.agrees_of_coherent h).congr rfl rfl rfl rfl
  unfold State.sampleBit
  split
  · exact State.coherent_congr h rfl rfl rfl rfl id
  · split
    · exact State.coherent_congr h rfl rfl rfl rfl id
    · split
      · exact State.coherent_of_sr (hidle.octetEvent _) hr (State.octetEvent_beyondSession _ _).sr
      · exact State.coherent_congr h rfl rfl rfl rfl id

theorem State.coherent_settle {s : State} (h : s.coherent = true) : s.settle.coherent = true := by
  rw [State.settle_eq]
  exact State.coherent_congr h rfl rfl rfl rfl id

theorem State.coherent_linkBreakReset {s : State} (h : s.coherent = true) : s.linkBreakReset.coherent = true := by
  unfold State.linkBreakReset
  refine State.coherent_teardown ?_ _
  exact State.coherent_congr h rfl rfl rfl rfl id

/-! ### Resets and the supply -/

theorem State.coherent_volatileLost {s : State} (h : s.coherent = true) (sr : SupplyReset) :
    (s.volatileLost sr).coherent = true :=
  State.coherent_of_rest (State.agrees_of_coherent h).ledger rfl rfl rfl

theorem State.coherent_powerUp {s : State} (h : s.coherent = true) : s.powerUp.coherent = true := by
  unfold State.powerUp
  split
  · split <;> exact State.coherent_volatileLost h _
  · exact h

/-- Outside the ledger a reset leaves no work: coherence asks for the ledger's size alone (R3). -/
theorem State.coherent_stopped {s t : State} (h : s.coherent = true) (hl : t.ledger = s.interrupted.ledger)
    (hrd : t.rd = {}) (hae : t.ae = {}) (hbc : t.bc = {}) : t.coherent = true := by
  obtain ⟨-, -, -, -, -, -, -, hled, -⟩ := s.interrupted_frame
  exact State.coherent_of_rest (by rw [hl, hled]; exact (State.agrees_of_coherent h).ledger) hrd hae hbc

theorem State.coherent_powerDown {s : State} (h : s.coherent = true) : s.powerDown.coherent = true :=
  State.coherent_stopped h rfl rfl rfl rfl

theorem State.coherent_resetAsserted {s : State} (h : s.coherent = true) : s.resetAsserted.coherent = true := by
  unfold State.resetAsserted
  split
  · exact State.coherent_stopped h rfl rfl rfl rfl
  · exact h

theorem State.coherent_resetReleased {s : State} (h : s.coherent = true) : s.resetReleased.coherent = true := by
  unfold State.resetReleased
  split
  · exact State.coherent_volatileLost (State.coherent_congr h rfl rfl rfl rfl id) _
  · exact h

/-- The work that a supply-low entry abandons (R8, R129, R146). -/
theorem State.Agrees.abandonWrites {s : State} (h : s.Agrees) : s.abandonWrites.Agrees := by
  unfold State.abandonWrites
  split
  · rename_i op he
    obtain ⟨-, -, -, -, -, hrd, hae, hl, hbc, -⟩ := s.interrupted_frame
    exact State.Agrees.finishFreed (h.congr hrd (by rw [hae]) hbc hl) (by rw [hae, he]; rfl) _ _
  · rename_i op he
    exact h.storeDone he _ _
  · have hfree : State.HandFree { s with ae := { s.ae with engine := .idle } } :=
      ⟨h.slots.shrink rfl (List.Subset.refl _) (.inr rfl) (List.Sublist.refl _), h.ledger, rfl, rfl⟩
    exact hfree.abortBatch.engineFreed
  · exact h

theorem State.coherent_enterInhibit {s : State} (h : s.coherent = true) (hr : s.isRunning = true) :
    s.enterInhibit.coherent = true := by
  obtain ⟨hsr, -⟩ := s.enterInhibit_frame
  refine State.coherent_of_running ?_ ?_
  · rw [State.enterInhibit_eq]
    exact State.Agrees.abandonWrites ((State.agrees_of_coherent h).congr rfl rfl rfl rfl)
  · simpa [State.isRunning, hsr] using hr

/-- A Running device that is woken is Running. -/
theorem State.isRunning_wake (s : State) (rxd : Bool) (h : s.isRunning = true) : (s.wake rxd).isRunning = true := by
  unfold State.wake
  split
  · exact State.isRunning_of_active rfl
  · exact h

theorem State.coherent_supplyLowEntry {s : State} (h : s.coherent = true) (rxd : Bool) :
    (s.supplyLowEntry rxd).coherent = true := by
  unfold State.supplyLowEntry
  split
  · rename_i hc
    simp only [Bool.and_eq_true] at hc
    exact State.coherent_enterInhibit (State.coherent_wake h rxd) (s.isRunning_wake rxd hc.1)
  · exact h

theorem State.coherent_supplyLowExit {s : State} (h : s.coherent = true) (rxd : Bool) :
    (s.supplyLowExit rxd).coherent = true := by
  unfold State.supplyLowExit
  split
  · dsimp only
    rw [State.offer_eq]
    exact State.coherent_congr (State.coherent_wake h rxd) rfl rfl rfl rfl id
  · exact h

theorem State.coherent_loaded {s : State} (h : s.coherent = true) (maint : Bool) : (s.loaded maint).coherent = true :=
  State.coherent_of_rest (State.agrees_of_coherent h).ledger rfl rfl rfl

theorem State.coherent_enterRunning {s : State} (h : s.coherent = true) (rxd : Bool) (vdd : SupplyBand) :
    (s.enterRunning rxd vdd).coherent = true := by
  unfold State.enterRunning
  have hrun : ∀ (sr : SupplyReset) (p : Pins) (c : CharacterLink), sr.top = .active →
      State.coherent { s with sr := sr, pins := p, cl := c } = true :=
    fun sr p c ht => State.coherent_congr h rfl rfl rfl rfl (fun _ => State.isRunning_of_active ht)
  cases vdd with
  | off => exact State.coherent_powerDown (hrun _ _ _ rfl)
  | good => exact hrun _ _ _ rfl
  | low => exact State.coherent_enterInhibit (hrun _ _ _ rfl) (State.isRunning_of_active rfl)
  | middle => exact State.coherent_enterInhibit (hrun _ _ _ rfl) (State.isRunning_of_active rfl)

theorem State.coherent_maintChange {s : State} (h : s.coherent = true) (rxd : Bool) :
    (s.maintChange rxd).coherent = true := by
  unfold State.maintChange
  split
  · dsimp only
    rw [State.offer_eq]
    exact State.coherent_congr (State.coherent_wake h rxd) rfl rfl rfl rfl id
  · exact h

/-! ### The batch's timers -/

/-- The timers of a batch are no matter of its agreement, if those of an empty one stay stopped. -/
theorem Batch.Agrees.timers {b : Batch} {e : Engine} (h : b.Agrees e) (g : Timer) (sp : Spacing)
    (hg : b = {} → g = .stopped) (hsp : b = {} → sp = .stopped) :
    Batch.Agrees { b with gather := g, spacing := sp } e := by
  by_cases hn : b.state = .none
  · have hb := h.empty hn
    rw [hg hb, hsp hb, hb]
    exact hb ▸ h
  · exact h.restate rfl rfl (.inr ⟨rfl, hn⟩)

theorem State.Agrees.gatherExpiry {s : State} (h : s.Agrees) : s.gatherExpiry.Agrees := by
  unfold State.gatherExpiry
  split
  · exact h.toErasing.examine
  · exact ⟨h.slots, h.ledger, h.batch.timers .stopped s.bc.spacing (fun _ => rfl) (fun hb => by rw [hb])⟩

/-- A spacing timer that is due is one of a batch (R150). -/
theorem State.Agrees.spacingExpiry {s : State} (h : s.Agrees) (hd : s.spacingDue = true) : s.spacingExpiry.Agrees := by
  have hm : State.Agrees { s with bc := { s.bc with spacing := .mature } } := by
    refine ⟨h.slots, h.ledger, h.batch.timers s.bc.gather .mature (fun hb => by rw [hb]) (fun hb => ?_)⟩
    simp [State.spacingDue, hb] at hd
  unfold State.spacingExpiry
  dsimp only
  split
  · exact hm.examine
  · exact hm

theorem State.Agrees.advanceClocks {s : State} (h : s.Agrees) : s.advanceClocks.Agrees :=
  ⟨h.slots, h.ledger, h.batch.timers s.bc.gather.count s.bc.spacing.count (fun hb => by rw [hb]; rfl)
    (fun hb => by rw [hb]; rfl)⟩

/-- Where a timer of the batch is due there is a batch, so the device is Running (R3). -/
theorem State.running_of_batch {s : State} (h : s.coherent = true) (hb : s.bc ≠ {}) : s.isRunning = true :=
  ((s.coherent_iff).mp h).2.resolve_right (fun hr => hb hr.2)

theorem State.coherent_gatherExpiry {s : State} (h : s.coherent = true) (hd : s.bc.gather.isDue = true) :
    s.gatherExpiry.coherent = true := by
  have hr := State.running_of_batch h (fun hb => by rw [hb] at hd; cases hd)
  exact State.coherent_of_sr (State.agrees_of_coherent h).gatherExpiry hr s.gatherExpiry_frame.sr

theorem State.coherent_spacingExpiry {s : State} (h : s.coherent = true) (hd : s.spacingDue = true) :
    s.spacingExpiry.coherent = true := by
  have hr := State.running_of_batch h (fun hb => by rw [State.spacingDue, hb] at hd; cases hd)
  exact State.coherent_of_sr ((State.agrees_of_coherent h).spacingExpiry hd) hr s.spacingExpiry_frame.sr

/-- A step of the engine keeps coherence; outside Running the engine is Idle and the step void. -/
theorem State.coherent_engineStep {s t : State} (h : s.coherent = true) {c : Instr} (hc : isEngineStep c = true)
    (ht : exec c s = .next t) : t.coherent = true := by
  obtain ⟨hs, hrest⟩ := (s.coherent_iff).mp h
  rcases hrest with hr | ⟨he, -⟩
  · exact State.coherent_of_sr (hs.engineStep hc ht) hr (exec_engineStep_frame c s t hc ht).sr
  · have hvoid : t = s := by
      rcases exec_engineStep_cases c s t hc ht with rfl | ⟨_, h', -⟩ | ⟨_, h', -⟩ | ⟨_, h', -⟩ |
        ⟨_, _, _, _, _, h', -⟩ | ⟨_, _, _, _, _, h', -⟩ | ⟨_, _, _, _, _, _, _, h', -⟩ | ⟨_, _, h', -⟩
      · rfl
      all_goals rw [he] at h'; cases h'
    exact hvoid ▸ h

/-! ### Every command -/

/-- No command faults or is refused from a coherent state, and each leads to a coherent one. -/
theorem exec_keepsCoherence (c : Instr) (s : State) (h : s.coherent = true) :
    Answers (exec c s) (fun t => t.coherent = true) := by
  have hs := State.agrees_of_coherent h
  have hpins : ∀ p : Pins, State.coherent { s with pins := p } = true := fun p =>
    State.coherent_congr h rfl rfl rfl rfl id
  cases hreq : requestOf c with
  | some hd =>
    rw [exec_request c hd.1 hd.2 hreq]
    exact .of_next (State.coherent_onParcel h (fun t ht => ht.receiveRequest _ _)
      (fun t => (t.receiveRequest_beyondSession _ _ _ (Request.service_staysInSession _)).sr))
  | none =>
    by_cases he : isEngineStep c = true
    · obtain ⟨t, ht⟩ := exec_engineStep_next c s he hs.batch.inArray
      exact ⟨t, ht, State.coherent_engineStep h he ht⟩
    · cases c with
      | powerOn rstn =>
        simp only [exec, execPowerOn]
        split
        · exact .of_next (State.coherent_powerUp (hpins _))
        · exact .of_next h
      | powerOff => exact .of_next (State.coherent_powerDown h)
      | pinReset => exact .of_next (State.coherent_resetAsserted h)
      | resetRelease => exact .of_next (State.coherent_resetReleased h)
      | initialisationComplete maint rxd vdd =>
        simp only [exec, execInitialisationComplete]
        split
        · split
          · exact .of_next (State.coherent_enterRunning (hpins _) _ _)
          · exact .of_next (State.coherent_enterRunning (State.coherent_loaded h maint) _ _)
        · exact .of_next h
      | supplyLowEntry rxd =>
        exact .of_next (State.coherent_supplyLowEntry (hpins _) rxd)
      | supplyLowExit rxd =>
        exact .of_next (State.coherent_supplyLowExit (hpins _) rxd)
      | dozeEntry =>
        simp only [exec, execDozeEntry]
        split
        · exact .of_next (State.coherent_congr h rfl rfl rfl rfl (fun _ => rfl))
        · exact .of_next h
      | dozeWake => exact .of_next (State.coherent_wake h false)
      | settleComplete =>
        simp only [exec, execSettleComplete]
        split
        · exact .of_next (State.coherent_settle h)
        · exact .of_next h
      | framingError low =>
        simp only [exec, execFramingError]
        have hspent : ∀ n : Nat, (s.spendFree n).coherent = true := fun n => State.coherent_congr h rfl rfl rfl rfl id
        split
        · have hended : ∀ n : Nat, (s.spendFree n).characterEnd.framingEvent.coherent = true := fun n =>
            State.coherent_congr (hspent n) rfl rfl rfl rfl id
          exact .of_next (State.coherent_congr (hended _) rfl rfl rfl rfl id)
        · exact .of_next (State.coherent_unheard (hspent _) _ _)
      | longBreak =>
        simp only [exec, execLongBreak]
        split
        · exact .of_next (State.coherent_linkBreakReset h)
        · exact .of_next h
      | hold | go | openingFence => exact .of_next (State.coherent_characters h _)
      | abort | escapeViolation | overlong | parcelDiscarded => exact .of_next (State.coherent_characters h _)
      | hail hd payload =>
        exact .of_next (State.coherent_onParcel h (fun t ht => ht.receiveHail _ _)
          (fun t => (t.receiveHail_beyondSession _ _).sr))
      | ackReceived hd payload =>
        exact .of_next (State.coherent_onParcel h (fun t ht => ht.receiveAck _ _)
          (fun t => (t.receiveAck_beyondSession _ _).sr))
      | rejReceived hd payload =>
        exact .of_next (State.coherent_onParcel h (fun t ht => ht.receiveRej _)
          (fun t => (t.receiveRej_beyondSession _).sr))
      | holdLimitExpiry =>
        simp only [exec, execHoldLimitExpiry]
        split
        · exact .of_next (State.coherent_holdExpiry h)
        · exact .of_next h
      | keepaliveExpiry rxd =>
        simp only [exec, execKeepaliveExpiry]
        split
        · exact .of_next (State.coherent_keepaliveExpiry h rxd)
        · exact .of_next h
      | retransmitExpiry =>
        simp only [exec, execRetransmitExpiry]
        split
        · exact .of_next (State.coherent_retransmitExpiry h)
        · exact .of_next h
      | gatherExpiry =>
        simp only [exec, execGatherExpiry]
        split
        · exact .of_next (State.coherent_gatherExpiry h ‹_›)
        · exact .of_next h
      | spacingExpiry =>
        simp only [exec, execSpacingExpiry]
        split
        · exact .of_next (State.coherent_spacingExpiry h ‹_›)
        · exact .of_next h
      | debouncedMaintChange rxd =>
        simp only [exec, execDebouncedMaintChange]
        split
        · exact .of_next (State.coherent_maintChange (hpins _) rxd)
        · exact .of_next h
      | transmitterFree =>
        simp only [exec, execTransmitterFree]
        split
        · rename_i hc
          exact .of_next (State.coherent_of_sr hs.transmitterFree (State.isRunning_of_active hc.1)
            s.transmitterFree_beyondSession.sr)
        · exact .of_next h
      | shortBreak =>
        simp only [exec, execShortBreak]
        split
        · exact .of_next (State.coherent_congr h rfl rfl rfl rfl id)
        · exact .of_next h
      | _ => simp_all [requestOf, isEngineStep]

/-! ### The device's own step -/

theorem State.coherent_takeInput {s : State} (h : s.coherent = true) (c : PinChange) :
    (s.takeInput c).coherent = true := by
  have hmove : ∀ (p : Pins) (l : List PinChange), State.coherent { s with pins := p, inputs := l } = true :=
    fun p l => State.coherent_congr h rfl rfl rfl rfl id
  unfold State.takeInput State.pinEvent
  split
  · exact State.coherent_setRxd (hmove _ _) _
  · split
    · exact State.coherent_resetReleased (hmove _ _)
    · exact hmove _ _
  · exact State.coherent_resetAsserted (hmove _ _)
  · exact hmove _ _
  · exact State.coherent_powerDown (hmove _ _)
  · exact State.coherent_powerUp (hmove _ _)

theorem State.coherent_dueSupply {s : State} (h : s.coherent = true) : s.dueSupply.coherent = true := by
  unfold State.dueSupply
  split
  · exact State.coherent_powerDown h
  · exact State.coherent_supplyLowEntry h _
  · exact State.coherent_supplyLowExit h _
  · exact h

theorem State.coherent_dozeTest {s : State} (h : s.coherent = true) : s.dozeTest.coherent = true := by
  unfold State.dozeTest
  split
  · exact State.coherent_congr h rfl rfl rfl rfl (fun _ => rfl)
  · exact h

theorem State.coherent_tickOnce {s : State} (h : s.coherent = true) : s.tickOnce.coherent = true := by
  have hclocks : s.isRunning = true →
      (State.advanceClocks { s with sr := { s.sr with phase := 0 } }).dozeTest.dueSupply.coherent = true := fun hr =>
    State.coherent_dueSupply (State.coherent_dozeTest (State.coherent_of_running
      (State.Agrees.advanceClocks (s := { s with sr := { s.sr with phase := 0 } })
        ((State.agrees_of_coherent h).congr rfl rfl rfl rfl)) hr))
  unfold State.tickOnce
  dsimp only
  split
  · exact State.coherent_congr h rfl rfl rfl rfl id
  · exact State.coherent_congr h rfl rfl rfl rfl id
  · exact State.coherent_congr h rfl rfl rfl rfl id
  · rename_i ht
    exact hclocks (State.isRunning_of_active ht)
  · rename_i ht
    exact hclocks (by simp [State.isRunning, ht])

theorem State.coherent_passTime {s : State} (h : s.coherent = true) : s.passTime.coherent = true :=
  State.coherent_congr h rfl rfl rfl rfl id

/-- Outside Running only a pin change or a tick is due (R2, R4). -/
theorem State.dueOutside_cases (s : State) (d : Due) (h : s.dueOutside = some d) : (∃ c, d = .input c) ∨ d = .tick := by
  unfold State.dueOutside State.dueReset at h
  cases hreset : s.nextReset with
  | some c =>
    simp only [hreset, Option.map_some, Option.orElse_eq_orElse, Option.orElse_some, Option.some.injEq] at h
    exact .inl ⟨c, h.symm⟩
  | none =>
    by_cases ht : s.tickDue = true
    · simp [hreset, ht] at h
      exact .inr h.symm
    · simp [hreset, ht] at h
      obtain ⟨c, -, rfl⟩ := h
      exact .inl ⟨c, rfl⟩

/-- Where one of two options is given, it is the first, or the second in its absence. -/
theorem orElse_eq_some {α : Type} {a b : Option α} {d : α} (h : (a <|> b) = some d) : a = some d ∨ b = some d := by
  cases a with
  | none => exact .inr h
  | some x => exact .inl h

/-- What is due stands in one of the orders of R14. -/
theorem State.due_cases (s : State) (d : Due) (h : s.due = some d) :
    s.dueReset = some d ∨ s.dueTick = some d ∨ (s.longBreakDue = true ∧ d = .longBreak) ∨ s.dueLine = some d ∨
      s.dueTimer = some d ∨ s.dueMaint = some d ∨ s.dueTransmitter = some d := by
  unfold State.due at h
  refine (orElse_eq_some h).imp id fun h => (orElse_eq_some h).imp id fun h => (orElse_eq_some h).imp ?_ fun h =>
    (orElse_eq_some h).imp id fun h => (orElse_eq_some h).imp id orElse_eq_some
  intro hb
  split at hb
  · exact ⟨‹_›, (Option.some.inj hb).symm⟩
  · cases hb

/-- A tick or a Doze entry is all that stands between a reset and a long break (R10, R14). -/
theorem State.dueTick_cases (s : State) (d : Due) (h : s.dueTick = some d) : d = .tick ∨ d = .doze := by
  unfold State.dueTick at h
  split at h
  · exact .inl (Option.some.inj h).symm
  · split at h
    · exact .inr (Option.some.inj h).symm
    · cases h

/-- What is due at RXD (order 4 of R14). -/
theorem State.dueLine_cases (s : State) (d : Due) (h : s.dueLine = some d) :
    (∃ samples, d = .sample samples) ∨ d = .settled ∨ ∃ c, d = .input c := by
  unfold State.dueLine at h
  split at h
  · exact .inl ⟨_, (Option.some.inj h).symm⟩
  · split at h
    · exact .inr (.inl (Option.some.inj h).symm)
    · obtain ⟨c, -, rfl⟩ := Option.map_eq_some_iff.mp h
      exact .inr (.inr ⟨c, rfl⟩)

/-- The timer that expires is due (order 6 of R14). -/
theorem State.dueTimer_cases (s : State) (d : Due) (h : s.dueTimer = some d) :
    (d = .holdLimit ∧ s.cl.holdTimer.isDue = true) ∨ (d = .keepalive ∧ s.su.keepalive.isDue = true) ∨
      (d = .retransmit ∧ s.retransmitDue = true) ∨ (d = .gather ∧ s.bc.gather.isDue = true) ∨
      (d = .spacing ∧ s.spacingDue = true) := by
  unfold State.dueTimer at h
  split at h
  · exact .inl ⟨(Option.some.inj h).symm, ‹_›⟩
  · split at h
    · exact .inr (.inl ⟨(Option.some.inj h).symm, ‹_›⟩)
    · split at h
      · exact .inr (.inr (.inl ⟨(Option.some.inj h).symm, ‹_›⟩))
      · split at h
        · exact .inr (.inr (.inr (.inl ⟨(Option.some.inj h).symm, ‹_›⟩)))
        · split at h
          · exact .inr (.inr (.inr (.inr ⟨(Option.some.inj h).symm, ‹_›⟩)))
          · cases h

/-- What is due at the transmitter is due in Running-Active (R30, R31). -/
theorem State.dueTransmitter_cases (s : State) (d : Due) (h : s.dueTransmitter = some d) :
    (∃ rest, d = .octetSent rest) ∨ d = .transmitterFree := by
  unfold State.dueTransmitter at h
  split at h
  · exact .inl ⟨_, (Option.some.inj h).symm⟩
  · exact .inr (Option.some.inj h).symm
  · cases h

/-- An occurrence that is due in a Running state is handled coherently (R14). -/
theorem State.coherent_handle {s : State} (h : s.coherent = true) (hr : s.isRunning = true) (d : Due)
    (hd : s.due = some d) : (s.handle d).coherent = true := by
  have hs := State.agrees_of_coherent h
  rcases s.due_cases d hd with hd | hd | ⟨-, rfl⟩ | hd | hd | hd | hd
  · obtain ⟨c, -, rfl, -⟩ := s.dueReset_some d hd
    exact State.coherent_takeInput h c
  · rcases s.dueTick_cases d hd with rfl | rfl
    · exact State.coherent_tickOnce h
    · exact State.coherent_congr h rfl rfl rfl rfl (fun _ => rfl)
  · exact State.coherent_linkBreakReset h
  · rcases s.dueLine_cases d hd with ⟨samples, rfl⟩ | rfl | ⟨c, rfl⟩
    · exact State.coherent_sampleBit h hr samples
    · exact State.coherent_settle h
    · exact State.coherent_takeInput h c
  · rcases s.dueTimer_cases d hd with ⟨rfl, -⟩ | ⟨rfl, -⟩ | ⟨rfl, -⟩ | ⟨rfl, hg⟩ | ⟨rfl, hsp⟩
    · exact State.coherent_holdExpiry h
    · exact State.coherent_keepaliveExpiry h _
    · exact State.coherent_retransmitExpiry h
    · exact State.coherent_gatherExpiry h hg
    · exact State.coherent_spacingExpiry h hsp
  · unfold State.dueMaint at hd
    split at hd
    · cases hd
      exact State.coherent_maintChange h _
    · cases hd
  · rcases s.dueTransmitter_cases d hd with ⟨rest, rfl⟩ | rfl
    · exact State.coherent_congr h rfl rfl rfl rfl id
    · exact State.coherent_of_sr hs.transmitterFree hr s.transmitterFree_beyondSession.sr

theorem State.coherent_runningStep {s : State} (h : s.coherent = true) (hr : s.isRunning = true) :
    s.runningStep.coherent = true := by
  unfold State.runningStep
  split
  · exact State.coherent_handle h hr _ ‹_›
  · cases ht : s.select with
    | none => exact State.coherent_passTime h
    | some t => exact State.coherent_of_sr ((State.agrees_of_coherent h).select ht) hr (s.select_beyondSession t ht).sr

/-- Outside Running a pin change or a tick is handled coherently (R2, R4). -/
theorem State.coherent_handleOutside {s : State} (h : s.coherent = true) (d : Due) (hd : s.dueOutside = some d) :
    (s.handle d).coherent = true := by
  rcases s.dueOutside_cases d hd with ⟨c, rfl⟩ | rfl
  · exact State.coherent_takeInput h c
  · exact State.coherent_tickOnce h

theorem State.coherent_initialisingStep {s : State} (h : s.coherent = true) : s.initialisingStep.coherent = true := by
  unfold State.initialisingStep
  split
  · exact State.coherent_handleOutside h _ ‹_›
  · split
    · exact State.coherent_loaded h _
    · split
      · exact State.coherent_enterRunning h _ _
      · exact State.coherent_passTime h

theorem State.coherent_ownStep {s : State} (h : s.coherent = true) : s.ownStep.coherent = true := by
  have houtside : State.coherent (match s.dueOutside with
      | some d => s.handle d
      | none => s.passTime) = true := by
    split
    · exact State.coherent_handleOutside h _ ‹_›
    · exact State.coherent_passTime h
  unfold State.ownStep
  split
  · rename_i ht
    exact State.coherent_runningStep h (State.isRunning_of_active ht)
  · rename_i ht
    exact State.coherent_runningStep h (by simp [State.isRunning, ht])
  · exact State.coherent_initialisingStep h
  · exact houtside
  · exact houtside

/-- Settles O3. A step is the command in front, or the device's own step; each of the two neither stops nor breaks the
agreement of slots, ledger, engine and batch. -/
theorem stepNeverStops : Obligations.StepNeverStops := by
  intro s h
  unfold step
  split
  · exact exec_keepsCoherence _ _ (State.coherent_congr h rfl rfl rfl rfl id)
  · exact .of_next (State.coherent_ownStep h)

end Sys2Proof.Machine
end

