-- ==== Sys2Proof/Proofs/Resets.lean ====
section
/-!
PROOFS. Power, RSTn and initialisation (sections 1.2 and 1.3): what a reset stops and keeps, what initialisation makes of
nonvolatile state, and the pins that do what the commands do. Settles O9, O10 and O12.
-/

namespace Sys2Proof.Machine

/-! ### What is due outside Running -/

/-- With no pin change due there is no reset due (R14). -/
theorem State.dueReset_of_nextInput_none (s : State) (h : s.nextInput = none) : s.dueReset = none := by
  unfold State.nextInput at h
  unfold State.dueReset State.nextReset
  cases hi : s.inputs with
  | nil => rfl
  | cons c rest =>
    have hc : ¬c.after = 0 := fun h0 => by simp [hi, h0] at h
    simp [hc]

/-- With no pin change and no tick due nothing is due outside Running (R2, R14). -/
theorem State.dueOutside_none (s : State) (h : s.nextInput = none) (hp : s.sr.phase < unitsPerTick) :
    s.dueOutside = none := by
  unfold State.dueOutside
  have ht : s.tickDue = false := by simpa [State.tickDue] using hp
  simp [s.dueReset_of_nextInput_none h, ht, h]

/-! ### Power off -/

/-- A power-off keeps the recorded cause and the ledger (R2, R18). -/
theorem State.powerDown_kept (s : State) : s.powerDown.sr.cause = s.sr.cause ∧ s.powerDown.ledger = s.ledger := by
  obtain ⟨-, -, -, -, -, -, -, hledger, -⟩ := s.interrupted_frame
  exact ⟨rfl, hledger⟩

/-! ### Initialisation -/

/-- Step 1 of R4, as one equation: the current copy's record, or the defaults (R200). -/
theorem ConfigStore.load_eq (c : ConfigStore) :
    c.load = { c with
      active := match c.current with
        | some id => Settings.ofOctets (c.copy id).octets
        | none => {}
      defaulted := c.current.isNone } := by
  unfold ConfigStore.load
  cases c.current <;> rfl

/-- What initialisation loads depends on the two stored copies alone (R199, R200). -/
theorem ConfigStore.load_congr {c c' : ConfigStore} (h0 : c.copy0 = c'.copy0) (h1 : c.copy1 = c'.copy1) :
    c.load = c'.load := by
  have hcur : c.current = c'.current := by
    unfold ConfigStore.current
    rw [h0, h1]
  have hcopy : ∀ id, c.copy id = c'.copy id := fun id => by cases id <;> assumption
  unfold ConfigStore.load
  rw [hcur]
  cases c'.current with
  | none => simp only [h0, h1]
  | some id => simp only [h0, h1, hcopy id]

/-- Step 9 of R4 takes RXD and VDD as given, so what the pins were before is no matter. -/
theorem State.enterRunning_pins (s : State) (p : Pins) (rxd : Bool) (vdd : SupplyBand) (hr : p.rstn = s.pins.rstn)
    (hm : p.maint = s.pins.maint) : State.enterRunning { s with pins := p } rxd vdd = s.enterRunning rxd vdd := by
  simp only [State.enterRunning, hr, hm]

/-- INITIALISATION_COMPLETE before step 8 takes every step (R4). -/
theorem exec_initialisationComplete_fresh (s : State) (maint rxd : Bool) (vdd : SupplyBand)
    (ht : s.sr.top = .initialising) (hs : s.sr.started = false) :
    exec (.initialisationComplete maint rxd vdd) s = .next ((s.loaded maint).enterRunning rxd vdd) := by
  simp [exec, execInitialisationComplete, ht, hs]

/-- INITIALISATION_COMPLETE from step 8 takes what is left (R4). -/
theorem exec_initialisationComplete_started (s : State) (maint rxd : Bool) (vdd : SupplyBand)
    (ht : s.sr.top = .initialising) (hs : s.sr.started = true) :
    exec (.initialisationComplete maint rxd vdd) s =
      .next (State.enterRunning { s with pins := { s.pins with maint := maint } } rxd vdd) := by
  simp [exec, execInitialisationComplete, ht, hs]

/-- Settles O9. Steps 1 to 8 build the whole state from what the hypotheses list, but for RXD and VDD, which step 9
takes as given. -/
theorem initialisationForgets : Obligations.InitialisationForgets := by
  intro s s' maint rxd vdd ht ht' hs hs'
  constructor
  · intro harray hledger h0 h1 hbits hcells hmarker hcause htick hphase hinputs hrstn hpending hfree
    rw [exec_initialisationComplete_fresh s maint rxd vdd ht hs,
      exec_initialisationComplete_fresh s' maint rxd vdd ht' hs']
    have hloaded : s.loaded maint = { s'.loaded maint with pins := { s.pins with maint := maint } } := by
      simp only [State.loaded, State.countCondition, harray, hledger, hcause, htick, hphase, hinputs, hpending, hfree,
        ConfigStore.load_congr h0 h1, hbits, hcells, hmarker]
    rw [hloaded]
    exact congrArg Host.Outcome.next
      (State.enterRunning_pins (s'.loaded maint) { s.pins with maint := maint } rxd vdd hrstn rfl)
  · rw [exec_initialisationComplete_fresh s maint rxd vdd ht hs,
      exec_initialisationComplete_started (s.loaded maint) maint rxd vdd rfl rfl]
    rfl

/-- Where nothing is written a supply-low entry abandons nothing (R8, R129). -/
theorem State.abandonWrites_of_writesNothing (s : State) (h : s.ae.engine.writesNothing = true) :
    s.abandonWrites = s := by
  unfold State.abandonWrites
  cases he : s.ae.engine <;> simp_all [Engine.writesNothing]

/-- Where nothing is written a supply-low entry sets the flag, logs the record and raises the cause (R8). -/
theorem State.enterInhibit_of_writesNothing (s : State) (h : s.ae.engine.writesNothing = true) :
    s.enterInhibit = { s with
      sr := { s.sr with monitor := .inhibit }
      ae := { s.ae with supplyLow := true }
      eu := (s.eu.offered s.sr.tick .supplyLow).raised 0x40 } := by
  rw [State.enterInhibit_eq]
  exact State.abandonWrites_of_writesNothing _ h

/-- The causes that step 7 of R4 raises. -/
theorem initialCauses_eq (torn faulted : Nat) (marker : Bool) :
    initialCauses (torn != 0 || faulted != 0 || marker) =
      if torn = 0 ∧ faulted = 0 ∧ marker = false then 0x01 else 0x21 := by
  by_cases ht : torn = 0
  · by_cases hf : faulted = 0
    · cases marker <;> simp [ht, hf, initialCauses, Cause.mask]
    · simp [ht, hf, initialCauses, Cause.mask]
  · simp [ht, initialCauses, Cause.mask]

/-- The steps of initialisation the device takes itself, by the thirtieth tick (R4, R180, assumption 32). -/
theorem State.step_initialising (s : State) (hp : s.pending = []) (ht : s.sr.top = .initialising)
    (hi : s.nextInput = none) (hph : s.sr.phase < unitsPerTick) (h30 : 30 ≤ s.sr.tick.toNat) :
    step s = .next (if s.sr.started then s.enterRunning s.pins.rxd s.pins.vdd else s.loaded s.pins.maint) := by
  have hload : min initialisationLimit Config.loadTicks ≤ s.sr.tick.toNat := by
    unfold initialisationLimit
    omega
  have hready : min initialisationLimit Config.readyTicks ≤ s.sr.tick.toNat := by
    unfold initialisationLimit
    omega
  have hstep : step s = .next s.initialisingStep := by simp [step, hp, State.ownStep, ht]
  rw [hstep]
  unfold State.initialisingStep
  rw [s.dueOutside_none hi hph]
  cases hs : s.sr.started <;> simp [hload, hready]

/-- Step 9 of R4 with an Idle engine: Running-Active, and where the supply is not above 2.65 V the entry to Inhibit
has been handled (R5 to R7, assumption 17). -/
theorem State.enterRunning_eq (s : State) (rxd : Bool) (vdd : SupplyBand) (he : s.ae.engine = .idle) (hv : vdd ≠ .off) :
    s.enterRunning rxd vdd =
      { s with
        sr := { s.sr with
          top := .active, monitor := if vdd = .good then .normal else .inhibit, started := false, idleTimer := 0 }
        pins := { s.pins with rxd := rxd, vdd := vdd }
        cl := { s.cl with
          receiver := .settling, settleCount := 0, lostCharacter := false
          breakTimer := if rxd then .stopped else .running 20 }
        ae := if vdd = .good then s.ae else { s.ae with supplyLow := true }
        eu := if vdd = .good then s.eu else (s.eu.offered s.sr.tick .supplyLow).raised 0x40 } := by
  have hlow : ∀ t : State, t.ae = s.ae → t.enterInhibit = { t with
      sr := { t.sr with monitor := .inhibit }
      ae := { t.ae with supplyLow := true }
      eu := (t.eu.offered t.sr.tick .supplyLow).raised 0x40 } :=
    fun t ht => t.enterInhibit_of_writesNothing (by rw [ht, he]; rfl)
  cases vdd with
  | off => exact absurd rfl hv
  | good => rfl
  | low =>
    unfold State.enterRunning
    exact hlow _ rfl
  | middle =>
    unfold State.enterRunning
    exact hlow _ rfl

/-- The Event Unit that steps 7 and 9 of R4 leave: RESET_DONE and its causes, and on a low supply SUPPLY_LOW besides
(R5, R181, R189). -/
theorem State.loaded_eu (s : State) (maint : Bool) :
    (s.loaded maint).eu =
      { log := [{
          serial := 0
          event := .resetDone s.sr.cause s.cs.current.isNone (s.countCondition .torn) (s.countCondition .faulted)
            s.pu.marker
          time := s.sr.tick }]
        nextSerial := 1
        latched :=
          if s.countCondition .torn = 0 ∧ s.countCondition .faulted = 0 ∧ s.pu.marker = false then 0x01 else 0x21
        enable := s.cs.load.active.attnEnable } := by
  unfold State.loaded
  dsimp only
  rw [initialCauses_eq, s.cs.load_eq]

/-- Settles O10. The state that steps 1 to 9 leave is built field by field; a low supply adds one record and one cause,
for the engine is Idle. -/
theorem initialisationCompletes : Obligations.InitialisationCompletes := by
  intro s maint rxd vdd ht
  refine ⟨fun hs hv => ?_, ?_, fun hp hi hph hs h30 => ?_, fun hp hi hph hs h30 => ?_⟩
  · rw [exec_initialisationComplete_fresh s maint rxd vdd ht hs, State.enterRunning_eq _ rxd vdd rfl hv, s.loaded_eu]
    refine .of_next ⟨rfl, ?_, rfl, rfl, rfl, rfl, rfl, rfl, rfl, rfl, rfl, rfl, rfl, rfl, rfl, rfl, rfl, rfl, rfl, rfl,
      rfl, rfl, rfl, rfl, rfl, ?_, rfl, rfl, rfl, rfl, rfl, rfl, rfl, rfl, ?_, ?_, rfl, rfl⟩
    · exact congrArg (fun c : ConfigStore => ({
        rate := c.active.linkRate
        breakTimer := if rxd then .stopped else .running 20 } : CharacterLink)) s.cs.load_eq
    · cases vdd with
      | off => exact absurd rfl hv
      | good | low | middle => rfl
    · rw [s.cs.load_eq]
      cases vdd with
      | off => exact absurd rfl hv
      | good | low | middle => rfl
    · exact s.cs.load_eq
  · have hoff : ∀ t : State, Answers (.next (t.enterRunning rxd .off)) (fun u =>
        u.sr.top = .off ∧ u.sr.cause = t.sr.cause ∧ u.ledger = t.ledger) := by
      intro t
      exact .of_next ⟨rfl, (State.powerDown_kept _).1, (State.powerDown_kept _).2⟩
    cases hs : s.sr.started with
    | false =>
      rw [exec_initialisationComplete_fresh s maint rxd .off ht hs]
      exact hoff _
    | true =>
      rw [exec_initialisationComplete_started s maint rxd .off ht hs]
      exact hoff _
  · have hstep := s.step_initialising hp ht hi hph h30
    rw [hs] at hstep
    exact ⟨hstep, rfl, rfl, rfl, rfl⟩
  · rw [s.step_initialising hp ht hi hph h30, hs, exec_initialisationComplete_started s _ _ _ ht hs]
    rfl

/-! ### The moves of the top-level state -/

/-- An interruption touches the array only while a PROGRAM runs (R130). -/
theorem State.interrupted_array (s : State) (h : s.ae.engine.isProgramming = false) : s.interrupted.array = s.array := by
  unfold State.interrupted
  split
  · rename_i op he
    simp [he, Engine.isProgramming] at h
  all_goals rfl

/-- An interruption touches the protect store and the copies only while one of them is written (R173, R206). -/
theorem State.interrupted_stores (s : State) (h : s.ae.engine.isStoring = false) :
    s.interrupted.pu = s.pu ∧ s.interrupted.cs = s.cs := by
  unfold State.interrupted
  split <;> simp_all [Engine.isStoring, State.spendFree]

/-- What a reset stops, and what of nonvolatile state it leaves, where the device ends up in `top` (R3, R18). -/
theorem State.stopped_facts (s : State) (p : Pins) (sr : SupplyReset) :
    let t := State.volatileLost { s.interrupted with pins := p } sr
    t.su = {} ∧ t.rd = {} ∧ t.ae = {} ∧ t.bc = {} ∧ t.eu = {} ∧ t.cl.tx = .free ∧ t.pu.lockMask = 0 ∧
      t.ledger = s.ledger ∧ (s.ae.engine.isProgramming = false → t.array = s.array) ∧
      (s.ae.engine.isStoring = false → t.pu.protectBits = s.pu.protectBits ∧ t.pu.marker = s.pu.marker ∧
        t.cs.copy0 = s.cs.copy0 ∧ t.cs.copy1 = s.cs.copy1) := by
  obtain ⟨-, -, -, -, -, -, -, hledger, -⟩ := s.interrupted_frame
  refine ⟨rfl, rfl, rfl, rfl, rfl, rfl, rfl, hledger, s.interrupted_array, fun h => ?_⟩
  obtain ⟨hpu, hcs⟩ := s.interrupted_stores h
  show s.interrupted.pu.protectBits = _ ∧ s.interrupted.pu.marker = _ ∧ s.interrupted.cs.copy0 = _ ∧
    s.interrupted.cs.copy1 = _
  rw [hpu, hcs]
  exact ⟨rfl, rfl, rfl, rfl⟩

/-- A change of RSTn or VDD is taken first of its instant, in every top-level state (R2, R14). -/
theorem State.step_reset (s : State) (earlier later : List PinChange) (c : PinChange) (hp : s.pending = [])
    (hi : s.inputs = earlier ++ c :: later) (ha : c.after = 0) (hc : c.event.isReset = true)
    (he : ∀ e ∈ earlier, e.after = 0 ∧ e.event.isReset = false) :
    step s = .next (State.pinEvent { s with inputs := earlier ++ later } c.event) := by
  obtain ⟨hdue, htake⟩ := s.dueReset_behind earlier later c hi ha hc he
  have hout : s.dueOutside = some (.input c) := by simp [State.dueOutside, hdue]
  have hown : s.ownStep = s.takeInput c := by
    unfold State.ownStep
    split
    · exact s.runningStep_due _ (s.due_reset _ hdue)
    · exact s.runningStep_due _ (s.due_reset _ hdue)
    · simp only [State.initialisingStep, hout, State.handle]
    · simp only [hout, State.handle]
    · simp only [hout, State.handle]
  simp only [step, hp, hown, htake]

/-- The pins are no matter of an interruption. -/
theorem State.interrupted_pins (s : State) (p : Pins) :
    State.interrupted { s with pins := p } = { s.interrupted with pins := p } := by
  unfold State.interrupted
  dsimp only
  split <;> rfl

/-- In a state that RSTn resets, its fall seen at the pin is the fall told by the command (R2). -/
theorem State.resetAsserted_of_pin (s : State) (h : s.sr.top = .initialising ∨ s.isRunning = true) :
    State.resetAsserted { s with pins := { s.pins with rstn := false } } = s.resetAsserted := by
  obtain ⟨-, hpins, -⟩ := s.interrupted_frame
  unfold State.resetAsserted
  rw [if_pos h, if_pos (show _ ∨ State.isRunning { s with pins := { s.pins with rstn := false } } = true from h)]
  dsimp only
  rw [State.interrupted_pins, hpins]

/-- The states in which RSTn resets the device (R2). -/
theorem State.initialising_or_running (s : State) (h : s.sr.top = .initialising ∨ s.sr.top = .active ∨ s.sr.top = .doze) :
    s.sr.top = .initialising ∨ s.isRunning = true := by
  unfold State.isRunning
  rcases h with h | h | h <;> simp [h]

/-- Settles O12. Each command is one operation of section 1.2; a pin that changes is taken before all else of its
instant, and its event is the same operation. -/
theorem resetCommandsMoveTheDevice : Obligations.ResetCommandsMoveTheDevice := by
  intro s rstn earlier later
  refine ⟨fun ht => ?_, fun ht => ?_, ?_, fun ht => ?_, fun hp he => ?_⟩
  · have hon : exec (.powerOn rstn) s =
        .next (State.powerUp { s with pins := { s.pins with rstn := rstn, vdd := .low } }) := by
      simp only [exec, execPowerOn, ht, if_true]
    rw [hon]
    unfold State.powerUp
    rw [if_pos ht]
    cases rstn with
    | true => exact .of_next ⟨rfl, fun _ => ⟨rfl, rfl⟩, rfl, rfl, rfl, rfl, rfl, rfl, rfl⟩
    | false => exact .of_next ⟨rfl, fun h => (nomatch h), rfl, rfl, rfl, rfl, rfl, rfl, rfl⟩
  · have hrel : exec .resetRelease s = .next (State.enterInitialising { s with pins := { s.pins with rstn := true } }
        (if s.sr.heldFromOff then .powerOn else .pin)) := by
      simp only [exec, execResetRelease, State.resetReleased, ht, if_true]
    rw [hrel]
    exact .of_next ⟨rfl, rfl, rfl, rfl, rfl, rfl, rfl, rfl, rfl⟩
  · exact .of_next ⟨rfl, s.stopped_facts _ _⟩
  · have hpin : exec .pinReset s = .next (State.volatileLost
        { s.interrupted with pins := { s.interrupted.pins with rstn := false } }
        { top := .resetHeld, cause := s.sr.cause }) :=
      congrArg Host.Outcome.next (if_pos (s.initialising_or_running ht))
    rw [hpin]
    exact .of_next ⟨rfl, rfl, s.stopped_facts _ _⟩
  · have hearlier : ∀ e ∈ earlier, e.after = 0 ∧ e.event.isReset = false := by
      intro e hm
      have h := List.all_eq_true.mp he e hm
      simp only [Bool.and_eq_true, beq_iff_eq] at h
      refine ⟨h.1, ?_⟩
      cases hev : e.event with
      | rxd | maint => rfl
      | rstn | vdd => simp [hev] at h
    refine ⟨fun hi => ?_, fun hi ht => ?_, fun hi ht => ?_, fun hi ht => ?_⟩
    · exact s.step_reset earlier later _ hp hi rfl rfl hearlier
    · rw [s.step_reset earlier later _ hp hi rfl rfl hearlier]
      exact congrArg Host.Outcome.next
        (State.resetAsserted_of_pin { s with inputs := earlier ++ later } (s.initialising_or_running ht))
    · rw [s.step_reset earlier later _ hp hi rfl rfl hearlier]
      exact congrArg Host.Outcome.next (if_pos ht)
    · rw [s.step_reset earlier later _ hp hi rfl rfl hearlier]
      refine .of_next ?_
      simp only [State.pinEvent, State.powerUp]
      rw [if_pos ht]
      cases s.pins.rstn <;> exact ⟨rfl, rfl, rfl, rfl, rfl⟩

end Sys2Proof.Machine
end

