-- ==== Sys2Proof/Proofs/OwnSteps.lean ====
section
/-!
PROOFS. The step on an empty queue in a Running state: what is due comes first in the order of R14, then a selection,
then the passing of time; and what a tick counts and samples. Settles O60, O55 and O1.
-/

namespace Sys2Proof.Machine

/-! ### A minimum over a list -/

/-- A minimum over a list is no more than any of its elements. -/
theorem foldl_min_le_of_mem {l : List Nat} {a : Nat} (h : a ∈ l) (n : Nat) : l.foldl min n ≤ a := by
  induction l generalizing n with
  | nil => cases h
  | cons b l ih =>
    rcases List.mem_cons.1 h with rfl | hm
    · exact Nat.le_trans (foldl_min_le l _) (Nat.min_le_right n a)
    · exact ih hm _

/-- The next instant is no later than the next pin change. -/
theorem State.gap_le_input (s : State) : s.inputs.head?.all (fun c => s.gap ≤ c.after) = true := by
  cases hi : s.inputs.head? with
  | none => rfl
  | some c =>
    have hm : c.after ∈ [s.inputs.head?.map PinChange.after, s.receiverGap, s.transmitterGap].reduceOption := by
      simp [List.reduceOption_mem_iff, hi]
    exact decide_eq_true (foldl_min_le_of_mem hm _)

/-! ### The step on an empty queue -/

/-- With no command waiting a Running device takes its own running step. -/
theorem State.step_running (s : State) (hp : s.pending = []) (hr : s.isRunning = true) :
    step s = .next s.runningStep := by
  have howns : s.ownStep = s.runningStep := by
    cases ht : s.sr.top <;> simp_all [State.ownStep, State.isRunning]
  simp [step, hp, howns]

/-- With no command waiting, what is due comes to pass and nothing else (R14). -/
theorem State.step_due (s : State) (hp : s.pending = []) (hr : s.isRunning = true) (d : Due) (h : s.due = some d) :
    step s = .next (s.handle d) := by
  rw [s.step_running hp hr, s.runningStep_due d h]

/-- What is due where neither RSTn, VDD, a tick nor the Doze test comes first (R14). -/
theorem State.due_of_between (s : State) (hr : s.dueReset = none) (ht : ¬unitsPerTick ≤ s.sr.phase)
    (hd : ¬s.mayDoze = true) :
    s.due = ((if s.longBreakDue then some .longBreak else none) <|> s.dueLine <|> s.dueTimer <|> s.dueMaint <|>
      s.dueTransmitter) := by
  simp [State.due, State.dueTick, State.tickDue, hr, ht, hd]

/-- What is due where nothing of the line is (R14). -/
theorem State.due_of_silentLine (s : State) (hr : s.dueReset = none) (ht : ¬unitsPerTick ≤ s.sr.phase)
    (hd : ¬s.mayDoze = true) (hb : ¬s.longBreakDue = true) (hl : s.dueLine = none) :
    s.due = (s.dueTimer <|> s.dueMaint <|> s.dueTransmitter) := by
  simp [s.due_of_between hr ht hd, hb, hl]

/-- A long break is due in Running-Active when the break timer is over (R24). -/
theorem State.longBreakDue_iff (s : State) :
    s.longBreakDue = true ↔ s.sr.top = .active ∧ s.cl.breakTimer = .running 0 := by
  simp [State.longBreakDue, Timer.isDue]

/-- The expiry that is due first, timer by timer, in the order of R14. -/
theorem State.dueTimer_eq (s : State) :
    s.dueTimer =
      if s.cl.holdTimer = .running 0 then some .holdLimit
      else if s.su.keepalive = .running 0 then some .keepalive
      else if s.su.retransmit = .running 0 ∧ s.cl.held = false then some .retransmit
      else if s.bc.gather = .running 0 then some .gather
      else if s.bc.spacing = .running 0 then some .spacing
      else none := by
  simp [State.dueTimer, Timer.isDue, State.retransmitDue, State.spacingDue]

/-- Outside Running, a tick that is due is handled by the device's own step (R4). -/
theorem State.step_outsideTick (s : State) (hp : s.pending = []) (hr : s.dueReset = none)
    (ht : unitsPerTick ≤ s.sr.phase) (htop : s.isRunning = false) : step s = .next s.tickOnce := by
  have hdue : s.dueOutside = some .tick := by simp [State.dueOutside, State.tickDue, hr, ht]
  have howns : s.ownStep = s.tickOnce := by
    cases h : s.sr.top with
    | active => simp [State.isRunning, h] at htop
    | doze => simp [State.isRunning, h] at htop
    | initialising => simp [State.ownStep, State.initialisingStep, h, hdue, State.handle]
    | off => simp [State.ownStep, h, hdue, State.handle]
    | resetHeld => simp [State.ownStep, h, hdue, State.handle]
  simp [step, hp, howns]

/-! ### What a tick does -/

/-- A supply recorded at a level it has already changes nothing. -/
theorem State.withVdd_self (s : State) (band : SupplyBand) (h : s.pins.vdd = band) :
    ({ s with pins := { s.pins with vdd := band } } : State) = s := by
  subst h
  rfl

/-- The Doze test of a tick leaves the pins and the monitor (R10). -/
theorem State.dozeTest_frame (s : State) :
    s.dozeTest.pins = s.pins ∧ s.dozeTest.sr.monitor = s.sr.monitor := by
  unfold State.dozeTest
  split <;> exact ⟨rfl, rfl⟩

/-- The sample of VDD at a tick that crosses no threshold of the monitor changes nothing (R7). -/
theorem State.dueSupply_level (s : State)
    (h : s.pins.vdd = .middle ∨ (s.pins.vdd = .low ∧ s.sr.monitor = .inhibit) ∨
      (s.pins.vdd = .good ∧ s.sr.monitor = .normal)) : s.dueSupply = s := by
  unfold State.dueSupply
  rcases h with hv | ⟨hv, hm⟩ | ⟨hv, hm⟩
  · simp [hv]
  · simp [hv, hm]
  · simp [hv, hm]

/-- The sample of VDD below 2.55 V in Normal is the entry to Inhibit (R7, R8). -/
theorem State.dueSupply_low (s : State) (hv : s.pins.vdd = .low) (hm : s.sr.monitor = .normal) :
    exec (.supplyLowEntry s.pins.rxd) s = .next s.dueSupply := by
  have hd : s.dueSupply = s.supplyLowEntry s.pins.rxd := by simp [State.dueSupply, hv, hm]
  rw [hd]
  exact congrArg (fun x : State => Host.Outcome.next (x.supplyLowEntry s.pins.rxd)) (s.withVdd_self .low hv)

/-- The sample of VDD above 2.65 V in Inhibit is the exit (R7, R9). -/
theorem State.dueSupply_good (s : State) (hv : s.pins.vdd = .good) (hm : s.sr.monitor = .inhibit) :
    exec (.supplyLowExit s.pins.rxd) s = .next s.dueSupply := by
  have hd : s.dueSupply = s.supplyLowExit s.pins.rxd := by simp [State.dueSupply, hv, hm]
  rw [hd]
  exact congrArg (fun x : State => Host.Outcome.next (x.supplyLowExit s.pins.rxd)) (s.withVdd_self .good hv)

/-- The sample of VDD below 1.9 V puts the device Off (R2). -/
theorem State.dueSupply_off (s : State) (hv : s.pins.vdd = .off) : exec .powerOff s = .next s.dueSupply := by
  have hd : s.dueSupply = s.powerDown := by simp [State.dueSupply, hv]
  rw [hd]
  rfl

/-- Settles O60: the passing of time is `elapse_frame` with the bounds of `gap`; a tick counts, tests for Doze, and
compares VDD with the thresholds. -/
theorem tickSamples : Obligations.TickSamples := by
  unfold Obligations.TickSamples
  intro s hp hrun
  dsimp only
  refine ⟨fun hdue hsel => ?_, fun hreset htick => ?_⟩
  · refine ⟨?_, s.gap_le_tickGap, s.gap_le_input, rfl, rfl, rfl, rfl, rfl, rfl, rfl, rfl, rfl, rfl, rfl, rfl, ?_⟩
    · rw [s.step_running hp hrun, s.runningStep_idle hdue hsel, State.passTime]
    · intro hrec htop hrxd
      simp [State.elapse, State.settleAfter, hrec, htop, hrxd]
  · have hstep := s.step_due hp hrun .tick (s.due_tick hreset htick)
    rw [State.handle, s.tickOnce_running hrun] at hstep
    obtain ⟨hpins, hmonitor⟩ := State.dozeTest_frame (State.advanceClocks { s with sr := { s.sr with phase := 0 } })
    generalize htested : (State.advanceClocks { s with sr := { s.sr with phase := 0 } }).dozeTest = tested
      at hstep hpins hmonitor
    have hbands : ∀ band, s.pins.vdd = band → tested.pins.vdd = band := fun _ h => by rw [hpins]; exact h
    have hmodes : ∀ mode, s.sr.monitor = mode → tested.sr.monitor = mode := fun _ h => by rw [hmonitor]; exact h
    refine ⟨fun h => ?_, fun hv hm => ?_, fun hv hm => ?_, fun hv => ?_⟩
    · have hsame : tested.dueSupply = tested := tested.dueSupply_level
        (h.imp (hbands _) (Or.imp (And.imp (hbands _) (hmodes _)) (And.imp (hbands _) (hmodes _))))
      rw [hstep, hsame, ← htested]
      rfl
    · have hlow := tested.dueSupply_low (hbands _ hv) (hmodes _ hm)
      rw [hstep, ← hlow, hpins, ← htested]
      rfl
    · have hgood := tested.dueSupply_good (hbands _ hv) (hmodes _ hm)
      rw [hstep, ← hgood, hpins, ← htested]
      rfl
    · rw [hstep, ← tested.dueSupply_off (hbands _ hv), ← htested]
      rfl

/-! ### MAINT -/

/-- A wake leaves a Running device in Running-Active (R13). -/
theorem State.wake_top (s : State) (rxd : Bool) (h : s.isRunning = true) : (s.wake rxd).sr.top = .active := by
  unfold State.wake
  split
  · rfl
  · simpa [State.isRunning, ‹¬s.sr.top = .doze›] using h

/-- Settles O55: the wake touches the Supply & Reset block, RXD and the receiver alone, and the event is offered and
raised. -/
theorem maintChangeIsLogged : Obligations.MaintChangeIsLogged := by
  unfold Obligations.MaintChangeIsLogged
  intro s rxd hrun
  refine ⟨_, rfl, ?_⟩
  have hrun' : ({ s with pins := { s.pins with maint := !s.pu.maintLevel } } : State).isRunning = true := hrun
  obtain ⟨hsu, hrd, hae, hbc, hpf, hpu, heu, hcs, harray, hledger, _, _, _, htick, hmonitor, _⟩ :=
    State.wake_frame { s with pins := { s.pins with maint := !s.pu.maintLevel } } rxd
  have htop := State.wake_top _ rxd hrun'
  rw [if_pos hrun, State.maintChange, if_pos hrun']
  dsimp only
  rw [State.offer_eq]
  refine ⟨?_, ?_, htop, htick, hmonitor, hsu, hrd, hae, hbc, hpf, hcs, hledger, harray⟩
  · simp only [State.raise_pu, hpu]
  · simp only [State.raise_eu, heu, hpu, htick]
    cases s.pu.maintLevel <;> rfl

/-! ### The order of R14 -/

/-- Settles O1: each branch is the occurrence that is due first. -/
theorem stepRunsTheQueue : Obligations.StepRunsTheQueue := by
  unfold Obligations.StepRunsTheQueue
  intro c rest s
  refine ⟨fun hp => by simp [step, hp], fun hp hrun => ?_, fun hp htop hin hphase => ?_,
    fun hp hreset htick => ⟨fun htop => ?_, fun htop => ?_⟩⟩
  · rw [s.step_running hp hrun]
    refine congrArg Host.Outcome.next ?_
    cases hreset : s.dueReset with
    | some d => exact s.runningStep_due d (s.due_reset d hreset)
    | none =>
      dsimp only
      split
      case isTrue htick => exact s.runningStep_due .tick (s.due_tick hreset htick)
      case isFalse htick =>
      split
      case isTrue hdoze => exact s.runningStep_due .doze (s.due_doze hreset (Nat.lt_of_not_le htick) hdoze)
      case isFalse hdoze =>
      split
      case isTrue hb =>
        have hbreak := s.longBreakDue_iff.2 hb
        exact s.runningStep_due .longBreak (by simp [s.due_of_between hreset htick hdoze, hbreak])
      case isFalse hb =>
      have hbreak : ¬s.longBreakDue = true := fun h => hb (s.longBreakDue_iff.1 h)
      cases hline : s.dueLine with
      | some d => exact s.runningStep_due d (by simp [s.due_of_between hreset htick hdoze, hbreak, hline])
      | none =>
        dsimp only
        have hdue := s.due_of_silentLine hreset htick hdoze hbreak hline
        rw [s.dueTimer_eq] at hdue
        split
        case isTrue h => exact s.runningStep_due .holdLimit (by simp [hdue, h])
        case isFalse hhold =>
        split
        case isTrue h => exact s.runningStep_due .keepalive (by simp [hdue, hhold, h])
        case isFalse hkeep =>
        split
        case isTrue h => exact s.runningStep_due .retransmit (by simp [hdue, hhold, hkeep, h])
        case isFalse hretry =>
        split
        case isTrue h => exact s.runningStep_due .gather (by simp [hdue, hhold, hkeep, hretry, h])
        case isFalse hgather =>
        split
        case isTrue h => exact s.runningStep_due .spacing (by simp [hdue, hhold, hkeep, hretry, hgather, h])
        case isFalse hspacing =>
        have hquiet : s.due = (s.dueMaint <|> s.dueTransmitter) := by
          simp [hdue, hhold, hkeep, hretry, hgather, hspacing]
        split
        case isTrue h => exact s.runningStep_due .maint (by simp [hquiet, State.dueMaint, debounceSamples, h])
        case isFalse hmaint =>
        have hlast : s.due = s.dueTransmitter := by simp [hquiet, State.dueMaint, debounceSamples, hmaint]
        cases htx : s.dueTransmitter with
        | some d => exact s.runningStep_due d (hlast.trans htx)
        | none =>
          have hnone : s.due = none := hlast.trans htx
          cases hsel : s.select with
          | some t => simp [State.runningStep, hnone, hsel]
          | none => exact s.runningStep_idle hnone hsel
  · have hout := s.dueOutside_none hin hphase
    rcases htop with htop | htop
    · simp [step, hp, State.ownStep, htop, hout]
    · simp [step, hp, State.ownStep, htop, hout]
  · rw [s.step_outsideTick hp hreset htick (by simp [State.isRunning, htop])]
    simp [State.tickOnce, htop]
  · rcases htop with htop | htop
    · rw [s.step_outsideTick hp hreset htick (by simp [State.isRunning, htop])]
      simp [State.tickOnce, htop]
    · rw [s.step_outsideTick hp hreset htick (by simp [State.isRunning, htop])]
      simp [State.tickOnce, htop]

end Sys2Proof.Machine
end

