-- ==== Sys2Proof/Proofs/Receiver.lean ====
section
/-!
PROOFS. Doze, the edges of RXD, the samples of a character and the events of the receiver (section 1.5, chapter 2).
Settles O15.
-/

namespace Sys2Proof.Machine

/-! ### Bit times -/

/-- The divisor of a rate index is its entry of the table of R20. -/
theorem rateDivisor_eq (rate : Byte) : rateDivisor rate = [96, 48, 24, 16, 8, 4, 2, 1].getD rate.toNat 1 := by
  unfold rateDivisor
  generalize rate.toNat = n
  match n with
  | 0 | 1 | 2 | 3 | 4 | 5 | 6 | 7 => rfl
  | n + 8 => rfl

/-- A bit time from the table of R20. -/
theorem State.bitTime_eq (s : State) :
    s.bitTime = 10 * [96, 48, 24, 16, 8, 4, 2, 1].getD s.cl.rate.toNat 1 :=
  congrArg (10 * ·) (rateDivisor_eq s.cl.rate)

/-- A character is ten bit times (R19). -/
theorem State.characterTime_eq (s : State) : s.characterTime = 10 * s.bitTime := rfl

/-! ### Doze -/

/-- The conditions of R10. That no slot is Answered follows from every slot being Free. -/
theorem State.mayDoze_iff (s : State) : s.mayDoze = true ↔
    s.sr.top = .active ∧ s.cs.active.dozeEnable = 1 ∧ s.ae.engine = .idle ∧
      (s.bc.state = .none ∨ s.bc.state = .parked) ∧ (∀ x ∈ s.rd.slots, x.state = .free) ∧ s.su.window = [] ∧
      s.su.replies = [] ∧ s.su.rejPending = false ∧ s.su.ackOwed = false ∧ s.su.busyNotePending = false ∧
      s.su.pass = [] ∧
      ¬(s.su.link = .attached ∧ s.su.noticesWanted = true ∧ s.eu.log.any (fun x => !x.inFlight) = true) ∧
      s.cl.tx = .free ∧ s.cl.held = false ∧ s.cl.receiver = .idle ∧ 50 ≤ s.sr.idleTimer := by
  have hfree : (∀ x ∈ s.rd.slots, x.state = .free) → ∀ x ∈ s.rd.slots, ¬x.state = .answered :=
    fun h x hx hax => by simp [h x hx] at hax
  have hnotice : s.noticeDue = true ↔
      s.su.link = .attached ∧ s.su.noticesWanted = true ∧ s.eu.log.any (fun x => !x.inFlight) = true := by
    simp [State.noticeDue, State.isAttached, State.hasUndelivered, and_assoc]
  rw [← hnotice, State.mayDoze, Bool.and_eq_true, decide_eq_true_eq]
  simp only [State.dozeQuiet, State.nothingToSend, State.engineIdle, idleTicks, Bool.and_eq_true, Bool.or_eq_true,
    beq_iff_eq, Bool.not_eq_true', List.all_eq_true, bne_iff_ne, ne_eq, Bool.not_eq_true]
  tauto

/-! ### The end of Settling -/

/-- Settling is over once RXD has been high for a character time (R23). -/
theorem State.settled_iff (s : State) : s.settled = true ↔
    s.sr.top = .active ∧ s.cl.receiver = .settling ∧ s.pins.rxd = true ∧ 10 * s.bitTime ≤ s.cl.settleCount := by
  simp only [State.settled, Bool.and_eq_true, beq_iff_eq, decide_eq_true_eq, and_assoc]
  exact Iff.rfl

/-- A receiver that is settling does not listen (R23). -/
theorem State.listening_of_settling (s : State) (h : s.cl.receiver = .settling) : s.listening = false := by
  simp [State.listening, h, Receiver.takesCharacters]

/-- Whole characters in Settling set the settle count and the Doze idle timer back, and leave the line high (R23, R26). -/
theorem State.unheard_settling (s : State) (ht : s.sr.top = .active) (hr : s.cl.receiver = .settling) :
    s.unheard true .stopped = { s with
      sr := { s.sr with idleTimer := 0 }
      pins := { s.pins with rxd := true }
      cl := { s.cl with settleCount := 0, breakTimer := .stopped } } := by
  simp [State.unheard, ht, hr]

/-- No parcel and no signal is taken in Settling (R23). -/
theorem exec_settling (s : State) (c : Instr) (h : ParcelHead) (r : Request) (ht : s.sr.top = .active)
    (hr : s.cl.receiver = .settling) (hc : requestOf c = some (h, r) ∨ c = .hold ∨ c = .go) :
    exec c s = .next { s with
      sr := { s.sr with idleTimer := 0 }
      pins := { s.pins with rxd := true }
      cl := { s.cl with settleCount := 0, breakTimer := .stopped } } := by
  have hdeaf := s.listening_of_settling hr
  rw [← s.unheard_settling ht hr]
  rcases hc with hc | rfl | rfl
  · rw [exec_request c h r hc, requestStep, s.onParcel_of_deaf _ hdeaf]
  · simp [exec, execHold, State.characters, hdeaf]
  · simp [exec, execGo, State.characters, hdeaf]

/-! ### The samples of a character -/

/-- A state with the line at a level and the receiver in a state. -/
def State.onLine (s : State) (high : Bool) (receiver : Receiver) : State :=
  { s with pins := { s.pins with rxd := high }, cl := { s.cl with receiver := receiver } }

/-- A state whose receiver is in a state is that state with its line and receiver written again. -/
theorem State.eq_onLine (s : State) {receiver : Receiver} (h : s.cl.receiver = receiver) :
    s = s.onLine s.pins.rxd receiver := by
  subst h
  rfl

/-- The receiver of a state with its line written takes another state. -/
theorem State.onLine_setReceiver (s : State) (high : Bool) (receiver receiver' : Receiver) :
    (s.onLine high receiver).setReceiver receiver' = s.onLine high receiver' := rfl

/-- A sample within a character is taken at the level of the line (R21). -/
theorem State.sampled_onLine (s : State) (high level : Bool) (samples : List Bool) (left : Nat) :
    (s.onLine high (.inCharacter samples left)).sampled level =
      (s.onLine level (.inCharacter samples left)).sampleBit samples := rfl

/-- A sample of the start bit or of a data bit is collected (R21). -/
theorem State.sampled_collects (s : State) (high level : Bool) (samples : List Bool) (left : Nat)
    (hn : samples = [] → level = false) (hl : samples.length < 9) :
    (s.onLine high (.inCharacter samples left)).sampled level =
      s.onLine level (.inCharacter (samples ++ [level]) s.bitTime) :=
  State.sampleBit_collects (s.onLine level (.inCharacter samples left)) samples hn hl

/-- Data bits are collected in their order, after a start bit (R21). -/
theorem State.foldl_sampled_collects (s : State) (bits samples : List Bool) (high : Bool) (left : Nat)
    (hn : samples ≠ []) (hl : samples.length + bits.length ≤ 9) :
    ∃ high' left', bits.foldl State.sampled (s.onLine high (.inCharacter samples left)) =
      s.onLine high' (.inCharacter (samples ++ bits) left') := by
  induction bits generalizing samples high left with
  | nil => exact ⟨high, left, by simp⟩
  | cons bit bits ih =>
    have hlen : samples.length + (bits.length + 1) ≤ 9 := hl
    rw [List.foldl_cons, s.sampled_collects high bit samples left (fun h => absurd h hn) (by omega)]
    have hrest := ih (samples ++ [bit]) bit s.bitTime (by simp) (by simp; omega)
    simpa using hrest

/-- The nine samples before the stop bit of an octet (R21). -/
theorem State.foldl_sampled_octet (s : State) (data : Byte) (left : Nat) (h : s.cl.receiver = .inCharacter [] left) :
    ∃ high' left', (false :: dataBits data).foldl State.sampled s =
      s.onLine high' (.inCharacter (false :: dataBits data) left') := by
  have hstart : s.sampled false = s.onLine false (.inCharacter [false] s.bitTime) := by
    conv_lhs => rw [s.eq_onLine h]
    exact s.sampled_collects _ false [] left (fun _ => rfl) (by decide)
  rw [List.foldl_cons, hstart]
  exact s.foldl_sampled_collects (dataBits data) [false] false s.bitTime (by simp) (by simp [dataBits])

/-- Ten samples with a high stop bit are the octet's event (R21). -/
theorem State.foldl_sampled_stopHigh (s : State) (data : Byte) (left : Nat)
    (h : s.cl.receiver = .inCharacter [] left) :
    (false :: dataBits data ++ [true]).foldl State.sampled s = (s.onLine true .idle).octetEvent data := by
  obtain ⟨high', left', hbits⟩ := s.foldl_sampled_octet data left h
  rw [List.foldl_append, hbits, List.foldl_cons, List.foldl_nil, s.sampled_onLine,
    State.sampleBit_octet _ false data rfl, s.onLine_setReceiver]

/-- Ten samples with a low stop bit are a framing error, and the receiver is In-break (R22, R41). -/
theorem State.foldl_sampled_stopLow (s : State) (data : Byte) (left : Nat)
    (h : s.cl.receiver = .inCharacter [] left) :
    (false :: dataBits data ++ [false]).foldl State.sampled s =
      { s.onLine false .inBreak with pf := s.pf.framingError } := by
  obtain ⟨high', left', hbits⟩ := s.foldl_sampled_octet data left h
  rw [List.foldl_append, hbits, List.foldl_cons, List.foldl_nil, s.sampled_onLine,
    State.sampleBit_framing _ false data rfl, s.onLine_setReceiver]
  rfl

/-- Settles O15, clause by clause: the model's conditions and edges, and the samples of a character collected. -/
theorem dozeAndReceiverEvents : Obligations.DozeAndReceiverEvents := by
  unfold Obligations.DozeAndReceiverEvents
  intro s low level data samples left c h r
  dsimp only
  rw [← s.bitTime_eq]
  refine ⟨s.mayDoze_iff, fun hd => ?_, fun hd => ?_, fun ht => ?_, fun ht hr hx hc => ?_, fun _ _ hc => ?_,
    fun hl => ?_, fun ht hr => ?_, fun ht hx hr => s.setRxd_fall ht hx hr, fun ht hx => s.setRxd_rise ht hx,
    fun hr => ⟨?_, s.foldl_sampled_stopHigh data left hr, s.foldl_sampled_stopLow data left hr⟩,
    fun hr h1 h9 => ?_, fun ht hr hc => exec_settling s c h r ht hr hc⟩
  · simp [exec, execDozeEntry, hd, State.enterDoze]
  · simp [exec, execDozeEntry, hd]
  · simp [exec, execDozeWake, State.wake, ht, breakTicks]
  · have hs := s.settled_iff.2 ⟨ht, hr, hx, hc⟩
    simp only [exec, execSettleComplete, hs, if_true, s.settle_eq]
    rfl
  · have hs : ¬s.settled = true := fun h => by
      obtain ⟨_, _, _, hle⟩ := s.settled_iff.1 h
      omega
    simp [exec, execSettleComplete, hs]
  · simp only [exec, execFramingError, hl, if_true]
    cases low with
    | false => rfl
    | true => rfl
  · simp [exec, execShortBreak, ht, hr]
  · conv_lhs => rw [s.eq_onLine hr]
    exact State.sampleBit_noise (s.onLine true (.inCharacter [] left)) rfl
  · conv_lhs => rw [s.eq_onLine hr]
    exact s.sampled_collects _ level samples left (fun h => by simp [h] at h1) h9

end Sys2Proof.Machine
end

