-- ==== Sys2Proof/Proofs/Outputs.lean ====
section
/-!
PROOFS. ATTNn, BUSYn and TXD as functions of the state (sections 1.1, 2.1 and 9.6). Settles O59.
-/

namespace Sys2Proof.Machine

/-! ### ATTNn -/

/-- ATTNn follows its causes in the running states, and in Initialising from step 8 of R4 (R191). -/
theorem State.attnLevel_running (s : State)
    (h : s.sr.top = .active ∨ s.sr.top = .doze ∨ (s.sr.top = .initialising ∧ s.sr.started = true)) :
    s.attnLevel = if s.rawSet &&& s.eu.enable = 0 then .released else .low := by
  have hfollows : s.attnLevel = s.attnRunning := by
    rcases h with h | h | ⟨h, hs⟩
    · simp only [State.attnLevel, h]
    · simp only [State.attnLevel, h]
    · simp only [State.attnLevel, h, hs, if_true]
  exact hfollows

/-- NOTICE_WAITING: an undelivered record waits and no session wants notices (R190). -/
theorem State.noticeWaiting_iff (s : State) : s.noticeWaiting = true ↔
    s.eu.log.any (fun r => !r.inFlight) = true ∧ (s.su.link = .detached ∨ s.su.noticesWanted = false) := by
  cases hl : s.su.link with
  | detached => simp [State.noticeWaiting, State.hasUndelivered, State.isAttached, hl]
  | attached => simp [State.noticeWaiting, State.hasUndelivered, State.isAttached, hl]

/-- Bit 2 of the raw set is NOTICE_WAITING, where no latched cause holds it (R190). -/
theorem State.rawSet_noticeBit (s : State) (h : s.eu.latched.getLsbD 2 = false) :
    s.rawSet.getLsbD 2 = s.noticeWaiting := by
  rw [State.rawSet, BitVec.getLsbD_or, h, Bool.false_or]
  cases s.noticeWaiting <;> rfl

/-! ### BUSYn -/

/-- BUSYn in Running-Active (R194). -/
theorem State.busyLevel_active (s : State) (h : s.sr.top = .active) :
    s.busyLevel = if s.ae.engine ≠ .idle ∨ s.bc.state = .gathering then .low else .high := by
  by_cases he : s.ae.engine = .idle
  · by_cases hb : s.bc.state = .gathering <;> simp [State.busyLevel, State.engineIdle, h, he, hb]
  · simp [State.busyLevel, State.engineIdle, h, he]

/-! ### TXD -/

/-- A bit time is some units long (R20). -/
theorem bitUnits_pos (rate : Byte) : 0 < bitUnits rate := by
  have hdiv : 0 < rateDivisor rate := by
    unfold rateDivisor
    split <;> decide
  unfold bitUnits
  omega

/-- Where the time left of a character lies in its k-th bit time, k bit times of it have passed (R19). -/
theorem bitReached_eq {unit left k : Nat} (hk : k < 10) (hgt : (9 - k) * unit < left) (hle : left ≤ (10 - k) * unit) :
    (10 * unit - left) / unit = k := by
  obtain ⟨m, hm⟩ : ∃ m, 9 - k = m := ⟨_, rfl⟩
  have hten : 10 - k = m + 1 := by omega
  have hsum : 10 * unit = k * unit + (m + 1) * unit := by rw [← Nat.add_mul]; congr 1; omega
  rw [hm] at hgt
  rw [hten] at hle
  have hm1 : (m + 1) * unit = m * unit + unit := Nat.succ_mul m unit
  have hk1 : (k + 1) * unit = k * unit + unit := Nat.succ_mul k unit
  exact Nat.div_eq_of_lt_le (by omega) (by omega)

/-- The k-th bit of a character: a low start bit, the data bits from bit 0, a high stop bit (R19). -/
theorem characterBits_getD {k : Nat} (b : Byte) (hk : k < 10) :
    (characterBits b).getD k true = true ↔ k = 9 ∨ (1 ≤ k ∧ k ≤ 8 ∧ b.getLsbD (k - 1) = true) := by
  unfold characterBits dataBits
  interval_cases k <;> simp

/-- The k-th bit of a character is low where it is the start bit or a clear data bit (R19). -/
theorem characterBits_getD_low {k : Nat} (b : Byte) (hk : k < 10) :
    ¬(characterBits b).getD k true = true ↔ k = 0 ∨ (1 ≤ k ∧ k ≤ 8 ∧ b.getLsbD (k - 1) = false) := by
  unfold characterBits dataBits
  interval_cases k <;> simp

/-- TXD shows the bit that the octet in hand has reached (R19, R30). -/
theorem State.txdLevel_sending (s : State) (b : Byte) (rest : List Byte) (left : Nat) (ht : s.sr.top = .active)
    (htx : s.cl.tx = .sending (b :: rest) left) :
    s.txdLevel =
      if (characterBits b).getD ((10 * bitUnits s.cl.rate - left) / bitUnits s.cl.rate) true = true
      then .high else .low := by
  simp [State.txdLevel, ht, htx, State.txdSending, characterUnits]

/-- TXD is high after the stop bit (R19). -/
theorem State.txdLevel_stopped (s : State) (b : Byte) (rest : List Byte) (ht : s.sr.top = .active)
    (htx : s.cl.tx = .sending (b :: rest) 0) : s.txdLevel = .high := by
  rw [s.txdLevel_sending b rest 0 ht htx, Nat.sub_zero, Nat.mul_div_cancel _ (bitUnits_pos _)]
  rfl

/-- TXD is high while the transmitter sends nothing (R1). -/
theorem State.txdLevel_silent (s : State) (octets : List Byte) (ht : s.sr.top = .active)
    (htx : s.cl.tx = .free ∨ s.cl.tx = .paused octets) : s.txdLevel = .high := by
  rcases htx with htx | htx <;> simp [State.txdLevel, ht, htx]

/-- Outside Running-Active the device drives TXD high, but in Off (R1). -/
theorem State.txdLevel_inactive (s : State) (ha : s.sr.top ≠ .active) (ho : s.sr.top ≠ .off) : s.txdLevel = .high := by
  unfold State.txdLevel
  split <;> simp_all

/-- Settles O59, output by output. -/
theorem outputsFollowTheState : Obligations.OutputsFollowTheState := by
  unfold Obligations.OutputsFollowTheState
  intro s b rest left k
  dsimp only
  rw [← rateDivisor_eq]
  refine ⟨fun h => ?_, fun h => ?_, fun h => ?_, fun ht htx hk hgt hle => ?_, s.txdLevel_stopped b rest,
    s.txdLevel_silent rest, fun h => ⟨?_, ?_⟩, fun h hs => ⟨?_, ?_⟩, fun h => ?_, fun h => ?_⟩
  · rw [s.attnLevel_running h]
    split <;> simp_all
  · rw [s.rawSet_noticeBit h]
    exact s.noticeWaiting_iff
  · rw [s.busyLevel_active h]
    split <;> simp_all
  · have hbit := bitReached_eq (unit := bitUnits s.cl.rate) hk hgt hle
    rw [s.txdLevel_sending b rest left ht htx, hbit, ← characterBits_getD b hk,
      ← characterBits_getD_low b hk]
    split <;> simp_all
  · simp [State.busyLevel, h]
  · exact s.txdLevel_inactive (by simp [h]) (by simp [h])
  · simp [State.busyLevel, h, hs]
  · exact s.txdLevel_inactive (by simp [h]) (by simp [h])
  · rcases h with h | ⟨h, hs⟩
    · exact ⟨by simp [State.attnLevel, h], by simp [State.busyLevel, h],
        s.txdLevel_inactive (by simp [h]) (by simp [h]), by simp [State.txdOctets, h]⟩
    · exact ⟨by simp [State.attnLevel, h, hs], by simp [State.busyLevel, h, hs],
        s.txdLevel_inactive (by simp [h]) (by simp [h]), by simp [State.txdOctets, h]⟩
  · exact ⟨by simp [State.attnLevel, h], by simp [State.busyLevel, h], by simp [State.txdLevel, h],
      by simp [State.txdOctets, h]⟩

end Sys2Proof.Machine
end

