-- ==== Sys2Proof/Proofs/ResetState.lean ====
section
/-!
PROOFS. The first power-on of a delivered part (chapters 1 and 10). Settles O11. What the reset state answers is
evaluated part by part.
-/

namespace Sys2Proof.Machine

/-- A delivered part that is initialising after its first power-on. -/
def State.delivery : State :=
  { State.reset with
    sr := { top := .initialising, cause := .powerOn }
    eu := {}
    cl := {} }

/-- A delivered part has no valid stored copy (R199). -/
theorem State.reset_current : State.reset.cs.current = none := by decide

/-- A delivered ledger has 64 Normal sectors (R110). -/
theorem State.reset_ledger : State.reset.ledger = List.replicate 64 { condition := .normal, wear := 0 } := rfl

/-- Every invariant of the machine holds of the reset state. -/
theorem State.reset_invariants :
    State.reset.coherent = true ∧ State.reset.bounded = true ∧ State.reset.array.wf = true :=
  ⟨by decide, by decide, State.reset_array_wf⟩

/-- The first power-on of a delivered part makes the reset state. -/
theorem exec_delivery : exec (.initialisationComplete false true .good) State.delivery = .next State.reset := by
  rw [exec_initialisationComplete_fresh State.delivery false true .good rfl rfl]
  rfl

/-- Settles O11, by evaluation of the reset state. -/
theorem resetState : Obligations.ResetState := by
  unfold Obligations.ResetState
  exact ⟨exec_delivery, rfl, rfl, rfl, rfl, State.reset_ledger, rfl, rfl, rfl, State.reset_current, by decide, rfl,
    by decide, by decide, rfl, by decide, by decide, State.reset_invariants⟩

end Sys2Proof.Machine
end

