-- ==== Sys2Proof/Proofs/KeptSlots.lean ====
section
/-!
PROOFS. A slot that neither waits in the queue nor belongs to a member keeps what it holds while the batch and the head
examination go on (sections 5.2, 7.5 and 7.6). An answer given at the end of an engine operation is such a slot's.
-/

namespace Sys2Proof.Machine

/-- Slot `i` holds `x`, and neither waits in the queue nor belongs to a member. -/
structure State.Keeps (i : Nat) (x : Slot) (s : State) : Prop where
  slot : s.slot i = x
  unqueued : i ∉ s.rd.queue
  unbatched : ∀ m ∈ s.bc.members, m.slot ≠ i

section
variable {i : Nat} {x : Slot} {s : State}

/-- Where the Dispatcher and the member list are as before, so is the slot. -/
theorem State.Keeps.of_same {t : State} (h : s.Keeps i x) (hrd : t.rd = s.rd) (hm : t.bc.members = s.bc.members) :
    t.Keeps i x :=
  ⟨by rw [State.slot, hrd]; exact h.slot, by rw [hrd]; exact h.unqueued, by rw [hm]; exact h.unbatched⟩

/-! ### Slots of others -/

theorem State.Keeps.answer (h : s.Keeps i x) {j : Nat} (hj : j ≠ i) (st : Status) (results : List Byte) :
    (s.answer j st results).Keeps i x :=
  ⟨(s.slot_answer_ne st results hj).trans h.slot, h.unqueued, h.unbatched⟩

theorem State.Keeps.releaseSlot (h : s.Keeps i x) {j : Nat} (hj : j ≠ i) : (s.releaseSlot j).Keeps i x := by
  rw [State.releaseSlot_eq]
  exact ⟨(s.slot_setSlot_ne {} hj).trans h.slot, h.unqueued, h.unbatched⟩

theorem State.Keeps.ne_of_queued (h : s.Keeps i x) {j : Nat} (hj : j ∈ s.rd.queue) : j ≠ i :=
  fun e => h.unqueued (e ▸ hj)

theorem State.Keeps.unqueue (h : s.Keeps i x) (j : Nat) : (s.unqueue j).Keeps i x :=
  ⟨h.slot, fun hm => h.unqueued (List.mem_of_mem_filter hm), h.unbatched⟩

theorem State.Keeps.refuseHead (h : s.Keeps i x) {j : Nat} (hj : j ∈ s.rd.queue) (st : Status) :
    (s.refuseHead j st).Keeps i x := (h.unqueue j).answer (h.ne_of_queued hj) st []

theorem State.Keeps.setSlot (h : s.Keeps i x) {j : Nat} (hj : j ≠ i) (y : Slot) : (s.setSlot j y).Keeps i x :=
  ⟨(s.slot_setSlot_ne y hj).trans h.slot, h.unqueued, h.unbatched⟩

theorem State.Keeps.startHead (h : s.Keeps i x) {j : Nat} (hj : j ∈ s.rd.queue) : (s.startHead j).Keeps i x :=
  ((h.unqueue j).setSlot (h.ne_of_queued hj) _).of_same rfl rfl

/-! ### The end of a batch (R157, R162) -/

theorem State.Keeps.settleMember (h : s.Keeps i x) (m : Member) (hm : m.slot ≠ i) : (s.settleMember m).Keeps i x := by
  unfold State.settleMember
  split
  · exact h.releaseSlot hm
  · exact h.answer hm _ _

theorem State.Keeps.settleMembers (ms : List Member) (h : s.Keeps i x) (hms : ∀ m ∈ ms, m.slot ≠ i) :
    (ms.foldl State.settleMember s).Keeps i x := by
  induction ms generalizing s with
  | nil => exact h
  | cons m rest ih =>
    exact ih (h.settleMember m (hms m List.mem_cons_self)) (fun o ho => hms o (List.mem_cons_of_mem m ho))

theorem State.Keeps.finishBatch (h : s.Keeps i x) : s.finishBatch.Keeps i x := by
  unfold State.finishBatch
  split
  · exact ⟨h.slot, h.unqueued, fun _ hm => nomatch hm⟩
  · obtain ⟨hslot, hqueue, -⟩ := State.Keeps.settleMembers s.bc.members h h.unbatched
    unfold State.completeBatch
    rw [State.reportOrphans_eq]
    exact ⟨hslot, hqueue, fun _ hm => nomatch hm⟩

theorem State.Keeps.abortBatch (h : s.Keeps i x) : s.abortBatch.Keeps i x :=
  State.Keeps.finishBatch (s := { s with bc := { s.bc.abortRest with held := none } }) (h.of_same rfl rfl)

/-! ### Sector work (section 7.5) -/

theorem State.Keeps.openSector (h : s.Keeps i x) (k : Nat) : (s.openSector k).Keeps i x := by
  simp only [State.openSector]
  split
  · exact h.of_same rfl rfl
  · exact h.of_same rfl rfl

theorem State.Keeps.reachFrom (ks : List Nat) (h : s.Keeps i x) : (reachFrom ks s).Keeps i x := by
  induction ks generalizing s with
  | nil => exact h.finishBatch
  | cons k rest ih =>
    unfold Machine.reachFrom
    split
    · exact h.abortBatch
    · split
      · exact ih (s := s.skipSector k) (h.of_same rfl rfl)
      · exact h.openSector k

theorem State.Keeps.beginWork (h : s.Keeps i x) : s.beginWork.Keeps i x := by
  unfold State.beginWork
  split
  · split
    · exact h.abortBatch
    · exact h.of_same rfl rfl
  · exact h.reachFrom _

theorem State.Keeps.enterErasing (h : s.Keeps i x) : s.enterErasing.Keeps i x := by
  have h1 : State.Keeps i x { s with bc := { s.bc with state := .erasing, gather := .stopped } } := h.of_same rfl rfl
  simp only [State.enterErasing]
  split
  · exact h1.beginWork
  · exact h1

theorem State.Keeps.addMember (h : s.Keeps i x) {j : Nat} (hj : j ∈ s.rd.queue) : (s.addMember j).Keeps i x := by
  obtain ⟨hslot, hqueue, -⟩ := (h.unqueue j).setSlot (h.ne_of_queued hj) { (s.unqueue j).slot j with state := .batched }
  refine ⟨hslot, hqueue, fun m hm => ?_⟩
  rcases List.mem_append.mp hm with hm | hm
  · exact h.unbatched m hm
  · cases List.mem_singleton.mp hm
    exact h.ne_of_queued hj

theorem State.Keeps.enterBatch (h : s.Keeps i x) {j : Nat} (hj : j ∈ s.rd.queue) : (s.enterBatch j).Keeps i x := by
  have hadd := h.addMember hj
  unfold State.enterBatch
  dsimp only
  split
  · exact hadd.enterErasing
  · split
    · exact hadd.enterErasing
    · exact hadd.of_same rfl rfl

/-! ### The head examination (R96, R97) -/

theorem State.Keeps.refuseKind {t : State} (h : s.Keeps i x) {j : Nat} (hj : j ∈ s.rd.queue) (k : HeadKind)
    (ht : s.refuseKind j k = some t) : t.Keeps i x := by
  unfold State.refuseKind at ht
  split at ht <;> cases ht <;> exact h.refuseHead hj _

theorem State.Keeps.tryStart (h : s.Keeps i x) {j : Nat} (hj : j ∈ s.rd.queue) : (s.tryStart j).state.Keeps i x := by
  unfold State.tryStart
  split
  · exact h.refuseHead hj _
  · exact h.startHead hj

theorem State.Keeps.headNoBatch (h : s.Keeps i x) {j : Nat} (hj : j ∈ s.rd.queue) :
    (s.headNoBatch j).state.Keeps i x := by
  unfold State.headNoBatch
  split
  · exact h.enterBatch hj
  · split
    · exact h.tryStart hj
    · exact h

theorem State.Keeps.headGathering (h : s.Keeps i x) {j : Nat} (hj : j ∈ s.rd.queue) :
    (s.headGathering j).state.Keeps i x := by
  unfold State.headGathering
  split
  · exact h.enterBatch hj
  · exact h.enterErasing

theorem State.Keeps.headErasing (h : s.Keeps i x) {j : Nat} (hj : j ∈ s.rd.queue) :
    (s.headErasing j).state.Keeps i x := by
  unfold State.headErasing
  split
  · exact h.refuseKind hj _ ‹_›
  · show State.Keeps i x (if s.mayYield then s.yieldBatch else s)
    split
    · exact h.of_same rfl rfl
    · exact h

theorem State.Keeps.headYielded (h : s.Keeps i x) {j : Nat} (hj : j ∈ s.rd.queue) :
    (s.headYielded j).state.Keeps i x := by
  unfold State.headYielded
  split
  · exact h.refuseKind hj _ ‹_›
  · split
    · exact h
    · split
      · have hstart := h.tryStart hj
        split
        · rename_i t ht
          rw [ht] at hstart
          exact State.Keeps.of_same (s := t) hstart rfl rfl
        · rename_i t ht
          rw [ht] at hstart
          exact hstart
      · exact h.enterErasing

theorem State.Keeps.headParked (h : s.Keeps i x) {j : Nat} (hj : j ∈ s.rd.queue) :
    (s.headParked j).state.Keeps i x := by
  unfold State.headParked
  split
  · exact h.refuseKind hj _ ‹_›
  · split
    · exact h.tryStart hj
    · exact h

theorem State.Keeps.lookAtHead (h : s.Keeps i x) : s.lookAtHead.state.Keeps i x := by
  unfold State.lookAtHead
  split
  · split
    · exact h.enterErasing
    · exact h
  · rename_i j hj
    have hq := s.mem_queue_of_head hj
    split
    · exact h.headNoBatch hq
    · exact h.headGathering hq
    · exact h.headErasing hq
    · exact h.headYielded hq
    · exact h.headParked hq

theorem State.Keeps.examineFor (n : Nat) (h : s.Keeps i x) : (examineFor n s).Keeps i x := by
  induction n generalizing s with
  | zero => exact h
  | succ n ih =>
    have hlook := h.lookAtHead
    unfold Machine.examineFor
    split
    · rename_i t ht
      rw [ht] at hlook
      exact hlook
    · rename_i t ht
      rw [ht] at hlook
      exact ih hlook

/-- What the engine's freedom brings about leaves a slot that nobody uses as it is (R112, R141, R156). -/
theorem State.Keeps.engineFreed (h : s.Keeps i x) : s.engineFreed.Keeps i x := by
  unfold State.engineFreed
  split
  · exact h.beginWork.examineFor _
  · exact h.examineFor _

end

/-- The request of the engine's operation, answered, keeps its answer whatever starts after it (R100, R112). -/
theorem State.Agrees.slot_finishFreed {s : State} (h : s.Agrees) {i : Nat} (hi : s.ae.engine.slot? = some i)
    (ho : (s.slot i).orphaned = false) (st : Status) (results : List Byte) :
    (s.finishRunning i st results).engineFreed.slot i =
      { s.slot i with
        state := .answered, completion := s.rd.nextCompletion
        response := responseOf (s.slot i).request.code st results } := by
  have hrun : (s.slot i).state = .running := h.slots.running i hi
  have hlt : i < s.rd.slots.length := s.lt_of_slot_state (by rw [hrun]; decide)
  rw [s.finishRunning_answered i st results ho]
  refine (State.Keeps.engineFreed
    (s := State.answer { s with ae := { s.ae with engine := .idle } } i st results)
    ⟨State.slot_answer_same _ st results hlt, fun hq => ?_, fun m hm hmi => ?_⟩).slot
  · exact absurd (hrun.symm.trans (h.slots.queued i hq).1) (by decide)
  · exact absurd (hrun.symm.trans (hmi ▸ h.slots.batched m hm)) (by decide)

end Sys2Proof.Machine
end

