-- ==== Sys2Proof/Proofs/SupplyCrossings.lean ====
section
/-!
PROOFS. The crossings of the supply thresholds (section 1.4): the state in which a supply-low entry abandons the running
work, and what is left of each kind of work. Settles O14.
-/

namespace Sys2Proof.Machine

/-! ### The state in which the running work is abandoned -/

/-- What a supply-low entry has done to `s` when it comes to the running work (R7, R8, R13). -/
structure State.EntersInhibit (s u : State) : Prop where
  top : u.sr.top = .active
  monitor : u.sr.monitor = .inhibit
  tick : u.sr.tick = s.sr.tick
  ae : u.ae = { s.ae with supplyLow := true }
  eu : u.eu = (s.eu.offered s.sr.tick .supplyLow).raised 0x40
  su : u.su = s.su
  rd : u.rd = s.rd
  bc : u.bc = s.bc
  pf : u.pf = s.pf
  pu : u.pu = s.pu
  cs : u.cs = s.cs
  ledger : u.ledger = s.ledger
  array : u.array = s.array

/-- The command of a supply-low entry is the entry, then the abandoning of the work that writes (R8). -/
theorem exec_supplyLowEntry (s : State) (rxd : Bool) (hrun : s.isRunning = true) (hm : s.sr.monitor = .normal) :
    ∃ u, s.EntersInhibit u ∧ exec (.supplyLowEntry rxd) s = .next u.abandonWrites := by
  have hrun' : ({ s with pins := { s.pins with vdd := .low } } : State).isRunning = true := hrun
  have hexec : exec (.supplyLowEntry rxd) s =
      .next (State.wake { s with pins := { s.pins with vdd := .low } } rxd).enterInhibit := by
    simp [exec, execSupplyLowEntry, State.supplyLowEntry, hrun', hm]
  obtain ⟨hsu, hrd, hae, hbc, hpf, hpu, heu, hcs, harray, hledger, -, -, -, htick, -, -⟩ :=
    State.wake_frame { s with pins := { s.pins with vdd := .low } } rxd
  have htop := State.wake_top _ rxd hrun'
  generalize State.wake { s with pins := { s.pins with vdd := .low } } rxd = w at *
  refine ⟨_, ?_, hexec.trans (congrArg _ w.enterInhibit_eq)⟩
  refine ⟨htop, rfl, htick, ?_, ?_, hsu, hrd, hbc, hpf, hpu, hcs, hledger, harray⟩
  · simp only [hae]
  · simp only [heu, htick]

namespace State.EntersInhibit
variable {s u : State}

theorem engine (h : s.EntersInhibit u) : u.ae.engine = s.ae.engine := by rw [h.ae]

theorem supplyLow (h : s.EntersInhibit u) : u.ae.supplyLow = true := by rw [h.ae]

theorem slot (h : s.EntersInhibit u) (i : Nat) : u.slot i = s.slot i := by rw [State.slot, State.slot, h.rd]

theorem agrees (h : s.EntersInhibit u) (hc : s.coherent = true) : u.Agrees :=
  (State.agrees_of_coherent hc).congr h.rd h.engine h.bc h.ledger

end State.EntersInhibit

/-! ### An abandoned request -/

/-- What is left of an abandoned PROGRAM: its answer SUPPLY_LOW (R129). -/
theorem State.abandonWrites_programming (u : State) (h : u.Agrees) (op : ProgramOp) (he : u.ae.engine = .programming op)
    (ho : (u.slot op.slot).orphaned = false) :
    u.abandonWrites.slot op.slot =
      { u.slot op.slot with
        state := .answered, completion := u.rd.nextCompletion
        response := [(u.slot op.slot).request.code, 14] } := by
  have habandon : u.abandonWrites = (u.interrupted.finishRunning op.slot .supplyLow []).engineFreed := by
    simp only [State.abandonWrites, he]
  obtain ⟨-, -, -, -, -, hrd, hae, hledger, hbc, -⟩ := u.interrupted_frame
  have hagrees : u.interrupted.Agrees := h.congr hrd (by rw [hae]) hbc hledger
  have hslot : u.interrupted.slot op.slot = u.slot op.slot := by rw [State.slot, State.slot, hrd]
  have hkept := hagrees.slot_finishFreed (i := op.slot) (by rw [hae, he]; rfl) (by rw [hslot]; exact ho) .supplyLow []
  rw [habandon, hkept, hslot, hrd]
  rfl

/-- An abandoned store write is the end of its request, with SUPPLY_LOW, and the stores stand as they are (R173, R206). -/
theorem State.abandonWrites_storing (u : State) (op : StoreOp) (he : u.ae.engine = .storing op) :
    u.abandonWrites = (u.finishRunning op.slot .supplyLow []).engineFreed := by
  simp only [State.abandonWrites, he]

/-- The slot of the engine's operation, of a store write (R111). -/
theorem StoreOp.slot?_eq (op : StoreOp) : (Engine.storing op).slot? = some op.slot := by
  cases op <;> rfl

/-! ### An abandoned batch -/

/-- The code of a sector's outcome once the batch is aborted for the supply (R143, R158). -/
def Batch.abortedCode (b : Batch) (sector : Nat) : Byte :=
  match b.role sector with
  | some (.done o) => o.code
  | some _ => 5
  | none => 0

/-- The role a sector has once the batch is aborted for the supply (R143, R146). -/
def Role.aborted : Role → Role
  | .done o => .done o
  | .pending | .erasing => .done .abortedSupply

/-- An abort gives each sector of the set its role in place. -/
theorem Batch.abortRest_set (b : Batch) : b.abortRest.set = b.set.map (fun e => (e.1, e.2.aborted)) := by
  refine List.map_congr_left (fun e _ => ?_)
  obtain ⟨n, role⟩ := e
  cases role <;> rfl

/-- An unfinished sector takes ABORTED_SUPPLY; a sector that is done keeps its outcome (R146). -/
theorem Batch.outcomeCode_abortRest (b : Batch) (held : Option EraseOp) (k : Nat) :
    Batch.outcomeCode { b.abortRest with held := held } [] k = b.abortedCode k := by
  have hrole : Batch.role { b.abortRest with held := held } k = (b.role k).map Role.aborted := by
    simp [Batch.role, Batch.abortRest_set, List.find?_map, Function.comp_def]
  simp only [Batch.outcomeCode, Batch.abortedCode, hrole]
  cases b.role k with
  | none => rfl
  | some role => cases role <;> rfl

/-- A sector set of which one was Erasing answers SUPPLY_LOW (R158). -/
theorem eraseStatus_aborted (b : Batch) (sectors : List Nat) (k : Nat) (hk : k ∈ sectors) (hr : b.role k = some .erasing) :
    eraseStatus (sectors.map b.abortedCode) = .supplyLow := by
  have hcode : b.abortedCode k = 5 := by simp only [Batch.abortedCode, hr]
  have hm : (5 : Byte) ∈ sectors.map b.abortedCode := hcode ▸ List.mem_map_of_mem hk
  exact if_pos (List.contains_iff_mem.mpr hm)

/-- With its one member not orphaned, a batch completes by that member's answer and the cause (R157, R158). -/
theorem State.finishBatch_one (v : State) (m : Member) (hm : v.bc.members = [m]) (ho : (v.slot m.slot).orphaned = false) :
    v.finishBatch = (State.raise
      (v.answer m.slot (eraseStatus (m.sectors.map (v.bc.outcomeCode [])))
        (eraseResults (v.slot m.slot).request m.sectors (v.bc.outcomeCode []))) .eraseComplete).clearBatch := by
  simp [State.finishBatch, State.completeBatch, hm, State.settleMember, State.reportOrphans, ho]

/-- What is left of a sector's work with no head waiting: an Idle engine, no batch, the sector as it was (R146). -/
theorem State.abandonWrites_erasing (u : State) (op : EraseOp) (he : u.ae.engine = .erasingSector op)
    (hq : u.rd.queue = []) :
    u.abandonWrites = State.abortBatch { u with ae := { u.ae with engine := .idle } } := by
  have habandon : u.abandonWrites = (State.abortBatch { u with ae := { u.ae with engine := .idle } }).engineFreed := by
    simp only [State.abandonWrites, he]
  obtain ⟨hbc, -, -, hqueue⟩ := State.finishBatch_work
    { u with ae := { u.ae with engine := .idle }, bc := { u.bc.abortRest with held := none } }
  rw [habandon]
  exact State.engineFreed_quiet _ (congrArg Batch.state hbc) (hqueue.trans hq)

/-- The abort of a batch of one ERASE_SECTORS with a sector Erasing: its answer, and the cause (R146, R157, R158). -/
theorem State.abortBatch_one (u : State) (m : Member) (sectors : List Byte) (k : Nat) (hm : u.bc.members = [m])
    (hlt : m.slot < u.rd.slots.length) (ho : (u.slot m.slot).orphaned = false)
    (hreq : (u.slot m.slot).request = .eraseSectors sectors) (hk : k ∈ m.sectors) (hr : u.bc.role k = some .erasing) :
    u.abortBatch.slot m.slot = { u.slot m.slot with
        state := .answered, completion := u.rd.nextCompletion
        response := [0x04, 14, octet m.sectors.length] ++
          m.sectors.flatMap (fun n => [octet n, u.bc.abortedCode n]) } ∧
      u.abortBatch.eu = u.eu.raised 0x08 := by
  have hcode : Batch.outcomeCode { u.bc.abortRest with held := none } [] = u.bc.abortedCode :=
    funext (u.bc.outcomeCode_abortRest none)
  have hend := State.finishBatch_one { u with bc := { u.bc.abortRest with held := none } } m hm ho
  have habort : u.abortBatch = State.finishBatch { u with bc := { u.bc.abortRest with held := none } } := rfl
  rw [← habort] at hend
  constructor
  · rw [hend]
    refine (State.slot_answer_same { u with bc := { u.bc.abortRest with held := none } } _ _ hlt).trans ?_
    have hslot : State.slot { u with bc := { u.bc.abortRest with held := none } } m.slot = u.slot m.slot := rfl
    simp only [hslot, hcode, eraseStatus_aborted u.bc m.sectors k hk hr, hreq]
    rfl
  · rw [hend]
    rfl

/-! ### The exit -/

/-- The command of a supply-low exit wakes the device, clears the flag and offers SUPPLY_OK (R9, R13). -/
theorem exec_supplyLowExit (s : State) (rxd : Bool) (hrun : s.isRunning = true) (hm : s.sr.monitor = .inhibit) :
    Answers (exec (.supplyLowExit rxd) s) (fun t =>
      t.sr.top = .active ∧ t.sr.monitor = .normal ∧ t.sr.tick = s.sr.tick ∧
      t.ae = { s.ae with supplyLow := false } ∧ t.eu = s.eu.offered s.sr.tick .supplyOk ∧
      t.su = s.su ∧ t.rd = s.rd ∧ t.bc = s.bc ∧ t.pf = s.pf ∧ t.pu = s.pu ∧ t.cs = s.cs ∧
      t.ledger = s.ledger ∧ t.array = s.array) := by
  refine ⟨_, rfl, ?_⟩
  have hrun' : ({ s with pins := { s.pins with vdd := .good } } : State).isRunning = true := hrun
  obtain ⟨hsu, hrd, hae, hbc, hpf, hpu, heu, hcs, harray, hledger, -, -, -, htick, -, -⟩ :=
    State.wake_frame { s with pins := { s.pins with vdd := .good } } rxd
  have htop := State.wake_top _ rxd hrun'
  simp only [State.supplyLowExit, hrun', hm, beq_self_eq_true, Bool.and_self, if_true, State.offer_eq]
  refine ⟨htop, trivial, htick, ?_, ?_, hsu, hrd, hbc, hpf, hpu, hcs, hledger, harray⟩
  · simp only [hae]
  · simp only [heu, htick]

/-! ### O14 -/

/-- Settles O14: the entry is `exec_supplyLowEntry`, and what it abandons one lemma for each kind of work. -/
theorem supplyCrossingsAreLogged : Obligations.SupplyCrossingsAreLogged := by
  unfold Obligations.SupplyCrossingsAreLogged
  intro s rxd op sop eop j m sectors hrun
  refine ⟨fun hm hw => ?_, fun hm he hc ho => ?_, fun hm he hj hc ho => ?_, fun hm he hc hq => ?_,
    fun hm => exec_supplyLowExit s rxd hrun hm⟩
  · obtain ⟨u, hu, hexec⟩ := exec_supplyLowEntry s rxd hrun hm
    rw [hexec, u.abandonWrites_of_writesNothing (by rw [hu.engine]; exact hw)]
    exact Answers.of_next ⟨hu.top, hu.monitor, hu.tick, hu.ae, hu.eu, hu.su, hu.rd, hu.bc, hu.pf, hu.pu, hu.cs,
      hu.ledger, hu.array⟩
  · obtain ⟨u, hu, hexec⟩ := exec_supplyLowEntry s rxd hrun hm
    have hslot := u.abandonWrites_programming (hu.agrees hc) op (hu.engine.trans he) (by rw [hu.slot]; exact ho)
    have hlow := u.abandonWrites_beyondWork.supplyLow.trans hu.supplyLow
    rw [hu.slot, hu.rd] at hslot
    rw [hexec]
    refine Answers.of_next ⟨hlow, ?_⟩
    rw [hslot]
    exact ⟨rfl, rfl, rfl, rfl⟩
  · obtain ⟨u, hu, hexec⟩ := exec_supplyLowEntry s rxd hrun hm
    have hjop : sop.slot = j := by
      rw [he, sop.slot?_eq] at hj
      exact Option.some.inj hj
    subst hjop
    have hslot := (hu.agrees hc).slot_finishFreed (i := sop.slot) (by rw [hu.engine]; exact hj)
      (by rw [hu.slot]; exact ho) .supplyLow []
    have hframe := u.finishFreed_frame sop.slot .supplyLow []
    rw [hexec, u.abandonWrites_storing sop (hu.engine.trans he)]
    refine Answers.of_next ⟨hframe.supplyLow.trans hu.supplyLow, hframe.pu.trans hu.pu, hframe.cs.trans hu.cs,
      hframe.array.trans hu.array, ?_, fun hb hq => ?_⟩
    · rw [hslot, hu.slot, hu.rd]
      rfl
    · rw [u.finishRunning_answered sop.slot .supplyLow [] (by rw [hu.slot]; exact ho),
        State.engineFreed_quiet _ (by rw [← hb, ← hu.bc]; rfl) (by rw [← hq, ← hu.rd]; rfl)]
      exact ⟨rfl, hu.bc, hu.eu⟩
  · obtain ⟨u, hu, hexec⟩ := exec_supplyLowEntry s rxd hrun hm
    rw [hexec, u.abandonWrites_erasing eop (hu.engine.trans he) (by rw [hu.rd]; exact hq)]
    obtain ⟨hbc, hae, hledger, -⟩ := State.finishBatch_work
      { u with ae := { u.ae with engine := .idle }, bc := { u.bc.abortRest with held := none } }
    have hframe := State.abortBatch_frame { u with ae := { u.ae with engine := .idle } }
    refine Answers.of_next ⟨hae.trans (by rw [hu.ae]), hbc, hledger.trans hu.ledger, hframe.array.trans hu.array,
      hframe.pu.trans hu.pu, hframe.cs.trans hu.cs, fun hone ho hreq hk hr => ?_⟩
    have hbatched : (u.slot m.slot).state = .batched :=
      (hu.agrees hc).slots.batched m (by rw [hu.bc, hone]; exact List.mem_singleton_self m)
    have hlt := u.lt_of_slot_state (i := m.slot) (by rw [hbatched]; decide)
    obtain ⟨hslot, heu⟩ := State.abortBatch_one { u with ae := { u.ae with engine := .idle } } m sectors eop.sector
      (by rw [← hone, ← hu.bc]) hlt ((congrArg Slot.orphaned (hu.slot m.slot)).trans ho)
      ((congrArg Slot.request (hu.slot m.slot)).trans hreq) hk (by rw [← hr, ← hu.bc])
    constructor
    · refine hslot.trans ?_
      have hsame : State.slot { u with ae := { u.ae with engine := .idle } } m.slot = s.slot m.slot := hu.slot m.slot
      rw [hsame]
      simp only [hu.rd, hu.bc]
      rfl
    · exact heu.trans (congrArg (fun e : EventUnit => e.raised 0x08) hu.eu)

end Sys2Proof.Machine
end

