-- ==== Sys2Proof/Proofs/HoldAndGo.lean ====
section
/-!
PROOFS. Hold and Go as signals of the framer, and the transmitter octet by octet (chapter 2). Settles O16.
-/

namespace Sys2Proof.Machine

/-! ### The signals -/

/-- A Hold is taken by no assembly: it is a signal alone (R27, R34). -/
theorem State.octetEvent_hold (s : State) : s.octetEvent holdOctet = s.holdSignal := by
  simp [State.octetEvent, ParcelFramer.octetEvent]

/-- A Go is taken by no assembly: it is a signal alone (R28, R34). -/
theorem State.octetEvent_go (s : State) : s.octetEvent goOctet = s.goSignal := by
  have hne : goOctet ≠ holdOctet := by decide
  simp [State.octetEvent, ParcelFramer.octetEvent, hne]

/-- A Hold that is heard is its character, then its signal (R26, R27). -/
theorem exec_hold (s : State) (h : s.listening = true) : exec .hold s = .next s.characterEnd.holdSignal := by
  simp [exec, execHold, State.characters, h, State.octetEvents, State.octetEvent_hold]

/-- A Go that is heard is its character, then its signal (R26, R28). -/
theorem exec_go (s : State) (h : s.listening = true) : exec .go s = .next s.characterEnd.goSignal := by
  simp [exec, execGo, State.characters, h, State.octetEvents, State.octetEvent_go]

/-- The hold timer runs for field 3 in seconds, and does not run where field 3 is 0 (R27). -/
theorem State.start_holdTicks (s : State) :
    Timer.start s.holdTicks =
      if s.cs.active.holdLimit = 0 then .stopped else .running (s.cs.active.holdLimit.toNat * 1000) := by
  have hzero : s.holdTicks = 0 ↔ s.cs.active.holdLimit = 0 := by
    simp [State.holdTicks, ← BitVec.toNat_inj]
  simp only [Timer.start, hzero]
  rfl

/-- A character takes ten bit times of the table of R20. -/
theorem State.characterTime_table (s : State) :
    s.characterTime = 100 * [96, 48, 24, 16, 8, 4, 2, 1].getD s.cl.rate.toNat 1 := by
  rw [s.characterTime_eq, s.bitTime_eq]
  omega

/-! ### The transmitter -/

/-- The end of a parcel is no other block's occurrence (order 8 of R14). -/
theorem State.dueTransmitter_of_due (s : State) (h : s.due = some .transmitterFree) :
    s.dueTransmitter = some .transmitterFree := by
  rcases s.due_cases _ h with h | h | ⟨-, h⟩ | h | h | h | h
  · obtain ⟨c, -, hc, -⟩ := s.dueReset_some _ h
    cases hc
  · rcases s.dueTick_cases _ h with hd | hd <;> cases hd
  · cases h
  · rcases s.dueLine_cases _ h with ⟨_, hd⟩ | hd | ⟨_, hd⟩ <;> cases hd
  · rcases s.dueTimer_cases _ h with ⟨hd, -⟩ | ⟨hd, -⟩ | ⟨hd, -⟩ | ⟨hd, -⟩ | ⟨hd, -⟩ <;> cases hd
  · unfold State.dueMaint at h
    split at h <;> cases h
  · exact h

/-- The end of a parcel is due only once its last octet has been sent (R31). -/
theorem State.finished_of_dueTransmitter (s : State) (h : s.dueTransmitter = some .transmitterFree) :
    s.sr.top = .active ∧ s.cl.tx.finished = true := by
  unfold State.dueTransmitter at h
  split at h
  case h_1 => cases h
  case h_2 octets hlast ht hsend =>
    refine ⟨ht, ?_⟩
    rw [hsend]
    match octets, hlast with
    | [], _ => rfl
    | [_], _ => rfl
    | x :: y :: rest, hlast => exact absurd rfl (hlast x y rest)
  case h_3 => cases h

/-- A transmitter with octets of its parcel left is not made Free (R30, R31). -/
theorem exec_transmitterFree_unfinished (s : State) (h : s.cl.tx.finished = false) :
    exec .transmitterFree s = .next s := by
  simp [exec, execTransmitterFree, h]

/-- Settles O16: the signals act on the Character Link alone, and the end of an octet is handled when it is due. -/
theorem holdAndGo : Obligations.HoldAndGo := by
  unfold Obligations.HoldAndGo
  intro s b rest
  dsimp only
  rw [← s.characterTime_table, ← s.start_holdTicks]
  refine ⟨fun hl => ⟨?_, ?_⟩, fun hp hr hd => ?_, fun hp hr hd => ?_, fun _ htx => ?_, fun _ htx hrest => ?_⟩
  · rw [exec_hold s hl, State.holdSignal]
    rfl
  · rw [exec_go s hl, State.goSignal, State.clearHeld_eq]
    cases htx : s.cl.tx with
    | free => simp [htx, Transmitter.resumed]
    | sending octets left => simp [htx, Transmitter.resumed]
    | paused octets => simp [htx, Transmitter.resumed]; rfl
  · exact s.step_due hp hr _ hd
  · obtain ⟨ht, hfin⟩ := s.finished_of_dueTransmitter (s.dueTransmitter_of_due hd)
    rw [s.step_due hp hr _ hd]
    simp [exec, execTransmitterFree, ht, hfin, State.handle]
  · exact exec_transmitterFree_unfinished s (by rw [htx]; rfl)
  · have hpos : 0 < rest.length := List.length_pos_iff.mpr hrest
    exact exec_transmitterFree_unfinished s (by simp [htx, Transmitter.finished]; omega)

end Sys2Proof.Machine
end

