-- ==== Sys2Proof/Proofs/LinkTeardowns.lean ====
section
/-!
PROOFS. The teardown of a session whose batch may be Parked (R79, R156), and the events of the link that make one: a
long break, a hold-limit expiry and a keepalive expiry. Settles O21.
-/

namespace Sys2Proof.Machine

/-! ### The unpark of a Parked batch -/

/-- A suspended sector resumes at once on an Idle engine with a good supply (R156, R150). -/
theorem State.unparkBatch_suspended (s : State) (op : EraseOp) (hp : s.bc.state = .parked)
    (he : s.ae.engine = .idle) (hh : s.bc.held = some op) (hl : s.ae.supplyLow = false) :
    s.unparkBatch = { s with
      bc := { s.bc with
        state := .erasing, gather := .stopped, held := none, spacing := .running s.cs.active.yieldSpacing.toNat }
      ae := { s.ae with engine := .erasingSector op } } := by
  simp [State.unparkBatch, State.enterErasing, State.engineIdle, State.beginWork, State.startSpacing,
    State.spacingTicks, hp, he, hh, hl]

/-- The sector work waits for the engine while it serves a request (R156). -/
theorem State.unparkBatch_serving (s : State) (hp : s.bc.state = .parked) (he : s.ae.engine.slot?.isSome = true) :
    s.unparkBatch = { s with bc := { s.bc with state := .erasing, gather := .stopped } } := by
  cases h : s.ae.engine with
  | idle => simp [h, Engine.slot?] at he
  | erasingSector op => simp [h, Engine.slot?] at he
  | reading op => simp [State.unparkBatch, State.enterErasing, State.engineIdle, hp, h]
  | programming op => simp [State.unparkBatch, State.enterErasing, State.engineIdle, hp, h]
  | checking op => simp [State.unparkBatch, State.enterErasing, State.engineIdle, hp, h]
  | storing op => simp [State.unparkBatch, State.enterErasing, State.engineIdle, hp, h]

/-- Work whose suspension was still pending goes on, its spacing timer started (assumption 15). -/
theorem State.unparkBatch_working (s : State) (op : EraseOp) (hp : s.bc.state = .parked)
    (he : s.ae.engine = .erasingSector op) :
    s.unparkBatch = { s with
      bc := { s.bc with
        state := .erasing, gather := .stopped, spacing := .running s.cs.active.yieldSpacing.toNat } } := by
  simp [State.unparkBatch, State.enterErasing, State.engineIdle, State.startSpacing, State.spacingTicks, hp, he]

/-! ### The teardown -/

/-- A teardown whose unpark changes the batch and the engine alone is the teardown of the session with the batch
unparked beforehand (R79). -/
theorem State.teardown_unparked (s : State) (r : TeardownReason) (b : Batch) (a : ArrayEngine)
    (ha : s.su.link = .attached) (hb : b.state ≠ .parked)
    (hu : s.dropSlots.unparkBatch = { s.dropSlots with bc := b, ae := a }) :
    s.teardown r = State.teardown { s with bc := b, ae := a } r := by
  have hat : s.isAttached = true := by simp [State.isAttached, ha]
  have hat' : State.isAttached { s with bc := b, ae := a } = true := hat
  have hdrop : State.dropSlots { s with bc := b, ae := a } = { s.dropSlots with bc := b, ae := a } := rfl
  unfold State.teardown
  rw [if_pos hat, if_pos hat', hu, hdrop, State.unparkBatch_of_not_parked _ hb]
  rfl

/-- A teardown of `u` leaves what a teardown of `s` would, outside the receiver, the pins and the wake: the fields that a
teardown reads or keeps are the same, and the Session Unit may differ only in what it overwrites. -/
structure State.EndsAs (s u : State) (r : TeardownReason) : Prop where
  link : u.su.link = s.su.link
  su : u.su.tornDown r = s.su.tornDown r
  epoch : u.su.epoch = s.su.epoch
  rd : u.rd = s.rd
  tx : u.cl.tx.resumed u.characterTime = s.cl.tx.resumed s.characterTime
  rate : u.cl.rate = s.cl.rate
  tick : u.sr.tick = s.sr.tick
  eu : u.eu = s.eu
  bc : u.bc = s.bc
  ae : u.ae = s.ae
  ledger : u.ledger = s.ledger
  array : u.array = s.array
  pu : u.pu = s.pu
  cs : u.cs = s.cs
  counters : u.pf.counters = s.pf.counters

namespace State.EndsAs
variable {s u : State} {r : TeardownReason}

theorem refl (s : State) (r : TeardownReason) : s.EndsAs s r :=
  ⟨rfl, rfl, rfl, rfl, rfl, rfl, rfl, rfl, rfl, rfl, rfl, rfl, rfl, rfl, rfl⟩

/-- The batch is unparked alike in both. -/
theorem withBatch (h : s.EndsAs u r) (b : Batch) (a : ArrayEngine) :
    State.EndsAs { s with bc := b, ae := a } { u with bc := b, ae := a } r :=
  ⟨h.link, h.su, h.epoch, h.rd, h.tx, h.rate, h.tick, h.eu, rfl, rfl, h.ledger, h.array, h.pu, h.cs, h.counters⟩

/-- With no Parked batch the session of `s` is torn down (R77 to R79). -/
theorem tornDown (h : s.EndsAs u r) (ha : s.su.link = .attached) (hp : s.bc.state ≠ .parked) :
    TornDown s (u.teardown r) r := by
  obtain ⟨hsu, hrd, hheld, htimer, htx, heu, hbc, hae, hledger, harray, hpu, hcs, hcounters, hrate⟩ :=
    u.teardown_tornDown r (h.link.trans ha) (by rw [h.bc]; exact hp)
  rw [h.eu, h.tick, h.epoch, h.rd] at heu
  exact ⟨hsu.trans h.su, hrd.trans (congrArg _ h.rd), hheld, htimer, htx.trans h.tx, heu, hbc.trans h.bc,
    hae.trans h.ae, hledger.trans h.ledger, harray.trans h.array, hpu.trans h.pu, hcs.trans h.cs,
    hcounters.trans h.counters, hrate.trans h.rate⟩

/-- With a batch that the unpark changes, the engine with it, the session is torn down beside the unparked batch. -/
theorem tornDown_unparked (h : s.EndsAs u r) (ha : s.su.link = .attached) (b : Batch) (a : ArrayEngine)
    (hb : b.state ≠ .parked) (hu : u.dropSlots.unparkBatch = { u.dropSlots with bc := b, ae := a }) :
    TornDown { s with bc := b, ae := a } (u.teardown r) r := by
  rw [u.teardown_unparked r b a (h.link.trans ha) hb hu]
  exact (h.withBatch b a).tornDown ha hb

/-- The spacing of the yields is the same in both (R150). -/
theorem yieldSpacing (h : s.EndsAs u r) : u.cs.active.yieldSpacing = s.cs.active.yieldSpacing := by rw [h.cs]

/-- The suspended sector of a Parked batch resumes on the Idle engine (R79, R156). -/
theorem tornDown_suspended (h : s.EndsAs u r) (ha : s.su.link = .attached) (op : EraseOp) (hp : s.bc.state = .parked)
    (he : s.ae.engine = .idle) (hh : s.bc.held = some op) (hl : s.ae.supplyLow = false) :
    TornDown { s with
      bc := { s.bc with
        state := .erasing, gather := .stopped, held := none, spacing := .running s.cs.active.yieldSpacing.toNat }
      ae := { s.ae with engine := .erasingSector op } } (u.teardown r) r := by
  rw [← h.bc] at hp hh
  rw [← h.ae] at he hl
  rw [← h.bc, ← h.ae, ← h.yieldSpacing]
  exact h.tornDown_unparked ha _ _ (by simp) (u.dropSlots.unparkBatch_suspended op hp he hh hl)

/-- A Parked batch is Erasing, and its work waits while the engine serves a request (R79, R156). -/
theorem tornDown_serving (h : s.EndsAs u r) (ha : s.su.link = .attached) (hp : s.bc.state = .parked)
    (he : s.ae.engine.slot?.isSome = true) :
    TornDown { s with bc := { s.bc with state := .erasing, gather := .stopped } } (u.teardown r) r := by
  rw [← h.bc] at hp
  rw [← h.ae] at he
  rw [← h.bc]
  exact h.tornDown_unparked ha _ s.ae (by simp) (h.ae ▸ u.dropSlots.unparkBatch_serving hp he)

/-- A Parked batch whose sector still works goes on with it (R79, assumption 15). -/
theorem tornDown_working (h : s.EndsAs u r) (ha : s.su.link = .attached) (op : EraseOp) (hp : s.bc.state = .parked)
    (he : s.ae.engine = .erasingSector op) :
    TornDown { s with
      bc := { s.bc with
        state := .erasing, gather := .stopped, spacing := .running s.cs.active.yieldSpacing.toNat } }
      (u.teardown r) r := by
  rw [← h.bc] at hp
  rw [← h.ae] at he
  rw [← h.bc, ← h.yieldSpacing]
  exact h.tornDown_unparked ha _ s.ae (by simp) (h.ae ▸ u.dropSlots.unparkBatch_working op hp he)

end State.EndsAs

/-! ### The events of the link -/

/-- A Paused parcel that has resumed is Sending. -/
theorem Transmitter.resumed_resumed (t : Transmitter) (n : Nat) : (t.resumed n).resumed n = t.resumed n := by
  cases t <;> rfl

/-- The link after a long break, before the session ends: the line low, the receiver Settling, the framer Hunting, Held
clear (R25, R42). -/
def State.linkBroken (s : State) : State :=
  { s with
    pins := { s.pins with rxd := false }
    cl := { s.cl with
      receiver := .settling, settleCount := 0, breakTimer := .stopped
      held := false, holdTimer := .stopped, tx := s.cl.tx.resumed s.characterTime }
    pf := s.pf.hunt }

theorem State.linkBreakReset_eq (s : State) : s.linkBreakReset = s.linkBroken.teardown .break_ := rfl

theorem State.linkBroken_endsAs (s : State) (r : TeardownReason) : s.EndsAs s.linkBroken r :=
  ⟨rfl, rfl, rfl, rfl, s.cl.tx.resumed_resumed _, rfl, rfl, rfl, rfl, rfl, rfl, rfl, rfl, rfl, rfl⟩

/-- A long break that is due is the Link Break Reset; one that is not does not occur (R24, R25). -/
theorem exec_longBreak (s : State) :
    exec .longBreak s = .next (if s.longBreakDue then s.linkBroken.teardown .break_ else s) := by
  simp only [exec, execLongBreak, s.linkBreakReset_eq]
  split <;> rfl

/-- A hold limit that is over ends the session, or clears Held alone (R29). -/
theorem exec_holdLimitExpiry (s : State) :
    exec .holdLimitExpiry s = .next (if s.cl.holdTimer = .running 0 then s.holdExpiry else s) := by
  simp only [exec, execHoldLimitExpiry, Timer.isDue, beq_iff_eq]
  split <;> rfl

/-- A hold limit that is over ends an attached session (R29). -/
theorem State.holdExpiry_attached (s : State) (ha : s.su.link = .attached) :
    s.holdExpiry = s.teardown .holdExpired := by
  simp [State.holdExpiry, State.isAttached, ha]

/-- A hold limit that is over in a DETACHED device clears Held (R29). -/
theorem State.holdExpiry_detached (s : State) (ha : s.su.link = .detached) : s.holdExpiry = s.clearHeld := by
  simp [State.holdExpiry, State.isAttached, ha]

/-- The device awake for its keepalive expiry, the timer stopped (R13, R76). -/
def State.keepaliveOver (s : State) (rxd : Bool) : State :=
  { s.wake rxd with su := { (s.wake rxd).su with keepalive := .stopped } }

theorem exec_keepaliveExpiry (s : State) (rxd : Bool) :
    exec (.keepaliveExpiry rxd) s =
      .next (if s.su.keepalive = .running 0 then (s.keepaliveOver rxd).teardown .keepalive else s) := by
  simp only [exec, execKeepaliveExpiry, Timer.isDue, beq_iff_eq, State.keepaliveExpiry, State.keepaliveOver]
  split <;> rfl

/-- A wake leaves the transmitter and the link rate (R13, R32). -/
theorem State.wake_cl (s : State) (rxd : Bool) :
    (s.wake rxd).cl.tx = s.cl.tx ∧ (s.wake rxd).cl.rate = s.cl.rate := by
  unfold State.wake
  split <;> exact ⟨rfl, rfl⟩

theorem State.keepaliveOver_endsAs (s : State) (rxd : Bool) (r : TeardownReason) :
    s.EndsAs (s.keepaliveOver rxd) r := by
  obtain ⟨hsu, hrd, hae, hbc, hpf, hpu, heu, hcs, harray, hledger, -, -, -, htick, -, -⟩ := s.wake_frame rxd
  obtain ⟨htx, hrate⟩ := s.wake_cl rxd
  refine ⟨(congrArg SessionUnit.link hsu :), (congrArg (fun x => SessionUnit.tornDown x r) hsu :),
    (congrArg SessionUnit.epoch hsu :), hrd, ?_, hrate, htick, heu, hbc, hae, hledger, harray, hpu, hcs,
    congrArg ParcelFramer.counters hpf⟩
  have htime : (s.keepaliveOver rxd).characterTime = s.characterTime := congrArg characterUnits hrate
  rw [htime]
  exact congrArg (Transmitter.resumed s.characterTime) htx

/-- The three events of the link that end an attached session, with their reasons (R25, R29, R76). -/
def State.EndedBy (s : State) (rxd : Bool) (c : Instr) (reason : TeardownReason) : Prop :=
  (c = .longBreak ∧ reason = .break_ ∧ s.sr.top = .active ∧ s.cl.breakTimer = .running 0) ∨
    (c = .holdLimitExpiry ∧ reason = .holdExpired ∧ s.cl.holdTimer = .running 0) ∨
    (c = .keepaliveExpiry rxd ∧ reason = .keepalive ∧ s.su.keepalive = .running 0)

/-- Each of the three events ends the session by a teardown with its reason (R76 to R79). -/
theorem State.EndedBy.exec_eq {s : State} {rxd : Bool} {c : Instr} {r : TeardownReason} (h : s.EndedBy rxd c r)
    (ha : s.su.link = .attached) : ∃ u, s.EndsAs u r ∧ exec c s = .next (u.teardown r) := by
  rcases h with ⟨rfl, rfl, ht, hd⟩ | ⟨rfl, rfl, hd⟩ | ⟨rfl, rfl, hd⟩
  · exact ⟨_, s.linkBroken_endsAs _, by rw [exec_longBreak, if_pos (s.longBreakDue_iff.2 ⟨ht, hd⟩)]⟩
  · exact ⟨s, .refl s _, by rw [exec_holdLimitExpiry, if_pos hd, s.holdExpiry_attached ha]⟩
  · exact ⟨_, s.keepaliveOver_endsAs rxd _, by rw [exec_keepaliveExpiry, if_pos hd]⟩

/-- Settles O21: each event is a teardown of a state that ends as `s` does, and the unpark decides the batch. -/
theorem linkEventsTearDown : Obligations.LinkEventsTearDown := by
  unfold Obligations.LinkEventsTearDown
  intro s rxd op c reason
  dsimp only
  refine ⟨fun ht hd ha hp => ?_, fun ht hd ha => ?_, fun hd => ?_, fun hd ha hp => ?_, fun hd ha => ?_, fun hd => ?_,
    fun hd ha hp => ?_, fun hd => ?_, fun ⟨ha, hc⟩ hp he hh hl => ?_, fun ⟨ha, hc⟩ hp he => ?_,
    fun ⟨ha, hc⟩ hp he => ?_⟩
  · rw [exec_longBreak, if_pos (s.longBreakDue_iff.2 ⟨ht, hd⟩)]
    refine Answers.of_next ⟨(s.linkBroken_endsAs _).tornDown ha hp, ?_⟩
    rw [s.linkBroken.teardown_eq _ ha hp]
    exact ⟨rfl, rfl, rfl, rfl, rfl, rfl, rfl⟩
  · rw [exec_longBreak, if_pos (s.longBreakDue_iff.2 ⟨ht, hd⟩), s.linkBroken.teardown_of_detached _ ha]
    rfl
  · rw [exec_longBreak, if_neg fun h => hd (s.longBreakDue_iff.1 h).2]
  · rw [exec_holdLimitExpiry, if_pos hd, s.holdExpiry_attached ha]
    exact Answers.of_next ⟨s.teardown_tornDown _ ha hp, (s.teardown_frame _).1⟩
  · rw [exec_holdLimitExpiry, if_pos hd, s.holdExpiry_detached ha]
    rfl
  · rw [exec_holdLimitExpiry, if_neg hd]
  · rw [exec_keepaliveExpiry, if_pos hd]
    refine Answers.of_next ⟨(s.keepaliveOver_endsAs rxd _).tornDown ha hp, fun ht => ?_⟩
    rw [(State.teardown_frame _ _).1]
    exact s.wake_top rxd (by simp [State.isRunning, ht])
  · rw [exec_keepaliveExpiry, if_neg hd]
  · obtain ⟨u, hu, hexec⟩ := State.EndedBy.exec_eq (rxd := rxd) hc ha
    rw [hexec]
    exact Answers.of_next (hu.tornDown_suspended ha op hp he hh hl)
  · obtain ⟨u, hu, hexec⟩ := State.EndedBy.exec_eq (rxd := rxd) hc ha
    rw [hexec]
    exact Answers.of_next (hu.tornDown_serving ha hp he)
  · obtain ⟨u, hu, hexec⟩ := State.EndedBy.exec_eq (rxd := rxd) hc ha
    rw [hexec]
    exact Answers.of_next (hu.tornDown_working ha op hp he)

end Sys2Proof.Machine
end

