-- ==== Sys2Proof/Proofs/ParcelFraming.lean ====
section
/-!
PROOFS. The framer over the octets of whole assemblies and of encoded parcels, the checks of an ended assembly, and the
hand-over of a valid one (chapter 3). Settles O17, O18, O19 and O20.
-/

namespace Sys2Proof.Machine

/-! ### Runs without a signal -/

/-- The octets take the framer `f` to `g`, and nothing is told to the other blocks. -/
def ParcelFramer.RunsTo (f : ParcelFramer) (os : List Byte) (g : ParcelFramer) : Prop :=
  (framerRun f os).1 = g ∧ ∀ x ∈ (framerRun f os).2, x = FramerSignal.nothing

theorem ParcelFramer.RunsTo.nil (f : ParcelFramer) : f.RunsTo [] f := ⟨rfl, by simp⟩

/-- One octet without a signal, then a run. -/
theorem ParcelFramer.RunsTo.cons {f g h : ParcelFramer} {b : Byte} {os : List Byte}
    (hb : f.octetEvent b = (g, .nothing)) (hos : g.RunsTo os h) : f.RunsTo (b :: os) h := by
  unfold ParcelFramer.RunsTo
  rw [framerRun_cons, hb]
  exact ⟨hos.1, List.forall_mem_cons.2 ⟨rfl, hos.2⟩⟩

theorem ParcelFramer.RunsTo.single {f g : ParcelFramer} {b : Byte} (hb : f.octetEvent b = (g, .nothing)) :
    f.RunsTo [b] g := .cons hb (.nil g)

theorem ParcelFramer.RunsTo.append {f g h : ParcelFramer} {a b : List Byte} (ha : f.RunsTo a g)
    (hb : g.RunsTo b h) : f.RunsTo (a ++ b) h := by
  unfold ParcelFramer.RunsTo
  rw [framerRun_append, ha.1]
  exact ⟨hb.1, fun x hx => (List.mem_append.1 hx).elim (ha.2 x) (hb.2 x)⟩

/-- A run without a signal shows no signal but `nothing`. -/
theorem ParcelFramer.RunsTo.filter_signals {f g : ParcelFramer} {os : List Byte} (h : f.RunsTo os g) :
    (framerRun f os).2.filter (fun x => x != .nothing) = [] :=
  List.filter_eq_nil_iff.2 fun x hx => by simp [h.2 x hx]

/-- Characters that give no signal are taken by the framer alone (R26, R34). -/
theorem ParcelFramer.RunsTo.characters {s : State} {os : List Byte} {g : ParcelFramer} (h : s.pf.RunsTo os g)
    (hl : s.listening = true) : s.characters os = { s.characterEnd with pf := g } := by
  rw [State.characters, if_pos hl, s.characterEnd.octetEvents_quiet os h.2, s.characterEnd_pf, h.1]

/-! ### Assemblies that end without a parcel (R35 to R40) -/

/-- In Hunting every octet but a Fence, a Go or a Hold is ignored (R34). -/
theorem octetEvent_hunting_ignored {f : ParcelFramer} {b : Byte} (hp : f.phase = .hunting) (hg : b ≠ goOctet)
    (hh : b ≠ holdOctet) (hf : b ≠ fenceOctet) : f.octetEvent b = (f, .nothing) := by
  simp [ParcelFramer.octetEvent, hp, hg, hh, hf]

/-- In Hunting octets other than a Fence, a Go or a Hold leave the framer as it is (R34). -/
theorem ParcelFramer.runsTo_hunting {f : ParcelFramer} {os : List Byte} (hp : f.phase = .hunting)
    (hos : ∀ b ∈ os, b ≠ goOctet ∧ b ≠ holdOctet ∧ b ≠ fenceOctet) : f.RunsTo os f := by
  induction os with
  | nil => exact .nil f
  | cons b rest ih =>
    obtain ⟨⟨hg, hh, hf⟩, hrest⟩ := List.forall_mem_cons.1 hos
    exact .cons (octetEvent_hunting_ignored hp hg hh hf) (ih hrest)

/-- No Go, Hold or Fence stands among escaped octets (R49). -/
theorem escapeOctets_raw {b : Byte} {os : List Byte} (h : b ∈ escapeOctets os) :
    b ≠ goOctet ∧ b ≠ holdOctet ∧ b ≠ fenceOctet := by
  obtain ⟨a, -, hb⟩ := List.mem_flatMap.1 h
  exact escapeOctet_raw a b hb

/-- A Fence that ends no assembly opens one, or is idle fill (R35). -/
theorem octetEvent_fence_opens {f : ParcelFramer}
    (h : f.phase = .hunting ∨ (f.assembly = [] ∧ f.shieldPending = false)) :
    f.octetEvent fenceOctet = (f.openEmpty, .nothing) := by
  rcases h with hp | ⟨ha, hs⟩
  · exact octetEvent_fence_hunting hp
  · cases hp : f.phase with
    | hunting => exact octetEvent_fence_hunting hp
    | opened =>
      obtain ⟨phase, assembly, shieldPending, counters⟩ := f
      cases ha
      cases hs
      cases hp
      rfl

/-- An aborted assembly in Hunting: its Fence opens an assembly, and nothing is counted (R35). -/
theorem ParcelFramer.runsTo_abort_hunting {f : ParcelFramer} (hp : f.phase = .hunting) (os : List Byte) :
    f.RunsTo (escapeOctets os ++ [shieldOctet, fenceOctet]) f.openEmpty :=
  (runsTo_hunting hp fun _ => escapeOctets_raw).append
    (.cons (octetEvent_hunting_ignored hp (by decide) (by decide) (by decide)) (.single (octetEvent_fence_hunting hp)))

/-- An octet after a Shield that is no escaped form, Fence, Go or Hold is an escape violation (R39). -/
theorem octetEvent_violation {f : ParcelFramer} {b : Byte} (hp : f.phase = .opened) (hs : f.shieldPending = true)
    (hb : badFollower b = true) : f.octetEvent b = (f.countEscape, .nothing) := by
  simp only [badFollower, Bool.and_eq_true, Bool.not_eq_true', bne_iff_ne] at hb
  obtain ⟨⟨⟨he, hf⟩, hh⟩, hg⟩ := hb
  simp [ParcelFramer.octetEvent, hp, hs, he, hf, hh, hg]

/-- An assembly that would grow past 78 octets ends, is counted, and the framer hunts (R40). -/
def ParcelFramer.countOverlong (f : ParcelFramer) : ParcelFramer :=
  { f.hunt with counters := { f.counters with overlong := f.counters.overlong + 1 } }

/-- A full assembly has no room for another octet (R36, R40). -/
theorem ParcelFramer.append_of_full {f : ParcelFramer} {b : Byte} (h : f.assembly.length = 78) :
    f.append b = f.countOverlong :=
  if_neg (by simp [h, maxAssembly])

section Opened

variable {f : ParcelFramer} {os : List Byte} (hp : f.phase = .opened) (hs : f.shieldPending = false)
include hp hs

/-- Octets that fit join an open assembly, escaped as they stand on the line (R36, R37). -/
theorem ParcelFramer.runsTo_collected (hn : f.assembly.length + os.length ≤ 78) :
    f.RunsTo (escapeOctets os) (f.collected os) :=
  framerRun_escapeOctets os hp hs hn

/-- Octets that fit, then a Shield, and the flag is set (R37). -/
theorem ParcelFramer.runsTo_shield (hn : f.assembly.length + os.length ≤ 78) :
    f.RunsTo (escapeOctets os ++ [shieldOctet]) { f.collected os with shieldPending := true } :=
  (runsTo_collected hp hs hn).append (.single (octetEvent_shield (f := f.collected os) hp rfl))

/-- A Shield and a Fence abort an open assembly, which is counted once (R38). -/
theorem ParcelFramer.runsTo_abort_opened (hn : f.assembly.length + os.length ≤ 78) :
    f.RunsTo (escapeOctets os ++ [shieldOctet, fenceOctet]) f.countAbort := by
  rw [List.append_cons]
  exact (runsTo_shield hp hs hn).append
    (.single (octetEvent_abort (f := { f.collected os with shieldPending := true }) hp rfl))

/-- A Shield and a bad follower end an open assembly, which is counted once (R39). -/
theorem ParcelFramer.runsTo_violation (hn : f.assembly.length + os.length ≤ 78) {b : Byte}
    (hb : badFollower b = true) : f.RunsTo (escapeOctets os ++ [shieldOctet, b]) f.countEscape := by
  rw [List.append_cons]
  exact (runsTo_shield hp hs hn).append
    (.single (octetEvent_violation (f := { f.collected os with shieldPending := true }) hp rfl hb))

/-- An octet for which a full assembly has no room ends it, whether it stands on the line escaped or not (R40). -/
theorem ParcelFramer.runsTo_overlong_octet (hn : f.assembly.length = 78) (b : Byte) :
    f.RunsTo (escapeOctet b) f.countOverlong := by
  unfold escapeOctet
  split
  · next hr =>
    have hend := octetEvent_escaped (f := { f with shieldPending := true }) hp rfl hr
    rw [ParcelFramer.append_of_full (f := { f with shieldPending := true }) hn] at hend
    exact .cons (octetEvent_shield hp hs) (.single hend)
  · next hr =>
    have hend := octetEvent_plain hp hs (by simpa using hr)
    rw [ParcelFramer.append_of_full hn] at hend
    exact .single hend

/-- The 79th octet ends an open assembly, which is counted once (R40). -/
theorem ParcelFramer.runsTo_overlong (ha : f.assembly.length ≤ 78) (hn : f.assembly.length + os.length = 79) :
    f.RunsTo (escapeOctets os) f.countOverlong := by
  have hne : os ≠ [] := List.length_pos_iff.1 (by omega)
  obtain ⟨fit, last, rfl⟩ := (List.eq_nil_or_concat' os).resolve_left hne
  simp only [List.length_append, List.length_singleton] at hn
  have hfull : (f.collected fit).assembly.length = 78 := by
    simp only [ParcelFramer.collected, List.length_append]
    omega
  have hline : escapeOctets (fit ++ [last]) = escapeOctets fit ++ escapeOctet last := by simp [escapeOctets]
  rw [hline]
  exact (runsTo_collected hp hs (by omega)).append
    (runsTo_overlong_octet (f := f.collected fit) hp rfl hfull last)

end Opened

/-- Settles O17: each command's octets are a run of the framer without a signal. -/
theorem framerEndsAssemblies : Obligations.FramerEndsAssemblies := by
  unfold Obligations.FramerEndsAssemblies
  intro s octets follower hl
  have hexec {os : List Byte} {g : ParcelFramer} (h : s.pf.RunsTo os g) :
      (.next (s.characters os) : Result) = .next { s.characterEnd with pf := g } := congrArg _ (h.characters hl)
  exact ⟨fun h => hexec (.single (octetEvent_fence_opens h)),
    fun hp => hexec (ParcelFramer.runsTo_abort_hunting hp octets),
    fun hp hs hn => hexec (ParcelFramer.runsTo_abort_opened hp hs hn),
    fun hp hs hn hb => hexec (ParcelFramer.runsTo_violation hp hs hn hb),
    fun hp hs ha hn => hexec (ParcelFramer.runsTo_overlong hp hs ha hn)⟩

/-! ### The checks of an ended assembly (R43) -/

/-- The last two checks, class and direction (R47, R51). -/
def classFault (cls : Byte) : Option ParcelFault :=
  if cls = 0x22 ∨ cls = 0x33 ∨ cls = 0x77 then some .wrongDirection
  else if cls = 0x11 ∨ cls = 0x44 ∨ cls = 0x55 ∨ cls = 0x66 then none
  else some .unknownClass

section Checks

variable {os : List Byte} (h5 : 5 < os.length)
include h5

/-- A length octet that is too large or is not that of the payload fails the length check (R46). -/
theorem parcelFault_of_badLength (hl : 72 < (os.getD 3 0).toNat ∨ os.length ≠ (os.getD 3 0).toNat + 6) :
    parcelFault os = some .length := by
  simp only [parcelFault]
  rw [if_neg (by omega), if_pos hl]

/-- An assembly with a good length whose CRC does not come out 0 fails the check (R46). -/
theorem parcelFault_of_badCrc (hl : ¬(72 < (os.getD 3 0).toNat ∨ os.length ≠ (os.getD 3 0).toNat + 6))
    (hc : crc16 os ≠ 0) : parcelFault os = some .check := by
  simp only [parcelFault]
  rw [if_neg (by omega), if_neg hl, if_pos hc]

/-- An assembly with a good length and a good check is judged by its class (R47, R51). -/
theorem parcelFault_of_goodCrc (hl : ¬(72 < (os.getD 3 0).toNat ∨ os.length ≠ (os.getD 3 0).toNat + 6))
    (hc : crc16 os = 0) : parcelFault os = classFault (os.getD 0 0) := by
  have hhead : os.headD 0 = os.getD 0 0 := by cases os <;> rfl
  simp only [parcelFault]
  rw [if_neg (by omega), if_neg hl, if_neg (not_not.2 hc), hhead]
  simp [classFault, deviceClass, hostClass, rspClass, ntcClass, hailReplyClass, reqClass, ackClass, rejClass,
    hailClass, or_assoc]

end Checks

/-! ### The end of an assembly -/

/-- A Fence after octets that fit an empty open assembly ends the assembly they make (R35). -/
theorem framerRun_assembly {f : ParcelFramer} {os : List Byte} (hp : f.phase = .opened) (ha : f.assembly = [])
    (hs : f.shieldPending = false) (h1 : os ≠ []) (hn : os.length ≤ 78) :
    f.RunsTo (escapeOctets os) (f.collected os) ∧
      (f.collected os).octetEvent fenceOctet = (f.openEmpty, .ended os) := by
  have hos : (f.collected os).assembly = os := by simp [ParcelFramer.collected, ha]
  have hend := octetEvent_fence_opened (f := f.collected os) hp rfl (by rwa [hos])
  rw [hos] at hend
  exact ⟨ParcelFramer.runsTo_collected hp hs (by simpa [ha] using hn), hend⟩

/-- A receiver that hears, its assembly empty. -/
def State.hearsAfresh (s : State) : Prop := s.hears = true ∧ s.pf.assembly = [] ∧ s.pf.shieldPending = false

/-- The characters of an assembly and its closing Fence end the assembly in the delivered state (R35, R43). -/
theorem State.characters_assembly (s : State) (h : s.hearsAfresh) {os : List Byte} (h1 : os ≠ [])
    (hn : os.length ≤ 78) : s.characters (escapeOctets os ++ [fenceOctet]) = s.delivered.endAssembly os := by
  obtain ⟨hh, ha, hs⟩ := h
  simp only [State.hears, Bool.and_eq_true, beq_iff_eq] at hh
  obtain ⟨hl, hp⟩ := hh
  obtain ⟨hrun, hend⟩ := framerRun_assembly hp ha hs h1 hn
  have hcollect := hrun.characters hl
  rw [State.characters, if_pos hl] at hcollect ⊢
  rw [State.octetEvents_append, hcollect]
  refine (State.octetEvent_ended _ fenceOctet os (congrArg Prod.snd hend :)).trans ?_
  exact congrArg (fun g => State.endAssembly { s.characterEnd with pf := g } os) (congrArg Prod.fst hend)

/-- A discarded assembly is counted under its fault, and the next assembly is open (R35, R43). -/
theorem exec_parcelDiscarded_fault (s : State) (h : s.hearsAfresh) {os : List Byte} (h1 : os ≠ [])
    (hn : os.length ≤ 78) {fault : ParcelFault} (hf : parcelFault os = some fault) :
    exec (.parcelDiscarded os) s = .next { s.characterEnd with pf :=
      { phase := .opened, assembly := [], shieldPending := false
        counters := s.pf.counters.countFault fault } } := by
  refine congrArg Host.Outcome.next ((s.characters_assembly h h1 hn).trans ?_)
  rw [State.endAssembly_fault _ os fault hf]
  rfl

/-- Settles O18: each clause is the first check that the assembly fails. -/
theorem discardedParcelsAreCounted : Obligations.DiscardedParcelsAreCounted := by
  unfold Obligations.DiscardedParcelsAreCounted
  intro s octets hh ha hs h1 hn
  dsimp only
  have hne : octets ≠ [] := List.length_pos_iff.1 h1
  have hexec {fault : ParcelFault} (hf : parcelFault octets = some fault) :=
    exec_parcelDiscarded_fault s ⟨hh, ha, hs⟩ hne hn hf
  refine ⟨fun h5 => hexec (if_pos h5), fun h5 hl => hexec (parcelFault_of_badLength h5 hl),
    fun h5 hl hc => hexec (parcelFault_of_badCrc h5 hl hc), fun h5 hl hc hcls => hexec (fault := .unknownClass) ?_,
    fun h5 hl hc hcls => hexec (fault := .wrongDirection) ?_⟩
  · simp only [List.mem_cons, List.not_mem_nil, or_false, not_or] at hcls
    rw [parcelFault_of_goodCrc h5 hl hc, classFault, if_neg (by tauto), if_neg (by tauto)]
  · rw [parcelFault_of_goodCrc h5 hl hc, classFault, if_pos (by simpa using hcls)]

/-! ### Encoded parcels (R49) -/

/-- An unescaped parcel is its header, its payload and its check (R49). -/
theorem parcelOctets_length (cls : Byte) (ns nr : Seq) (tag : Byte) (payload : List Byte) :
    (parcelOctets cls ns nr tag payload).length = payload.length + 6 := by
  simp [parcelOctets, parcelBody, octets16]

/-- Settles O20: an escaped octet is never a Go, Hold or Fence, and takes one or two octets on the line. -/
theorem outboundParcelsHoldNoRawControl : Obligations.OutboundParcelsHoldNoRawControl := by
  unfold Obligations.OutboundParcelsHoldNoRawControl
  intro cls ns nr tag payload b hp
  have hlen := escapeOctets_length (parcelOctets cls ns nr tag payload)
  rw [parcelOctets_length] at hlen
  refine ⟨escapeOctets_raw, ?_⟩
  simp only [encodeParcel, List.length_cons, List.length_append, List.length_nil]
  omega

section Encoded

variable (cls : Byte) (ns nr : Seq) (tag : Byte) {payload : List Byte} (h : payload.length ≤ 72)
include h

/-- An encoded parcel passes the checks of runt, length and CRC; its class decides (R43, R46, R49). -/
theorem parcelFault_parcelOctets : parcelFault (parcelOctets cls ns nr tag payload) = classFault cls := by
  have hl : ((parcelOctets cls ns nr tag payload).getD 3 0).toNat = payload.length := by
    simp [parcelOctets, parcelBody, octet]
    omega
  have hlen := parcelOctets_length cls ns nr tag payload
  exact parcelFault_of_goodCrc (by omega) (by omega) (crc16_with_check _)

/-- A framer in Hunting reads an encoded parcel back: the ended assembly is its one signal (R35, R37, R49). -/
theorem framerRun_encodeParcel (f : ParcelFramer) :
    (framerRun f.hunt (encodeParcel cls ns nr tag payload)).1 = f.openEmpty ∧
      (framerRun f.hunt (encodeParcel cls ns nr tag payload)).2.filter (fun x => x != .nothing) =
        [.ended (parcelOctets cls ns nr tag payload)] := by
  have hlen := parcelOctets_length cls ns nr tag payload
  obtain ⟨hrun, hend⟩ := framerRun_assembly (f := f.openEmpty) (os := parcelOctets cls ns nr tag payload)
    rfl rfl rfl (List.length_pos_iff.1 (by omega)) (by omega)
  have hall : f.hunt.RunsTo (fenceOctet :: escapeOctets (parcelOctets cls ns nr tag payload))
      (f.openEmpty.collected (parcelOctets cls ns nr tag payload)) :=
    .cons (octetEvent_fence_hunting (f := f.hunt) rfl) hrun
  unfold encodeParcel
  rw [← List.cons_append, framerRun_append, hall.1, framerRun_cons, hend, List.filter_append, hall.filter_signals]
  exact ⟨rfl, rfl⟩

/-- The line of a parcel of a class the host sends, heard on an empty assembly, is the parcel handed over (R48). -/
theorem State.characters_parcel (s : State) (hs : s.hearsAfresh) (hc : classFault cls = none) :
    s.characters (escapeOctets (parcelOctets cls ns nr tag payload) ++ [fenceOctet]) =
      s.delivered.receiveParcel (parcelOctets cls ns nr tag payload) := by
  have hlen := parcelOctets_length cls ns nr tag payload
  rw [s.characters_assembly hs (List.length_pos_iff.1 (by omega)) (by omega)]
  exact State.endAssembly_valid _ _ ((parcelFault_parcelOctets cls ns nr tag h).trans hc)

end Encoded

/-! ### The hand-over of the host's parcels (R48, R83) -/

/-- A payload of the table's form fits a parcel (R84). -/
theorem length_of_formOk {payload : List Byte} (h : formOk payload = true) : payload.length ≤ 72 := by
  unfold formOk at h
  dsimp only at h
  split at h
  · cases h
  · split at h <;> simp_all <;> omega

/-- A well-formed command of a request of the table has a payload of the table's form (R84). -/
theorem formOk_of_requestOf {c : Instr} {h : ParcelHead} {r : Request} (hc : requestOf c = some (h, r))
    (hw : c.wellFormed = true) (hk : ∀ p, r ≠ .unknown p) : formOk r.payload = true := by
  cases c <;> cases hc <;>
    simp_all [Instr.wellFormed, formOk, Request.payload, Request.code, octets24, octets16, Settings.octets]
  -- The requests whose payload has no fixed length are left: PROGRAM, ERASE_SECTORS, CONFIG_SET and PING.
  all_goals omega

/-- A payload that fails the form check is read as no request of the table (R84). -/
theorem Request.ofPayload_of_not_formOk {payload : List Byte} (h : formOk payload = false) :
    Request.ofPayload payload = .unknown payload := by
  simp [Request.ofPayload, h]

/-- The payload of a request command fits a parcel and is read back as its request (R83, R84). -/
theorem requestOf_payload {c : Instr} {h : ParcelHead} {r : Request} (hc : requestOf c = some (h, r))
    (hw : c.wellFormed = true) : r.payload.length ≤ 72 ∧ Request.ofPayload r.payload = r := by
  by_cases hk : ∀ p, r ≠ .unknown p
  · have hform := formOk_of_requestOf hc hw hk
    exact ⟨length_of_formOk hform, r.ofPayload_payload hform hk⟩
  · obtain ⟨p, rfl⟩ : ∃ p, r = .unknown p := by simpa using hk
    cases c <;> cases hc
    simp only [Instr.wellFormed, payloadFits, Bool.and_eq_true, decide_eq_true_eq, Bool.not_eq_true'] at hw
    exact ⟨hw.1, Request.ofPayload_of_not_formOk hw.2⟩

/-- What the hand-over of an encoded parcel of the host's does, by its class (R48, R83). -/
theorem State.receiveParcel_parcelOctets (s : State) (cls : Byte) (h : ParcelHead) {payload : List Byte}
    (hn : payload.length ≤ 72) :
    s.receiveParcel (parcelOctets cls h.ns h.nr h.tag payload) =
      if cls = hailClass then s.receiveHail h.tag payload
      else if cls = ackClass then s.receiveAck h.nr payload
      else if cls = rejClass then s.receiveRej h.nr
      else
        let r := Request.ofPayload payload
        s.receiveRequest h r (staticCheck r) r.service := by
  have hcls : (parcelOctets cls h.ns h.nr h.tag payload).headD 0 = cls := rfl
  simp only [State.receiveParcel, hcls, parcelHead_parcelOctets, parcelPayload_parcelOctets _ _ _ _ _ hn]

section HandOver

variable (s : State) (hs : s.hearsAfresh) (h : ParcelHead)
include hs

/-- A parcel command of a class the host sends is the octets of its parcel, ended by a Fence, where the hand-over of
that parcel is what the command does (R48). -/
theorem State.onParcel_eq_characters {cls : Byte} {payload : List Byte} {handle : State → State}
    (hn : payload.length ≤ 72) (hc : classFault cls = none)
    (hr : ∀ t : State, t.receiveParcel (parcelOctets cls h.ns h.nr h.tag payload) = handle t) :
    s.onParcel handle =
      s.characters (escapeOctets (parcelOctets cls h.ns h.nr h.tag payload) ++ [fenceOctet]) := by
  rw [State.characters_parcel _ _ _ _ hn s hs hc, s.onParcel_of_hears _ hs.1, hr]

/-- The octets of a request, ended by a Fence, do what its command does (R48, R83). -/
theorem exec_request_eq_characters {c : Instr} {r : Request} (hc : requestOf c = some (h, r))
    (hw : c.wellFormed = true) :
    exec c s = .next (s.characters
      (escapeOctets (parcelOctets reqClass h.ns h.nr h.tag r.payload) ++ [fenceOctet])) := by
  obtain ⟨hlen, hread⟩ := requestOf_payload hc hw
  rw [exec_request c h r hc]
  refine congrArg _ (s.onParcel_eq_characters hs h hlen (by decide) fun t => ?_)
  rw [t.receiveParcel_parcelOctets _ h hlen, if_neg (by decide), if_neg (by decide), if_neg (by decide), hread]

variable {payload : List Byte} (hn : payload.length ≤ 72)
include hn

/-- The octets of a HAIL, ended by a Fence, do what its command does (R48). -/
theorem exec_hail_eq_characters :
    exec (.hail h payload) s = .next (s.characters
      (escapeOctets (parcelOctets hailClass h.ns h.nr h.tag payload) ++ [fenceOctet])) :=
  congrArg _ (s.onParcel_eq_characters hs h hn (by decide) fun t =>
    (t.receiveParcel_parcelOctets _ h hn).trans (if_pos rfl))

/-- The octets of an ACK, ended by a Fence, do what its command does (R48). -/
theorem exec_ackReceived_eq_characters :
    exec (.ackReceived h payload) s = .next (s.characters
      (escapeOctets (parcelOctets ackClass h.ns h.nr h.tag payload) ++ [fenceOctet])) :=
  congrArg _ (s.onParcel_eq_characters hs h hn (by decide) fun t => by
    rw [t.receiveParcel_parcelOctets _ h hn, if_neg (by decide), if_pos rfl])

/-- The octets of a REJ, ended by a Fence, do what its command does (R48). -/
theorem exec_rejReceived_eq_characters :
    exec (.rejReceived h payload) s = .next (s.characters
      (escapeOctets (parcelOctets rejClass h.ns h.nr h.tag payload) ++ [fenceOctet])) :=
  congrArg _ (s.onParcel_eq_characters hs h hn (by decide) fun t => by
    rw [t.receiveParcel_parcelOctets _ h hn, if_neg (by decide), if_neg (by decide), if_pos rfl])

end HandOver

/-- Settles O19: the framer's run over an encoded parcel, its checks, and the hand-over of a parcel of the host's. -/
theorem parcelsSurviveTheLine : Obligations.ParcelsSurviveTheLine := by
  unfold Obligations.ParcelsSurviveTheLine
  intro f cls ns nr tag payload s c h r
  dsimp only
  refine ⟨fun hn => ?_, fun hs hw hc => exec_request_eq_characters s hs h hc hw, fun hs hn =>
    ⟨exec_hail_eq_characters s hs h hn, exec_ackReceived_eq_characters s hs h hn,
      exec_rejReceived_eq_characters s hs h hn⟩⟩
  obtain ⟨hrun, hsignals⟩ := framerRun_encodeParcel cls ns nr tag hn f
  have hhead := parcelHead_parcelOctets cls ns nr tag payload
  exact ⟨hrun, hsignals, rfl, congrArg ParcelHead.ns hhead, congrArg ParcelHead.nr hhead, rfl,
    parcelPayload_parcelOctets cls ns nr tag payload hn, parcelFault_parcelOctets cls ns nr tag hn⟩

end Sys2Proof.Machine
end

