-- ==== Sys2Proof/Proofs/Sessions.lean ====
section
/-!
PROOFS. The session as its parcels and its retransmit timer change it (chapter 4): the attach and the refusal of a HAIL,
parcels of a DETACHED device, an Nr outside the span, acknowledgement, ACK, REJ, and the classes of a request. Settles
O22 to O29.
-/

namespace Sys2Proof.Machine

/-! ### Retries (R68, R71) -/

/-- A try within the retry limit sets up a pass over the whole window (R68, R71). -/
theorem State.retryOnce_within (s : State) (h : s.su.retry + 1 ≤ s.cs.active.retryLimit.toNat) :
    s.retryOnce = { s with su := { s.su with
      retry := s.su.retry + 1
      pass := s.su.window.map (fun e => e.ns)
      retransmit := .running s.retransmitTicks } } :=
  if_neg (Nat.not_lt.2 h)

/-- A try past the retry limit ends the session, with no Parked batch (R68, R71, R77 to R79). -/
theorem State.retryOnce_past (s : State) (h : s.cs.active.retryLimit.toNat < s.su.retry + 1)
    (ha : s.su.link = .attached) (hp : s.bc.state ≠ .parked) : TornDown s s.retryOnce .retryExhausted := by
  have hends : s.EndsAs { s with su := { s.su with retry := s.su.retry + 1 } } .retryExhausted :=
    ⟨rfl, rfl, rfl, rfl, rfl, rfl, rfl, rfl, rfl, rfl, rfl, rfl, rfl, rfl, rfl⟩
  unfold State.retryOnce
  rw [if_pos h]
  exact hends.tornDown ha hp

/-- A retransmit timer that is over and not frozen makes a try, itself stopped (R70, R71). -/
theorem exec_retransmitExpiry_due (s : State) (hd : s.su.retransmit = .running 0) (hh : s.cl.held = false) :
    exec .retransmitExpiry s = .next (State.retryOnce { s with su := { s.su with retransmit := .stopped } }) := by
  have hdue : s.retransmitDue = true := by simp [State.retransmitDue, Timer.isDue, hd, hh]
  exact if_pos hdue

/-- A retransmit timer that is not over, or is frozen by Held, does not expire (R14, R15, R70). -/
theorem exec_retransmitExpiry_void (s : State) (h : s.su.retransmit ≠ .running 0 ∨ s.cl.held = true) :
    exec .retransmitExpiry s = .next s := by
  have hdue : ¬s.retransmitDue = true := by
    simp only [State.retransmitDue, Timer.isDue, Bool.and_eq_true, beq_iff_eq, Bool.not_eq_true', not_and]
    intro hd
    simpa using h.resolve_left (not_not.2 hd)
  exact if_neg hdue

/-- Settles O22: a timer that is due makes one more try. -/
theorem retransmitExpirySetsUpAPass : Obligations.RetransmitExpirySetsUpAPass := by
  unfold Obligations.RetransmitExpirySetsUpAPass
  intro s
  refine ⟨fun hd hh hl => ?_, fun hd hh hl ha hp => ?_, exec_retransmitExpiry_void s⟩
  · rw [exec_retransmitExpiry_due s hd hh]
    exact congrArg _ (State.retryOnce_within _ hl)
  · exact ⟨_, exec_retransmitExpiry_due s hd hh, State.retryOnce_past _ hl ha hp,
      (State.retryOnce_beyondSession _).sr⟩

/-! ### Replies and attach (R54, R57) -/

/-- A reply joins a list that has room, and is dropped otherwise (R57). -/
theorem State.appendReply_eq (s : State) (tag : Byte) (status : ReplyStatus) :
    s.appendReply tag status = { s with su := { s.su with
      replies :=
        if s.su.replies.length < 4 then s.su.replies ++ [s.makeReply tag status] else s.su.replies } } := by
  unfold State.appendReply deviceWindow
  split <;> rfl

/-- The fields of a REFUSED or NO_SESSION reply (R57). -/
theorem State.makeReply_eq (s : State) (tag : Byte) {status : ReplyStatus} (h : status ≠ .attached) :
    s.makeReply tag status =
      { tag := tag, status := status, epoch := s.su.epoch, fresh := s.su.attachCount == 0
        cause := s.sr.cause, previous := s.su.reason
        effWindow := if s.su.link = .attached then s.su.effWindow else 0 } := by
  cases status with
  | attached => exact absurd rfl h
  | refused => simp [State.makeReply, State.isAttached]
  | noSession => simp [State.makeReply, State.isAttached]

/-- The first attach since the reset is the fresh one (R54, R57). -/
theorem firstAttach_eq (n : Nat) : (min 65535 (n + 1) == 1) = (n == 0) := by
  rw [Bool.eq_iff_iff, beq_iff_eq, beq_iff_eq]
  omega

/-- An attach, as one change of the Session Unit (R54, R57). -/
theorem State.attach_eq (s : State) (tag w o : Byte) :
    s.attach tag w o = { s with su := { s.su with
      link := .attached, epoch := nextEpoch s.su.epoch, attachCount := min 65535 (s.su.attachCount + 1)
      vs := 0, va := 0, vr := 0, window := [], pass := [], retry := 0
      ackOwed := false, rejectSent := false, rejPending := false, busyReported := false
      busyNotePending := false, hostBusy := false
      effWindow := min 4 w.toNat, noticesWanted := o.getLsbD 0
      keepalive := Timer.start s.keepaliveTicks
      replies := attachReplies s.su.replies ++
        [{ tag := tag, status := .attached, epoch := nextEpoch s.su.epoch, fresh := s.su.attachCount == 0
           cause := s.sr.cause, previous := s.su.reason, effWindow := min 4 w.toNat }] } } := by
  rw [← firstAttach_eq]
  rfl

/-- The keepalive timer runs for field 4 in seconds, and does not run where field 4 is 0 (R54, R76). -/
theorem State.start_keepaliveTicks (s : State) :
    Timer.start s.keepaliveTicks =
      if s.cs.active.keepalive = 0 then .stopped else .running (s.cs.active.keepalive.toNat * 1000) := by
  have hzero : s.keepaliveTicks = 0 ↔ s.cs.active.keepalive = 0 := by
    simp [State.keepaliveTicks, ← BitVec.toNat_inj]
  simp only [Timer.start, hzero]
  rfl

/-- A valid HAIL has two octets: a window from 1 to 4, and options of which bit 0 alone may be set (R53). -/
theorem hailValid_pair {w o : Byte} (h1 : 1 ≤ w.toNat) (h4 : w.toNat ≤ 4) (ho : o &&& 0xFE = 0) :
    hailValid [w, o] = true := by
  simpa [hailValid, h1, h4] using ho

/-! ### The hand-over (R48, R59) -/

section Heard

variable (s : State) (h : ParcelHead) (payload : List Byte) (hh : s.hears = true)
include hh

theorem exec_hail_heard : exec (.hail h payload) s = .next (s.delivered.receiveHail h.tag payload) :=
  congrArg _ (s.onParcel_of_hears _ hh)

theorem exec_ackReceived_heard :
    exec (.ackReceived h payload) s = .next (s.delivered.receiveAck h.nr payload) :=
  congrArg _ (s.onParcel_of_hears _ hh)

theorem exec_rejReceived_heard : exec (.rejReceived h payload) s = .next (s.delivered.receiveRej h.nr) :=
  congrArg _ (s.onParcel_of_hears _ hh)

theorem exec_request_heard {c : Instr} {r : Request} (hc : requestOf c = some (h, r)) :
    exec c s = .next (s.delivered.receiveRequest h r (staticCheck r) r.service) := by
  rw [exec_request c h r hc]
  exact congrArg _ (s.onParcel_of_hears _ hh)

end Heard

/-- A session that ends by a parcel ends as it would have before the hand-over (R48, R76). -/
theorem State.delivered_endsAs (s : State) (r : TeardownReason) : s.EndsAs s.delivered.touchKeepalive r := by
  rw [State.touchKeepalive_eq]
  exact ⟨rfl, rfl, rfl, rfl, rfl, rfl, rfl, rfl, rfl, rfl, rfl, rfl, rfl, rfl, rfl⟩

theorem State.isAttached_of_link {s : State} (ha : s.su.link = .attached) : s.isAttached = true := by
  simp [State.isAttached, ha]

theorem State.isAttached_of_detached {s : State} (hd : s.su.link = .detached) : s.isAttached = false := by
  simp [State.isAttached, hd]

/-- The keepalive timer of an attached session, if it runs, restarts on a HAIL (R59, R76). -/
theorem State.hailKeepalive_eq (s : State) :
    (if s.isAttached then s.touchKeepalive else s) = { s with su := { s.su with
      keepalive :=
        if s.su.link = .attached ∧ s.su.keepalive ≠ .stopped then Timer.start s.keepaliveTicks
        else s.su.keepalive } } := by
  by_cases ha : s.su.link = .attached
  · rw [if_pos (State.isAttached_of_link ha), State.touchKeepalive_eq]
    cases hk : s.su.keepalive <;> simp [ha]
  · rw [if_neg (by simpa [State.isAttached] using ha), if_neg (fun h => ha h.1)]

/-- An invalid HAIL restarts the keepalive timer, and is refused (R53, R57, R59). -/
theorem State.receiveHail_invalid (s : State) (tag : Byte) {payload : List Byte} (hv : hailValid payload = false) :
    s.receiveHail tag payload = (if s.isAttached then s.touchKeepalive else s).appendReply tag .refused := by
  simp [State.receiveHail, hv]

/-- A valid HAIL attaches a DETACHED device (R53, R54). -/
theorem State.receiveHail_detached (s : State) (tag : Byte) {payload : List Byte} (hv : hailValid payload = true)
    (hd : s.su.link = .detached) :
    s.receiveHail tag payload = s.attach tag (payload.getD 0 0) (payload.getD 1 0) := by
  simp only [State.receiveHail, hv, State.isAttached_of_detached hd, Bool.false_eq_true, if_false, if_true,
    s.teardown_of_detached _ hd]

/-- A valid HAIL replaces the session of an ATTACHED device (R55). -/
theorem State.receiveHail_attached (s : State) (tag : Byte) {payload : List Byte} (hv : hailValid payload = true)
    (ha : s.su.link = .attached) :
    s.receiveHail tag payload =
      (s.touchKeepalive.teardown .rehail).attach tag (payload.getD 0 0) (payload.getD 1 0) := by
  simp only [State.receiveHail, hv, State.isAttached_of_link ha, if_true]

/-- Settles O23: a valid HAIL is an attach, an invalid one a REFUSED reply. -/
theorem hailAttachesOrIsRefused : Obligations.HailAttachesOrIsRefused := by
  unfold Obligations.HailAttachesOrIsRefused
  intro s h payload w o hh
  dsimp only
  rw [exec_hail_heard s h payload hh]
  refine ⟨fun hp h1 h4 ho hd => ?_, fun hv => ?_⟩
  · subst hp
    rw [s.delivered.receiveHail_detached h.tag (hailValid_pair h1 h4 ho) hd, State.attach_eq,
      ← s.start_keepaliveTicks]
    rfl
  · rw [State.receiveHail_invalid _ _ hv, State.hailKeepalive_eq, State.appendReply_eq,
      State.makeReply_eq _ _ (by decide)]
    rfl

/-- Settles O24: the session that is replaced ends as any other, and the device attaches from what it leaves. -/
theorem rehailReplacesTheSession : Obligations.RehailReplacesTheSession := by
  unfold Obligations.RehailReplacesTheSession
  intro s h w o hh ha hp hcount h1 h4 ho
  obtain ⟨hsu, hrd, hheld, -, -, heu, hbc, hae, hledger, harray, hpu, hcs, -, -⟩ :=
    (s.delivered_endsAs .rehail).tornDown ha hp
  have hsr : (s.delivered.touchKeepalive.teardown .rehail).sr.cause = s.sr.cause := by
    rw [(State.teardown_frame _ _).1, State.touchKeepalive_eq]
    rfl
  rw [exec_hail_heard s h _ hh, s.delivered.receiveHail_attached h.tag (hailValid_pair h1 h4 ho) ha]
  generalize s.delivered.touchKeepalive.teardown .rehail = u at *
  have hlatched : u.eu.latched = s.eu.latched := by simp [heu, EventUnit.tornDown]
  refine Answers.of_next ?_
  rw [State.attach_eq, hsu, hsr]
  refine ⟨rfl, rfl, rfl, rfl, rfl, rfl, rfl, rfl, rfl, rfl, rfl, hrd, hheld, heu, hlatched, ?_, hbc, hae, hledger,
    harray, hpu, hcs⟩
  have hfresh : (s.su.attachCount == 0) = false := beq_eq_false_iff_ne.2 (Nat.ne_of_gt hcount)
  simp [SessionUnit.tornDown, hfresh]

/-- Settles O25: what a DETACHED device does with each parcel. -/
theorem unattachedParcelsAreCounted : Obligations.UnattachedParcelsAreCounted := by
  unfold Obligations.UnattachedParcelsAreCounted
  intro s c h r payload hh hd
  have hlink : ¬s.delivered.isAttached = true := ne_true_of_eq_false (State.isAttached_of_detached hd)
  refine ⟨fun hc => ?_, ?_, ?_, ?_⟩
  · rw [exec_request_heard s h hh hc, State.receiveRequest, if_neg hlink, State.appendReply_eq,
      State.makeReply_eq _ _ (by decide)]
    simp [hd]
  · rw [exec_ackReceived_heard s h payload hh, State.receiveAck, if_neg hlink]
    rfl
  · rw [exec_rejReceived_heard s h payload hh, State.receiveRej, if_neg hlink]
    rfl
  · rw [exec_hail_heard s h payload hh]
    refine Answers.of_next ?_
    cases hv : hailValid payload with
    | false => rw [State.receiveHail_invalid _ _ hv, if_neg hlink, State.appendReply_eq]; rfl
    | true => rw [s.delivered.receiveHail_detached _ hv hd, State.attach_eq]; rfl

/-! ### The Nr of a parcel (R60, R61, R187) -/

theorem State.nrValid_iff (s : State) (nr : Seq) :
    s.nrValid nr = true ↔ (nr - s.su.va).toNat ≤ (s.su.vs - s.su.va).toNat := by
  simp [State.nrValid]

/-- A parcel that carries an Nr, a request, an ACK or a REJ, has it read before all else of it (R59). -/
theorem exec_withNr {s : State} {c : Instr} {h : ParcelHead} {r : Request} {payload : List Byte}
    (hh : s.hears = true) (ha : s.su.link = .attached)
    (hc : requestOf c = some (h, r) ∨ c = .ackReceived h payload ∨ c = .rejReceived h payload) :
    ∃ rest, exec c s = .next (s.delivered.withNr h.nr rest) := by
  have hat : s.delivered.isAttached = true := State.isAttached_of_link ha
  rcases hc with hc | rfl | rfl
  · exact ⟨_, (exec_request_heard s h hh hc).trans (congrArg _ (if_pos hat))⟩
  · exact ⟨_, (exec_ackReceived_heard s h payload hh).trans (congrArg _ (if_pos hat))⟩
  · exact ⟨_, (exec_rejReceived_heard s h payload hh).trans (congrArg _ (if_pos hat))⟩

/-- Settles O26: whatever the parcel would do after its Nr, an Nr outside the span ends the session first. -/
theorem invalidNrEndsTheSession : Obligations.InvalidNrEndsTheSession := by
  unfold Obligations.InvalidNrEndsTheSession
  intro s c h r payload hh ha hp hnr hc
  obtain ⟨rest, hexec⟩ := exec_withNr hh ha hc
  have hv : s.delivered.nrValid h.nr = false := by
    rw [Bool.eq_false_iff, Ne, State.nrValid_iff]
    exact Nat.not_le.2 hnr
  rw [hexec, State.withNr_of_invalid _ _ _ hv]
  exact Answers.of_next ((s.delivered_endsAs _).tornDown ha hp)

/-- Two sequence numbers are at distance 0 just when they are equal. -/
theorem seq_sub_eq_zero {a b : Seq} : (a - b).toNat = 0 ↔ a = b := by
  bv_omega

/-- The serial of a record is among those of the notices acknowledged just when one of the parcels carries it (R69). -/
theorem noticeSerials_contains (es : List WindowEntry) (n : Word16) :
    (noticeSerials es).contains n = es.any (fun e => e.kind == .ntc n) := by
  rw [Bool.eq_iff_iff]
  simp only [noticeSerials, List.contains_iff_mem, List.mem_filterMap, List.any_eq_true, beq_iff_eq]
  exact exists_congr fun e => and_congr_right fun _ => by cases e.kind <;> simp

/-- The log without the records of the notices that an Nr acknowledges (R61, R187). -/
def State.keptLog (s : State) (nr : Seq) : List LogRecord :=
  s.eu.log.filter (fun r => !(s.su.window.take (nr - s.su.va).toNat).any (fun e => e.kind == .ntc r.serial))

/-- An Nr that acknowledges parcels (R61, R70, R187). -/
theorem State.acknowledge_some (s : State) (nr : Seq) (hk : (nr - s.su.va).toNat ≠ 0) :
    s.acknowledge nr = { s with
      su := { s.su with
        va := nr, window := s.su.window.drop (nr - s.su.va).toNat, retry := 0
        pass := s.su.pass.filter
          (fun n => !(s.su.window.take (nr - s.su.va).toNat).any (fun e => e.ns == n))
        retransmit :=
          if s.su.window.drop (nr - s.su.va).toNat = [] then .stopped else .running s.retransmitTicks }
      eu := { s.eu with log := s.keptLog nr } } := by
  simp only [State.acknowledge, if_neg hk, State.dropRecords, noticeSerials_contains, State.keptLog]

/-- V(A) is the Nr that has been read (R61). -/
theorem State.acknowledge_va (s : State) (nr : Seq) : (s.acknowledge nr).su.va = nr := by
  by_cases hk : (nr - s.su.va).toNat = 0
  · rw [seq_sub_eq_zero.1 hk, State.acknowledge_none]
  · rw [State.acknowledge_some s nr hk]

/-- The window has lost the parcels before the Nr (R61). -/
theorem State.acknowledge_window (s : State) (nr : Seq) :
    (s.acknowledge nr).su.window = s.su.window.drop (nr - s.su.va).toNat := by
  by_cases hk : (nr - s.su.va).toNat = 0
  · rw [hk, seq_sub_eq_zero.1 hk, State.acknowledge_none, List.drop_zero]
  · rw [State.acknowledge_some s nr hk]

/-- An Nr that acknowledges parcels clears the retry count (R61). -/
theorem State.acknowledge_retry (s : State) (nr : Seq) :
    (s.acknowledge nr).su.retry = if nr = s.su.va then s.su.retry else 0 := by
  by_cases hk : nr = s.su.va
  · rw [if_pos hk, hk, State.acknowledge_none]
  · rw [if_neg hk, State.acknowledge_some s nr (mt seq_sub_eq_zero.1 hk)]

/-- An Nr that acknowledges nothing leaves every record in the log. -/
theorem State.keptLog_va (s : State) : s.keptLog s.su.va = s.eu.log := by
  simp [State.keptLog]

/-- Of the Event Unit an Nr changes the log alone (R187). -/
theorem State.acknowledge_eu (s : State) (nr : Seq) :
    (s.acknowledge nr).eu = { s.eu with log := s.keptLog nr } := by
  by_cases hk : (nr - s.su.va).toNat = 0
  · rw [seq_sub_eq_zero.1 hk, State.acknowledge_none, State.keptLog_va]
  · rw [State.acknowledge_some s nr hk]

/-- Records leave the log at an Nr just when the log is not kept whole (R185). -/
theorem State.losesRecords_iff (s : State) (nr : Seq) : s.losesRecords nr = true ↔ s.keptLog nr ≠ s.eu.log := by
  rw [State.losesRecords, State.acknowledge_eu, decide_eq_true_iff]
  exact ⟨fun hlt heq => hlt.ne (congrArg List.length heq), fun hne =>
    lt_of_le_of_ne (List.length_filter_le _ _) (mt (List.filter_sublist.eq_of_length) hne)⟩

/-! ### The end of the step (R185) -/

/-- No LOST_EVENTS record closes a step that took no record out of the log, lost no event, or has filled the log again
(assumption 16). -/
theorem State.atEnd_silent (s v : State) (h : ParcelHead)
    (hv : s.keptLog h.nr = s.eu.log ∨ v.eu.lost = 0 ∨ 16 ≤ v.eu.log.length) : s.atEnd h v = v := by
  unfold State.atEnd
  split
  case isTrue hl =>
    rw [EventUnit.lostReported, if_pos (hv.resolve_left ((s.losesRecords_iff h.nr).1 hl))]
  case isFalse => rfl

/-- A LOST_EVENTS record closes the step when records have left the log and events were lost (R185). -/
theorem State.atEnd_reports (s v : State) (h : ParcelHead) (hk : s.keptLog h.nr ≠ s.eu.log) (hl : v.eu.lost ≠ 0)
    (hn : v.eu.log.length < 16) :
    s.atEnd h v = { v with eu := { v.eu with
      log := v.eu.log ++
        [{ serial := v.eu.nextSerial, event := .lostEvents v.eu.lost, time := v.sr.tick, inFlight := false }]
      lost := 0, nextSerial := v.eu.nextSerial + 1 } } := by
  rw [State.atEnd, if_pos ((s.losesRecords_iff h.nr).2 hk), EventUnit.lostReported, if_neg (by omega)]

/-- What the end of a step adds is of the Event Unit alone (R185). -/
theorem State.atEnd_su_rd (s v : State) (h : ParcelHead) : (s.atEnd h v).su = v.su ∧ (s.atEnd h v).rd = v.rd := by
  unfold State.atEnd
  split <;> exact ⟨rfl, rfl⟩

/-- A heard parcel of an attached session, its Nr read: the keepalive timer restarted, the rest as the Nr leaves it
(R59, R61, R76). -/
theorem State.handedOver_eq (s : State) (nr : Seq) :
    s.delivered.touchKeepalive.acknowledge nr = { s.delivered with
      su := { (s.acknowledge nr).su with
        keepalive := if s.su.keepalive = .stopped then .stopped else Timer.start s.keepaliveTicks }
      eu := (s.acknowledge nr).eu } := by
  rw [State.touchKeepalive_eq]
  unfold State.acknowledge
  dsimp only [State.delivered_su]
  split <;> rfl

/-- Settles O27: the acknowledgement by whether the Nr is V(A), the sequence step, and the end of the step. -/
theorem parcelsAcknowledgeAndAdvance : Obligations.ParcelsAcknowledgeAndAdvance := by
  unfold Obligations.ParcelsAcknowledgeAndAdvance
  intro s v h i
  dsimp only
  refine ⟨fun hk => ?_, fun hk => ?_, fun ht => ?_, s.atEnd_silent v h, s.atEnd_reports v h⟩
  · rw [seq_sub_eq_zero.1 hk, State.acknowledge_none]
  · rw [State.acknowledge_some s h.nr hk]
    exact ⟨rfl, rfl, rfl, rfl, rfl, rfl, rfl, rfl, rfl, rfl, rfl, rfl⟩
  · obtain ⟨-, hvr, hvs, hreplies, -, -, hhost, hbusy, -, -⟩ := s.acknowledge_su h.nr
    rw [State.beforeAcceptance, State.handedOver_eq]
    exact ⟨congrArg (· + 1) hvr, rfl, rfl, rfl, s.acknowledge_va h.nr, hvs, s.acknowledge_window h.nr, hbusy, hhost,
      hreplies, rfl, rfl, rfl, rfl, rfl, rfl, rfl, rfl, rfl, rfl, rfl⟩

/-! ### ACK and REJ (R67, R68) -/

/-- A heard parcel of an attached session with a valid Nr does what follows its Nr, then ends its step (R59, R185). -/
theorem State.withNr_delivered (s : State) (h : ParcelHead) (rest : State → State)
    (hnr : (h.nr - s.su.va).toNat ≤ (s.su.vs - s.su.va).toNat) :
    s.delivered.withNr h.nr rest = s.atEnd h (rest (s.delivered.touchKeepalive.acknowledge h.nr)) := by
  rw [s.delivered.withNr_of_valid _ _ ((s.nrValid_iff h.nr).2 hnr), State.endStep_delivered]

/-- What the effects of ACK, REJ and request ask of the state whose Nr has been read (R59, R61). -/
theorem State.handedOver_facts (s : State) (nr : Seq) :
    let u := s.delivered.touchKeepalive.acknowledge nr
    u.su.link = s.su.link ∧ u.su.va = nr ∧ u.su.vs = s.su.vs ∧ u.su.vr = s.su.vr ∧
      u.su.retry = (if nr = s.su.va then s.su.retry else 0) ∧ u.rd = s.rd ∧ u.bc = s.bc ∧ u.cs = s.cs := by
  obtain ⟨hlink, hvr, hvs, -⟩ := s.acknowledge_su nr
  dsimp only
  rw [State.handedOver_eq]
  exact ⟨hlink, s.acknowledge_va nr, hvs, hvr, s.acknowledge_retry nr, rfl, rfl, rfl⟩

/-- A REJ for an empty window is counted alone (R68). -/
theorem State.rejAfterNr_empty (s : State) (h : s.su.va = s.su.vs) :
    s.rejAfterNr = { s with su := { s.su with rejReceived := s.su.rejReceived + 1 } } :=
  if_pos h

/-- A REJ for a window with parcels is counted, and within the retry limit sets up a pass (R68). -/
theorem State.rejAfterNr_within (s : State) (h : s.su.va ≠ s.su.vs)
    (hl : s.su.retry + 1 ≤ s.cs.active.retryLimit.toNat) :
    s.rejAfterNr = { s with su := { s.su with
      rejReceived := s.su.rejReceived + 1
      retry := s.su.retry + 1
      pass := s.su.window.map (fun e => e.ns)
      retransmit := .running s.retransmitTicks } } :=
  (if_neg h).trans (State.retryOnce_within _ hl)

/-- A REJ for a window with parcels is counted, and past the retry limit ends the session (R68). -/
theorem State.rejAfterNr_past (s : State) (h : s.su.va ≠ s.su.vs)
    (hl : s.cs.active.retryLimit.toNat < s.su.retry + 1) (ha : s.su.link = .attached) (hp : s.bc.state ≠ .parked) :
    TornDown { s with su := { s.su with rejReceived := s.su.rejReceived + 1 } } s.rejAfterNr .retryExhausted := by
  unfold State.rejAfterNr
  rw [if_neg h]
  exact State.retryOnce_past _ hl ha hp

/-- Settles O28: after its Nr an ACK sets host Busy; a REJ counts and, the window not empty, makes one more try. -/
theorem ackAndRejAct : Obligations.AckAndRejAct := by
  unfold Obligations.AckAndRejAct
  intro s h payload hh ha hnr
  have hat : s.delivered.isAttached = true := State.isAttached_of_link ha
  obtain ⟨hlink, hva, hvs, -, hretry, hrd, hbc, hcs⟩ := s.handedOver_facts h.nr
  rw [exec_ackReceived_heard s h payload hh, exec_rejReceived_heard s h payload hh, State.receiveAck, State.receiveRej,
    if_pos hat, if_pos hat, s.withNr_delivered h _ hnr, s.withNr_delivered h _ hnr]
  generalize s.delivered.touchKeepalive.acknowledge h.nr = u at *
  dsimp only
  rw [← hretry, ← hcs, ← hvs, ← hbc, ← hrd]
  refine ⟨?_, fun hv => ?_, fun hv hl => ?_, fun hv hl hp => ?_⟩
  · cases payload <;> rfl
  · rw [u.rejAfterNr_empty (hva.trans hv)]
  · rw [u.rejAfterNr_within (hva ▸ hv) hl]
    rfl
  · obtain ⟨hsu, hslots, -⟩ := u.rejAfterNr_past (hva ▸ hv) hl (hlink.trans ha) hp
    refine Answers.of_next ?_
    rw [(s.atEnd_su_rd _ h).1, (s.atEnd_su_rd _ h).2, hsu]
    exact ⟨rfl, rfl, rfl, rfl, hslots⟩

/-! ### The classes of a request (R62 to R66) -/

/-- No slot is Free when every slot has another state (R87). -/
theorem State.freeSlot_none (s : State) (h : s.rd.slots.all (fun x => x.state != .free) = true) :
    s.freeSlot = none := by
  rw [State.freeSlot, List.findIdx?_eq_none_iff]
  intro x hx
  simpa using List.all_eq_true.1 h x hx

section Classes

variable (s : State) (ns : Seq) (tag : Byte) (r : Request) (check : Option (Status × List Byte)) (service : Service)

/-- The next request with no slot to take is discarded, and busy is reported (R63). -/
theorem State.classify_busy (hd : (ns - s.su.vr).toNat = 0) (hf : s.freeSlot = none) :
    s.classify ns tag r check service =
      { s with su := { s.su with busyReported := true, busyNotePending := true } } := by
  simp only [State.classify, if_pos hd, hf]

/-- A request after a gap is discarded, and one REJ is owed for the gap (R66). -/
theorem State.classify_gap (h1 : 1 ≤ (ns - s.su.vr).toNat) (h3 : (ns - s.su.vr).toNat ≤ 3) :
    s.classify ns tag r check service =
      { s with su := { s.su with
        rejectSent := true, rejPending := s.su.rejPending || !s.su.rejectSent } } := by
  simp only [State.classify, if_neg (Nat.ne_of_gt h1), if_pos h3]
  by_cases hr : s.su.rejectSent = true
  · rw [if_pos hr, hr, Bool.not_true, Bool.or_false, ← hr]
  · rw [if_neg hr, Bool.eq_false_iff.2 hr, Bool.not_false, Bool.or_true]

/-- A request far out of sequence is discarded and counted as wild (R66). -/
theorem State.classify_wild (h4 : 4 ≤ (ns - s.su.vr).toNat) (h11 : (ns - s.su.vr).toNat ≤ 11) :
    s.classify ns tag r check service = { s with su := { s.su with wild := s.su.wild + 1 } } := by
  simp only [State.classify]
  rw [if_neg (by omega), if_neg (by omega), if_pos h11]

/-- A request that has come before is discarded and acknowledged again (R65). -/
theorem State.classify_repeat (h12 : 12 ≤ (ns - s.su.vr).toNat) :
    s.classify ns tag r check service = { s with su := { s.su with ackOwed := true } } := by
  simp only [State.classify]
  rw [if_neg (by omega), if_neg (by omega), if_neg (by omega)]

end Classes

/-- Settles O29: after its Nr a request is judged by its distance from V(R) alone, and at distance 0 by the slots. -/
theorem requestsAreClassified : Obligations.RequestsAreClassified := by
  unfold Obligations.RequestsAreClassified
  intro s c h r hh ha hnr hc
  have hat : s.delivered.isAttached = true := State.isAttached_of_link ha
  obtain ⟨-, -, -, hvr, -, hrd, -, -⟩ := s.handedOver_facts h.nr
  rw [exec_request_heard s h hh hc, State.receiveRequest, if_pos hat, s.withNr_delivered h _ hnr]
  generalize s.delivered.touchKeepalive.acknowledge h.nr = u at *
  dsimp only
  rw [← hvr, ← hrd]
  refine ⟨fun hd hf => ?_, fun h1 h3 => ?_, fun h4 h11 => ?_, fun h12 => ?_⟩
  · rw [u.classify_busy _ _ _ _ _ hd (u.freeSlot_none hf)]
  · rw [u.classify_gap _ _ _ _ _ h1 h3]
  · rw [u.classify_wild _ _ _ _ _ h4 h11]
  · rw [u.classify_repeat _ _ _ _ _ h12]

end Sys2Proof.Machine
end

