-- ==== Sys2Proof/Proofs/Selection.lean ====
section
/-!
PROOFS. The selection of what to send, item by item in the order of R73 (section 4.7). Settles O56.
-/

namespace Sys2Proof.Machine

/-! ### The transmitter becomes Free (R31, R75) -/

/-- The end of a parcel makes the transmitter Free, and a selection may follow (R31). -/
theorem exec_transmitterFree_finished (s : State) (ht : s.sr.top = .active) (hf : s.cl.tx.finished = true) :
    exec .transmitterFree s = .next (s.freeTransmitter.select.getD s.freeTransmitter) :=
  if_pos ⟨ht, hf⟩

/-- With Held set nothing is selected (R31, R75). -/
theorem State.select_held (s : State) (h : s.cl.held = true) : s.select = none :=
  if_neg fun hc => absurd (h.symm.trans hc.2.2) (by decide)

/-- With Held clear the Free transmitter takes what is chosen, if anything (R31, R73, R75). -/
theorem exec_transmitterFree_chooses (s : State) (ht : s.sr.top = .active) (hf : s.cl.tx.finished = true)
    (hh : s.cl.held = false) {t : Option State} (hc : s.freeTransmitter.choose = t) :
    exec .transmitterFree s = .next (t.getD s.freeTransmitter) := by
  have hsel : s.freeTransmitter.select = s.freeTransmitter.choose := if_pos ⟨ht, rfl, hh⟩
  rw [exec_transmitterFree_finished s ht hf, hsel, hc]

/-! ### The items in their order (R73) -/

/-- Item 1 of R73: a reply comes before all else. -/
theorem State.choose_reply (s : State) {r : Reply} {rest : List Reply} (h : s.su.replies = r :: rest) :
    s.choose = some (s.sendReply r rest) := by
  rw [State.choose, h]

/-- Item 2 of R73: a pending REJ comes next. -/
theorem State.choose_rej (s : State) (h : s.su.replies = []) (hr : s.su.rejPending = true) :
    s.choose = some s.sendRej := by
  simp only [State.choose, h, if_pos hr]

/-- No reply waits and no REJ is pending: the first two items of R73 are not available. -/
structure State.PastRej (s : State) : Prop where
  replies : s.su.replies = []
  rejPending : s.su.rejPending = false

namespace State.PastRej

variable {s : State} (h : s.PastRej)
include h

/-- Items 3 to 5 of R73, in order. -/
theorem choose_eq :
    s.choose = (s.chooseAgain.orElse (fun _ => s.chooseNew)).orElse (fun _ => s.chooseAck) := by
  simp only [State.choose, h.replies, h.rejPending, Bool.false_eq_true, if_false]

/-- Item 3 of R73: the next parcel of the pass (R72). -/
theorem choose_again {n : Seq} {later : List Seq} {e : WindowEntry} (hpass : s.su.pass = n :: later)
    (he : s.su.window.find? (fun x => x.ns == n) = some e) : s.choose = some (s.sendAgain e later) := by
  simp [h.choose_eq, State.chooseAgain, hpass, he]

/-- Item 4 of R73, once no pass is left. -/
theorem choose_new {t : State} (hpass : s.su.pass = []) (hn : s.chooseNew = some t) : s.choose = some t := by
  simp [h.choose_eq, State.chooseAgain, hpass, hn]

/-- Item 5 of R73, or nothing, once no pass is left and nothing new may go out. -/
theorem choose_last (hpass : s.su.pass = []) (hn : s.chooseNew = none) : s.choose = s.chooseAck := by
  simp [h.choose_eq, State.chooseAgain, hpass, hn]

end State.PastRej

/-! ### New parcels (item 4 of R73) -/

/-- A new parcel may go out: the session is attached, the window has room, and the host is not busy (R69, R73). -/
structure State.HasRoom (s : State) : Prop where
  link : s.su.link = .attached
  window : s.su.window.length < s.su.effWindow
  hostBusy : s.su.hostBusy = false

/-- The first item of new parcels: the oldest Answered response, whose slot is released (R73, R90). -/
theorem State.HasRoom.chooseNew_response {s : State} (h : s.HasRoom) {i : Nat} (ho : s.oldestAnswered = some i) :
    s.chooseNew = some ((s.sendNew .rsp (s.slot i).tag (s.slot i).response).releaseSlot i) := by
  simp [State.chooseNew, State.isAttached, h.link, h.window, h.hostBusy, ho]

/-- With no response to send, the oldest undelivered record goes out as a notice (R73, R186). -/
theorem State.HasRoom.chooseNew_notice {s : State} (h : s.HasRoom) {rec : LogRecord} (ho : s.oldestAnswered = none)
    (hw : s.su.noticesWanted = true) (hrec : s.noticeCandidate = some rec) :
    s.chooseNew = some ((s.sendNew (.ntc rec.serial) rec.noticeTag rec.octets).markInFlight rec.serial) := by
  simp [State.chooseNew, State.isAttached, h.link, h.window, h.hostBusy, ho, hw, hrec]

/-- A full window, a busy host, or neither a response nor a notice: nothing new goes out (R69, R73). -/
theorem State.chooseNew_none (s : State)
    (h : s.su.effWindow ≤ s.su.window.length ∨ s.su.hostBusy = true ∨
      (s.oldestAnswered = none ∧ (s.su.noticesWanted = false ∨ s.eu.log.all (fun x => x.inFlight) = true))) :
    s.chooseNew = none := by
  unfold State.chooseNew
  split
  case isFalse => rfl
  case isTrue hroom =>
    simp only [Bool.and_eq_true, decide_eq_true_eq, Bool.not_eq_true'] at hroom
    obtain ⟨⟨-, hwindow⟩, hbusy⟩ := hroom
    rcases h with hfull | hhost | ⟨ho, hquiet⟩
    · omega
    · rw [hhost] at hbusy
      cases hbusy
    · rw [ho]
      rcases hquiet with hw | hall
      · simp [hw]
      · have hnone : s.noticeCandidate = none := by
          simpa [State.noticeCandidate] using hall
        simp [hnone]

/-- A DETACHED device sends nothing new, and no ACK (R73). -/
theorem State.chooseNew_detached (s : State) (h : s.su.link = .detached) : s.chooseNew = none := by
  simp [State.chooseNew, State.isAttached, h]

theorem State.chooseAck_detached (s : State) (h : s.su.link = .detached) : s.chooseAck = none := by
  simp [State.chooseAck, State.isAttached, h]

/-- An ACK that is owed, or a busy note, goes out (R73, R74). -/
theorem State.chooseAck_owed (s : State) (ha : s.su.link = .attached)
    (h : s.su.ackOwed = true ∨ s.su.busyNotePending = true) : s.chooseAck = some s.sendAck :=
  if_pos (by simpa [State.isAttached, ha] using h)

theorem State.chooseAck_none (s : State) (h : s.su.ackOwed = false) (hn : s.su.busyNotePending = false) :
    s.chooseAck = none := by
  simp [State.chooseAck, h, hn]

/-- The slot of a response that has joined the window is Free, and a reported busy becomes a busy note (R64, R90). -/
theorem SessionUnit.noted_attached (u : SessionUnit) (h : u.link = .attached) :
    u.noted = { u with busyReported := false, busyNotePending := u.busyNotePending || u.busyReported } := by
  by_cases hb : u.busyReported = true
  · simp [SessionUnit.noted, h, hb]
  · have hclear := Bool.eq_false_iff.2 hb
    rw [SessionUnit.noted, if_neg (by simp [hclear]), hclear, Bool.or_false, ← hclear]

/-- Settles O56: each clause is the first item of R73 that is available, chosen by the Free transmitter. -/
theorem transmitterSelects : Obligations.TransmitterSelects := by
  unfold Obligations.TransmitterSelects
  intro s r rest n later e i rec ht hf
  dsimp only
  rw [← s.characterTime_table]
  have hexec {t : Option State} := exec_transmitterFree_chooses s ht hf (t := t)
  refine ⟨fun hh => ?_, fun hh hr => hexec hh (State.choose_reply _ hr),
    fun hh hr hj => hexec hh (State.choose_rej _ hr hj), fun ⟨hh, hr, hj⟩ hp he => ?_,
    fun ⟨hh, hr, hj⟩ hp ⟨ha, hw, hb⟩ ho => ?_, fun ⟨hh, hr, hj⟩ hp ⟨ha, hw, hb⟩ ho hn hrec => ?_,
    fun ⟨hh, hr, hj⟩ hp ha hn howed => ?_, fun ⟨hh, hr, hj⟩ hp ha hn hack hnote => ?_,
    fun ⟨hh, hr, hj⟩ hp hd => ?_⟩
  · rw [exec_transmitterFree_finished s ht hf, s.freeTransmitter.select_held hh]
    rfl
  · rw [hexec hh (State.PastRej.choose_again ⟨hr, hj⟩ hp he)]
    cases hk : e.kind <;> rw [State.sendAgain, hk] <;> rfl
  · have hroom : s.freeTransmitter.HasRoom := ⟨ha, hw, hb⟩
    rw [hexec hh (State.PastRej.choose_new ⟨hr, hj⟩ hp (hroom.chooseNew_response ho)), State.releaseSlot_eq,
      SessionUnit.noted_attached _ (by exact ha)]
    rfl
  · have hroom : s.freeTransmitter.HasRoom := ⟨ha, hw, hb⟩
    exact hexec hh (State.PastRej.choose_new ⟨hr, hj⟩ hp (hroom.chooseNew_notice ho hn hrec))
  · have hack := s.freeTransmitter.chooseAck_owed ha howed
    exact hexec hh ((State.PastRej.choose_last ⟨hr, hj⟩ hp (State.chooseNew_none _ hn)).trans hack)
  · have hsilent := s.freeTransmitter.chooseAck_none hack hnote
    exact hexec hh ((State.PastRej.choose_last ⟨hr, hj⟩ hp (State.chooseNew_none _ hn)).trans hsilent)
  · have hsilent := s.freeTransmitter.chooseAck_detached hd
    exact hexec hh ((State.PastRej.choose_last ⟨hr, hj⟩ hp (State.chooseNew_detached _ hd)).trans hsilent)

end Sys2Proof.Machine
end

