-- ==== Sys2Proof/Proofs/StaticChecks.lean ====
section
/-!
PROOFS. The form check of R84 against the lengths of the request code table, and the static checks of R85 against the
limits their rules give. Settles O30.
-/

namespace Sys2Proof.Machine

/-! ### The form check (R84) -/

/-- The shortest payload of each code of the request code table (section 5.1). -/
def shortestForm : List Nat := [0, 5, 6, 7, 2, 1, 1, 1, 2, 2, 2, 1, 3, 1, 3, 13, 2, 1, 4, 2, 1]

/-- The longest payload of each code of the request code table (section 5.1). -/
def longestForm : List Nat := [0, 5, 69, 7, 17, 1, 1, 1, 2, 2, 2, 1, 3, 1, 17, 13, 2, 1, 4, 2, 65]

/-- A code of the table, a length from its shortest to its longest, and for CONFIG_SET whole pairs (R84, R202). -/
theorem formOk_iff (payload : List Byte) :
    formOk payload = true ↔ payload ≠ [] ∧ 1 ≤ (payload.headD 0).toNat ∧ (payload.headD 0).toNat ≤ 20 ∧
      shortestForm.getD (payload.headD 0).toNat 0 ≤ payload.length ∧
      payload.length ≤ longestForm.getD (payload.headD 0).toNat 0 ∧
      ((payload.headD 0).toNat = 14 → payload.length % 2 = 1) := by
  cases payload with
  | nil => simp [formOk]
  | cons code rest =>
    simp only [formOk, List.headD_cons, ne_eq, reduceCtorEq, not_false_eq_true, true_and]
    generalize (code :: rest).length = l
    generalize code.toNat = n
    by_cases hn : 1 ≤ n ∧ n ≤ 20
    · obtain ⟨h1, h20⟩ := hn
      interval_cases n <;> simp [shortestForm, longestForm] <;> omega
    · split <;> simp_all

/-! ### The static checks (R85) -/

/-- A span starts in the array where it ends in it, for a span of one octet or more (R109). -/
theorem spanInArray_iff {addr n : Nat} (h : n ≠ 0) : spanInArray addr n = true ↔ addr + n ≤ 524288 := by
  unfold spanInArray arraySize
  simp only [Bool.and_eq_true, decide_eq_true_eq]
  omega

/-- The range check of a span of one octet or more (R109, R115, R123). -/
theorem spanRefused_eq {addr n : Nat} (h : n ≠ 0) :
    (if spanInArray addr n then none else some (Status.range, ([] : List Byte))) =
      if 524288 < addr + n then some (.range, []) else none := by
  by_cases hle : addr + n ≤ 524288
  · rw [if_pos ((spanInArray_iff h).2 hle), if_neg (by omega)]
  · rw [if_neg (hle ∘ (spanInArray_iff h).1), if_pos (by omega)]

theorem staticCheck_read (addr : Word24) (count : Byte) :
    staticCheck (.read addr count) =
      if count.toNat = 0 ∨ 64 < count.toNat then some (.badParam, [])
      else if 524288 < addr.toNat + count.toNat then some (.range, [])
      else none := by
  show readCheck addr count = _
  unfold readCheck
  split
  · rfl
  · exact spanRefused_eq (by omega)

theorem staticCheck_program (mode : Byte) (addr : Word24) (data : List Byte) :
    staticCheck (.program mode addr data) =
      if 2 < mode.toNat then some (.badParam, [])
      else if 524288 ≤ addr.toNat ∨ 256 < addr.toNat % 256 + data.length then some (.range, [])
      else none := by
  rw [ite_or]
  rfl

theorem staticCheck_checkRegion (addr len : Word24) :
    staticCheck (.checkRegion addr len) =
      if len.toNat = 0 ∨ 524288 < len.toNat then some (.badParam, [])
      else if 524288 < addr.toNat + len.toNat then some (.range, [])
      else none := by
  show checkRegionCheck addr len = _
  unfold checkRegionCheck arraySize
  split
  · rfl
  · exact spanRefused_eq (by omega)

/-- A check that allows what is not bad, in the words of its negation. -/
theorem allowed_eq_refused {ok : Prop} [Decidable ok] {bad : Bool} (h : bad = true ↔ ¬ok) :
    (if ok then none else some (Status.badParam, ([] : List Byte))) = if bad then some (.badParam, []) else none := by
  by_cases hok : ok
  · rw [if_pos hok, if_neg (fun hb => h.1 hb hok)]
  · rw [if_neg hok, if_pos (h.2 hok)]

/-- The lowest value of each field of the configuration record (section 10.1). -/
def lowestValue : List Nat := [0, 2, 1, 0, 0, 0, 0, 1, 1, 0, 0, 0]

/-- The highest value of each field of the configuration record (section 10.1). -/
def highestValue : List Nat := [7, 255, 15, 60, 255, 250, 1, 8, 50, 1, 1, 255]

/-- A value of a field lies below its lowest value or above its highest. -/
def outsideField (k v : Nat) : Bool := v < lowestValue.getD k 0 || highestValue.getD k 0 < v

/-- A field's range, by its lowest and its highest value (section 10.1). -/
theorem fieldInRange_eq {k : Nat} (hk : k < 12) (v : Byte) : fieldInRange k v = !outsideField k v.toNat := by
  have hv := v.isLt
  interval_cases k <;> simp [fieldInRange, outsideField, lowestValue, highestValue] <;> grind

/-- A pair of CONFIG_SET fails for the fields 0 and 11, for a number past the record, and for a value out of range
(R202). -/
theorem pairBad_eq (p : Byte × Byte) :
    pairBad p = (p.1.toNat == 0 || decide (10 < p.1.toNat) || outsideField p.1.toNat p.2.toNat) := by
  by_cases hk : p.1.toNat < 12
  · rw [pairBad, fieldInRange_eq hk]
    grind
  · grind [pairBad]

/-- The first field out of range is the first octet of the record that its field's range does not hold (R204). -/
theorem firstBadField_eq (i : Nat) (os : List Byte) :
    firstBadField i os = ((List.range os.length).find? (fun k => !fieldInRange (i + k) (os.getD k 0))).map (i + ·) := by
  induction os generalizing i with
  | nil => rfl
  | cons v rest ih =>
    cases hv : fieldInRange i v with
    | true =>
      simp [firstBadField, hv, ih, List.range_succ_eq_map, List.find?_map, Function.comp_def, Nat.add_assoc,
        Nat.add_comm 1]
    | false => simp [firstBadField, hv, List.range_succ_eq_map]

theorem staticCheck_configSet (pairs : List (Byte × Byte)) :
    staticCheck (.configSet pairs) =
      (pairs.findIdx? (fun p =>
        p.1.toNat == 0 || decide (10 < p.1.toNat) || outsideField p.1.toNat p.2.toNat)).map
          (fun n => (.badParam, [octet n])) := by
  show configSetCheck pairs = _
  rw [configSetCheck, funext pairBad_eq]
  split <;> simp_all only [Option.map_some, Option.map_none]

theorem staticCheck_configStore (record : Settings) :
    staticCheck (.configStore record) = ((List.range 12).find? (fun k =>
      outsideField k (record.octets.getD k 0).toNat)).map (fun n => (.badParam, [octet n])) := by
  have hfind : firstBadField 0 record.octets =
      (List.range 12).find? (fun k => outsideField k (record.octets.getD k 0).toNat) := by
    have hfirst := firstBadField_eq 0 record.octets
    simp only [Nat.zero_add, Option.map_id'] at hfirst
    rw [hfirst]
    exact List.find?_congr fun k hk => by rw [fieldInRange_eq (List.mem_range.1 hk), Bool.not_not]
  show configStoreCheck record = _
  rw [configStoreCheck, hfind]
  cases (List.range 12).find? (fun k => outsideField k (record.octets.getD k 0).toNat) <;> rfl

theorem staticCheck_status (flags : Byte) :
    staticCheck (.status flags) = if 1 < flags.toNat then some (.badParam, []) else none := by
  have hbits : ∀ b : Byte, b &&& 0xFE = 0 ↔ ¬1 < b.toNat := by decide
  show statusCheck flags = _
  simp only [statusCheck, hbits, ite_not]

/-- Settles O30: the form check from the table of lengths, then each request's check from its limits. -/
theorem staticChecks : Obligations.StaticChecks := by
  unfold Obligations.StaticChecks
  intro payload data sectors pairs record addr len count mode b w mask
  dsimp only
  refine ⟨formOk_iff payload, staticCheck_read addr count, staticCheck_program mode addr data,
    staticCheck_checkRegion addr len, ?_, ?_, ?_, ?_, staticCheck_configStore record, ?_, ?_, ?_, rfl⟩
  · exact allowed_eq_refused (by simp [sectorCount]; grind)
  · exact allowed_eq_refused (by simp [sectorCount]; omega)
  · exact allowed_eq_refused (by simp; omega)
  · exact staticCheck_configSet pairs
  · simpa using staticCheck_status b
  · exact allowed_eq_refused (by simp)
  · exact allowed_eq_refused (by simp; omega)

end Sys2Proof.Machine
end

