-- ==== Sys2Proof/Proofs/Acceptance.lean ====
section
/-!
PROOFS. The acceptance of the next request (sections 5.2 and 5.3): the checks in the order of R91, the answer each gives,
and the end of the service queue for a queued request that passes them. Settles O31 and O42.
-/

namespace Sys2Proof.Machine

/-! ### The request that is next (R60, R62) -/

/-- The next request of an attached session is heard with a valid Nr, and the Free slot with place `i` is there for it. -/
structure State.Admits (s : State) (h : ParcelHead) (i : Nat) : Prop where
  hears : s.hears = true
  link : s.su.link = .attached
  nr : (h.nr - s.su.va).toNat ≤ (s.su.vs - s.su.va).toNat
  ns : h.ns = s.su.vr
  freeSlot : s.freeSlot = some i

/-- A request is taken when it is admitted and no other slot holds its tag (R92). -/
theorem State.takes_iff (s : State) (h : ParcelHead) (i : Nat) :
    s.takes h i = true ↔ s.Admits h i ∧ s.tagInUse i h.tag = false := by
  simp only [State.takes, State.isAttached, Bool.and_eq_true, beq_iff_eq, Bool.not_eq_true', s.nrValid_iff]
  constructor
  · rintro ⟨⟨⟨⟨⟨hh, hl⟩, hn⟩, hv⟩, hf⟩, ht⟩
    exact ⟨⟨hh, hl, hn, hv, hf⟩, ht⟩
  · rintro ⟨⟨hh, hl, hn, hv, hf⟩, ht⟩
    exact ⟨⟨⟨⟨⟨hh, hl⟩, hn⟩, hv⟩, hf⟩, ht⟩

/-- An admitted request comes to its acceptance in the hand-over state, and then its step ends (R59 to R62, R91). -/
theorem State.Admits.exec_eq {s : State} {h : ParcelHead} {i : Nat} (ha : s.Admits h i) {c : Instr} {r : Request}
    (hc : requestOf c = some (h, r)) :
    exec c s = .next (s.atEnd h ((s.beforeAcceptance h).accept i h.tag r (staticCheck r) r.service)) := by
  have hat : s.delivered.isAttached = true := State.isAttached_of_link ha.link
  obtain ⟨-, -, -, hvr, -, hrd, -, -⟩ := s.handedOver_facts h.nr
  have hd : (h.ns - (s.delivered.touchKeepalive.acknowledge h.nr).su.vr).toNat = 0 := by
    rw [hvr, ha.ns, seq_sub_eq_zero]
  have hfree : (s.delivered.touchKeepalive.acknowledge h.nr).freeSlot = some i := by
    rw [State.freeSlot, hrd]
    exact ha.freeSlot
  rw [exec_request_heard s h ha.hears hc, State.receiveRequest, if_pos hat, s.withNr_delivered h _ ha.nr,
    State.classify]
  simp only [if_pos hd, hfree]
  rfl

/-- The slot of an admitted request is Free, and one of the list in the hand-over state. -/
theorem State.Admits.slot {s : State} {h : ParcelHead} {i : Nat} (ha : s.Admits h i) :
    (s.slot i).state = .free ∧ i < (s.beforeAcceptance h).rd.slots.length := by
  refine ⟨s.slot_freeSlot ha.freeSlot, ?_⟩
  rw [(s.beforeAcceptance_frame h).1]
  exact s.freeSlot_lt ha.freeSlot

/-! ### The checks in their order (R91) -/

section Checks

variable (s : State) {i : Nat} {tag : Byte} {r : Request} (check : Option (Status × List Byte)) (service : Service)

/-- A tag held by another slot is answered DUPLICATE_TAG before all else (R92). -/
theorem State.accept_duplicate (hi : i < s.rd.slots.length) (ht : s.tagInUse i tag = true) :
    s.accept i tag r check service = s.withAnswer i tag r [r.code, 21] := by
  unfold State.accept
  rw [if_pos ht, s.answer_takeSlot i tag r _ _ hi]
  rfl

/-- A payload that fails the form check is answered BAD_REQUEST (R84). -/
theorem State.accept_badForm (hi : i < s.rd.slots.length) (ht : s.tagInUse i tag = false)
    (hf : formOk r.payload = false) : s.accept i tag r check service = s.withAnswer i tag r [r.code, 1] := by
  unfold State.accept
  rw [if_neg (by simp [ht]), if_pos (by simp [hf]), s.answer_takeSlot i tag r _ _ hi]
  rfl

/-- A static check that fails answers with its status and result octets (R85). -/
theorem State.accept_refused (hi : i < s.rd.slots.length) (ht : s.tagInUse i tag = false)
    (hf : formOk r.payload = true) (st : Status) (results : List Byte) :
    s.accept i tag r (some (st, results)) service = s.withAnswer i tag r (r.code :: st.code :: results) := by
  simp only [State.accept, ht, hf, Bool.false_eq_true, Bool.not_true, if_false]
  exact s.answer_takeSlot i tag r st results hi

/-- A request that passes the checks is served in the slot it has taken (R93, R94). -/
theorem State.accept_served (ht : s.tagInUse i tag = false) (hf : formOk r.payload = true) :
    s.accept i tag r none service = service i (s.takeSlot i tag r) := by
  simp only [State.accept, ht, hf, Bool.false_eq_true, Bool.not_true, if_false]

end Checks

/-- Settles O31: an admitted request comes to its acceptance, and each check answers there. A request with no entry in
the table fails the form check, or is answered BAD_REQUEST by its execution. -/
theorem requestsRefusedAtAcceptance : Obligations.RequestsRefusedAtAcceptance := by
  unfold Obligations.RequestsRefusedAtAcceptance
  intro s c h r i st results payload hh hl hnr hns hf hc
  have ha : s.Admits h i := ⟨hh, hl, hnr, hns, hf⟩
  have hi := ha.slot.2
  rw [ha.exec_eq hc, State.answers, State.answers, State.answers, State.answers, ← s.tagInUse_beforeAcceptance h]
  refine ⟨fun ht => ?_, fun ht hform => ?_, fun ht hform hs => ?_, fun ht hu => ?_⟩
  · rw [State.accept_duplicate _ _ _ hi ht]
  · rw [State.accept_badForm _ _ _ hi ht hform]
  · rw [hs, State.accept_refused _ _ hi ht hform]
  · subst hu
    cases hc
    cases hform : formOk (Request.unknown payload).payload with
    | false => rw [State.accept_badForm _ _ _ hi ht hform]; rfl
    | true =>
      rw [show staticCheck (.unknown payload) = none from rfl, State.accept_served _ _ ht hform]
      exact congrArg (fun t => Host.Outcome.next (s.atEnd h t)) (State.answer_takeSlot _ _ _ _ _ _ hi)

/-! ### Queued requests (R94) -/

/-- A queued request has joined the end of the service queue, in the slot it has taken (R94). -/
def State.linedUp (s : State) (i : Nat) (tag : Byte) (r : Request) : State :=
  let t := s.withSlot i .queued tag r
  { t with rd := { t.rd with queue := s.rd.queue ++ [i] } }

/-- The service of a queued request lines it up, and examines the head if the queue was empty (R94, R96). -/
theorem enqueue_takeSlot (s : State) {i : Nat} (tag : Byte) (r : Request) (hi : i < s.rd.slots.length) :
    enqueue i (s.takeSlot i tag r) =
      if s.rd.queue = [] then (s.linedUp i tag r).examine else s.linedUp i tag r := by
  have hslot : (s.takeSlot i tag r).slot i = { state := .answered, tag := tag, request := r } :=
    s.slot_setSlot_same _ hi
  have hlined : (s.takeSlot i tag r).setSlotState i .queued = s.withSlot i .queued tag r := by
    rw [State.setSlotState, hslot]
    simp [State.takeSlot, State.setSlot, State.withSlot]
  simp only [enqueue, hlined]
  rfl

theorem Request.service_of_queuedKind {r : Request} (h : r.queuedKind = true) : r.service = enqueue := by
  cases r with
  | read | program | checkRegion | eraseSectors | eraseAll | protectGroup | unprotectAll | configStore => rfl
  | _ => cases h

/-- A taken request that passes its form and static checks is served in the hand-over state (R91). -/
theorem exec_served {s : State} {h : ParcelHead} {i : Nat} (ht : s.takes h i = true) {c : Instr} {r : Request}
    (hc : requestOf c = some (h, r)) (hf : formOk r.payload = true) (hs : staticCheck r = none) :
    exec c s = .next (s.atEnd h (r.service i ((s.beforeAcceptance h).takeSlot i h.tag r))) := by
  obtain ⟨ha, htag⟩ := (s.takes_iff h i).1 ht
  rw [ha.exec_eq hc, hs, State.accept_served _ _ ((s.tagInUse_beforeAcceptance h i h.tag).trans htag) hf]

/-- A taken queued request that passes its static checks is lined up, and the head is examined if the queue was empty
(R94, R96). -/
theorem exec_queued {s : State} {h : ParcelHead} {i : Nat} (ht : s.takes h i = true) {c : Instr} {r : Request}
    (hc : requestOf c = some (h, r)) (hk : r.queuedKind = true) (hf : formOk r.payload = true)
    (hs : staticCheck r = none) :
    exec c s = .next (s.atEnd h
      (if s.rd.queue = [] then ((s.beforeAcceptance h).linedUp i h.tag r).examine
        else (s.beforeAcceptance h).linedUp i h.tag r)) := by
  rw [exec_served ht hc hf hs, Request.service_of_queuedKind hk, enqueue_takeSlot _ _ _ (s.takes_lt ht),
    (s.beforeAcceptance_frame h).1]

/-- Settles O42: behind others a request is lined up, and no head is examined. -/
theorem queuedRequestsWait : Obligations.QueuedRequestsWait := by
  unfold Obligations.QueuedRequestsWait
  intro s c h r i ht hc hk hf hs hq
  rw [exec_queued ht hc hk hf hs, if_neg hq, State.linedUp, (s.beforeAcceptance_frame h).1]

end Sys2Proof.Machine
end

