-- ==== Sys2Proof/Proofs/RequestStarts.lean ====
section
/-!
PROOFS. A queued request on an empty queue is the head of its own acceptance (sections 5.4 and 7.6): it starts in it, or
is refused with the first dynamic check that fails, or refused beside a batch. Settles O43, O44 and O45.
-/

namespace Sys2Proof.Machine

/-! ### What the dynamic checks and the start of an operation read -/

/-- Step 5 of R119, octet by octet: some octet of the data has a 1 where the array holds a 0. -/
theorem State.wouldNeedErase_eq_any (s : State) (addr i : Nat) (data : List Byte) :
    s.wouldNeedErase addr i data =
      (List.range data.length).any (fun k => data.getD k 0 &&& ~~~(s.array.read (addr + (i + k))) != 0) := by
  induction data generalizing i with
  | nil => rfl
  | cons d rest ih =>
    simp only [State.wouldNeedErase, ih, List.length_cons, List.range_succ_eq_map, List.any_cons, List.any_map,
      Function.comp_def, List.getD_cons_zero, List.getD_cons_succ, Nat.add_zero, Nat.succ_eq_add_one, Nat.add_assoc,
      Nat.add_comm 1]

section Equations

variable (s : State) (i : Nat) (addr len : Word24) (count mode group : Byte) (data : List Byte) (record : Settings)

theorem State.dynamicCheck_read : s.dynamicCheck (.read addr count) =
    if s.touchesBatch addr.toNat count.toNat then some .sectorInErase else none := rfl

theorem State.dynamicCheck_checkRegion : s.dynamicCheck (.checkRegion addr len) =
    if s.touchesBatch addr.toNat len.toNat then some .sectorInErase else none := rfl

theorem State.dynamicCheck_program : s.dynamicCheck (.program mode addr data) =
    if s.touchesBatch addr.toNat data.length then some .sectorInErase
    else if s.ae.supplyLow then some .supplyLow
    else if (s.entry (addr.toNat / 8192)).condition ≠ .normal then some .sectorNeedsErase
    else if s.isProtected (addr.toNat / 8192) then some .protected_
    else if s.strictMode mode && s.wouldNeedErase addr.toNat 0 data then some .wouldNeedErase
    else none := rfl

theorem State.dynamicCheck_protectGroup : s.dynamicCheck (.protectGroup group) =
    if s.bc.state ≠ .none then some .eraseBusy
    else if s.ae.supplyLow then some .supplyLow
    else if !s.pu.maintLevel then some .maintRequired
    else none := rfl

theorem State.dynamicCheck_unprotectAll : s.dynamicCheck .unprotectAll =
    if s.bc.state ≠ .none then some .eraseBusy
    else if s.ae.supplyLow then some .supplyLow
    else if !s.pu.maintLevel then some .maintRequired
    else if s.pu.lockMask ≠ 0 then some .locked
    else none := rfl

theorem State.dynamicCheck_configStore : s.dynamicCheck (.configStore record) =
    if s.ae.supplyLow then some .supplyLow else none := rfl

theorem State.startEngine_read : s.startEngine i (.read addr count) =
    .reading { slot := i, addr := addr.toNat, count := count.toNat,
               condition := s.conditionOctet addr.toNat count.toNat } := rfl

theorem State.startEngine_program : s.startEngine i (.program mode addr data) =
    .programming { slot := i, addr := addr.toNat, data := data, strict := s.strictMode mode } := rfl

theorem State.startEngine_checkRegion : s.startEngine i (.checkRegion addr len) =
    .checking { slot := i, addr := addr.toNat, len := len.toNat, next := addr.toNat, crc := 0xFFFF,
                condition := s.conditionOctet addr.toNat len.toNat } := rfl

theorem State.startEngine_configStore : s.startEngine i (.configStore record) =
    .storing (.config i record s.cs.inactive s.cs.nextGeneration .clearMark) := rfl

end Equations

/-- Two states that a request's start does not tell apart: what the dynamic checks and the operation records read is the
same. -/
structure State.SameForStart (s t : State) : Prop where
  bc : t.bc = s.bc
  ae : t.ae = s.ae
  array : t.array = s.array
  ledger : t.ledger = s.ledger
  pu : t.pu = s.pu
  cs : t.cs = s.cs

namespace State.SameForStart
variable {s t : State} (h : s.SameForStart t)
include h

theorem touchesBatch (addr n : Nat) : t.touchesBatch addr n = s.touchesBatch addr n := by
  rw [State.touchesBatch, State.touchesBatch, h.bc]

theorem headKind (r : Request) : t.headKind r = s.headKind r := by
  cases r <;> simp only [State.headKind, h.touchesBatch]

theorem entry (k : Nat) : t.entry k = s.entry k := by
  rw [State.entry, State.entry, h.ledger]

theorem isProtected (k : Nat) : t.isProtected k = s.isProtected k := by
  rw [State.isProtected, State.isProtected, h.pu]

theorem strictMode (mode : Byte) : t.strictMode mode = s.strictMode mode := by
  rw [State.strictMode, State.strictMode, h.cs]

theorem wouldNeedErase (addr i : Nat) (data : List Byte) :
    t.wouldNeedErase addr i data = s.wouldNeedErase addr i data := by
  simp only [State.wouldNeedErase_eq_any, h.array]

theorem dynamicCheck (r : Request) : t.dynamicCheck r = s.dynamicCheck r := by
  cases r with
  | read => rw [State.dynamicCheck_read, State.dynamicCheck_read, h.touchesBatch]
  | checkRegion => rw [State.dynamicCheck_checkRegion, State.dynamicCheck_checkRegion, h.touchesBatch]
  | program =>
    rw [State.dynamicCheck_program, State.dynamicCheck_program, h.touchesBatch, h.ae, h.entry, h.isProtected,
      h.strictMode, h.wouldNeedErase]
  | protectGroup => rw [State.dynamicCheck_protectGroup, State.dynamicCheck_protectGroup, h.bc, h.ae, h.pu]
  | unprotectAll => rw [State.dynamicCheck_unprotectAll, State.dynamicCheck_unprotectAll, h.bc, h.ae, h.pu]
  | configStore => rw [State.dynamicCheck_configStore, State.dynamicCheck_configStore, h.ae]
  | _ => rfl

theorem conditionOctet (addr n : Nat) : t.conditionOctet addr n = s.conditionOctet addr n := by
  simp only [State.conditionOctet, h.entry]

theorem startEngine (i : Nat) (r : Request) : t.startEngine i r = s.startEngine i r := by
  cases r with
  | read => rw [State.startEngine_read, State.startEngine_read, h.conditionOctet]
  | program => rw [State.startEngine_program, State.startEngine_program, h.strictMode]
  | checkRegion => rw [State.startEngine_checkRegion, State.startEngine_checkRegion, h.conditionOctet]
  | configStore => rw [State.startEngine_configStore, State.startEngine_configStore, h.cs]
  | protectGroup | unprotectAll => rfl
  | _ => exact congrArg ArrayEngine.engine h.ae

end State.SameForStart

/-! ### The head of its own acceptance -/

/-- A look that stops ends the examination (R97). -/
theorem examineFor_stop {s t : State} (n : Nat) (h : s.lookAtHead = .stop t) : examineFor (n + 1) s = t := by
  simp only [examineFor, h]

/-- A look that goes on leaves the rest of the examination (R97). -/
theorem examineFor_again {s t : State} (n : Nat) (h : s.lookAtHead = .again t) :
    examineFor (n + 1) s = examineFor n t := by
  simp only [examineFor, h]

/-- An empty queue with no yield to end stops the examination (R96, R153). -/
theorem State.lookAtHead_empty (s : State) (hq : s.rd.queue = [])
    (hb : ¬(s.bc.state = .yielded ∧ s.ae.engine = .idle)) : s.lookAtHead = .stop s := by
  have hn : (decide (s.bc.state = .yielded) && s.engineIdle) = false := by
    simpa [State.engineIdle, ← Bool.not_eq_true] using hb
  simp [State.lookAtHead, State.head, hq, hn]

theorem State.sameForStart_linedUp (s : State) (i : Nat) (tag : Byte) (r : Request) :
    s.SameForStart (s.linedUp i tag r) := ⟨rfl, rfl, rfl, rfl, rfl, rfl⟩

section Alone

variable {s : State} {i : Nat} {tag : Byte} {r : Request} (hi : i < s.rd.slots.length) (hq : s.rd.queue = [])
include hi

/-- The slot of the request lined up. -/
theorem State.slot_linedUp : (s.linedUp i tag r).slot i = { state := .queued, tag := tag, request := r } :=
  s.slot_setSlot_same _ hi

/-- The dynamic checks of the request lined up are those of the state it came to. -/
theorem State.dynamicCheck_linedUp :
    (s.linedUp i tag r).dynamicCheck ((s.linedUp i tag r).slot i).request = s.dynamicCheck r := by
  rw [State.slot_linedUp hi]
  exact (s.sameForStart_linedUp i tag r).dynamicCheck r

include hq

/-- The head alone in the queue starts: its slot Running, the queue empty, the operation with the engine (R98). -/
theorem State.startHead_linedUp :
    (s.linedUp i tag r).startHead i =
      { s.withSlot i .running tag r with ae := { s.ae with engine := s.startEngine i r } } := by
  have hengine : (s.linedUp i tag r).startEngine i r = s.startEngine i r :=
    (s.sameForStart_linedUp i tag r).startEngine i r
  have hslot : ((s.linedUp i tag r).unqueue i).slot i = { state := .queued, tag := tag, request := r } :=
    State.slot_linedUp hi
  simp only [State.startHead, State.setSlotState, hslot, State.slot_linedUp hi, hengine]
  simp [State.setSlot, State.unqueue, State.linedUp, State.withSlot, hq]

/-- The head alone in the queue is refused: its slot answered, the queue empty, all else as it was (R98). -/
theorem State.refuseHead_linedUp (st : Status) :
    (s.linedUp i tag r).refuseHead i st = s.withAnswer i tag r [r.code, st.code] := by
  have hslot : ((s.linedUp i tag r).unqueue i).slot i = { state := .queued, tag := tag, request := r } :=
    State.slot_linedUp hi
  simp only [State.refuseHead, State.answer, hslot]
  simp [State.setSlot, State.unqueue, State.linedUp, State.withSlot, State.withAnswer, hq, responseOf]

/-- A refusal of the head alone in the queue ends the examination, if no yield is to end (R97). -/
theorem State.examine_linedUp_again {st : Status}
    (hlook : (s.linedUp i tag r).lookAtHead = .again ((s.linedUp i tag r).refuseHead i st))
    (hb : ¬(s.bc.state = .yielded ∧ s.ae.engine = .idle)) :
    (s.linedUp i tag r).examine = s.withAnswer i tag r [r.code, st.code] := by
  rw [State.refuseHead_linedUp hi hq] at hlook
  exact (examineFor_again _ hlook).trans (examineFor_stop _ (State.lookAtHead_empty _ hq hb))

/-- The head alone in the queue, with no batch and an Idle engine, meets its dynamic checks (R98). -/
theorem State.lookAtHead_linedUp (hb : s.bc.state = .none) (he : s.ae.engine = .idle) (hkind : s.headKind r ≠ .erase) :
    (s.linedUp i tag r).lookAtHead = (s.linedUp i tag r).tryStart i := by
  have hhead : (s.linedUp i tag r).head = some i := by simp [State.head, State.linedUp, hq]
  have hidle : (s.linedUp i tag r).engineIdle = true := (State.engineIdle_iff _).2 he
  have hbatch : (s.linedUp i tag r).bc.state = .none := hb
  have hr : (s.linedUp i tag r).headKind ((s.linedUp i tag r).slot i).request ≠ .erase := by
    rw [State.slot_linedUp hi]
    exact (s.sameForStart_linedUp i tag r).headKind r ▸ hkind
  simp only [State.lookAtHead, hhead, hbatch, State.headNoBatch, hidle, if_true]

/-- Beside a batch that is Erasing or Parked, or Yielded with the engine at work, a head that the batch refuses is
answered so (R148). -/
theorem State.examine_linedUp_beside (hb : s.bc.state = .erasing ∨ s.bc.state = .parked ∨
      (s.bc.state = .yielded ∧ s.ae.engine ≠ .idle)) {st : Status}
    (hk : ∀ t : State, t.refuseKind i (s.headKind r) = some (t.refuseHead i st)) :
    (s.linedUp i tag r).examine = s.withAnswer i tag r [r.code, st.code] := by
  have hhead : (s.linedUp i tag r).head = some i := by simp [State.head, State.linedUp, hq]
  have hkind : (s.linedUp i tag r).refuseKind i ((s.linedUp i tag r).headKind ((s.linedUp i tag r).slot i).request) =
      some ((s.linedUp i tag r).refuseHead i st) := by
    rw [State.slot_linedUp hi]
    exact (s.sameForStart_linedUp i tag r).headKind r ▸ hk _
  have hstate : (s.linedUp i tag r).bc.state = s.bc.state := rfl
  refine State.examine_linedUp_again hi hq ?_ (fun hy => ?_)
  · rcases hb with hb | hb | ⟨hb, -⟩ <;> rw [hb] at hstate
    · simp only [State.lookAtHead, hhead, hstate, State.headErasing, hkind]
    · simp only [State.lookAtHead, hhead, hstate, State.headParked, hkind]
    · simp only [State.lookAtHead, hhead, hstate, State.headYielded, hkind]
  · rcases hb with hb | hb | ⟨-, he⟩
    · simp [hb] at hy
    · simp [hb] at hy
    · exact he hy.2

/-- With no batch, an Idle engine and no other head, the first dynamic check that fails is the answer (R98). -/
theorem State.examine_linedUp_refused (hb : s.bc.state = .none) (he : s.ae.engine = .idle)
    (hkind : s.headKind r ≠ .erase) {st : Status} (hd : s.dynamicCheck r = some st) :
    (s.linedUp i tag r).examine = s.withAnswer i tag r [r.code, st.code] := by
  refine State.examine_linedUp_again hi hq ?_ (fun hy => by simp [hb] at hy)
  rw [State.lookAtHead_linedUp hi hq hb he hkind, State.tryStart, State.dynamicCheck_linedUp hi, hd]

/-- With no batch, an Idle engine, no other head and its dynamic checks passed, the request starts (R98). -/
theorem State.examine_linedUp_starts (hb : s.bc.state = .none) (he : s.ae.engine = .idle)
    (hkind : s.headKind r ≠ .erase) (hd : s.dynamicCheck r = none) :
    (s.linedUp i tag r).examine =
      { s.withSlot i .running tag r with ae := { s.ae with engine := s.startEngine i r } } := by
  refine (examineFor_stop _ ?_).trans (State.startHead_linedUp hi hq)
  rw [State.lookAtHead_linedUp hi hq hb he hkind, State.tryStart, State.dynamicCheck_linedUp hi, hd]

end Alone

/-! ### The acceptance of a request that meets its start -/

theorem State.sameForStart_beforeAcceptance (s : State) (h : ParcelHead) : s.SameForStart (s.beforeAcceptance h) := by
  obtain ⟨-, hae, hbc, hpu, hcs, harray, hledger, -⟩ := s.beforeAcceptance_frame h
  exact ⟨hbc, hae, harray, hledger, hpu, hcs⟩

theorem State.clearWay_iff (s : State) :
    s.clearWay = true ↔ s.bc = {} ∧ s.ae.engine = .idle ∧ s.rd.queue = [] := by
  simp [State.clearWay, State.engineIdle, and_assoc]

/-- Without a batch no span touches one (R115). -/
theorem State.touchesBatch_noBatch (s : State) (h : s.bc = {}) (addr n : Nat) : s.touchesBatch addr n = false := by
  simp [State.touchesBatch, h]

section Taken

variable {s : State} {h : ParcelHead} {i : Nat} (ht : s.takes h i = true) {c : Instr} {r : Request}
  (hc : requestOf c = some (h, r)) (hk : r.queuedKind = true) (hf : formOk r.payload = true)
  (hs : staticCheck r = none)
include ht hc hk hf hs

/-- On an empty queue a request lined up is examined at once (R94). -/
theorem exec_examined (hq : s.rd.queue = []) :
    exec c s = .next (s.atEnd h ((s.beforeAcceptance h).linedUp i h.tag r).examine) := by
  rw [exec_queued ht hc hk hf hs, if_pos hq]

/-- With a clear way and its dynamic checks passed, a request starts in its acceptance (R94, R98). -/
theorem exec_starts (hw : s.clearWay = true) (hkind : s.headKind r ≠ .erase) (hd : s.dynamicCheck r = none) :
    exec c s = .next (s.atEnd h { (s.beforeAcceptance h).withSlot i .running h.tag r with
      ae := { s.ae with engine := s.startEngine i r } }) := by
  obtain ⟨hbc, he, hq⟩ := s.clearWay_iff.1 hw
  have hu := s.sameForStart_beforeAcceptance h
  rw [exec_examined ht hc hk hf hs hq, State.examine_linedUp_starts (s.takes_lt ht)
    (by rw [(s.beforeAcceptance_frame h).1, hq]) (by rw [hu.bc, hbc]) (by rw [hu.ae, he])
    (by rwa [hu.headKind]) (by rwa [hu.dynamicCheck]), hu.startEngine, hu.ae]

/-- With a clear way the first dynamic check that fails is the answer (R98). -/
theorem exec_refused (hw : s.clearWay = true) (hkind : s.headKind r ≠ .erase) {st : Status}
    (hd : s.dynamicCheck r = some st) : exec c s = .next (s.answers h i r [r.code, st.code]) := by
  obtain ⟨hbc, he, hq⟩ := s.clearWay_iff.1 hw
  have hu := s.sameForStart_beforeAcceptance h
  rw [exec_examined ht hc hk hf hs hq, State.examine_linedUp_refused (s.takes_lt ht)
    (by rw [(s.beforeAcceptance_frame h).1, hq]) (by rw [hu.bc, hbc]) (by rw [hu.ae, he])
    (by rwa [hu.headKind]) (by rwa [hu.dynamicCheck]), State.answers]

/-- Beside a batch at work the head that the batch refuses is answered so (R148). -/
theorem exec_refused_beside (hq : s.rd.queue = []) (hb : s.bc.state = .erasing ∨ s.bc.state = .parked ∨
      (s.bc.state = .yielded ∧ s.ae.engine ≠ .idle)) {st : Status}
    (hkind : ∀ t : State, t.refuseKind i (s.headKind r) = some (t.refuseHead i st)) :
    exec c s = .next (s.answers h i r [r.code, st.code]) := by
  have hu := s.sameForStart_beforeAcceptance h
  rw [exec_examined ht hc hk hf hs hq, State.examine_linedUp_beside (s.takes_lt ht)
    (by rw [(s.beforeAcceptance_frame h).1, hq]) (by rwa [hu.bc, hu.ae]) (by rwa [hu.headKind]), State.answers]

end Taken

/-! ### READ, PROGRAM and CHECK_REGION (R115, R118, R119, R123) -/

/-- The condition octet of a span: bit 0 for a Torn sector it touches, bit 1 for a Faulted one (R117). -/
theorem State.conditionOctet_eq (s : State) (addr n : Nat) :
    s.conditionOctet addr n =
      (if (List.range 64).any (fun k => decide (addr / 8192 ≤ k) && decide (k ≤ (addr + n - 1) / 8192) &&
        (s.entry k).condition == .torn) then 1 else 0) +
      (if (List.range 64).any (fun k => decide (addr / 8192 ≤ k) && decide (k ≤ (addr + n - 1) / 8192) &&
        (s.entry k).condition == .faulted) then 2 else 0) := by
  have hbits : ∀ a b : Bool, bitsOctet [a, b] = (if a then 1 else 0) + (if b then 2 else 0) := by decide
  exact hbits _ _

/-- In a strict PROGRAM every octet of the data must be one the array can take without an erase (step 5 of R119). -/
theorem State.wouldNeedErase_eq_false (s : State) (addr : Nat) (data : List Byte) :
    s.wouldNeedErase addr 0 data = false ↔
      (List.range data.length).all (fun k => data.getD k 0 &&& ~~~(s.array.read (addr + k)) == 0) = true := by
  rw [State.wouldNeedErase_eq_any]
  simp

/-- A PROGRAM's payload has the form of the table for 1 to 64 octets of data (R84). -/
theorem formOk_program (mode : Byte) (addr : Word24) {data : List Byte} (h1 : 1 ≤ data.length)
    (h64 : data.length ≤ 64) :
    formOk (Request.program mode addr data).payload = true := by
  rw [formOk_iff]
  simp [Request.payload, Request.code, octets24, shortestForm, longestForm]
  omega

/-- Settles O43: each of the three requests has its checks passed and the way clear, so it starts. -/
theorem arrayRequestsStart : Obligations.ArrayRequestsStart := by
  unfold Obligations.ArrayRequestsStart
  intro s h i addr len count mode data ht hw
  have hfree := s.touchesBatch_noBatch (s.clearWay_iff.1 hw).1
  dsimp only
  refine ⟨fun h1 h64 hspan => ?_, fun hm h1 h64 ha hline hlow hcond hprot hstrict => ?_, fun h1 ha hspan => ?_⟩
  · have hs : staticCheck (.read addr count) = none := by
      rw [staticCheck_read, if_neg (by omega), if_neg (by omega)]
    have hd : s.dynamicCheck (.read addr count) = none := by
      rw [State.dynamicCheck_read, hfree]
      rfl
    rw [exec_starts ht rfl rfl rfl hs hw (by simp [State.headKind, hfree]) hd, s.startEngine_read,
      s.conditionOctet_eq]
  · have hs : staticCheck (.program mode addr data) = none := by
      rw [staticCheck_program, if_neg (by omega), if_neg (by omega)]
    have herase : (s.strictMode mode && s.wouldNeedErase addr.toNat 0 data) = false := by
      cases hmode : s.strictMode mode with
      | false => rfl
      | true => exact (s.wouldNeedErase_eq_false addr.toNat data).2 (hstrict hmode)
    have hd : s.dynamicCheck (.program mode addr data) = none := by
      simp [State.dynamicCheck_program, hfree, hlow, hcond, hprot, herase]
    rw [exec_starts ht rfl rfl (formOk_program mode addr h1 h64) hs hw (by simp [State.headKind, hfree]) hd,
      s.startEngine_program]
    rfl
  · have hs : staticCheck (.checkRegion addr len) = none := by
      rw [staticCheck_checkRegion, if_neg (by omega), if_neg (by omega)]
    have hd : s.dynamicCheck (.checkRegion addr len) = none := by
      rw [State.dynamicCheck_checkRegion, hfree]
      rfl
    rw [exec_starts ht rfl rfl rfl hs hw (by simp [State.headKind, hfree]) hd, s.startEngine_checkRegion,
      s.conditionOctet_eq]

/-! ### PROTECT_GROUP, UNPROTECT_ALL and CONFIG_STORE (R169, R171, R204) -/

/-- Settles O44: each of the three requests has its checks passed and the way clear, so it starts. -/
theorem storeRequestsStart : Obligations.StoreRequestsStart := by
  unfold Obligations.StoreRequestsStart
  intro s h i group record ht hw hlow
  have hnone : s.bc.state = .none := by rw [(s.clearWay_iff.1 hw).1]
  dsimp only
  refine ⟨fun hg hm => ?_, fun hm hl => ?_, fun hall => ?_⟩
  · have hd : s.dynamicCheck (.protectGroup group) = none := by
      simp [State.dynamicCheck_protectGroup, hnone, hlow, hm]
    exact exec_starts ht rfl rfl rfl (if_pos hg) hw (by simp [State.headKind]) hd
  · have hd : s.dynamicCheck .unprotectAll = none := by
      simp [State.dynamicCheck_unprotectAll, hnone, hlow, hm, hl]
    exact exec_starts ht rfl rfl rfl rfl hw (by simp [State.headKind]) hd
  · have hs : staticCheck (.configStore record) = none := by
      rw [staticCheck_configStore, Option.map_eq_none_iff, List.find?_eq_none]
      intro k hk
      have hin := List.all_eq_true.1 hall k hk
      rw [fieldInRange_eq (List.mem_range.1 hk)] at hin
      simpa using hin
    have hd : s.dynamicCheck (.configStore record) = none := by
      rw [State.dynamicCheck_configStore, hlow]
      rfl
    rw [exec_starts ht rfl rfl rfl hs hw (by simp [State.headKind]) hd, s.startEngine_configStore]
    cases hcur : s.cs.current with
    | none => simp only [ConfigStore.inactive, ConfigStore.nextGeneration, hcur]
    | some id => cases id <;> simp only [ConfigStore.inactive, ConfigStore.nextGeneration, hcur, CopyId.other]

/-! ### Refusals at start (R98, R148) -/

/-- A span that touches a sector of a batch's set, by the numbers of the sectors (R109, R115). -/
theorem State.touchesBatch_eq (s : State) (hb : s.bc.state ≠ .none) (addr n : Nat) :
    s.touchesBatch addr n =
      s.bc.set.any (fun e => decide (addr / 8192 ≤ e.1) && decide (e.1 ≤ (addr + n - 1) / 8192)) := by
  simp only [State.touchesBatch, bne_iff_ne.2 hb, Bool.true_and]
  rfl

/-- Settles O45: with a clear way each dynamic check in its order; beside a batch at work by the kind of the head. -/
theorem requestsRefusedAtStart : Obligations.RequestsRefusedAtStart := by
  unfold Obligations.RequestsRefusedAtStart
  intro s c h r i k st group mode count addr len data sectors record ht hc hk hf hs
  dsimp only
  have hrefused (hw : s.clearWay = true) (hkind : s.headKind r ≠ .erase) {st : Status} :=
    exec_refused ht hc hk hf hs hw hkind (st := st)
  refine ⟨fun hw hlow hr => ?_, fun hw hr hst hfail => ?_, fun hw hr hst hfail => ?_, fun hw hr hst hfail => ?_,
    fun hw hr hlow hcond hprot hstrict hkd hbit => ?_, fun ⟨hq, hb⟩ hr => ?_, fun ⟨hq, hb⟩ hr => ?_⟩
  · subst hr
    exact hrefused hw (by simp [State.headKind]) (by rw [State.dynamicCheck_configStore, hlow]; rfl)
  · subst hr
    have hnone : s.bc.state = .none := by rw [(s.clearWay_iff.1 hw).1]
    refine hrefused hw (by simp [State.headKind]) ?_
    subst hst
    rw [State.dynamicCheck_protectGroup, if_neg (by simp [hnone])]
    by_cases hlow : s.ae.supplyLow = true
    · simp [hlow]
    · simp [hlow, hfail.resolve_left hlow]
  · subst hr
    have hnone : s.bc.state = .none := by rw [(s.clearWay_iff.1 hw).1]
    refine hrefused hw (by simp [State.headKind]) ?_
    subst hst
    rw [State.dynamicCheck_unprotectAll, if_neg (by simp [hnone])]
    by_cases hlow : s.ae.supplyLow = true
    · simp [hlow]
    · by_cases hm : s.pu.maintLevel = true
      · simpa [hlow, hm] using (hfail.resolve_left hlow).resolve_left (by simp [hm])
      · simp [hlow, hm]
  · subst hr
    have hfree := s.touchesBatch_noBatch (s.clearWay_iff.1 hw).1
    refine hrefused hw (by simp [State.headKind, hfree]) ?_
    subst hst
    rw [State.dynamicCheck_program, hfree, if_neg (by simp)]
    by_cases hlow : s.ae.supplyLow = true
    · simp [hlow]
    · by_cases hcond : (s.entry (addr.toNat / 8192)).condition = .normal
      · simp [hlow, hcond, (hfail.resolve_left hlow).resolve_left (fun hn => hn hcond)]
      · simp [hlow, hcond]
  · subst hr
    have hfree := s.touchesBatch_noBatch (s.clearWay_iff.1 hw).1
    have herase : s.wouldNeedErase addr.toNat 0 data = true := by
      rw [← Bool.not_eq_false, s.wouldNeedErase_eq_false, List.all_eq_true]
      exact fun hall => hbit (beq_iff_eq.1 (hall k (List.mem_range.2 hkd)))
    refine hrefused hw (by simp [State.headKind, hfree]) (st := .wouldNeedErase) ?_
    have hmode : s.strictMode mode = true := hstrict
    simp [State.dynamicCheck_program, hfree, hlow, hcond, hprot, hmode, herase]
  · have hkind : ∀ t : State, t.refuseKind i (s.headKind r) = some (t.refuseHead i .eraseBusy) := by
      rcases hr with rfl | rfl | rfl | rfl <;> exact fun _ => rfl
    exact exec_refused_beside ht hc hk hf hs hq hb hkind
  · have hne : s.bc.state ≠ .none := by
      rcases hb with hb | hb | ⟨hb, -⟩ <;> simp [hb]
    have htouch : s.headKind r = .touching := by
      rcases hr with ⟨rfl, hr⟩ | ⟨rfl, hr⟩ | ⟨rfl, hr⟩ <;> rw [← s.touchesBatch_eq hne] at hr <;> exact if_pos hr
    exact exec_refused_beside ht hc hk hf hs hq hb (fun _ => by rw [htouch]; rfl)

end Sys2Proof.Machine
end

