-- ==== Sys2Proof/Proofs/Responses.lean ====
section
/-!
PROOFS. The response that is offered (R89, R101): the search over the slots keeps the oldest Answered one of those it has
seen. Settles O57.
-/

namespace Sys2Proof.Machine

/-- Of the first `n` slots this one is Answered and none is older; or none of them is Answered (R89). -/
def State.OldestOf (s : State) (n : Nat) : Option Nat → Prop
  | none => ∀ j < n, (s.slot j).state ≠ .answered
  | some i => (s.slot i).state = .answered ∧
      ∀ j < n, (s.slot j).state = .answered → s.completionAge (s.slot j) ≤ s.completionAge (s.slot i)

/-- One slot more in the search for the oldest response: it takes the place of a younger one (R101). -/
def State.olderOf (s : State) (best : Option Nat) (i : Nat) : Option Nat :=
  if (s.slot i).state = .answered then
    match best with
    | none => some i
    | some j => if s.completionAge (s.slot j) < s.completionAge (s.slot i) then some i else some j
  else best

theorem State.oldestAnswered_eq (s : State) :
    s.oldestAnswered = (List.range s.rd.slots.length).foldl s.olderOf none := rfl

/-- One slot more leaves the oldest of the slots seen. -/
theorem State.OldestOf.succ {s : State} {n : Nat} {best : Option Nat} (h : s.OldestOf n best) :
    s.OldestOf (n + 1) (s.olderOf best n) := by
  unfold State.olderOf
  split
  case isTrue hn =>
    cases best with
    | none => exact ⟨hn, Nat.forall_lt_succ_right.2 ⟨fun j hj ha => absurd ha (h j hj), fun _ => Nat.le_refl _⟩⟩
    | some i =>
      obtain ⟨hi, hmax⟩ := h
      dsimp only
      split
      case isTrue hlt =>
        exact ⟨hn, Nat.forall_lt_succ_right.2 ⟨fun j hj ha => (hmax j hj ha).trans hlt.le, fun _ => Nat.le_refl _⟩⟩
      case isFalse hle => exact ⟨hi, Nat.forall_lt_succ_right.2 ⟨hmax, fun _ => Nat.le_of_not_lt hle⟩⟩
  case isFalse hn =>
    cases best with
    | none => exact Nat.forall_lt_succ_right.2 ⟨h, hn⟩
    | some i => exact ⟨h.1, Nat.forall_lt_succ_right.2 ⟨h.2, fun ha => absurd ha hn⟩⟩

/-- The search over the first `n` slots ends with the oldest Answered one of them (R89, R101). -/
theorem State.oldestOf_foldl (s : State) (n : Nat) : s.OldestOf n ((List.range n).foldl s.olderOf none) := by
  induction n with
  | zero => exact fun j hj => absurd hj (Nat.not_lt_zero j)
  | succ n ih =>
    rw [List.range_succ, List.foldl_append]
    exact ih.succ

/-- Settles O57: every Answered slot is one of the list, so the search over the list has seen it. -/
theorem oldestResponseFirst : Obligations.OldestResponseFirst := by
  unfold Obligations.OldestResponseFirst
  intro s i j
  have hold := s.oldestOf_foldl s.rd.slots.length
  rw [← s.oldestAnswered_eq] at hold
  have hlt (hj : (s.slot j).state = .answered) : j < s.rd.slots.length :=
    s.lt_of_slot_state (by rw [hj]; decide)
  refine ⟨fun ho => ?_, fun ho hj => ?_⟩
  · rw [ho] at hold
    exact ⟨hold.1, fun hj => hold.2 j (hlt hj) hj⟩
  · rw [ho] at hold
    exact hold j (hlt hj) hj

end Sys2Proof.Machine
end

