-- ==== Sys2Proof/Proofs/Orphans.lean ====
section
/-!
PROOFS. The end of an orphaned request (R100, R131, R173, R182, R206): one lemma says what the end leaves with no batch and
an empty queue, and each engine step that ends a request is brought to it; with the run of pulses over one octet (R120).
Settles O48.
-/

namespace Sys2Proof.Machine

/-! ### Pulses over one octet (R110, R120) -/

/-- The bits that the first `n` pulses clear between them. -/
def clearedBy (n : Nat) (pulses : List Byte) : Byte := (pulses.take n).foldl (fun acc p => acc ||| p) 0

theorem clearedBy_cons (n : Nat) (p : Byte) (pulses : List Byte) :
    clearedBy (n + 1) (p :: pulses) = p ||| clearedBy n pulses := by
  have hfold : ∀ (l : List Byte) (a : Byte),
      l.foldl (fun acc p => acc ||| p) a = a ||| l.foldl (fun acc p => acc ||| p) 0 := by
    intro l
    induction l with
    | nil => simp
    | cons q rest ih =>
      intro a
      rw [List.foldl_cons, List.foldl_cons, ih, ih (0 ||| q)]
      simp [BitVec.or_assoc]
  rw [clearedBy, List.take_succ_cons, List.foldl_cons, hfold]
  simp [clearedBy]

/-- Two pulses clear what one pulse does that names the bits of both (R110). -/
theorem pulseOnce_pulseOnce (old target p c : Byte) :
    pulseOnce (pulseOnce old target p) target c = pulseOnce old target (p ||| c) := by
  unfold pulseOnce
  ext i hi
  simp only [BitVec.getElem_and, BitVec.getElem_or, BitVec.getElem_not]
  grind

/-- A pulse that names no bit clears none. -/
theorem pulseOnce_zero (old target : Byte) : pulseOnce old target 0 = old := by
  rw [pulseOnce, show ~~~(0 : Byte) = BitVec.allOnes 8 from rfl, BitVec.or_allOnes, BitVec.and_allOnes]

/-- An octet that holds its target keeps it, whatever a pulse clears (R110). -/
theorem pulseOnce_target (target c : Byte) : pulseOnce target target c = target := by
  unfold pulseOnce
  ext i hi
  simp only [BitVec.getElem_and, BitVec.getElem_or, BitVec.getElem_not]
  grind

/-- An octet that does not hold its target verifies within `n` pulses when they clear between them every bit that has to
be cleared (R120). -/
theorem pulseOctet_verifies (target : Byte) (n : Nat) (pulses : List Byte) (old : Byte) (h : old ≠ target) :
    (pulseOctet target n pulses old).2 = true ↔ pulseOnce old target (clearedBy n pulses) = target := by
  induction n generalizing pulses old with
  | zero =>
    rw [show clearedBy 0 pulses = 0 from rfl, pulseOnce_zero]
    simp [pulseOctet, h]
  | succ n ih =>
    have hcleared : clearedBy (n + 1) pulses = pulses.headD 0 ||| clearedBy n pulses.tail := by
      cases pulses with
      | nil => simp [clearedBy]
      | cons p rest => exact clearedBy_cons n p rest
    rw [hcleared, ← pulseOnce_pulseOnce]
    simp only [pulseOctet]
    split
    case isTrue hv => exact ⟨fun _ => by rw [hv, pulseOnce_target], fun _ => rfl⟩
    case isFalse hv => exact ih _ _ hv

/-- An octet that its pulses leave off its target does not verify, and did not hold its target (R120, R122). -/
theorem pulseOctet_fails {target old : Byte} {n : Nat} {pulses : List Byte}
    (h : pulseOnce old target (clearedBy n pulses) ≠ target) :
    target ≠ old ∧ (pulseOctet target n pulses old).2 = false := by
  have hne : old ≠ target := by
    rintro rfl
    exact h (pulseOnce_target _ _)
  exact ⟨hne.symm, Bool.eq_false_iff.2 (mt (pulseOctet_verifies target n pulses old hne).1 h)⟩

/-! ### The end of an orphaned request (R100, R182) -/

/-- The state `t` in which the orphaned request of slot `j` has ended in `s`: reported with its status and both counts 0,
its slot Free, the engine Idle. -/
structure State.OrphanEnded (s : State) (j : Nat) (st : Status) (t : State) : Prop where
  eu : t.eu = (s.eu.offered s.sr.tick
    (.orphanResult (s.slot j).request.code (s.slot j).tag st 0 0)).raised 0x10
  rd : t.rd = { s.rd with slots := s.rd.slots.set j {} }
  su : t.su = s.su.slotFreed
  ae : t.ae = { s.ae with engine := .idle }
  bc : t.bc = s.bc
  ledger : t.ledger = s.ledger

theorem SessionUnit.noted_eq_slotFreed (u : SessionUnit) : u.noted = u.slotFreed := by
  simp only [SessionUnit.noted, SessionUnit.slotFreed, Bool.and_eq_true, beq_iff_eq]

/-- With no batch and an empty queue nothing follows the end of an orphaned request. -/
theorem State.finishFreed_orphaned (s : State) {j : Nat} (st : Status) (results : List Byte)
    (ho : (s.slot j).orphaned = true) (hb : s.bc = {}) (hq : s.rd.queue = []) :
    s.OrphanEnded j st (s.finishRunning j st results).engineFreed := by
  rw [s.finishRunning_orphaned j st results ho, State.orphanResult_eq, State.releaseSlot_eq,
    State.engineFreed_quiet _ (by exact congrArg Batch.state hb) (by exact hq)]
  exact ⟨rfl, rfl, s.su.noted_eq_slotFreed, rfl, rfl, rfl⟩

/-- The blocks and fields that an engine step leaves alone before its request ends: what it writes is the array, a store,
or the count of free values. -/
structure State.SameButStores (s v : State) : Prop where
  sr : v.sr = s.sr
  eu : v.eu = s.eu
  rd : v.rd = s.rd
  su : v.su = s.su
  ae : v.ae = s.ae
  bc : v.bc = s.bc
  ledger : v.ledger = s.ledger

/-- The command ends the running request of slot `j` with a status, after what it has written. -/
def State.EndsRequest (s : State) (c : Instr) (j : Nat) (st : Status) : Prop :=
  ∃ v results, s.SameButStores v ∧ exec c s = .next (v.finishRunning j st results).engineFreed

/-- A command that ends a request reports it, if orphaned, with no batch and an empty queue (R100, R182). -/
theorem State.EndsRequest.orphaned {s : State} {c : Instr} {j : Nat} {st : Status} (h : s.EndsRequest c j st)
    (ho : (s.slot j).orphaned = true) (hb : s.bc = {}) (hq : s.rd.queue = []) :
    Answers (exec c s) (fun t =>
      t.eu = (s.eu.offered s.sr.tick
        (.orphanResult (s.slot j).request.code (s.slot j).tag st 0 0)).raised 0x10 ∧
      t.rd = { s.rd with slots := s.rd.slots.set j {} } ∧ t.su = s.su.slotFreed ∧
      t.ae = { s.ae with engine := .idle } ∧ t.bc = s.bc ∧ t.ledger = s.ledger) := by
  obtain ⟨v, results, hv, hexec⟩ := h
  have hslot : v.slot j = s.slot j := s.slot_of_rd hv.rd j
  have hend := v.finishFreed_orphaned st results (by rw [hslot, ho]) (by rw [hv.bc, hb]) (by rw [hv.rd, hq])
  refine ⟨_, hexec, ?_, ?_, ?_, ?_, ?_, ?_⟩
  · rw [hend.eu, hv.eu, hv.sr, hslot]
  · rw [hend.rd, hv.rd]
  · rw [hend.su, hv.su]
  · rw [hend.ae, hv.ae]
  · rw [hend.bc, hv.bc]
  · rw [hend.ledger, hv.ledger]

theorem State.EndsRequest.of_exec {s v : State} {c : Instr} {j : Nat} {st : Status} {results : List Byte}
    (h : exec c s = .next (v.finishRunning j st results).engineFreed) (hv : s.SameButStores v) :
    s.EndsRequest c j st := ⟨v, results, hv, h⟩

/-! ### The steps that end a request -/

section Ends

variable {s : State}

/-- The one step of a READ ends it (R116). -/
theorem exec_readComplete {op : ReadOp} (he : s.ae.engine = .reading op) (hin : s.ae.engine.inArray = true) :
    ∃ results, exec .readComplete s =
      .next ((s.spendFree op.count).finishRunning op.slot .ok results).engineFreed := by
  have hexec : exec .readComplete s = .next (s.readDone op) := by
    rw [he] at hin
    simp only [exec, execReadComplete, he]
    exact if_pos hin
  exact ⟨_, hexec⟩

/-- The last line of a CHECK_REGION ends it (R124). -/
theorem exec_checkRegionStep_last {op : CheckOp} (he : s.ae.engine = .checking op) (hin : s.ae.engine.inArray = true)
    (hlast : op.addr + op.len ≤ op.next + op.stepLength) :
    ∃ results, exec .checkRegionStep s =
      .next ((s.spendFree op.stepLength).finishRunning op.slot .ok results).engineFreed := by
  have hexec : exec .checkRegionStep s = .next (s.checkLine op) := by
    rw [he] at hin
    simp only [exec, execCheckRegionStep, he]
    exact if_pos hin
  rw [State.checkLine, if_neg (Nat.not_lt.2 hlast)] at hexec
  exact ⟨_, hexec⟩

/-- A PROGRAM goes on with the octet in hand (R120). -/
theorem exec_programStep {op : ProgramOp} {d : Byte} (pulses : List Byte) (he : s.ae.engine = .programming op)
    (hin : s.ae.engine.inArray = true) (hd : op.data[op.next]? = some d) :
    exec (.programStep pulses) s = .next (s.programOctet op d pulses) := by
  rw [he] at hin
  simp only [exec, execProgramStep, he, hd]
  exact if_pos hin

section Program

variable {op : ProgramOp} {d : Byte} {pulses : List Byte} (hp : op.pulseCount = 0)
include hp

/-- An octet left with a bit that sixteen pulses have not cleared ends the PROGRAM with PROGRAM_FAULT (R120, R122). -/
theorem State.programOctet_fault
    (hleft : pulseOnce (s.array.read (op.addr + op.next)) (s.array.read (op.addr + op.next) &&& d)
      (clearedBy 16 pulses) ≠ s.array.read (op.addr + op.next) &&& d) :
    ∃ m results, s.programOctet op d pulses =
      (State.finishRunning { s with array := m } op.slot .programFault results).engineFreed := by
  obtain ⟨hne, hfails⟩ := pulseOctet_fails hleft
  refine ⟨s.array.write (op.addr + op.next) (pulseOctet (s.array.read (op.addr + op.next) &&& d) 16 pulses
    (s.array.read (op.addr + op.next))).1, [octet op.next], ?_⟩
  simp only [State.programOctet, if_neg hne, hp, pulseLimit, Nat.sub_zero]
  exact if_neg (Bool.eq_false_iff.1 hfails)

/-- The last octet, at its target after its pulses, ends the PROGRAM with OK (R120, R121). -/
theorem State.programOctet_last
    (hleft : pulseOnce (s.array.read (op.addr + op.next)) (s.array.read (op.addr + op.next) &&& d)
      (clearedBy 16 pulses) = s.array.read (op.addr + op.next) &&& d) (hlast : op.data.length ≤ op.next + 1) :
    ∃ m results, s.programOctet op d pulses =
      (State.finishRunning { s with array := m } op.slot .ok results).engineFreed := by
  have hnext (v : State) (a b : Bool) : ∃ results,
      v.programNext (op.advance a b) = (v.finishRunning op.slot .ok results).engineFreed :=
    ⟨_, if_neg (Nat.not_lt.2 hlast)⟩
  simp only [State.programOctet, hp, pulseLimit, Nat.sub_zero]
  split
  case isTrue => exact ⟨s.array, hnext s _ _⟩
  case isFalse hne =>
    rw [if_pos ((pulseOctet_verifies _ 16 pulses _ (Ne.symm hne)).2 hleft)]
    exact ⟨_, hnext _ _ _⟩

end Program

section Protect

variable {slot group n : Nat}

/-- A PROTECT_GROUP of a group that is protected already ends with OK at its read (R170). -/
theorem State.endsRequest_protect_read (he : s.ae.engine = .storing (.protect slot group false n))
    (hbit : s.pu.protectBits.getLsbD group = true) (verified : Bool) :
    s.EndsRequest (.protectGroupStep verified) slot .ok := by
  have hexec : exec (.protectGroupStep verified) s = .next (s.protectStep slot group false n verified) := by
    simp only [exec, execProtectGroupStep, he]
  simp only [State.protectStep, Bool.not_false, if_true, hbit] at hexec
  exact .of_exec hexec ⟨rfl, rfl, rfl, rfl, rfl, rfl, rfl⟩

/-- A write cell that verifies ends the PROTECT_GROUP with OK, one that sixteen pulses leave unverified with STORE_FAULT
(R170). -/
theorem State.endsRequest_protect_pulse (he : s.ae.engine = .storing (.protect slot group true n)) :
    s.EndsRequest (.protectGroupStep true) slot .ok ∧
      (16 ≤ n + 1 → s.EndsRequest (.protectGroupStep false) slot .storeFault) := by
  have hexec (verified : Bool) : exec (.protectGroupStep verified) s =
      .next (s.protectStep slot group true n verified) := by
    simp only [exec, execProtectGroupStep, he]
  refine ⟨.of_exec (hexec true) ⟨rfl, rfl, rfl, rfl, rfl, rfl, rfl⟩, fun hn => ?_⟩
  have hfault := hexec false
  simp only [State.protectStep, Bool.not_true, Bool.false_eq_true, if_false,
    if_neg (show ¬n + 1 < pulseLimit from Nat.not_lt.2 hn)] at hfault
  exact .of_exec hfault ⟨rfl, rfl, rfl, rfl, rfl, rfl, rfl⟩

end Protect

/-- An UNPROTECT_ALL ends with OK when the store reads erased, with STORE_FAULT when a hundred pulses leave a bit or a
cell (R172). -/
theorem State.endsRequest_unprotect {slot n : Nat} (he : s.ae.engine = .storing (.unprotect slot true n)) :
    s.EndsRequest (.unprotectAllStep 0 0) slot .ok ∧
      ∀ bits cells : Word16, bits ≠ 0 ∨ cells ≠ 0 → 100 ≤ n + 1 →
        s.EndsRequest (.unprotectAllStep bits cells) slot .storeFault := by
  have hexec (bits cells : Word16) : exec (.unprotectAllStep bits cells) s =
      .next (s.unprotectStep slot true n bits cells) := by
    simp only [exec, execUnprotectAllStep, he]
  refine ⟨.of_exec (hexec 0 0) ⟨rfl, rfl, rfl, rfl, rfl, rfl, rfl⟩, fun bits cells hleft hn => ?_⟩
  have hfault := hexec bits cells
  simp only [State.unprotectStep, Bool.not_true, Bool.false_eq_true, if_false,
    if_neg (not_and_or.2 hleft), if_neg (show ¬n + 1 < storeEraseLimit from Nat.not_lt.2 hn)] at hfault
  exact .of_exec hfault ⟨rfl, rfl, rfl, rfl, rfl, rfl, rfl⟩

section Config

variable {slot n : Nat} {record : Settings} {id : CopyId} {g : Byte} {stage : CopyStage}

theorem exec_configStoreStep (he : s.ae.engine = .storing (.config slot record id g stage)) (erased : Bool)
    (pulses : List Byte) :
    exec (.configStoreStep erased pulses) s = .next (s.configStep slot record id g stage erased pulses) := by
  simp only [exec, execConfigStoreStep, he]

/-- A CONFIG_STORE ends with STORE_FAULT when a hundred pulses leave its copy unerased (R205). -/
theorem State.endsRequest_config_erase (he : s.ae.engine = .storing (.config slot record id g (.eraseCopy n)))
    (hn : 100 ≤ n + 1) (pulses : List Byte) : s.EndsRequest (.configStoreStep false pulses) slot .storeFault := by
  have hexec := exec_configStoreStep he false pulses
  simp only [State.configStep, Bool.false_eq_true, if_false,
    if_neg (show ¬n + 1 < storeEraseLimit from Nat.not_lt.2 hn)] at hexec
  exact .of_exec hexec ⟨rfl, rfl, rfl, rfl, rfl, rfl, rfl⟩

/-- An octet of the copy that sixteen pulses leave off its target fails to verify (R205). -/
theorem programCopyOctet_fails (octets : List Byte) (n : Nat) (want : Byte) (pulses : List Byte)
    (hleft : pulseOnce (octets.getD n 0xFF) (octets.getD n 0xFF &&& want) (clearedBy 16 pulses) ≠
      octets.getD n 0xFF &&& want) : (programCopyOctet octets n 0 want pulses).2 = false := by
  obtain ⟨hne, hfails⟩ := pulseOctet_fails hleft
  simpa only [programCopyOctet, if_neg hne, pulseLimit, Nat.sub_zero] using hfails

/-- A CONFIG_STORE ends with STORE_FAULT at an octet that fails to verify (R205). -/
theorem State.endsRequest_config_octet (he : s.ae.engine = .storing (.config slot record id g (.programOctet n 0)))
    (erased : Bool) {pulses : List Byte}
    (hfails : (programCopyOctet (s.cs.copy id).octets n 0 ((copyImage record g).getD n 0xFF) pulses).2 = false) :
    s.EndsRequest (.configStoreStep erased pulses) slot .storeFault := by
  have hexec := exec_configStoreStep he erased pulses
  simp only [State.configStep, hfails, Bool.not_false, if_true] at hexec
  exact .of_exec hexec ⟨rfl, rfl, rfl, rfl, rfl, rfl, rfl⟩

/-- A CONFIG_STORE ends with OK at its commit (R205). -/
theorem State.endsRequest_config_commit (he : s.ae.engine = .storing (.config slot record id g .commit))
    (erased : Bool) (pulses : List Byte) : s.EndsRequest (.configStoreStep erased pulses) slot .ok :=
  .of_exec (exec_configStoreStep he erased pulses) ⟨rfl, rfl, rfl, rfl, rfl, rfl, rfl⟩

end Config

end Ends

/-! ### A supply-low entry (R8) -/

/-- A write that a supply-low entry abandons ends with SUPPLY_LOW; of the stores it has touched the array alone (R8, R129,
R173, R206). -/
theorem State.abandonWrites_slot (u : State) {j : Nat} (hj : u.ae.engine.slot? = some j)
    (hw : u.ae.engine.writesNothing = false) :
    ∃ v, u.SameButStores v ∧ v.cs = u.cs ∧ v.pu = u.pu ∧
      u.abandonWrites = (v.finishRunning j .supplyLow []).engineFreed := by
  cases he : u.ae.engine with
  | programming op =>
    obtain ⟨hsr, -, -, -, hsu, hrd, hae, hledger, hbc, heu, -, -⟩ := u.interrupted_frame
    obtain rfl : op.slot = j := by rw [he] at hj; exact Option.some.inj hj
    refine ⟨u.interrupted, ⟨hsr, heu, hrd, hsu, hae, hbc, hledger⟩, ?_, ?_, ?_⟩
    · simp only [State.interrupted, he]; rfl
    · simp only [State.interrupted, he]; rfl
    · simp only [State.abandonWrites, he]
  | storing op =>
    obtain rfl : op.slot = j := by rw [he, op.slot?_eq] at hj; exact Option.some.inj hj
    exact ⟨u, ⟨rfl, rfl, rfl, rfl, rfl, rfl, rfl⟩, rfl, rfl, u.abandonWrites_storing op he⟩
  | idle | reading | checking => rw [he] at hw; cases hw
  | erasingSector => rw [he] at hj; cases hj

/-- Settles O48: each command ends the request of slot `j`, and the end of an orphaned request is said once. -/
theorem orphansAreReported : Obligations.OrphansAreReported := by
  unfold Obligations.OrphansAreReported
  intro s j slot group n rop cop op d pulses record id g stage bits cells rxd hc hj ho hb hq
  have hin := (State.agrees_of_coherent hc).batch.inArray
  have ends {c : Instr} {e : Engine} {i : Nat} {st : Status} (he : s.ae.engine = e) (h : s.EndsRequest c i st)
      (hi : e.slot? = some i) :=
    (Option.some.inj (hi.symm.trans (he ▸ hj)) ▸ h).orphaned ho hb hq
  refine ⟨fun he => ?_, fun he hlast => ?_, fun he hd hp => ⟨fun hleft hlast => ?_, fun hleft => ?_⟩,
    fun he hbit => ends he (State.endsRequest_protect_read he hbit rxd) rfl, fun he => ?_, fun he => ?_, fun he => ?_,
    fun hw hrun hm => ?_⟩
  · obtain ⟨results, hexec⟩ := exec_readComplete he hin
    have hframe := State.finishFreed_frame (s.spendFree rop.count) rop.slot .ok results
    exact ⟨ends he (.of_exec hexec ⟨rfl, rfl, rfl, rfl, rfl, rfl, rfl⟩) rfl,
      ⟨_, hexec, hframe.array, hframe.cs, hframe.pu⟩⟩
  · obtain ⟨results, hexec⟩ := exec_checkRegionStep_last he hin hlast
    have hframe := State.finishFreed_frame (s.spendFree cop.stepLength) cop.slot .ok results
    exact ⟨ends he (.of_exec hexec ⟨rfl, rfl, rfl, rfl, rfl, rfl, rfl⟩) rfl,
      ⟨_, hexec, hframe.array, hframe.cs, hframe.pu⟩⟩
  · obtain ⟨m, results, hlastOctet⟩ := s.programOctet_last hp hleft hlast
    exact ends he (.of_exec ((exec_programStep pulses he hin hd).trans (congrArg _ hlastOctet))
      ⟨rfl, rfl, rfl, rfl, rfl, rfl, rfl⟩) rfl
  · obtain ⟨m, results, hfault⟩ := s.programOctet_fault hp hleft
    exact ends he (.of_exec ((exec_programStep pulses he hin hd).trans (congrArg _ hfault))
      ⟨rfl, rfl, rfl, rfl, rfl, rfl, rfl⟩) rfl
  · obtain ⟨hok, hfault⟩ := State.endsRequest_protect_pulse he
    exact ⟨ends he hok rfl, fun hn => ends he (hfault hn) rfl⟩
  · obtain ⟨hok, hfault⟩ := State.endsRequest_unprotect he
    exact ⟨ends he hok rfl, fun hleft hn => ends he (hfault bits cells hleft hn) rfl⟩
  · refine ⟨?_, ?_, ?_⟩
    · rintro rfl hn
      exact ends he (State.endsRequest_config_erase he hn pulses) rfl
    · rintro rfl hleft
      exact ends he (State.endsRequest_config_octet he rxd (programCopyOctet_fails _ _ _ _ hleft)) rfl
    · rintro rfl
      exact ends he (State.endsRequest_config_commit he rxd pulses) rfl
  · obtain ⟨u, hu, hexec⟩ := exec_supplyLowEntry s rxd hrun hm
    obtain ⟨v, hv, hcs, hpu, habandon⟩ := u.abandonWrites_slot (by rw [hu.engine]; exact hj) (by rw [hu.engine]; exact hw)
    have hslot : v.slot j = s.slot j := s.slot_of_rd (hv.rd.trans hu.rd) j
    have hend := v.finishFreed_orphaned .supplyLow [] (by rw [hslot, ho]) (by rw [hv.bc, hu.bc, hb])
      (by rw [hv.rd, hu.rd, hq])
    have hframe := v.finishFreed_frame j .supplyLow []
    refine ⟨_, hexec.trans (congrArg _ habandon), ?_, ?_, ?_, ?_, ?_, ?_, hframe.cs.trans (hcs.trans hu.cs),
      hframe.pu.trans (hpu.trans hu.pu)⟩
    · rw [hend.eu, hv.eu, hv.sr, hu.eu, hu.tick, hslot]
    · rw [hend.rd, hv.rd, hu.rd]
    · rw [hend.su, hv.su, hu.su]
    · rw [hend.ae, hv.ae, hu.ae]
    · rw [hend.bc, hv.bc, hu.bc]
    · rw [hend.ledger, hv.ledger, hu.ledger]

end Sys2Proof.Machine
end

