-- ==== Sys2Proof/Proofs/Cancel.lean ====
section
/-!
PROOFS. CANCEL by the state of its target (sections 5.6 and 7.9): the slots of the target and of the CANCEL itself are used
by nobody, so they keep their answers whatever follows; and the batch that a cancelled member leaves. Settles O40.
-/

namespace Sys2Proof.Machine

/-! ### The end of the step (R185) -/

/-- The end of a parcel's step touches the Event Unit alone. -/
theorem State.atEnd_eq (s : State) (h : ParcelHead) (t : State) :
    s.atEnd h t = { t with eu := if s.losesRecords h.nr then t.eu.lostReported t.sr.tick else t.eu } := by
  unfold State.atEnd
  split <;> rfl

/-! ### The CANCEL in its slot (R91, R103) -/

/-- The state in which a CANCEL looks for its target: its own slot is taken already (R91, R93). -/
def State.cancelling (s : State) (h : ParcelHead) (i : Nat) (target : Byte) : State :=
  (s.beforeAcceptance h).takeSlot i h.tag (.cancel target)

section Cancelling

variable {s : State} {h : ParcelHead} {i : Nat} (ht : s.takes h i = true) (target : Byte)

/-- What a CANCEL finds apart from the slots is as it was. -/
theorem State.cancelling_frame (s : State) (h : ParcelHead) (i : Nat) (target : Byte) :
    (s.cancelling h i target).rd.queue = s.rd.queue ∧
      (s.cancelling h i target).rd.nextCompletion = s.rd.nextCompletion ∧
      (s.cancelling h i target).bc = s.bc ∧ (s.cancelling h i target).ae = s.ae ∧
      (s.cancelling h i target).array = s.array ∧ (s.cancelling h i target).ledger = s.ledger ∧
      (s.cancelling h i target).eu = (s.beforeAcceptance h).eu ∧ (s.cancelling h i target).sr.tick = s.sr.tick := by
  obtain ⟨hrd, hae, hbc, -, -, harray, hledger, -⟩ := s.beforeAcceptance_frame h
  have hsr : (s.beforeAcceptance h).sr.tick = s.sr.tick := by
    rw [State.beforeAcceptance, State.handedOver_eq]
    rfl
  refine ⟨?_, ?_, hbc, hae, harray, hledger, rfl, hsr⟩
  · exact (congrArg Dispatcher.queue hrd :)
  · exact (congrArg Dispatcher.nextCompletion hrd :)

include ht

/-- CANCEL is executed in its acceptance, and then its step ends (R93, R104). -/
theorem exec_cancel :
    exec (.cancel h target) s = .next (s.atEnd h (cancelService target i (s.cancelling h i target))) :=
  exec_served (r := .cancel target) ht rfl rfl rfl

theorem State.slot_cancelling_self :
    (s.cancelling h i target).slot i = { state := .answered, tag := h.tag, request := .cancel target } :=
  State.slot_setSlot_same _ _ (s.takes_lt ht)

/-- The target's slot is as it was, unless it is the CANCEL's own. -/
theorem State.slot_cancelling_other {j : Nat} (hj : (s.slot j).state ≠ .free) :
    j ≠ i ∧ (s.cancelling h i target).slot j = s.slot j := by
  have hij : j ≠ i := fun e => hj (e ▸ ((s.takes_iff h i).1 ht).1.slot.1)
  exact ⟨hij, (State.slot_setSlot_ne _ _ hij.symm).trans (s.slot_of_rd (s.beforeAcceptance_frame h).1 j)⟩

/-- An answer of the CANCEL alone, in the terms of Safety.lean. -/
theorem State.answer_cancelling (st : Status) (results : List Byte) :
    s.atEnd h ((s.cancelling h i target).answer i st results) =
      s.answers h i (.cancel target) (responseOf 0x08 st results) :=
  congrArg (s.atEnd h) (State.answer_takeSlot _ _ _ _ _ _ (s.takes_lt ht))

theorem State.lt_cancelling : i < (s.cancelling h i target).rd.slots.length :=
  (s.takes_lt ht).trans_eq (State.length_setSlot _ _ _).symm

/-- The CANCEL's own slot is of no other use (R88). -/
theorem State.keeps_cancelling (hc : s.coherent = true) :
    State.Keeps i { state := .answered, tag := h.tag, request := .cancel target } (s.cancelling h i target) := by
  obtain ⟨hqueue, -, hbc, -⟩ := s.cancelling_frame h i target
  obtain ⟨hq, -, hm⟩ := (State.agrees_of_coherent hc).slots.unused (.inl ((s.takes_iff h i).1 ht).1.slot.1)
  exact ⟨State.slot_cancelling_self ht target, hqueue ▸ hq, hbc ▸ hm⟩

end Cancelling

section Target

variable {s : State} {i j : Nat} {target : Byte}

theorem cancelService_none (hf : s.cancelTarget target = none) :
    cancelService target i s = s.answer i .notFound [0] := by
  simp only [cancelService, hf]

variable (hf : s.cancelTarget target = some j)
include hf

theorem cancelService_running (hx : (s.slot j).state = .running) :
    cancelService target i s = s.answer i .notCancellable [2] := by
  simp only [cancelService, hf, hx]

theorem cancelService_answered (hx : (s.slot j).state = .answered) :
    cancelService target i s = s.answer i .notCancellable [4] := by
  simp only [cancelService, hf, hx]

theorem cancelService_queued (hx : (s.slot j).state = .queued) : cancelService target i s = s.cancelQueued i j := by
  simp only [cancelService, hf, hx]

theorem cancelService_batched (hx : (s.slot j).state = .batched) :
    cancelService target i s = s.cancelBatched i j := by
  simp only [cancelService, hf, hx]

end Target

/-! ### A Queued target (R105) -/

/-- The answered slot keeps its answer. -/
theorem State.Keeps.answer_self {i : Nat} {x : Slot} {s : State} (h : s.Keeps i x) (hi : i < s.rd.slots.length)
    (st : Status) (results : List Byte) :
    (s.answer i st results).Keeps i { x with
      state := .answered, completion := s.rd.nextCompletion, response := responseOf x.request.code st results } :=
  ⟨by rw [State.slot_answer_same s st results hi, h.slot], h.unqueued, h.unbatched⟩

/-- A slot keeps what it holds through a CANCEL of another slot that is Queued, once both are answered (R105). -/
theorem State.Keeps.cancelQueued {k : Nat} {x : Slot} {s : State} {i j : Nat}
    (h : (((s.unqueue j).answer j .cancelled []).answer i .ok [1]).Keeps k x) : (s.cancelQueued i j).Keeps k x := by
  unfold State.cancelQueued
  dsimp only
  split
  · exact h.examineFor _
  · exact h

/-! ### A Batched target (R161 to R163) -/

/-- A member is out of the batch and answered, or reported and its slot released; what is left of the batch is not judged
yet (R161, R163). -/
def State.memberGone (s : State) (m : Member) : State :=
  let x := s.slot m.slot
  let s1 := { s with bc := s.bc.withdraw m }
  if x.orphaned then
    (s1.orphanResult x.request.code x.tag .cancelled (s.bc.countOutcome m.sectors .erased)
      (s.bc.countOutcome m.sectors .failed)).releaseSlot m.slot
  else
    s1.answer m.slot .cancelled (eraseResults x.request m.sectors (s.bc.outcomeCode (s.bc.withdrawable m)))

theorem State.cancelMember_eq (s : State) (m : Member) : s.cancelMember m = (s.memberGone m).afterWithdrawal := rfl

/-- What is left of the batch goes on while a sector is Pending or Erasing with members, or Erasing without one (R162). -/
theorem State.afterWithdrawal_goesOn (s : State) (hm : s.bc.members ≠ [] → s.bc.unfinished = true)
    (he : s.bc.members = [] → s.bc.hasErasing = true) : s.afterWithdrawal = s := by
  unfold State.afterWithdrawal
  split
  · exact if_pos (he ‹_›)
  · exact if_pos (hm ‹_›)

/-- With members and no sector Pending or Erasing the batch completes (R157, R162). -/
theorem State.afterWithdrawal_completes (s : State) (hm : s.bc.members ≠ []) (hu : s.bc.unfinished = false) :
    s.afterWithdrawal = s.completeBatch := by
  simp [State.afterWithdrawal, hm, State.finishIfDone, hu, State.finishBatch]

/-- A completing batch raises ERASE_COMPLETE (R157). -/
theorem State.completeBatch_raises (s : State) : s.completeBatch.eu.latched &&& 0x08 = 0x08 := by
  have hbit : ∀ b : Byte, (b ||| 0x08) &&& 0x08 = 0x08 := by decide
  exact hbit _

/-- With no member and no sector Erasing the batch dissolves (R162). -/
theorem State.afterWithdrawal_dissolves (s : State) (hm : s.bc.members = []) (he : s.bc.hasErasing = false) :
    s.afterWithdrawal = s.clearBatch := by
  simp [State.afterWithdrawal, hm, he]

/-- What is left of the batch: the batch itself or none, the engine and the ledger untouched (R162). -/
theorem State.afterWithdrawal_work (s : State) :
    (s.afterWithdrawal.bc = s.bc ∨ s.afterWithdrawal.bc = {}) ∧ s.afterWithdrawal.ae = s.ae ∧
      s.afterWithdrawal.ledger = s.ledger ∧ s.afterWithdrawal.rd.queue = s.rd.queue := by
  obtain ⟨hbc, hae, hledger, hqueue⟩ := s.finishBatch_work
  unfold State.afterWithdrawal State.finishIfDone
  split
  · split
    · exact ⟨.inl rfl, rfl, rfl, rfl⟩
    · exact ⟨.inr rfl, rfl, rfl, rfl⟩
  · split
    · exact ⟨.inl rfl, rfl, rfl, rfl⟩
    · exact ⟨.inr hbc, hae, hledger, hqueue⟩

theorem State.Keeps.afterWithdrawal {i : Nat} {x : Slot} {s : State} (h : s.Keeps i x) : s.afterWithdrawal.Keeps i x := by
  unfold State.afterWithdrawal State.finishIfDone
  split
  · split
    · exact h
    · exact ⟨h.slot, h.unqueued, fun _ hm => nomatch hm⟩
  · split
    · exact h
    · exact h.finishBatch

/-- A sector leaves the set with a cancelled member: Pending, of its list, and named by no other member (R161). -/
def Batch.goneWith (b : Batch) (m : Member) (k : Nat) : Bool :=
  m.sectors.contains k && b.role k == some .pending &&
    !b.members.any (fun o => o.slot != m.slot && o.sectors.contains k)

theorem Batch.withdrawable_contains (b : Batch) (m : Member) (k : Nat) :
    (b.withdrawable m).contains k = b.goneWith m k := by
  rw [Bool.eq_iff_iff, List.contains_iff_mem, Batch.withdrawable, List.mem_filter, Batch.goneWith, Bool.and_assoc,
    Bool.and_eq_true (m.sectors.contains k), List.contains_iff_mem]

/-- The batch without a member and what leaves with it (R161). -/
theorem Batch.withdraw_eq (b : Batch) (m : Member) :
    b.withdraw m = { b with
      set := b.set.filter (fun e => !b.goneWith m e.1), members := b.members.filter (fun o => o.slot != m.slot) } := by
  simp only [Batch.withdraw, b.withdrawable_contains m]

/-- The outcomes a cancelled member is answered with: WITHDRAWN for a sector that leaves with it (R161). -/
theorem Batch.outcomeCode_withdrawable (b : Batch) (m : Member) :
    b.outcomeCode (b.withdrawable m) = fun k =>
      if b.goneWith m k then 4 else match b.role k with | some (.done o) => o.code | _ => 0 := by
  funext k
  rw [Batch.outcomeCode, b.withdrawable_contains m]
  rfl

section Member

variable {s : State} {m : Member}

/-- What the withdrawal of a member leaves apart from the slots (R161, R163). -/
theorem State.memberGone_frame (s : State) (m : Member) :
    (s.memberGone m).bc = s.bc.withdraw m ∧ (s.memberGone m).ae = s.ae ∧ (s.memberGone m).ledger = s.ledger ∧
      (s.memberGone m).rd.queue = s.rd.queue ∧
      (s.memberGone m).eu = if (s.slot m.slot).orphaned then
        (s.eu.offered s.sr.tick (.orphanResult (s.slot m.slot).request.code (s.slot m.slot).tag .cancelled
          (s.bc.countOutcome m.sectors .erased) (s.bc.countOutcome m.sectors .failed))).raised 0x10
        else s.eu := by
  unfold State.memberGone
  dsimp only
  split
  · rw [State.orphanResult_eq, State.releaseSlot_eq]
    exact ⟨rfl, rfl, rfl, rfl, rfl⟩
  · exact ⟨rfl, rfl, rfl, rfl, rfl⟩

/-- A member that leaves the batch waits in no queue and is no member any more. -/
theorem State.keeps_withdrawn (hq : m.slot ∉ s.rd.queue) :
    State.Keeps m.slot (s.slot m.slot) { s with bc := s.bc.withdraw m } :=
  ⟨rfl, hq, fun _ ho => bne_iff_ne.1 (List.mem_filter.1 ho).2⟩

/-- A member that is not orphaned is answered CANCELLED with its outcomes, and keeps that answer (R161). -/
theorem State.memberGone_answered (hq : m.slot ∉ s.rd.queue) (hlt : m.slot < s.rd.slots.length)
    (ho : (s.slot m.slot).orphaned = false) :
    (s.memberGone m).Keeps m.slot { s.slot m.slot with
      state := .answered, completion := s.rd.nextCompletion
      response := responseOf (s.slot m.slot).request.code .cancelled
        (eraseResults (s.slot m.slot).request m.sectors (s.bc.outcomeCode (s.bc.withdrawable m))) } := by
  have hanswer : s.memberGone m = State.answer { s with bc := s.bc.withdraw m } m.slot .cancelled
      (eraseResults (s.slot m.slot).request m.sectors (s.bc.outcomeCode (s.bc.withdrawable m))) :=
    if_neg (Bool.eq_false_iff.1 ho)
  rw [hanswer]
  exact (State.keeps_withdrawn hq).answer_self hlt _ _

/-- A member that is orphaned leaves its slot Free (R163). -/
theorem State.memberGone_orphaned (hq : m.slot ∉ s.rd.queue) (hlt : m.slot < s.rd.slots.length)
    (ho : (s.slot m.slot).orphaned = true) : (s.memberGone m).Keeps m.slot {} := by
  obtain ⟨-, -, hm⟩ := State.keeps_withdrawn hq
  simp only [State.memberGone, ho, if_true]
  rw [State.orphanResult_eq, State.releaseSlot_eq]
  exact ⟨State.slot_setSlot_same s {} hlt, hq, hm⟩

/-- Another slot that nobody uses keeps what it holds (R161). -/
theorem State.Keeps.memberGone {i : Nat} {x : Slot} (h : s.Keeps i x) (hi : m.slot ≠ i) : (s.memberGone m).Keeps i x := by
  have hw : State.Keeps i x { s with bc := s.bc.withdraw m } :=
    ⟨h.slot, h.unqueued, fun o ho => h.unbatched o (List.mem_of_mem_filter ho)⟩
  unfold State.memberGone
  dsimp only
  split
  · refine State.Keeps.releaseSlot ?_ hi
    rw [State.orphanResult_eq]
    exact hw.of_same rfl rfl
  · exact hw.answer hi _ _

/-- With an empty queue the CANCEL of a member is its withdrawal, then the CANCEL's own answer, and no head is examined
(R161). -/
theorem State.cancelBatched_quiet {i : Nat} (hm : s.bc.members.find? (fun o => o.slot == m.slot) = some m)
    (hq : s.rd.queue = []) : s.cancelBatched i m.slot = (s.cancelMember m).answer i .ok [3] := by
  obtain ⟨hbc, -, -, hqueue⟩ := (s.memberGone m).afterWithdrawal_work
  obtain ⟨hgone, -, -, hsame, -⟩ := s.memberGone_frame m
  have hexamine : State.examineIfMoved ((s.cancelMember m).answer i .ok [3]) s = (s.cancelMember m).answer i .ok [3] := by
    unfold State.examineIfMoved
    split
    case isTrue => rfl
    case isFalse hmoved =>
      have hnone : (s.cancelMember m).bc = {} :=
        hbc.resolve_left (fun he => hmoved (congrArg Batch.state (he.trans hgone) :))
      refine State.examine_empty _ ((hqueue.trans hsame).trans hq) ?_
      rw [State.answer_bc, hnone]
      rfl
  simp only [State.cancelBatched, hm, hexamine]

end Member

/-- A CANCEL with a Queued target: the target is answered and has left the queue, then the CANCEL is (R105). -/
theorem exec_cancel_queued {s : State} {h : ParcelHead} {i j : Nat} {target : Byte} (ht : s.takes h i = true)
    (hc : s.coherent = true) (hf : (s.cancelling h i target).cancelTarget target = some j)
    (hx : (s.slot j).state = .queued) :
    Answers (exec (.cancel h target) s) (fun t =>
      t.Keeps j { s.slot j with
        state := .answered, completion := s.rd.nextCompletion, response := [(s.slot j).request.code, 15] } ∧
      t.Keeps i { state := .answered, tag := h.tag, request := .cancel target,
                  completion := s.rd.nextCompletion + 1, response := [0x08, 0, 1] } ∧
      t.array = s.array) := by
  obtain ⟨hji, hslot⟩ := State.slot_cancelling_other ht target (j := j) (by rw [hx]; decide)
  obtain ⟨hqueue, hnext, hbc, -, harray, -⟩ := s.cancelling_frame h i target
  have hown := State.keeps_cancelling ht target hc
  have hlt := State.lt_cancelling ht target
  have hexec := exec_cancel ht target
  generalize s.cancelling h i target = u at *
  rw [cancelService_queued hf (by rw [hslot, hx])] at hexec
  have hjlt : j < (u.unqueue j).rd.slots.length := u.lt_of_slot_state (by rw [hslot, hx]; decide)
  have hleft : (u.unqueue j).Keeps j (s.slot j) := by
    obtain ⟨hq, -, hm⟩ := (State.agrees_of_coherent hc).slots.unused_of_unqueued hx
    exact ⟨hslot, by rw [State.unqueue_rd, hqueue]; exact hq, by rw [State.unqueue_bc, hbc]; exact hm⟩
  have htarget := (hleft.answer_self hjlt .cancelled []).answer hji.symm .ok [1]
  have hself := ((hown.unqueue j).answer hji .cancelled []).answer_self (by simpa using hlt) .ok [1]
  refine ⟨_, hexec, ?_, ?_, ?_⟩
  · rw [State.atEnd_eq, ← hnext]
    exact (State.Keeps.cancelQueued htarget).of_same rfl rfl
  · rw [State.atEnd_eq, ← hnext]
    exact (State.Keeps.cancelQueued hself).of_same rfl rfl
  · rw [State.atEnd_eq, ← harray]
    exact (u.cancelQueued_frame i j).array

/-- A CANCEL with a Batched target and an empty queue: the member is cancelled, then the CANCEL is answered, and its step
ends (R161). -/
theorem exec_cancel_batched {s : State} {h : ParcelHead} {i : Nat} {target : Byte} {m : Member}
    (ht : s.takes h i = true) (hf : (s.cancelling h i target).cancelTarget target = some m.slot)
    (hx : (s.slot m.slot).state = .batched) (hm : s.bc.members.find? (fun o => o.slot == m.slot) = some m)
    (hq : s.rd.queue = []) :
    exec (.cancel h target) s = .next (s.atEnd h (((s.cancelling h i target).cancelMember m).answer i .ok [3])) := by
  obtain ⟨-, hslot⟩ := State.slot_cancelling_other ht target (j := m.slot) (by rw [hx]; decide)
  obtain ⟨hqueue, -, hbc, -⟩ := s.cancelling_frame h i target
  rw [exec_cancel ht target, cancelService_batched hf (by rw [hslot, hx]),
    State.cancelBatched_quiet (by rw [hbc, hm]) (by rw [hqueue, hq])]

section Cancelled

variable {s : State} {h : ParcelHead} {i : Nat} {m : Member} (ht : s.takes h i = true) (hc : s.coherent = true)
  (target : Byte) (hx : (s.slot m.slot).state = .batched)
include ht hx

/-- The cancelled member's slot holds its answer, or is Free if it is orphaned, whatever follows (R161, R163). -/
theorem State.keeps_cancelled (hq : s.rd.queue = []) :
    ((s.cancelling h i target).cancelMember m).Keeps m.slot
      (if (s.slot m.slot).orphaned then {}
      else { s.slot m.slot with
        state := .answered, completion := s.rd.nextCompletion
        response := responseOf (s.slot m.slot).request.code .cancelled
          (eraseResults (s.slot m.slot).request m.sectors (s.bc.outcomeCode (s.bc.withdrawable m))) }) := by
  obtain ⟨-, hslot⟩ := State.slot_cancelling_other ht target (j := m.slot) (by rw [hx]; decide)
  obtain ⟨hqueue, hnext, hbc, -⟩ := s.cancelling_frame h i target
  have hlt : m.slot < (s.cancelling h i target).rd.slots.length :=
    State.lt_of_slot_state _ (by rw [hslot, hx]; decide)
  have hout : m.slot ∉ (s.cancelling h i target).rd.queue := by
    rw [hqueue, hq]
    exact List.not_mem_nil
  rw [State.cancelMember_eq, ← hslot, ← hnext, ← hbc]
  split
  case isTrue ho => exact (State.memberGone_orphaned hout hlt ho).afterWithdrawal
  case isFalse ho => exact (State.memberGone_answered hout hlt (Bool.eq_false_iff.2 ho)).afterWithdrawal

/-- The Event Unit after a member is cancelled: an orphaned one is reported with the outcomes of its list (R163). -/
def State.cancelReport (s : State) (h : ParcelHead) (m : Member) : EventUnit :=
  if (s.slot m.slot).orphaned then
    ((s.beforeAcceptance h).eu.offered s.sr.tick
      (.orphanResult (s.slot m.slot).request.code (s.slot m.slot).tag .cancelled
        (s.bc.countOutcome m.sectors .erased) (s.bc.countOutcome m.sectors .failed))).raised 0x10
  else (s.beforeAcceptance h).eu

/-- The batch, the engine and the Event Unit when a CANCEL's member is gone (R161, R163). -/
theorem State.memberGone_cancelling :
    ((s.cancelling h i target).memberGone m).bc = s.bc.withdraw m ∧
      ((s.cancelling h i target).memberGone m).ae = s.ae ∧
      ((s.cancelling h i target).memberGone m).eu = s.cancelReport h m := by
  obtain ⟨-, hslot⟩ := State.slot_cancelling_other ht target (j := m.slot) (by rw [hx]; decide)
  obtain ⟨-, -, hbc, hae, -, -, heu, htick⟩ := s.cancelling_frame h i target
  obtain ⟨hgbc, hgae, -, -, hgeu⟩ := (s.cancelling h i target).memberGone_frame m
  refine ⟨by rw [hgbc, hbc], by rw [hgae, hae], ?_⟩
  rw [hgeu, hslot, heu, htick, hbc]
  rfl

/-- The batch goes on without the member (R162). -/
theorem State.cancelled_goesOn (hm : (s.bc.withdraw m).members ≠ [] → (s.bc.withdraw m).unfinished = true)
    (he : (s.bc.withdraw m).members = [] → (s.bc.withdraw m).hasErasing = true) :
    ((s.cancelling h i target).cancelMember m).bc = s.bc.withdraw m ∧
      ((s.cancelling h i target).cancelMember m).eu = s.cancelReport h m ∧
      ((s.cancelling h i target).cancelMember m).ae = s.ae := by
  obtain ⟨hbc, hae, heu⟩ := State.memberGone_cancelling ht target hx
  rw [State.cancelMember_eq, State.afterWithdrawal_goesOn _ (by rwa [hbc]) (by rwa [hbc])]
  exact ⟨hbc, heu, hae⟩

/-- The batch completes without the member (R157, R162). -/
theorem State.cancelled_completes (hm : (s.bc.withdraw m).members ≠ []) (hu : (s.bc.withdraw m).unfinished = false) :
    ((s.cancelling h i target).cancelMember m).bc = {} ∧
      ((s.cancelling h i target).cancelMember m).eu.latched &&& 0x08 = 0x08 := by
  obtain ⟨hbc, -, -⟩ := State.memberGone_cancelling ht target hx
  rw [State.cancelMember_eq, State.afterWithdrawal_completes _ (by rwa [hbc]) (by rwa [hbc])]
  exact ⟨rfl, State.completeBatch_raises _⟩

/-- The batch dissolves, and nothing is reported of it (R162). -/
theorem State.cancelled_dissolves (hm : (s.bc.withdraw m).members = []) (he : (s.bc.withdraw m).hasErasing = false) :
    ((s.cancelling h i target).cancelMember m).bc = {} ∧
      ((s.cancelling h i target).cancelMember m).eu = s.cancelReport h m ∧
      ((s.cancelling h i target).cancelMember m).ae = s.ae := by
  obtain ⟨hbc, hae, heu⟩ := State.memberGone_cancelling ht target hx
  rw [State.cancelMember_eq, State.afterWithdrawal_dissolves _ (by rwa [hbc]) (by rwa [hbc])]
  exact ⟨rfl, heu, hae⟩

/-- Of the batch there is what the member has left of it, or nothing (R162); the array and the ledger are as they were. -/
theorem State.cancelled_frame :
    (((s.cancelling h i target).cancelMember m).bc = s.bc.withdraw m ∨
      ((s.cancelling h i target).cancelMember m).bc = {}) ∧
      ((s.cancelling h i target).cancelMember m).array = s.array ∧
      ((s.cancelling h i target).cancelMember m).ledger = s.ledger ∧
      ((s.cancelling h i target).cancelMember m).sr.tick = s.sr.tick := by
  obtain ⟨hbc, -, -⟩ := State.memberGone_cancelling ht target hx
  obtain ⟨-, -, -, -, harray, hledger, -, htick⟩ := s.cancelling_frame h i target
  obtain ⟨-, -, hgledger, -, -⟩ := (s.cancelling h i target).memberGone_frame m
  obtain ⟨hleft, -, hwledger, -⟩ := ((s.cancelling h i target).memberGone m).afterWithdrawal_work
  have hframe := (s.cancelling h i target).cancelMember_frame m
  refine ⟨hbc ▸ hleft, hframe.array.trans harray, (hwledger.trans hgledger).trans hledger, ?_⟩
  rw [hframe.sr, htick]

include hc

/-- The CANCEL's own slot is still its own when the member has been cancelled. -/
theorem State.keeps_cancelling_cancelled :
    ((s.cancelling h i target).cancelMember m).Keeps i
      { state := .answered, tag := h.tag, request := .cancel target } := by
  obtain ⟨hji, -⟩ := State.slot_cancelling_other ht target (j := m.slot) (by rw [hx]; decide)
  exact ((State.keeps_cancelling ht target hc).memberGone hji).afterWithdrawal

end Cancelled

/-- Settles O40: the CANCEL's answer by the state of its target; the two slots keep their answers, and the batch by what the
member has left of it. -/
theorem cancelActs : Obligations.CancelActs := by
  unfold Obligations.CancelActs
  intro s h i j target m ht hc
  dsimp only
  have hexec := exec_cancel ht target
  rw [← State.takeSlot, ← State.cancelling]
  refine ⟨fun hf => ?_, fun hf hx => ?_, fun hf hx => ?_, fun hf hx => ?_, fun hf hx hm hq => ?_⟩
  · rw [hexec, cancelService_none hf]
    exact congrArg _ (State.answer_cancelling ht target _ _)
  · obtain ⟨-, hslot⟩ := State.slot_cancelling_other ht target (j := j) (by rw [hx]; decide)
    rw [hexec, cancelService_running hf (by rw [hslot, hx])]
    exact congrArg _ (State.answer_cancelling ht target _ _)
  · have hanswered : ((s.cancelling h i target).slot j).state = .answered := by
      rcases hx with rfl | hx
      · rw [State.slot_cancelling_self ht target]
      · rw [(State.slot_cancelling_other ht target (j := j) (by rw [hx]; decide)).2, hx]
    rw [hexec, cancelService_answered hf hanswered]
    exact congrArg _ (State.answer_cancelling ht target _ _)
  · exact (exec_cancel_queued ht hc hf hx).mono fun t ⟨hj, hi, ha⟩ => ⟨hj.unqueued, hj.slot, hi.slot, ha⟩
  · obtain rfl : m.slot = j := beq_iff_eq.1 (List.find?_some (p := fun o : Member => o.slot == j) hm)
    obtain ⟨hji, -⟩ := State.slot_cancelling_other ht target (j := m.slot) (by rw [hx]; decide)
    have hexec := exec_cancel_batched ht hf hx hm hq
    have htarget := State.keeps_cancelled ht target hx hq
    have hself := State.keeps_cancelling_cancelled ht hc target hx
    have hgoesOn := State.cancelled_goesOn ht target hx
    have hcompletes := State.cancelled_completes ht target hx
    have hdissolves := State.cancelled_dissolves ht target hx
    obtain ⟨hleft, harray, hledger, htick⟩ := State.cancelled_frame ht target hx
    generalize (s.cancelling h i target).cancelMember m = w at *
    rw [Batch.withdraw_eq] at hgoesOn hcompletes hdissolves hleft
    rw [State.atEnd_eq, State.answer_sr, htick] at hexec
    have hanswer := (hself.answer_self (State.lt_of_slot_state _ (by simp [hself.slot])) .ok [3]).slot
    have hkept := (State.slot_answer_ne w .ok [3] hji.symm).trans htarget.slot
    refine ⟨_, hexec, fun ho => ?_, fun ho => hkept.trans (if_pos ho), congrArg Slot.state hanswer,
      congrArg Slot.tag hanswer, congrArg Slot.response hanswer, ?_, ?_, fun hms hb => ?_, fun hms hb => ?_,
      fun hms he => ?_, fun hms he => ?_, harray, hledger⟩
    · refine Eq.trans hkept ?_
      rw [if_neg (Bool.eq_false_iff.1 ho), Batch.outcomeCode_withdrawable]
      rfl
    · rw [State.answer_bc]
      rcases hleft with hl | hl <;> simp [hl]
    · rw [State.answer_bc]
      have hnone : (s.bc.set.filter (fun e => !s.bc.goneWith m e.1)).any (fun e => s.bc.goneWith m e.1) = false := by
        simp
      rcases hleft with hl | hl <;> rw [hl]
      · exact hnone
      · rfl
    · obtain ⟨hbc, heu, hae⟩ := hgoesOn (fun _ => hb) (fun hn => absurd hn hms)
      exact ⟨hbc, by rw [State.answer_eu, heu]; rfl, hae⟩
    · obtain ⟨hbc, hraised⟩ := hcompletes hms hb
      refine ⟨hbc, ?_⟩
      dsimp only
      split
      · rw [EventUnit.lostReported_latched]
        exact hraised
      · exact hraised
    · obtain ⟨hbc, heu, hae⟩ := hdissolves hms he
      exact ⟨hbc, by rw [State.answer_eu, heu]; rfl, hae⟩
    · obtain ⟨hbc, heu, hae⟩ := hgoesOn (fun hn => absurd hms hn) (fun _ => he)
      refine ⟨?_, by rw [State.answer_eu, heu]; rfl, hae⟩
      rw [State.answer_bc, hbc, hms]
      rfl

end Sys2Proof.Machine
end

