-- ==== Sys2Proof/Proofs/Reports.lean ====
section
/-!
PROOFS. CONFIG_GET and SECTOR_INFO (R125, R201): what they report is read from blocks that the acceptance has not touched.
Settles O34.
-/

namespace Sys2Proof.Machine

/-- The report of the stored configuration, its two cases in one list (R201). -/
theorem ConfigStore.report_eq (c : ConfigStore) :
    c.report = c.active.octets ++
      (match c.current with
        | some id => 1 :: (Settings.ofOctets (c.copy id).octets).octets
        | none => List.replicate 13 0) := by
  unfold ConfigStore.report
  cases c.current <;> rfl

/-- The octet of an octet's own number. -/
theorem octet_toNat (b : Byte) : octet b.toNat = b := BitVec.ofNat_toNat 8 b |>.trans (BitVec.setWidth_eq b)

/-- What SECTOR_INFO reports rests on the ledger, the Protection Unit and the batch (R125). -/
theorem State.sectorInfo_congr {s t : State} (hl : t.ledger = s.ledger) (hp : t.pu = s.pu) (hb : t.bc = s.bc)
    (k : Nat) : t.sectorInfo k = s.sectorInfo k := by
  unfold State.sectorInfo State.entry State.protectionOctet State.isProtected State.roleOctet State.outcomeOctet
  rw [hl, hp, hb]

/-- The batch role that SECTOR_INFO reports, by whether there is a batch (R125). -/
theorem State.roleOctet_eq (s : State) (k : Nat) :
    s.roleOctet k =
      if s.bc.state = .none then 0
      else match s.bc.role k with
        | none => 0
        | some .pending => 1
        | some .erasing => 2
        | some (.done _) => 3 := by
  unfold State.roleOctet
  cases s.bc.state <;> rcases s.bc.role k with _ | (_ | _ | _) <;> rfl

/-- The outcome that SECTOR_INFO reports, by whether there is a batch (R125). -/
theorem State.outcomeOctet_eq (s : State) (k : Nat) :
    s.outcomeOctet k =
      if s.bc.state = .none then 0
      else match s.bc.role k with
        | some (.done o) => o.code
        | _ => 0 := by
  unfold State.outcomeOctet
  cases s.bc.state <;> rcases s.bc.role k with _ | (_ | _ | _) <;> rfl

/-- Settles O34: each report is the answer of an immediate request, read from blocks the acceptance leaves alone. -/
theorem reportsAnswer : Obligations.ReportsAnswer := by
  intro s h i k ht
  obtain ⟨-, -, hbc, hpu, hcs, -, hled, -⟩ := s.beforeAcceptance_frame h
  refine ⟨?_, fun hk => ?_, fun hk => ?_⟩
  · refine (requestStep_respond s h i .configGet .ok _ ht rfl).trans ?_
    rw [State.takeSlot_cs, hcs, ConfigStore.report_eq]
    rfl
  · have hcheck : sectorInfoCheck k = none := if_pos hk
    show requestStep h (.sectorInfo k) (sectorInfoCheck k) (sectorInfoService k) s = _
    rw [hcheck]
    refine (requestStep_respond s h i (.sectorInfo k) .ok _ ht rfl).trans ?_
    rw [State.sectorInfo_congr (t := (s.beforeAcceptance h).takeSlot i h.tag (.sectorInfo k)) hled hpu hbc,
      State.sectorInfo, State.roleOctet_eq, State.outcomeOctet_eq, octet_toNat]
    rfl
  · have hcheck : sectorInfoCheck k = some (.badParam, []) := if_neg (Nat.not_lt.2 hk)
    show requestStep h (.sectorInfo k) (sectorInfoCheck k) (sectorInfoService k) s = _
    rw [hcheck]
    exact requestStep_refused s h i (.sectorInfo k) .badParam [] _ ht rfl

end Sys2Proof.Machine
end

