-- ==== Sys2Proof/Proofs/ReadSteps.lean ====
section
/-!
PROOFS. The steps of the engine that read the array, READ_COMPLETE and CHECK_REGION_STEP (sections 6.3 and 6.5): what a
span reads as, the step as one operation, and the answer at its end. Settles O47.
-/

namespace Sys2Proof.Machine

/-- A span reads as stored where its sector is Normal, and as free values elsewhere (R113, R117). -/
theorem State.senseSpan_eq (s : State) (start n : Nat) :
    s.senseSpan start n = (List.range n).map (fun k =>
      if (s.entry ((start + k) / 8192)).condition = .normal then s.array.read (start + k)
      else Config.freeByte (s.freeCount + k)) := by
  refine List.map_congr_left fun k _ => ?_
  simp only [State.sense, State.contentDefined, sectorOf, sectorSize, beq_iff_eq]

section Steps

variable {s : State} (h : s.coherent = true)
include h

/-- A READ in the array completes in its single step (R116). -/
theorem exec_readComplete_eq {op : ReadOp} (he : s.ae.engine = .reading op) :
    exec .readComplete s = .next (s.readDone op) := by
  have hin := (State.agrees_of_coherent h).batch.inArray
  rw [he] at hin
  simp only [exec, execReadComplete, he]
  exact if_pos hin

/-- A CHECK_REGION in the array takes one program line (R124). -/
theorem exec_checkRegionStep_eq {op : CheckOp} (he : s.ae.engine = .checking op) :
    exec .checkRegionStep s = .next (s.checkLine op) := by
  have hin := (State.agrees_of_coherent h).batch.inArray
  rw [he] at hin
  simp only [exec, execCheckRegionStep, he]
  exact if_pos hin

/-- The request of the running operation, ended after `n` free values have been handed out, holds its answer, and the
array is as before (R100, R113). -/
theorem State.finishFreed_spent {i : Nat} (hi : s.ae.engine.slot? = some i) (ho : (s.slot i).orphaned = false) (n : Nat)
    (results : List Byte) :
    ((s.spendFree n).finishRunning i .ok results).engineFreed.slot i =
        { s.slot i with
          state := .answered, completion := s.rd.nextCompletion
          response := (s.slot i).request.code :: 0 :: results } ∧
      ((s.spendFree n).finishRunning i .ok results).engineFreed.array = s.array := by
  have hs : (s.spendFree n).Agrees := (State.agrees_of_coherent h).congr rfl rfl rfl rfl
  exact ⟨hs.slot_finishFreed hi ho .ok results, ((s.spendFree n).finishFreed_frame i .ok results).array⟩

end Steps

/-- Settles O47: each step is one operation, which hands over what the span reads as, goes on, or answers. -/
theorem readsAndChecksComplete : Obligations.ReadsAndChecksComplete := by
  intro s rop cop h
  refine ⟨fun he hgot ho => ?_, fun he => ⟨fun hmore => ?_, fun hlast ho => ?_⟩⟩
  · refine ⟨_, exec_readComplete_eq h he, ?_⟩
    rw [State.readDone, hgot, State.senseSpan_eq]
    exact State.finishFreed_spent h (by rw [he]; rfl) ho rop.count _
  · refine (exec_checkRegionStep_eq h he).trans ?_
    rw [State.checkLine, State.senseSpan_eq]
    exact congrArg _ (if_pos hmore)
  · refine ⟨_, exec_checkRegionStep_eq h he, ?_⟩
    rw [State.checkLine, if_neg (show ¬cop.next + cop.stepLength < _ from Nat.not_lt.2 hlast), State.senseSpan_eq]
    exact State.finishFreed_spent h (by rw [he]; rfl) ho _ _

end Sys2Proof.Machine
end

