-- ==== Sys2Proof/Proofs/ProgramSteps.lean ====
section
/-!
PROOFS. One octet of a PROGRAM (R110, R120 to R122): what its pulses leave, and that the step either goes on from there or
ends in PROGRAM_FAULT. Settles O49.
-/

namespace Sys2Proof.Machine

/-! ### What pulses leave (R110, R120) -/

/-- The bits that some pulses clear are those of the first and those of the others. -/
theorem clearedBy_succ (n : Nat) (pulses : List Byte) :
    clearedBy (n + 1) pulses = pulses.headD 0 ||| clearedBy n pulses.tail := by
  cases pulses with
  | nil => simp [clearedBy]
  | cons p rest => exact clearedBy_cons n p rest

/-- Pulses leave of an octet what one pulse leaves that names the bits of all: those after it has verified change
nothing (R120). -/
theorem pulseOctet_fst (target : Byte) (n : Nat) (pulses : List Byte) (old : Byte) :
    (pulseOctet target n pulses old).1 = pulseOnce old target (clearedBy n pulses) := by
  induction n generalizing pulses old with
  | zero => exact (pulseOnce_zero old target).symm
  | succ n ih =>
    rw [clearedBy_succ, ← pulseOnce_pulseOnce]
    simp only [pulseOctet]
    split
    case isTrue hv => rw [hv, pulseOnce_target]
    case isFalse => exact ih _ _

/-! ### One octet of a PROGRAM -/

/-- The target of the octet in hand of a PROGRAM (R120). -/
def State.programTarget (s : State) (op : ProgramOp) (d : Byte) : Byte := s.array.read (op.addr + op.next) &&& d

/-- What sixteen pulses leave of the octet in hand (R110, R120). -/
def State.programLeft (s : State) (op : ProgramOp) (d : Byte) (pulses : List Byte) : Byte :=
  pulseOnce (s.array.read (op.addr + op.next)) (s.programTarget op d) (clearedBy 16 pulses)

/-- The record of a PROGRAM whose octet in hand is done (R121). -/
def State.programRecord (s : State) (op : ProgramOp) (d : Byte) : ProgramOp :=
  { op with
    next := op.next + 1
    pulseCount := 0
    pulsed := if s.programTarget op d = s.array.read (op.addr + op.next) then op.pulsed else op.pulsed + 1
    shortfall := if s.programTarget op d = d then op.shortfall else op.shortfall + 1 }

section Octet

variable {s : State} {op : ProgramOp} {d : Byte} {pulses : List Byte}

/-- The record of an octet done, in the terms of the model's operation (R120). -/
theorem State.programRecord_eq {pulsed : Bool}
    (hp : pulsed = true ↔ s.programTarget op d ≠ s.array.read (op.addr + op.next)) :
    op.advance pulsed (s.programTarget op d != d) = s.programRecord op d := by
  have hnext : op.pulsed + (if pulsed then 1 else 0) =
      if s.programTarget op d = s.array.read (op.addr + op.next) then op.pulsed else op.pulsed + 1 := by
    by_cases h : s.programTarget op d = s.array.read (op.addr + op.next) <;> simp [hp, h]
  have hshort : op.shortfall + (if s.programTarget op d != d then 1 else 0) =
      if s.programTarget op d = d then op.shortfall else op.shortfall + 1 := by
    by_cases h : s.programTarget op d = d <;> simp [h]
  simp only [ProgramOp.advance, State.programRecord, hnext, hshort]

/-- The array in which the octet in hand has taken its pulses: nothing is written where it holds its target (R120). -/
def State.programmed (s : State) (op : ProgramOp) (d : Byte) (pulses : List Byte) : State :=
  if s.programTarget op d = s.array.read (op.addr + op.next) then s
  else { s with array := s.array.write (op.addr + op.next) (s.programLeft op d pulses) }

/-- The pulses of an octet leave the others as they are (R110). -/
theorem State.programmed_read (hw : s.array.wf = true) (a : Nat) :
    (s.programmed op d pulses).array.read a =
      if a = op.addr + op.next then s.programLeft op d pulses else s.array.read a := by
  unfold State.programmed
  split
  case isTrue hold =>
    have hleft : s.programLeft op d pulses = s.array.read (op.addr + op.next) := by
      rw [State.programLeft, hold, pulseOnce_target]
    rw [hleft]
    split
    case isTrue ha => rw [ha]
    case isFalse => rfl
  case isFalse => exact Memory.read_write hw _ _ _

theorem State.programmed_eq : ∃ m, s.programmed op d pulses = { s with array := m } := by
  unfold State.programmed
  split
  · exact ⟨s.array, rfl⟩
  · exact ⟨_, rfl⟩

variable (hp : op.pulseCount = 0)
include hp

/-- An octet that its pulses bring to its target is done (R120, R121). -/
theorem State.programOctet_done (hd : s.programLeft op d pulses = s.programTarget op d) :
    s.programOctet op d pulses = (s.programmed op d pulses).programNext (s.programRecord op d) := by
  unfold State.programmed
  split
  case isTrue hold =>
    rw [← State.programRecord_eq (pulsed := false) (by simp [hold])]
    exact if_pos hold
  case isFalse hold =>
    have hverified := (pulseOctet_verifies _ 16 pulses _ (Ne.symm hold)).2 hd
    rw [← State.programRecord_eq (pulsed := true) (by simp [hold]), State.programLeft, ← pulseOctet_fst]
    simp only [State.programOctet, hp, pulseLimit, Nat.sub_zero]
    exact (if_neg hold).trans (if_pos hverified)

/-- An octet that sixteen pulses leave off its target ends the PROGRAM, its offset answered (R122). -/
theorem State.programOctet_short (hd : s.programLeft op d pulses ≠ s.programTarget op d) :
    s.programOctet op d pulses =
      ((s.programmed op d pulses).finishRunning op.slot .programFault [octet op.next]).engineFreed := by
  obtain ⟨hold, hfails⟩ := pulseOctet_fails hd
  rw [State.programmed, if_neg hold, State.programLeft, ← pulseOctet_fst]
  simp only [State.programOctet, hp, pulseLimit, Nat.sub_zero]
  exact (if_neg hold).trans (if_neg (Bool.eq_false_iff.1 hfails))

end Octet

/-- With octets left a PROGRAM goes on with the next (R121). -/
theorem State.programNext_more (s : State) {op : ProgramOp} (h : op.next < op.data.length) :
    s.programNext op = s.keepEngine (.programming op) := if_pos h

/-- With none left it completes, its two counts answered (R121). -/
theorem State.programNext_last (s : State) {op : ProgramOp} (h : op.data.length ≤ op.next) :
    s.programNext op = (s.finishRunning op.slot .ok [octet op.pulsed, octet op.shortfall]).engineFreed :=
  if_neg (Nat.not_lt.2 h)

/-- The step to the next octet leaves the array alone, whether the PROGRAM goes on or completes (R121). -/
theorem State.programNext_array (s : State) (op : ProgramOp) : (s.programNext op).array = s.array := by
  unfold State.programNext
  split
  · rfl
  · exact (s.finishFreed_frame _ _ _).array

/-- Settles O49: the octet in hand takes its pulses, and by whether it then holds its target the PROGRAM goes on, completes
or ends in PROGRAM_FAULT. -/
theorem programStepClearsBits : Obligations.ProgramStepClearsBits := by
  intro s op pulses d a h hw he hd hp ho
  have hs := State.agrees_of_coherent h
  obtain ⟨m, hm⟩ := State.programmed_eq (s := s) (op := op) (d := d) (pulses := pulses)
  have hread := State.programmed_read (op := op) (d := d) (pulses := pulses) hw a
  have hsm : State.Agrees { s with array := m } := hs.congr rfl rfl rfl rfl
  have hslot : s.ae.engine.slot? = some op.slot := by rw [he]; rfl
  refine ⟨_, exec_programStep pulses he hs.batch.inArray hd, ?_⟩
  by_cases hleft : s.programLeft op d pulses = s.programTarget op d
  · rw [State.programOctet_done hp hleft]
    refine ⟨?_, fun _ hmore => ?_, fun _ hlast => ?_, fun hne => absurd hleft hne⟩
    · rw [State.programNext_array, hread]
      rfl
    · rw [hm, State.programNext_more _ (by exact hmore)]
      rfl
    · rw [hm, State.programNext_last _ (by exact hlast)]
      exact hsm.slot_finishFreed hslot ho .ok _
  · rw [State.programOctet_short hp hleft]
    refine ⟨?_, fun heq => absurd heq hleft, fun heq => absurd heq hleft, fun _ => ?_⟩
    · rw [(State.finishFreed_frame _ _ _ _).array, hread]
      rfl
    · rw [hm]
      exact hsm.slot_finishFreed hslot ho .programFault _

end Sys2Proof.Machine
end

