-- ==== Sys2Proof/Proofs/BatchTimers.lean ====
section
/-!
PROOFS. The gather and the spacing timer of a batch (sections 7.4 and 7.6): the sector reached when gathering closes, and
the yield of a batch whose spacing timer matures. Settles O54.
-/

namespace Sys2Proof.Machine

/-! ### The sector work begins (R141, R143) -/

/-- The first sector reached is opened if the supply is good and nothing protects it (step 3 of R143). -/
theorem reachFrom_opens (s : State) {k : Nat} (rest : List Nat) (hlow : s.ae.supplyLow = false)
    (hp : s.isProtected k = false) : reachFrom (k :: rest) s = s.openSector k := by
  simp [reachFrom, hlow, hp]

/-- An opened sector, as one change of state (R126, R143, R150). -/
theorem State.openSector_eq (s : State) (k : Nat) :
    s.openSector k = { s with
      ledger := s.ledger.set k { condition := .torn, wear := min maxWear ((s.entry k).wear + 1) }
      bc := { s.bc.setRole k .erasing with
        spacing := if s.bc.spacing = .stopped then .running s.spacingTicks else s.bc.spacing }
      ae := { s.ae with engine := .erasingSector { sector := k } } } := by
  have hsame : (s.bc.setRole k .erasing).spacing = s.bc.spacing := rfl
  simp only [State.openSector, State.ledgerOpen, hsame]
  split <;> rfl

/-- With the engine Idle and no sector suspended, a batch that enters Erasing reaches its Pending sectors (R141). -/
theorem State.enterErasing_reaches (s : State) (he : s.ae.engine = .idle) (hh : s.bc.held = none) :
    s.enterErasing = reachFrom s.bc.pendingSectors
      { s with bc := { s.bc with state := .erasing, gather := .stopped } } := by
  have hidle : s.enterErasing = State.beginWork { s with bc := { s.bc with state := .erasing, gather := .stopped } } :=
    if_pos (s.engineIdle_iff.2 he)
  rw [hidle, State.beginWork]
  simp only [hh]
  rfl

/-! ### The commands -/

theorem exec_gatherExpiry_due (s : State) (h : s.bc.gather = .running 0) : exec .gatherExpiry s = .next s.gatherExpiry :=
  if_pos (by rw [h]; rfl)

theorem exec_gatherExpiry_void (s : State) (h : s.bc.gather ≠ .running 0) : exec .gatherExpiry s = .next s :=
  if_neg (by simpa [Timer.isDue] using h)

theorem exec_spacingExpiry_due (s : State) (h : s.bc.spacing = .running 0) :
    exec .spacingExpiry s = .next s.spacingExpiry := if_pos (by simp [State.spacingDue, h])

theorem exec_spacingExpiry_void (s : State) (h : s.bc.spacing ≠ .running 0) : exec .spacingExpiry s = .next s :=
  if_neg (by simpa [State.spacingDue] using h)

/-- A runnable head makes an Erasing batch that may yield do so, and the examination stops (R149, R151). -/
theorem State.examine_yields (s : State) {i : Nat} (hq : s.rd.queue.head? = some i) (hst : s.bc.state = .erasing)
    (hk : s.headKind (s.slot i).request = .runnable) (hy : s.mayYield = true) : s.examine = s.yieldBatch := by
  refine examineFor_stop _ ?_
  simp [State.lookAtHead, State.head, hq, hst, State.headErasing, State.refuseKind, hk, hy]

/-- Settles O54: a gather timer that is due opens the first Pending sector, a spacing timer that is due matures and lets a
runnable head make the batch yield, and a timer that is not due does nothing. -/
theorem batchTimersExpire : Obligations.BatchTimersExpire := by
  intro s k i rest op
  refine ⟨fun hst hdue he hq hh hsp hlow hpend hprot => ?_, exec_gatherExpiry_void s, fun hdue hrest => ?_,
    fun hdue hst hq hk hy he => ?_, exec_spacingExpiry_void s⟩
  · have hopen : s.enterErasing =
        (State.openSector { s with bc := { s.bc with state := .erasing, gather := .stopped } } k) := by
      rw [s.enterErasing_reaches he hh, hpend]
      exact reachFrom_opens _ rest hlow hprot
    rw [State.openSector_eq] at hopen
    have hsteps : s.gatherExpiry = s.enterErasing := by
      rw [State.gatherExpiry, if_pos hst, hopen]
      exact State.examine_empty _ hq rfl
    rw [exec_gatherExpiry_due s hdue, hsteps, hopen, hsp]
    rfl
  · rw [exec_spacingExpiry_due s hdue, State.spacingExpiry]
    dsimp only
    split
    case isTrue hst =>
      exact congrArg _ (State.examine_empty _ (hrest.resolve_left (absurd hst)) (by simp [hst]))
    case isFalse => rfl
  · have hyield : State.mayYield { s with bc := { s.bc with spacing := .mature } } = true := by
      simp [State.mayYield, hy, he]
    rw [exec_spacingExpiry_due s hdue, State.spacingExpiry, if_pos hst]
    exact congrArg _ (State.examine_yields { s with bc := { s.bc with spacing := .mature } } hq hst hk hyield)

end Sys2Proof.Machine
end

