-- ==== Sys2Proof/Proofs/InterruptedWrites.lean ====
section
/-!
PROOFS. What a reset or a supply-low entry leaves of a PROGRAM, and a reset of a store write (R130, R173, R206): the
nonvolatile state is that of the interruption, which is said once for each operation. Settles O13.
-/

namespace Sys2Proof.Machine

/-! ### The nonvolatile state that is left (R3, R18) -/

/-- The array, the protect store and the stored copies of `t` are those that the interruption of `s` leaves. -/
structure State.LeavesStores (s t : State) : Prop where
  array : t.array = s.interrupted.array
  protectBits : t.pu.protectBits = s.interrupted.pu.protectBits
  marker : t.pu.marker = s.interrupted.pu.marker
  copies : ∀ id, t.cs.copy id = s.interrupted.cs.copy id

/-- Power off leaves what the interruption leaves (R2, R3). -/
theorem State.powerDown_leavesStores (s : State) : s.LeavesStores s.powerDown :=
  ⟨rfl, rfl, rfl, fun id => by cases id <;> rfl⟩

/-- So does a pin reset of a Running device (R2, R3). -/
theorem State.resetAsserted_leavesStores (s : State) (hr : s.isRunning = true) : s.LeavesStores s.resetAsserted := by
  rw [State.resetAsserted, if_pos (.inr hr)]
  exact ⟨rfl, rfl, rfl, fun id => by cases id <;> rfl⟩

/-! ### What an interruption leaves -/

/-- The octets of `m'` are those of `m` but where the PROGRAM had still work to do; there a bit that is 1 in `m` and 0 in
the data may have changed to 0, and no other (R130). -/
def Memory.StoppedAt (m : Memory) (op : ProgramOp) (m' : Memory) : Prop :=
  ∀ a, (a < op.addr + op.next ∨ op.addr + op.data.length ≤ a → m'.read a = m.read a) ∧
    (op.addr + op.next ≤ a → a < op.addr + op.data.length →
      m'.read a &&& m.read a = m'.read a ∧
      m.read a &&& op.data.getD (a - op.addr) 0 &&& m'.read a = m.read a &&& op.data.getD (a - op.addr) 0)

section Interrupted

variable {s : State}

/-- Of a PROGRAM: each octet still to be done takes at most one pulse towards its data, the others stay (R130). -/
theorem State.interrupted_programming {op : ProgramOp} (he : s.ae.engine = .programming op) (hw : s.array.wf = true) :
    s.array.StoppedAt op s.interrupted.array := by
  have harray : s.interrupted.array =
      interruptedOctets s.array op.addr op.next s.freeCount (op.data.drop op.next) := by
    simp only [State.interrupted, he, State.spendFree]
  intro a
  rw [harray, read_interruptedOctets hw, List.length_drop]
  refine ⟨fun hout => if_neg (by omega), fun hlow hhigh => ?_⟩
  have hd : (op.data.drop op.next).getD (a - (op.addr + op.next)) 0 = op.data.getD (a - op.addr) 0 := by
    rw [List.getD_eq_getElem?_getD, List.getElem?_drop, List.getD_eq_getElem?_getD,
      show op.next + (a - (op.addr + op.next)) = a - op.addr by omega]
  rw [if_pos (by omega), hd]
  have hge := pulseOnce_ge (s.array.read a) (s.array.read a &&& op.data.getD (a - op.addr) 0)
    (Config.freeByte (s.freeCount + (a - (op.addr + op.next))))
  rw [← BitVec.and_assoc, BitVec.and_self] at hge
  exact ⟨pulseOnce_le _ _ _, hge⟩

/-- Of a PROTECT_GROUP: every protect bit, the marker and the copies; the write cell of its group alone is free (R173). -/
theorem State.interrupted_protect {slot group n : Nat} {b : Bool} (he : s.ae.engine = .storing (.protect slot group b n)) :
    s.interrupted.pu.protectBits = s.pu.protectBits ∧ s.interrupted.pu.marker = s.pu.marker ∧
      s.interrupted.cs = s.cs := by
  cases b <;> simp [State.interrupted, he, State.spendFree]

/-- Of an UNPROTECT_ALL: the marker, and before its opening step the protect bits too (R172, R173). -/
theorem State.interrupted_unprotect {slot n : Nat} {b : Bool} (he : s.ae.engine = .storing (.unprotect slot b n)) :
    s.interrupted.pu.marker = s.pu.marker ∧ (b = false → s.interrupted.pu.protectBits = s.pu.protectBits) := by
  cases b <;> simp [State.interrupted, he, State.spendFree]

@[simp] theorem ConfigStore.copy_setCopy_same (c : ConfigStore) (id : CopyId) (x : StoredCopy) :
    (c.setCopy id x).copy id = x := by cases id <;> rfl

@[simp] theorem ConfigStore.copy_setCopy_other (c : ConfigStore) (id : CopyId) (x : StoredCopy) :
    (c.setCopy id x).copy id.other = c.copy id.other := by cases id <;> rfl

/-- Of a CONFIG_STORE: the other copy, the octets of its target, and a commit mark that is clear (R206). -/
theorem State.interrupted_config {slot : Nat} {r : Settings} {id : CopyId} {g : Byte} {st : CopyStage}
    (he : s.ae.engine = .storing (.config slot r id g st)) :
    s.interrupted.cs.copy id.other = s.cs.copy id.other ∧
      (s.interrupted.cs.copy id).octets = (s.cs.copy id).octets ∧
      ((s.cs.copy id).committed = false → (s.interrupted.cs.copy id).committed = false) := by
  cases st with
  | clearMark =>
    simp only [State.interrupted, he, State.spendFree, ConfigStore.copy_setCopy_same, ConfigStore.copy_setCopy_other]
    exact ⟨trivial, trivial, fun h => by rw [h, Bool.false_and]⟩
  | _ => simp [State.interrupted, he]

end Interrupted

/-- A supply-low entry that finds a PROGRAM running leaves of the array what an interruption leaves (R8, R130). -/
theorem exec_supplyLowEntry_programming {s t : State} {rxd : Bool} {op : ProgramOp} (hr : s.isRunning = true)
    (hm : s.sr.monitor = .normal) (he : s.ae.engine = .programming op) (hw : s.array.wf = true)
    (h : exec (.supplyLowEntry rxd) s = .next t) : s.array.StoppedAt op t.array := by
  obtain ⟨u, hu, hexec⟩ := exec_supplyLowEntry s rxd hr hm
  have hue : u.ae.engine = .programming op := hu.engine.trans he
  have habandon : u.abandonWrites = (u.interrupted.finishRunning op.slot .supplyLow []).engineFreed := by
    simp only [State.abandonWrites, hue]
  cases h.symm.trans hexec
  rw [habandon, (State.finishFreed_frame _ _ _ _).array, ← hu.array]
  exact State.interrupted_programming hue (hu.array ▸ hw)

/-- A reset leaves in the stores what the interruption leaves (R2, R3). -/
theorem exec_reset_leavesStores {c : Instr} {s t : State} (h : exec c s = .next t)
    (hc : c = .powerOff ∨ (c = .pinReset ∧ s.isRunning = true)) : s.LeavesStores t := by
  rcases hc with rfl | ⟨rfl, hr⟩
  · cases h
    exact s.powerDown_leavesStores
  · cases h
    exact s.resetAsserted_leavesStores hr

/-- Settles O13: each of the three stops leaves what the interruption leaves, and that is said for each operation. -/
theorem interruptedWrites : Obligations.InterruptedWrites := by
  intro c rxd s t op a slot group n b r id g st hw h hc
  have hreset : c = .powerOff ∨ c = .pinReset → s.LeavesStores t := by
    intro hcr
    refine exec_reset_leavesStores h ?_
    rcases hc with hc | hc | ⟨rfl, -⟩
    · exact .inl hc
    · exact .inr hc
    · simp at hcr
  refine ⟨fun he => ?_, fun hcr => ⟨fun he => ?_, fun he => ?_, fun he => ?_⟩⟩
  · rcases hc with hc | hc | ⟨rfl, hr, hm⟩
    · rw [(hreset (.inl hc)).array]
      exact State.interrupted_programming he hw a
    · rw [(hreset (.inr hc.1)).array]
      exact State.interrupted_programming he hw a
    · exact exec_supplyLowEntry_programming hr hm he hw h a
  · obtain ⟨hbits, hmarker, hcs⟩ := State.interrupted_protect he
    have hleft := hreset hcr
    refine ⟨hleft.protectBits.trans hbits, hleft.marker.trans hmarker, ?_, ?_⟩
    · exact (hleft.copies .zero).trans (by rw [hcs]; rfl)
    · exact (hleft.copies .one).trans (by rw [hcs]; rfl)
  · obtain ⟨hmarker, hbits⟩ := State.interrupted_unprotect he
    have hleft := hreset hcr
    exact ⟨hleft.marker.trans hmarker, fun hb => hleft.protectBits.trans (hbits hb)⟩
  · rw [(hreset hcr).copies, (hreset hcr).copies]
    exact State.interrupted_config he

end Sys2Proof.Machine
end

