-- ==== Sys2Proof/Proofs/SectorErase.lean ====
section
/-!
PROOFS. A step of a sector's erase (sections 7.5 and 7.6): the work goes on or the sector ends; what closing a sector
leaves, which Pending sector is reached next, and the resumption and the service of a Yielded batch. Settles O52.
-/

namespace Sys2Proof.Machine

/-! ### One step of the work (R144) -/

/-- The sector's work after a step that does not end it: one more line, the erase phase, or one more pulse. -/
def EraseOp.onward (op : EraseOp) : EraseOp :=
  match op.phase with
  | .preProgram =>
    if op.line < 31 then { op with line := op.line + 1 } else { op with phase := .erase, line := 0 }
  | .erase => { op with pulses := op.pulses + 1 }

/-- The step does not end the work: not all reads FFh after this pulse, and pulses are left. -/
def EraseOp.Unended (op : EraseOp) (all : Bool) : Prop :=
  op.phase = .preProgram ∨ (op.phase = .erase ∧ all = false ∧ op.pulses + 1 < 2000)

/-- How the sector ends: Erased where all reads FFh, else Failed (R145). -/
def eraseOutcome (all : Bool) : SectorOutcome := if all then .erased else .failed

theorem State.sectorStep_goesOn (s : State) {op : EraseOp} {all : Bool} (h : op.Unended all) :
    s.sectorStep op all = s.sectorGoesOn op.onward := by
  unfold State.sectorStep EraseOp.onward lastLine sectorPulseLimit
  rcases h with hp | ⟨hp, hall, hlt⟩
  · simp only [hp]
    split <;> rfl
  · simp [hp, hall, hlt]

theorem State.sectorStep_closes (s : State) {op : EraseOp} {all : Bool} (hp : op.phase = .erase)
    (h : all = true ∨ 2000 ≤ op.pulses + 1) :
    s.sectorStep op all = (s.closeSector op.sector (eraseOutcome all)).afterSector := by
  unfold State.sectorStep sectorPulseLimit
  cases all with
  | true => simp [hp, eraseOutcome]
  | false =>
    have hge : ¬op.pulses + 1 < 2000 := Nat.not_lt.2 (h.resolve_left Bool.false_ne_true)
    simp [hp, hge, eraseOutcome]

theorem exec_sectorEraseStep_eq {s : State} {op : EraseOp} (he : s.ae.engine = .erasingSector op) (all : Bool) :
    exec (.sectorEraseStep all) s = .next (s.sectorStep op all) := by
  simp [exec, execSectorEraseStep, he]

/-- A batch that is Erasing goes on with the sector in hand (R144). -/
theorem State.sectorGoesOn_erasing (s : State) (op : EraseOp) (hst : s.bc.state = .erasing) :
    s.sectorGoesOn op = { s with ae := { s.ae with engine := .erasingSector op } } := by
  simp [State.sectorGoesOn, hst, State.keepEngine]

/-- A Yielded or Parked batch suspends it, and the head is examined (R151, R154). -/
theorem State.sectorGoesOn_suspends (s : State) (op : EraseOp) (hst : s.bc.state = .yielded ∨ s.bc.state = .parked) :
    s.sectorGoesOn op =
      State.examine { s with ae := { s.ae with engine := .idle }, bc := { s.bc with held := some op } } := by
  have hne : s.bc.state ≠ .erasing := by rcases hst with h | h <;> simp [h]
  rw [State.sectorGoesOn, if_pos hst, State.suspendSector, State.engineFreed]
  simp [hne]

/-! ### The end of a sector's work (R127, R145) -/

/-- Closing a sector's ledger entry sets its condition; the other entries, the protection and the supply stay. -/
theorem State.closeSector_kept (s : State) (k : Nat) (o : SectorOutcome) (hk : k < s.ledger.length) :
    (s.closeSector k o).pu = s.pu ∧ (s.closeSector k o).ae.supplyLow = s.ae.supplyLow ∧
      (s.closeSector k o).entry k =
        { s.entry k with condition := if o = .erased then .normal else .faulted } ∧
      ∀ j, j ≠ k → (s.closeSector k o).entry j = s.entry j := by
  have hother : ∀ (e : LedgerEntry) j, j ≠ k → (s.ledger.set k e).getD j {} = s.ledger.getD j {} := fun e j hj => by
    simp [List.getD_eq_getElem?_getD, List.getElem?_set_ne hj.symm]
  unfold State.closeSector State.ledgerClose
  dsimp only
  split
  · exact ⟨rfl, rfl, by simp [State.entry, List.getD_eq_getElem?_getD, hk], hother _⟩
  · exact ⟨rfl, rfl, by simp [State.entry, List.getD_eq_getElem?_getD, hk], hother _⟩

theorem State.closeSector_array (s : State) (k : Nat) (o : SectorOutcome) :
    (s.closeSector k o).array = if o = .erased then s.array.eraseSector k else s.array := by
  unfold State.closeSector
  dsimp only
  split <;> rfl

/-- A failed sector raises LEDGER_ATTENTION (R145). -/
theorem State.closeSector_failed_latched (s : State) (k : Nat) :
    (s.closeSector k .failed).eu.latched &&& 0x20 = 0x20 := by
  have hbit : ∀ b : Byte, (b ||| 0x20) &&& 0x20 = 0x20 := by decide
  exact hbit _

/-- A cause once latched stays so when others are added. -/
theorem latched_or {x : Byte} (h : x &&& 0x20 = 0x20) (y : Byte) : (x ||| y) &&& 0x20 = 0x20 := by
  have hbit : ∀ b : Byte, 0x20 ||| b &&& 0x20 = 0x20 := by decide
  rw [BitVec.and_comm, BitVec.and_or_distrib_left, BitVec.and_comm, h, BitVec.and_comm, hbit]

/-- Dealing with members leaves the Event Unit alone (stage 1 of R157). -/
theorem State.settleMembers_eu (s : State) (ms : List Member) : (ms.foldl State.settleMember s).eu = s.eu := by
  induction ms generalizing s with
  | nil => rfl
  | cons m rest ih =>
    refine (ih (s.settleMember m)).trans ?_
    unfold State.settleMember
    split
    · rw [State.releaseSlot_eq]
    · rfl

/-- The end of a batch clears no cause (R157, R160). -/
theorem State.finishBatch_latched (s : State) (h : s.eu.latched &&& 0x20 = 0x20) :
    s.finishBatch.eu.latched &&& 0x20 = 0x20 := by
  unfold State.finishBatch
  split
  · exact h
  · have hmembers : (s.bc.members.foldl State.settleMember s).eu.latched &&& 0x20 = 0x20 := by
      rw [State.settleMembers_eu]
      exact h
    refine latched_or (y := Cause.eraseComplete.mask) ?_
    unfold State.reportOrphans
    split
    · exact hmembers
    · rw [State.orphanResult_eq]
      exact latched_or (by simpa using hmembers) 0x10

/-! ### Reaching sectors (R143) -/

/-- Reaching sectors leaves the queue alone, makes no batch Yielded, and clears no cause. -/
theorem reachFrom_quiet (ks : List Nat) (s : State) :
    (reachFrom ks s).rd.queue = s.rd.queue ∧
      (s.bc.state ≠ .yielded → (reachFrom ks s).bc.state ≠ .yielded) ∧
      (s.eu.latched &&& 0x20 = 0x20 → (reachFrom ks s).eu.latched &&& 0x20 = 0x20) := by
  have hend : ∀ u : State, u.finishBatch.bc.state ≠ .yielded := fun u => by rw [u.finishBatch_work.1]; decide
  induction ks generalizing s with
  | nil => exact ⟨s.finishBatch_work.2.2.2, fun _ => hend s, s.finishBatch_latched⟩
  | cons k rest ih =>
    unfold reachFrom
    split
    · exact ⟨(State.finishBatch_work _).2.2.2, fun _ => hend _, State.finishBatch_latched { s with bc := { s.bc.abortRest with held := none } }⟩
    · split
      · exact ih (s.skipSector k)
      · rw [State.openSector_eq]
        exact ⟨rfl, id, id⟩

/-- A sector that is not among those to reach keeps its ledger entry. -/
theorem reachFrom_entry {ks : List Nat} (s : State) {j : Nat} (hj : j ∉ ks) : (reachFrom ks s).entry j = s.entry j := by
  have hend : ∀ u : State, u.finishBatch.entry j = u.entry j := fun u => by
    rw [State.entry, u.finishBatch_work.2.2.1, State.entry]
  induction ks generalizing s with
  | nil => exact hend s
  | cons k rest ih =>
    have hjk := List.ne_of_not_mem_cons hj
    have hrest := List.not_mem_of_not_mem_cons hj
    unfold reachFrom
    split
    · exact hend _
    · split
      · exact ih (s.skipSector k) hrest
      · rw [State.openSector_eq]
        simp [State.entry, List.getD_eq_getElem?_getD, List.getElem?_set_ne (Ne.symm hjk)]

/-- With an empty queue the end of a sector's work in an Erasing batch only reaches the next (R145). -/
theorem State.afterSector_quiet (s : State) (hst : s.bc.state = .erasing) (hq : s.rd.queue = []) :
    s.afterSector = reachFrom s.bc.pendingSectors s := by
  obtain ⟨hqueue, hstate, -⟩ := reachFrom_quiet s.bc.pendingSectors s
  have hstay : (reachFrom s.bc.pendingSectors s).examine = reachFrom s.bc.pendingSectors s :=
    State.examine_empty _ (hqueue.trans hq) (by simp [hstate (by simp [hst])])
  rw [State.afterSector, if_pos hst]
  dsimp only [State.examineIfMoved]
  rw [hstay]
  split
  · rfl
  · split <;> rfl

/-- Several sectors skipped as protected (step 2 of R143). -/
def State.skipAll (s : State) (ns : List Nat) : State :=
  { s with bc := { s.bc with
      set := s.bc.set.map (fun e => if e.1 ∈ ns then (e.1, .done .skippedProtected) else e) } }

theorem State.skipAll_nil (s : State) : s.skipAll [] = s := by
  simp [State.skipAll]

theorem State.skipAll_cons (s : State) (n : Nat) (ns : List Nat) :
    s.skipAll (n :: ns) = (s.skipSector n).skipAll ns := by
  simp only [State.skipAll, State.skipSector, Batch.setRole, List.map_map]
  refine congrArg (fun l => { s with bc := { s.bc with set := l } }) (List.map_congr_left fun e _ => ?_)
  by_cases hn : e.1 = n <;> by_cases hm : e.1 ∈ ns <;> simp [hn, hm]

/-- With a good supply the protected sectors before the first unprotected one are skipped, and that one is opened
(R143). -/
theorem reachFrom_skips {ks : List Nat} (s : State) {k : Nat} {rest : List Nat} (hlow : s.ae.supplyLow = false)
    (hk : ks.dropWhile s.isProtected = k :: rest) :
    reachFrom ks s = (s.skipAll (ks.takeWhile s.isProtected)).openSector k := by
  induction ks generalizing s with
  | nil => cases hk
  | cons n ns ih =>
    cases hp : s.isProtected n with
    | true =>
      rw [List.dropWhile_cons_of_pos hp] at hk
      rw [List.takeWhile_cons_of_pos hp, State.skipAll_cons]
      have hskip : reachFrom (n :: ns) s = reachFrom ns (s.skipSector n) := by simp [reachFrom, hlow, hp]
      exact hskip.trans (ih (s.skipSector n) hlow hk)
    | false =>
      rw [List.dropWhile_cons_of_neg (by simp [hp])] at hk
      rw [List.takeWhile_cons_of_neg (by simp [hp]), State.skipAll_nil]
      cases hk
      exact reachFrom_opens s rest hlow hp

/-! ### The Pending sectors of a set -/

theorem Batch.pendingSectors_eq (b : Batch) :
    b.pendingSectors = (b.set.filter (fun e => e.2 = .pending)).map (fun e => e.1) := by
  unfold Batch.pendingSectors
  induction b.set with
  | nil => rfl
  | cons e rest ih => by_cases h : e.2 = .pending <;> simp [h, ih]

theorem Batch.mem_pendingSectors {b : Batch} {n : Nat} : n ∈ b.pendingSectors ↔ (n, .pending) ∈ b.set := by
  simp [Batch.pendingSectors_eq]

theorem Batch.pendingSectors_rising {b : Batch} (h : (b.set.map (fun e => e.1)).Pairwise (· < ·)) :
    b.pendingSectors.Pairwise (· < ·) := by
  rw [Batch.pendingSectors_eq]
  exact h.sublist (List.filter_sublist.map _)

/-- In a rising list the elements before the first that fails a test are those below it. -/
theorem mem_takeWhile_iff_lt {l : List Nat} {p : Nat → Bool} {k : Nat} {rest : List Nat} (h : l.Pairwise (· < ·))
    (hk : l.dropWhile p = k :: rest) (n : Nat) : n ∈ l.takeWhile p ↔ n ∈ l ∧ n < k := by
  have hl : l = l.takeWhile p ++ k :: rest := by rw [← hk, List.takeWhile_append_dropWhile]
  rw [hl, List.pairwise_append, List.pairwise_cons] at h
  obtain ⟨-, ⟨habove, -⟩, hbelow⟩ := h
  refine ⟨fun hn => ⟨(List.takeWhile_sublist p).subset hn, hbelow n hn k List.mem_cons_self⟩, fun ⟨hn, hlt⟩ => ?_⟩
  rw [hl, List.mem_append, List.mem_cons] at hn
  rcases hn with hn | rfl | hn
  · exact hn
  · exact absurd hlt (Nat.lt_irrefl _)
  · exact absurd (habove n hn) (Nat.lt_asymm hlt)

/-- A sector that was not Pending and is done leaves the others Pending as they are. -/
theorem Batch.pendingSectors_setRole_done (b : Batch) {k : Nat} (hk : (k, Role.pending) ∉ b.set) (o : SectorOutcome) :
    (b.setRole k (.done o)).pendingSectors = b.pendingSectors := by
  simp only [Batch.pendingSectors, Batch.setRole, List.filterMap_map]
  refine List.filterMap_congr fun e he => ?_
  obtain ⟨n, r⟩ := e
  by_cases hn : n = k
  · subst hn
    have hr : r ≠ .pending := fun h => hk (h ▸ he)
    simp [hr]
  · simp [hn]

/-! ### A Yielded batch (R151 to R153) -/

/-- With an empty queue and an Idle engine a yield ends, and the suspended sector resumes (R153). -/
theorem State.examine_resumes (s : State) {op : EraseOp} (hst : s.bc.state = .yielded) (hq : s.rd.queue = [])
    (he : s.ae.engine = .idle) (hh : s.bc.held = some op) (hl : s.ae.supplyLow = false) :
    s.examine = { s with
      ae := { s.ae with engine := .erasingSector op }
      bc := { s.bc with
        state := .erasing, held := none, gather := .stopped
        spacing := .running s.cs.active.yieldSpacing.toNat } } := by
  have hlook : s.lookAtHead = .again s.enterErasing := by
    simp [State.lookAtHead, State.head, hq, hst, State.engineIdle, he]
  have henter : s.enterErasing = { s with
      ae := { s.ae with engine := .erasingSector op }
      bc := { s.bc with
        state := .erasing, held := none, gather := .stopped
        spacing := .running s.cs.active.yieldSpacing.toNat } } := by
    simp [State.enterErasing, State.engineIdle, State.beginWork, State.startSpacing, State.spacingTicks, he, hh, hl]
  refine (examineFor_again _ hlook).trans (examineFor_stop _ ?_)
  rw [henter]
  exact State.lookAtHead_empty _ hq (by simp)

/-- A runnable READ at the head is served within the budget while the engine is Idle (R152). -/
theorem State.examine_serves (s : State) {i : Nat} {later : List Nat} {addr : Word24} {count : Byte}
    (hst : s.bc.state = .yielded) (hq : s.rd.queue = i :: later) (he : s.ae.engine = .idle)
    (hr : (s.slot i).request = .read addr count) (hk : s.headKind (.read addr count) = .runnable)
    (hy : s.cs.active.yieldEnable = 1) (hb : s.bc.yieldCount < s.cs.active.yieldBudget.toNat) :
    s.examine = (s.startHead i).countServed := by
  have htouch : s.touchesBatch addr.toNat count.toNat = false := by
    by_contra ht
    simp [State.headKind, ht] at hk
  have htry : s.tryStart i = .stop (s.startHead i) := by
    rw [State.tryStart, hr, State.dynamicCheck_read, htouch]
    rfl
  refine examineFor_stop _ ?_
  simp [State.lookAtHead, State.head, hq, hst, State.headYielded, hr, hk, State.refuseKind, State.engineIdle, he,
    State.mayServe, hy, hb, htry]

/-- The end of a running request leaves the batch and the queue as they are, the engine Idle (R100). -/
theorem State.finishRunning_work (s : State) (i : Nat) (st : Status) (results : List Byte) :
    (s.finishRunning i st results).bc = s.bc ∧
      (s.finishRunning i st results).ae = { s.ae with engine := .idle } ∧
      (s.finishRunning i st results).rd.queue = s.rd.queue := by
  cases h : (s.slot i).orphaned with
  | true =>
    rw [State.finishRunning_orphaned s i st results h, State.releaseSlot_eq, State.orphanResult_eq]
    exact ⟨rfl, rfl, rfl⟩
  | false =>
    rw [State.finishRunning_answered s i st results h]
    exact ⟨rfl, rfl, rfl⟩

/-- A served request that ends with an empty queue ends the yield (R153). -/
theorem State.finishFreed_resumes (s : State) {op : EraseOp} (i : Nat) (st : Status) (results : List Byte)
    (hst : s.bc.state = .yielded) (hq : s.rd.queue = []) (hh : s.bc.held = some op) (hl : s.ae.supplyLow = false) :
    (s.finishRunning i st results).engineFreed.ae.engine = .erasingSector op ∧
      (s.finishRunning i st results).engineFreed.bc = { s.bc with
        state := .erasing, held := none, gather := .stopped
        spacing := .running s.cs.active.yieldSpacing.toNat } := by
  obtain ⟨hbc, hae, hqueue⟩ := s.finishRunning_work i st results
  have hcs := (s.finishRunning_frame i st results).cs
  have hfreed : (s.finishRunning i st results).engineFreed = (s.finishRunning i st results).examine := by
    simp [State.engineFreed, hbc, hst]
  rw [hfreed, State.examine_resumes _ (hbc ▸ hst) (hqueue.trans hq) (by rw [hae]) (hbc ▸ hh) (by rw [hae]; exact hl)]
  exact ⟨rfl, by rw [hbc, hcs]⟩

/-! ### The steps of a coherent state -/

section Steps

variable {s : State} {op : EraseOp} (h : s.coherent = true) (he : s.ae.engine = .erasingSector op)
include h he

/-- The sector in hand lies in the array, is Erasing and not Pending, and none is suspended beside it. -/
theorem State.sector_inHand :
    op.sector < s.ledger.length ∧ (op.sector, Role.pending) ∉ s.bc.set ∧ s.bc.held = none := by
  have hs := State.agrees_of_coherent h
  have hb := he ▸ hs.batch
  have hrole : (op.sector, Role.erasing) ∈ s.bc.set := (hb.hand _).2 ⟨op, .inl rfl, rfl⟩
  refine ⟨hs.ledger ▸ hb.sectors _ hrole, fun hp => ?_, hb.single op rfl⟩
  have heq := ((s.bc.role_eq_some_iff hb.rising _ _).2 hrole).symm.trans ((s.bc.role_eq_some_iff hb.rising _ _).2 hp)
  cases heq

/-- A closed sector leaves the Pending ones to be reached. -/
theorem State.pendingSectors_closeSector (o : SectorOutcome) :
    (s.closeSector op.sector o).bc.pendingSectors = s.bc.pendingSectors := by
  rw [(s.closeSector_work op.sector o).1]
  exact s.bc.pendingSectors_setRole_done (s.sector_inHand h he).2.1 o

/-- With an empty queue a sector closed in an Erasing batch keeps its new entry while the next is reached. -/
theorem State.afterSector_closed (o : SectorOutcome) (hst : s.bc.state = .erasing) (hq : s.rd.queue = []) :
    (s.closeSector op.sector o).afterSector = reachFrom s.bc.pendingSectors (s.closeSector op.sector o) ∧
      (s.closeSector op.sector o).afterSector.entry op.sector =
        { s.entry op.sector with condition := if o = .erased then .normal else .faulted } := by
  obtain ⟨hlt, hpend, -⟩ := s.sector_inHand h he
  obtain ⟨hbc, -, hrd, -⟩ := s.closeSector_work op.sector o
  have hreach := (s.closeSector op.sector o).afterSector_quiet (by rw [hbc]; exact hst) (by rw [hrd]; exact hq)
  rw [s.pendingSectors_closeSector h he] at hreach
  refine ⟨hreach, ?_⟩
  rw [hreach, reachFrom_entry _ (mt Batch.mem_pendingSectors.1 hpend), (s.closeSector_kept _ o hlt).2.2.1]

/-- What the end of a sector's work and the next sector's opening leave of the set (R143, R145). -/
theorem State.set_reached {k : Nat} {rest : List Nat} (r : Role)
    (hk : s.bc.pendingSectors.dropWhile s.isProtected = k :: rest) :
    (Batch.setRole { s.bc.setRole op.sector r with
        set := (s.bc.setRole op.sector r).set.map
          (fun e => if e.1 ∈ s.bc.pendingSectors.takeWhile s.isProtected then (e.1, .done .skippedProtected) else e) }
      k .erasing).set =
      s.bc.set.map (fun e =>
        if e.1 = op.sector then (e.1, r)
        else if e.1 = k then (e.1, .erasing)
        else if e.2 = .pending ∧ e.1 < k then (e.1, .done .skippedProtected)
        else e) := by
  have hrise := (State.agrees_of_coherent h).batch.rising
  have hpend := (s.sector_inHand h he).2.1
  have hmem := mem_takeWhile_iff_lt (Batch.pendingSectors_rising hrise) hk
  have hkp : (k, Role.pending) ∈ s.bc.set :=
    Batch.mem_pendingSectors.1 ((List.dropWhile_suffix _).subset (hk ▸ List.mem_cons_self))
  simp only [Batch.setRole, List.map_map]
  refine List.map_congr_left fun e hin => ?_
  obtain ⟨n, old⟩ := e
  have hskip : n ∈ s.bc.pendingSectors.takeWhile s.isProtected ↔ old = .pending ∧ n < k := by
    rw [hmem, Batch.mem_pendingSectors, ← s.bc.role_eq_some_iff hrise, (s.bc.role_eq_some_iff hrise n old).2 hin,
      Option.some.injEq]
  by_cases hn : n = op.sector
  · subst hn
    have hne : op.sector ≠ k := fun e => hpend (e ▸ hkp)
    have hold : old ≠ .pending := fun e => hpend (e ▸ hin)
    simp [hskip, hold, hne]
  · by_cases hnk : n = k
    · subst hnk
      simp [hn, hskip]
    · by_cases hs : n ∈ s.bc.pendingSectors.takeWhile s.isProtected
      · simp [hn, hnk, hs, hskip.1 hs]
      · simp [hn, hnk, hs, mt hskip.2 hs]

/-- The first unprotected Pending sector is opened in the step in which the sector in hand ends, one more erase counted
(R126, R143, R145). -/
theorem State.afterSector_opens (o : SectorOutcome) {k : Nat} {rest : List Nat} (hst : s.bc.state = .erasing)
    (hk : s.bc.pendingSectors.dropWhile s.isProtected = k :: rest) (hlow : s.ae.supplyLow = false) :
    (s.closeSector op.sector o).afterSector =
        ((s.closeSector op.sector o).skipAll (s.bc.pendingSectors.takeWhile s.isProtected)).openSector k ∧
      (s.closeSector op.sector o).afterSector.entry k =
        { condition := .torn, wear := min maxWear ((s.entry k).wear + 1) } := by
  obtain ⟨hlt, hpend, -⟩ := s.sector_inHand h he
  obtain ⟨hpu, hlow', -, hother⟩ := s.closeSector_kept op.sector o hlt
  obtain ⟨hbc, -, -, hlen⟩ := s.closeSector_work op.sector o
  have hprot : (s.closeSector op.sector o).isProtected = s.isProtected := by
    funext n
    rw [State.isProtected, State.isProtected, hpu]
  have hstate : (s.closeSector op.sector o).bc.state = .erasing := by rw [hbc]; exact hst
  have hreach := reachFrom_skips (ks := s.bc.pendingSectors) (s.closeSector op.sector o) (hlow'.trans hlow)
    (by rw [hprot]; exact hk)
  rw [hprot] at hreach
  have hopens : (s.closeSector op.sector o).afterSector =
      ((s.closeSector op.sector o).skipAll (s.bc.pendingSectors.takeWhile s.isProtected)).openSector k := by
    rw [State.afterSector, if_pos hstate, s.pendingSectors_closeSector h he, hreach, State.openSector_eq]
    simp [State.engineIdle, State.examineIfMoved, State.skipAll, Batch.setRole]
  refine ⟨hopens, ?_⟩
  have hkp : (k, Role.pending) ∈ s.bc.set :=
    Batch.mem_pendingSectors.1 ((List.dropWhile_suffix _).subset (hk ▸ List.mem_cons_self))
  have hin : k < (s.closeSector op.sector o).ledger.length :=
    hlen.trans (State.agrees_of_coherent h).ledger ▸ (State.agrees_of_coherent h).batch.sectors _ hkp
  rw [hopens, State.openSector_eq, ← hother k (fun e => hpend (e ▸ hkp))]
  simp [State.entry, State.skipAll, List.getD_eq_getElem?_getD, hin]

end Steps

/-- Settles O52: the work goes on, is suspended, resumes or lets a READ be served; a sector that ends is closed, and the
next Pending one reached. -/
theorem sectorEraseSteps : Obligations.SectorEraseSteps := by
  intro s op all a k i rest later addr count rop h
  dsimp only
  refine ⟨fun he hst hq hp => ?_, fun he hst hq hp hall hlt => ?_, fun he hst hq hp hall => ?_,
    fun he hst hq hp hall hge => ?_, fun he hst hp hend hk hlow => ?_, fun he hst hq hun => ?_,
    fun he hst hq hun hlow => ?_, fun he hst hq hun hr hk hy hb => ?_, fun he hst hq hh hlow => ?_⟩
  · rw [exec_sectorEraseStep_eq he, s.sectorStep_goesOn (.inl hp), s.sectorGoesOn_erasing _ hst]
    simp only [EraseOp.onward, hp]
  · rw [exec_sectorEraseStep_eq he, s.sectorStep_goesOn (.inr ⟨hp, hall, hlt⟩), s.sectorGoesOn_erasing _ hst]
    simp only [EraseOp.onward, hp]
  · refine ⟨_, exec_sectorEraseStep_eq he all, ?_⟩
    rw [s.sectorStep_closes hp (.inl hall), hall]
    refine ⟨?_, (s.afterSector_closed h he _ hst hq).2⟩
    rw [(State.afterSector_frame _).array, s.closeSector_array]
    exact Memory.read_eraseSector _ _ _
  · refine ⟨_, exec_sectorEraseStep_eq he all, ?_⟩
    rw [s.sectorStep_closes hp (.inr hge), hall]
    obtain ⟨hreach, hentry⟩ := s.afterSector_closed h he (eraseOutcome false) hst hq
    refine ⟨?_, hentry, ?_⟩
    · rw [(State.afterSector_frame _).array, s.closeSector_array]
      rfl
    · rw [hreach]
      exact (reachFrom_quiet _ _).2.2 (s.closeSector_failed_latched op.sector)
  · refine ⟨_, exec_sectorEraseStep_eq he all, ?_⟩
    rw [s.sectorStep_closes hp hend]
    obtain ⟨hopens, hentry⟩ := s.afterSector_opens h he (eraseOutcome all) hst hk hlow
    obtain ⟨hbc, -, -, -⟩ := s.closeSector_work op.sector (eraseOutcome all)
    refine ⟨?_, ?_, ?_, ?_, ?_, hentry, fun hne => ?_⟩
    all_goals simp only [hopens, State.openSector_eq, State.skipAll, hbc]
    · exact s.set_reached h he _ hk
    · exact hst
    · rfl
    · obtain ⟨-, -, hheld⟩ := s.sector_inHand h he
      exact hheld
    · exact if_neg hne
  · rw [exec_sectorEraseStep_eq he, s.sectorStep_goesOn hun, s.sectorGoesOn_suspends _ (.inr hst)]
    exact congrArg _ (State.examine_empty _ hq (by simp [hst]))
  · rw [exec_sectorEraseStep_eq he, s.sectorStep_goesOn hun, s.sectorGoesOn_suspends _ (.inl hst)]
    exact congrArg _ (State.examine_resumes _ hst hq rfl rfl hlow)
  · refine ⟨_, exec_sectorEraseStep_eq he all, ?_⟩
    have hslot := (State.agrees_of_coherent h).slots.queued i (hq ▸ List.mem_cons_self)
    have hlt : i < s.rd.slots.length := s.rd.lt_of_state (by rw [hslot.1]; decide)
    have hserves := State.examine_serves
      { s with ae := { s.ae with engine := .idle }, bc := { s.bc with held := some op.onward } } hst hq rfl hr hk hy hb
    rw [s.sectorStep_goesOn hun, s.sectorGoesOn_suspends _ (.inl hst), hserves]
    refine ⟨rfl, ?_, ?_, ?_⟩
    · exact congrArg (State.startEngine _ i) hr
    · exact congrArg Slot.state (getD_set_self _ _ hlt)
    · exact fun hin => by simpa using (List.mem_filter.1 hin).2
  · refine ⟨_, exec_readComplete_eq h he, ?_⟩
    exact (s.spendFree rop.count).finishFreed_resumes rop.slot .ok _ hst hq hh hlow

end Sys2Proof.Machine
end

