-- ==== Sys2Proof/Proofs/ArrayFrame.lean ====
section
/-!
PROOFS. What leaves every octet of the array as it is (R110, R113): the operations of the line, the pins and the clocks,
which leave the ledger as well, then the engine's steps, each command and the device's own step. Settles O6.
-/

namespace Sys2Proof.Machine

/-! ### What touches neither the array nor the ledger -/

/-- The array and the ledger are as before. -/
structure State.SameMemory (s t : State) : Prop where
  array : t.array = s.array
  ledger : t.ledger = s.ledger

theorem State.SameMemory.refl (s : State) : s.SameMemory s := ⟨rfl, rfl⟩

theorem State.SameMemory.trans {a b c : State} (h : a.SameMemory b) (k : b.SameMemory c) : a.SameMemory c :=
  ⟨k.array.trans h.array, k.ledger.trans h.ledger⟩

theorem State.wake_sameMemory (s : State) (rxd : Bool) : s.SameMemory (s.wake rxd) := by
  obtain ⟨-, -, -, -, -, -, -, -, harray, hledger, -⟩ := s.wake_frame rxd
  exact ⟨harray, hledger⟩

theorem State.unheard_sameMemory (s : State) (level : Bool) (b : Timer) : s.SameMemory (s.unheard level b) := by
  obtain ⟨-, -, -, -, -, -, -, -, harray, hledger, -⟩ := s.unheard_frame level b
  exact ⟨harray, hledger⟩

theorem State.setRxd_sameMemory (s : State) (high : Bool) : s.SameMemory (s.setRxd high) := by
  have hlevel : s.SameMemory { s with pins := { s.pins with rxd := high } } := ⟨rfl, rfl⟩
  unfold State.setRxd
  split
  · exact .refl s
  · dsimp only
    split
    · unfold State.risingEdge
      split <;> exact ⟨rfl, rfl⟩
    · unfold State.fallingEdge
      split
      · exact hlevel.trans (State.wake_sameMemory _ false)
      all_goals exact ⟨rfl, rfl⟩

theorem State.settle_sameMemory (s : State) : s.SameMemory s.settle := by
  rw [State.settle_eq]
  exact ⟨rfl, rfl⟩

theorem State.maintChange_sameMemory (s : State) (rxd : Bool) : s.SameMemory (s.maintChange rxd) := by
  have hwake := s.wake_sameMemory rxd
  unfold State.maintChange
  split
  · dsimp only
    rw [State.offer_eq]
    exact ⟨hwake.array, hwake.ledger⟩
  · exact .refl s

theorem State.supplyLowExit_sameMemory (s : State) (rxd : Bool) : s.SameMemory (s.supplyLowExit rxd) := by
  have hwake := s.wake_sameMemory rxd
  unfold State.supplyLowExit
  split
  · dsimp only
    rw [State.offer_eq]
    exact ⟨hwake.array, hwake.ledger⟩
  · exact .refl s

theorem State.powerUp_sameMemory (s : State) : s.SameMemory s.powerUp := by
  unfold State.powerUp
  split
  · split <;> exact ⟨rfl, rfl⟩
  · exact .refl s

theorem State.resetReleased_sameMemory (s : State) : s.SameMemory s.resetReleased := by
  unfold State.resetReleased
  split
  · exact ⟨rfl, rfl⟩
  · exact .refl s

theorem State.loaded_sameMemory (s : State) (maint : Bool) : s.SameMemory (s.loaded maint) := ⟨rfl, rfl⟩

theorem State.dozeTest_sameMemory (s : State) : s.SameMemory s.dozeTest := by
  unfold State.dozeTest
  split
  · exact ⟨rfl, rfl⟩
  · exact .refl s

theorem State.passTime_sameMemory (s : State) : s.SameMemory s.passTime := ⟨rfl, rfl⟩

/-- A pin change that cannot reset the device touches neither (R2). -/
theorem State.takeInput_sameMemory (s : State) {c : PinChange} (hc : c.event.isReset = false) :
    s.SameMemory (s.takeInput c) := by
  have hmove : s.SameMemory { s with inputs := s.inputs.erase c } := ⟨rfl, rfl⟩
  unfold State.takeInput
  cases he : c.event with
  | rxd high => exact hmove.trans (State.setRxd_sameMemory _ high)
  | maint high => exact ⟨rfl, rfl⟩
  | rstn high => simp [he, PinEvent.isReset] at hc
  | vdd band => simp [he, PinEvent.isReset] at hc

/-! ### Characters and parcels -/

theorem State.onParcel_array (s : State) {handle : State → State} (h : ∀ t : State, t.SameBeyondSession (handle t)) :
    (s.onParcel handle).array = s.array := by
  unfold State.onParcel
  split
  · dsimp only
    split
    · rfl
    · exact (h _).array
  · exact (s.unheard_sameMemory _ _).array

theorem State.characters_array (s : State) (os : List Byte) : (s.characters os).array = s.array := by
  unfold State.characters
  split
  · exact (State.octetEvents_beyondSession _ os).array
  · exact (s.unheard_sameMemory _ _).array

theorem State.sampleBit_array (s : State) (samples : List Bool) : (s.sampleBit samples).array = s.array := by
  unfold State.sampleBit
  split
  · rfl
  · split
    · rfl
    · split
      · exact (State.octetEvent_beyondSession _ _).array
      · rfl

theorem State.keepaliveExpiry_array (s : State) (rxd : Bool) : (s.keepaliveExpiry rxd).array = s.array :=
  (State.teardown_beyondSession _ _).array.trans (s.wake_sameMemory rxd).array

theorem State.linkBreakReset_array (s : State) : s.linkBreakReset.array = s.array :=
  (State.teardown_beyondSession _ _).array

/-! ### The engine's steps that write no octet of the array -/

theorem State.readDone_array (s : State) (op : ReadOp) : (s.readDone op).array = s.array :=
  (State.finishFreed_frame (s.spendFree op.count) op.slot .ok _).array

theorem State.checkLine_array (s : State) (op : CheckOp) : (s.checkLine op).array = s.array := by
  unfold State.checkLine
  dsimp only
  split
  · rfl
  · exact (State.finishFreed_frame (s.spendFree op.stepLength) _ _ _).array

theorem State.protectStep_array (s : State) (slot group : Nat) (bitRead : Bool) (pulses : Nat) (verified : Bool) :
    (s.protectStep slot group bitRead pulses verified).array = s.array := by
  unfold State.protectStep
  dsimp only
  split
  · split
    · exact (s.finishFreed_frame _ _ _).array
    · rfl
  · split
    · exact (State.finishFreed_frame _ _ _ _).array
    · split
      · rfl
      · exact (State.finishFreed_frame _ _ _ _).array

theorem State.unprotectStep_array (s : State) (slot : Nat) (opened : Bool) (pulses : Nat) (bits cells : Word16) :
    (s.unprotectStep slot opened pulses bits cells).array = s.array := by
  unfold State.unprotectStep
  dsimp only
  split
  · rfl
  · split
    · exact (State.finishFreed_frame _ _ _ _).array
    · split
      · rfl
      · exact (State.finishFreed_frame _ _ _ _).array

theorem State.configStep_array (s : State) (slot : Nat) (record : Settings) (target : CopyId) (generation : Byte)
    (stage : CopyStage) (erased : Bool) (pulses : List Byte) :
    (s.configStep slot record target generation stage erased pulses).array = s.array := by
  cases stage with
  | clearMark => rfl
  | eraseCopy n =>
    simp only [State.configStep]
    split
    · rfl
    · split
      · rfl
      · exact (s.finishFreed_frame _ _ _).array
  | programOctet index pulseCount =>
    simp only [State.configStep]
    split
    · exact (State.finishFreed_frame _ _ _ _).array
    · split <;> rfl
  | commit => exact (State.finishFreed_frame _ _ _ _).array

/-- A step of the engine writes no octet, unless it is one of a PROGRAM or of a sector's erase (R110, R113). -/
theorem exec_engineStep_array {c : Instr} {s t : State} (he : isEngineStep c = true) (hc : mayChangeArray c = false)
    (h : exec c s = .next t) : t.array = s.array := by
  cases c with
  | readComplete =>
    simp only [exec, execReadComplete] at h
    split at h
    · split at h <;> cases h
      exact s.readDone_array _
    · cases h; rfl
  | checkRegionStep =>
    simp only [exec, execCheckRegionStep] at h
    split at h
    · split at h <;> cases h
      exact s.checkLine_array _
    · cases h; rfl
  | protectGroupStep verified =>
    simp only [exec, execProtectGroupStep] at h
    split at h <;> cases h
    · exact s.protectStep_array _ _ _ _ _
    · rfl
  | unprotectAllStep bits cells =>
    simp only [exec, execUnprotectAllStep] at h
    split at h <;> cases h
    · exact s.unprotectStep_array _ _ _ _ _
    · rfl
  | configStoreStep erased pulses =>
    simp only [exec, execConfigStoreStep] at h
    split at h <;> cases h
    · exact s.configStep_array _ _ _ _ _ _ _
    · rfl
  | programStep pulses => cases hc
  | sectorEraseStep all => cases hc
  | _ => cases he

/-! ### Initialisation -/

/-- Outside Running the engine is Idle (R3). -/
theorem State.engine_idle_outside {s : State} (h : s.coherent = true) (hr : s.isRunning = false) :
    s.ae.engine = .idle := by
  rcases (s.coherent_iff.1 h).2 with hrun | ⟨hidle, -⟩
  · rw [hr] at hrun
    cases hrun
  · exact hidle

/-- With an Idle engine the end of initialisation stops no write, whatever the supply (R4, R6). -/
theorem State.enterRunning_array (s : State) (rxd : Bool) (vdd : SupplyBand) (he : s.ae.engine = .idle) :
    (s.enterRunning rxd vdd).array = s.array := by
  unfold State.enterRunning
  cases vdd with
  | off => exact State.interrupted_array _ (congrArg Engine.isProgramming he)
  | good => rfl
  | low | middle =>
    dsimp only
    rw [State.enterInhibit_eq, State.abandonWrites]
    simp only [he]

/-! ### Every command -/

/-- No command but the writers and what stops a program changes an octet of the array. -/
theorem exec_array {c : Instr} {s t : State} (hs : s.coherent = true) (hc : mayChangeArray c = false)
    (h : exec c s = .next t) : t.array = s.array := by
  cases hr : requestOf c with
  | some hd =>
    rw [exec_request c hd.1 hd.2 hr] at h
    cases h
    exact s.onParcel_array (fun u => u.receiveRequest_beyondSession _ _ _ (Request.service_staysInSession _))
  | none =>
    by_cases he : isEngineStep c = true
    · exact exec_engineStep_array he hc h
    · cases c with
      | powerOn rstn =>
        simp only [exec, execPowerOn] at h
        split at h <;> cases h
        · exact (State.powerUp_sameMemory _).array
        · rfl
      | resetRelease => cases h; exact s.resetReleased_sameMemory.array
      | initialisationComplete maint rxd vdd =>
        simp only [exec, execInitialisationComplete] at h
        split at h
        case isTrue htop =>
          have hidle := State.engine_idle_outside hs (by simp [State.isRunning, htop])
          split at h <;> cases h
          · exact State.enterRunning_array _ _ _ hidle
          · exact State.enterRunning_array (s.loaded maint) _ _ rfl
        case isFalse => cases h; rfl
      | supplyLowExit rxd => cases h; exact (State.supplyLowExit_sameMemory _ _).array
      | dozeEntry =>
        simp only [exec, execDozeEntry] at h
        split at h <;> cases h <;> rfl
      | dozeWake => cases h; exact (s.wake_sameMemory false).array
      | settleComplete =>
        simp only [exec, execSettleComplete] at h
        split at h <;> cases h
        · exact s.settle_sameMemory.array
        · rfl
      | framingError low =>
        simp only [exec, execFramingError] at h
        split at h <;> cases h
        · rfl
        · exact (State.unheard_sameMemory _ _ _).array
      | longBreak =>
        simp only [exec, execLongBreak] at h
        split at h <;> cases h
        · exact s.linkBreakReset_array
        · rfl
      | hold | go | openingFence => cases h; exact s.characters_array _
      | abort | escapeViolation | overlong | parcelDiscarded => cases h; exact s.characters_array _
      | hail hd payload => cases h; exact s.onParcel_array (fun u => u.receiveHail_beyondSession _ _)
      | ackReceived hd payload => cases h; exact s.onParcel_array (fun u => u.receiveAck_beyondSession _ _)
      | rejReceived hd payload => cases h; exact s.onParcel_array (fun u => u.receiveRej_beyondSession _)
      | holdLimitExpiry =>
        simp only [exec, execHoldLimitExpiry] at h
        split at h <;> cases h
        · exact s.holdExpiry_beyondSession.array
        · rfl
      | keepaliveExpiry rxd =>
        simp only [exec, execKeepaliveExpiry] at h
        split at h <;> cases h
        · exact s.keepaliveExpiry_array rxd
        · rfl
      | retransmitExpiry =>
        simp only [exec, execRetransmitExpiry] at h
        split at h <;> cases h
        · exact s.retransmitExpiry_beyondSession.array
        · rfl
      | gatherExpiry =>
        simp only [exec, execGatherExpiry] at h
        split at h <;> cases h
        · exact s.gatherExpiry_frame.array
        · rfl
      | spacingExpiry =>
        simp only [exec, execSpacingExpiry] at h
        split at h <;> cases h
        · exact s.spacingExpiry_frame.array
        · rfl
      | debouncedMaintChange rxd =>
        simp only [exec, execDebouncedMaintChange] at h
        split at h <;> cases h
        · exact (State.maintChange_sameMemory _ _).array
        · rfl
      | transmitterFree =>
        simp only [exec, execTransmitterFree] at h
        split at h <;> cases h
        · exact s.transmitterFree_beyondSession.array
        · rfl
      | shortBreak =>
        simp only [exec, execShortBreak] at h
        split at h <;> cases h <;> rfl
      | powerOff | pinReset | supplyLowEntry => cases hc
      | _ => simp_all [requestOf, isEngineStep]

/-! ### The device's own step -/

/-- The pin change in front is no reset while none is due (R14). -/
theorem State.nextInput_notReset {s : State} (h : s.dueReset = none) {c : PinChange} (hc : s.nextInput = some c) :
    c.event.isReset = false := by
  unfold State.nextInput at hc
  split at hc
  case h_1 d rest hin =>
    split at hc <;> cases hc
    case isTrue hafter =>
      by_contra hreset
      simp [State.dueReset, State.nextReset, hin, hafter, hreset] at h
  case h_2 => cases hc

/-- While no reset is due, a pin change that is due in a Running state is none (R14). -/
theorem State.due_input_notReset {s : State} (h : s.dueReset = none) {c : PinChange} (hd : s.due = some (.input c)) :
    c.event.isReset = false := by
  rcases s.due_cases _ hd with hd | hd | ⟨-, hd⟩ | hd | hd | hd | hd
  · rw [h] at hd
    cases hd
  · rcases s.dueTick_cases _ hd with hd | hd <;> cases hd
  · cases hd
  · unfold State.dueLine at hd
    split at hd
    · cases hd
    · split at hd
      · cases hd
      · obtain ⟨d, hnext, hdc⟩ := Option.map_eq_some_iff.1 hd
        cases hdc
        exact State.nextInput_notReset h hnext
  · rcases s.dueTimer_cases _ hd with ⟨hd, -⟩ | ⟨hd, -⟩ | ⟨hd, -⟩ | ⟨hd, -⟩ | ⟨hd, -⟩ <;> cases hd
  · unfold State.dueMaint at hd
    split at hd <;> cases hd
  · rcases s.dueTransmitter_cases _ hd with ⟨rest, hd⟩ | hd <;> cases hd

/-- The same outside Running (R2, R4). -/
theorem State.dueOutside_input_notReset {s : State} (h : s.dueReset = none) {c : PinChange}
    (hd : s.dueOutside = some (.input c)) : c.event.isReset = false := by
  rw [State.dueOutside, h] at hd
  rcases orElse_eq_some hd with hd | hd
  · cases hd
  · rcases orElse_eq_some hd with hd | hd
    · split at hd <;> cases hd
    · obtain ⟨d, hnext, hdc⟩ := Option.map_eq_some_iff.1 hd
      cases hdc
      exact State.nextInput_notReset h hnext

section Supplied

variable {s : State} (hv : s.pins.vdd = .good ∨ s.pins.vdd = .middle)
include hv

/-- A supply that is not low stops no work (R7, R8). -/
theorem State.dueSupply_sameMemory : s.SameMemory s.dueSupply := by
  unfold State.dueSupply
  split
  case h_1 hoff => rcases hv with hv | hv <;> rw [hv] at hoff <;> cases hoff
  case h_2 hlow _ => rcases hv with hv | hv <;> rw [hv] at hlow <;> cases hlow
  case h_3 => exact s.supplyLowExit_sameMemory _
  case h_4 => exact .refl s

theorem State.tickOnce_sameMemory : s.SameMemory s.tickOnce := by
  have hclocks : s.SameMemory (State.advanceClocks { s with sr := { s.sr with phase := 0 } }).dozeTest :=
    State.SameMemory.trans (b := State.advanceClocks { s with sr := { s.sr with phase := 0 } }) ⟨rfl, rfl⟩
      (State.dozeTest_sameMemory _)
  have hpins : (State.advanceClocks { s with sr := { s.sr with phase := 0 } }).dozeTest.pins = s.pins := by
    unfold State.dozeTest
    split <;> rfl
  have hactive := hclocks.trans (State.dueSupply_sameMemory (by rw [hpins]; exact hv))
  unfold State.tickOnce
  dsimp only
  split
  · exact ⟨rfl, rfl⟩
  · exact ⟨rfl, rfl⟩
  · exact ⟨rfl, rfl⟩
  · exact hactive
  · exact hactive

/-- What is due, but for a change of RSTn or VDD, changes no octet of the array. -/
theorem State.handle_array {d : Due} (hd : ∀ c, d = .input c → c.event.isReset = false) :
    (s.handle d).array = s.array := by
  cases d with
  | input c => exact (s.takeInput_sameMemory (hd c rfl)).array
  | tick => exact (State.tickOnce_sameMemory hv).array
  | doze => rfl
  | longBreak => exact s.linkBreakReset_array
  | sample samples => exact s.sampleBit_array samples
  | settled => exact s.settle_sameMemory.array
  | holdLimit => exact s.holdExpiry_beyondSession.array
  | keepalive => exact s.keepaliveExpiry_array _
  | retransmit => exact s.retransmitExpiry_beyondSession.array
  | gather => exact s.gatherExpiry_frame.array
  | spacing => exact s.spacingExpiry_frame.array
  | maint => exact (s.maintChange_sameMemory _).array
  | octetSent rest => rfl
  | transmitterFree => exact s.transmitterFree_beyondSession.array

theorem State.ownStep_array (h : s.coherent = true) (hreset : s.dueReset = none) : s.ownStep.array = s.array := by
  have hrunning : s.runningStep.array = s.array := by
    unfold State.runningStep
    split
    case h_1 d hd => exact State.handle_array hv (fun c hc => State.due_input_notReset hreset (hc ▸ hd))
    case h_2 =>
      cases hsel : s.select with
      | none => exact s.passTime_sameMemory.array
      | some t => exact (s.select_beyondSession t hsel).array
  have houtside : ∀ d, s.dueOutside = some d → (s.handle d).array = s.array := fun d hd =>
    State.handle_array hv (fun c hc => State.dueOutside_input_notReset hreset (hc ▸ hd))
  unfold State.ownStep
  split
  · exact hrunning
  · exact hrunning
  case h_3 htop =>
    unfold State.initialisingStep
    split
    · exact houtside _ ‹_›
    · split
      · exact (s.loaded_sameMemory _).array
      · split
        · exact s.enterRunning_array _ _ (State.engine_idle_outside h (by simp [State.isRunning, htop]))
        · exact s.passTime_sameMemory.array
  all_goals
    split
    · exact houtside _ ‹_›
    · exact s.passTime_sameMemory.array

end Supplied

/-- Settles O6: the other commands, and an own step that meets neither a reset nor a low supply, leave the array as it
is. -/
theorem arrayChangesOnlyByWriters : Obligations.ArrayChangesOnlyByWriters := by
  intro c s t a h
  refine ⟨fun hc ht => by rw [exec_array h hc ht], fun hp hreset hv ht => ?_⟩
  have hown : t = s.ownStep := by
    simp only [step, hp] at ht
    exact (Host.Outcome.next.inj ht).symm
  rw [hown, State.ownStep_array hv h hreset]

end Sys2Proof.Machine
end

