-- ==== Sys2Proof/Proofs/Wear.lean ====
section
/-!
PROOFS. No wear count falls (R126). Only the opening and the closing of a sector write the ledger: the first counts up
to the largest count, the second keeps it; every other operation is made of these two and of changes to other fields.
Settles O5.
-/

namespace Sys2Proof.Machine

/-! ### What it means, and the two writes of the ledger -/

/-- From `s` to `t` no wear count that was in range has fallen or left the range. -/
def State.WearKept (s t : State) : Prop :=
  ∀ k, (s.entry k).wear ≤ maxWear → (s.entry k).wear ≤ (t.entry k).wear ∧ (t.entry k).wear ≤ maxWear

/-- Reading a ledger entry after one of them has been written. -/
theorem getD_ledger_set (l : List LedgerEntry) (k : Nat) (e : LedgerEntry) (j : Nat) :
    (l.set k e).getD j {} = if j = k ∧ k < l.length then e else l.getD j {} := by
  simp only [List.getD_eq_getElem?_getD, List.getElem?_set]
  by_cases hjk : k = j
  · subst hjk
    by_cases hk : k < l.length
    · simp [hk]
    · simp [hk]
  · simp [hjk, Ne.symm hjk]

theorem State.WearKept.refl (s : State) : s.WearKept s := fun _ hk => ⟨Nat.le_refl _, hk⟩

section Kept

variable {s t : State} (h : s.WearKept t)
include h

namespace State.WearKept

/-- The wear counts are those of the ledger. -/
theorem same {u : State} (hu : u.ledger = t.ledger) : s.WearKept u := by
  intro k hk
  have hentry : u.entry k = t.entry k := congrArg (fun l => l.getD k {}) hu
  rw [hentry]
  exact h k hk

theorem memory {u : State} (hu : t.SameMemory u) : s.WearKept u := h.same hu.ledger

theorem answer (i : Nat) (st : Status) (results : List Byte) : s.WearKept (t.answer i st results) := h.same rfl

/-- An entry may be written by one whose count is in range and not lower. -/
theorem write {u : State} {k : Nat} {e : LedgerEntry} (hu : u.ledger = t.ledger.set k e)
    (he : (t.entry k).wear ≤ maxWear → (t.entry k).wear ≤ e.wear ∧ e.wear ≤ maxWear) : s.WearKept u := by
  intro j hj
  obtain ⟨hle, hmax⟩ := h j hj
  have hentry : u.entry j = if j = k ∧ k < t.ledger.length then e else t.entry j := by
    rw [State.entry, hu, getD_ledger_set]
    rfl
  rw [hentry]
  split
  case isTrue hjk =>
    obtain ⟨rfl, -⟩ := hjk
    exact ⟨hle.trans (he hmax).1, (he hmax).2⟩
  case isFalse => exact ⟨hle, hmax⟩

/-- The open update counts one more erase, up to the largest count (R126). -/
theorem openSector (k : Nat) : s.WearKept (t.openSector k) := by
  refine h.write (k := k) (e := { condition := .torn, wear := min maxWear ((t.entry k).wear + 1) })
    (by rw [State.openSector_eq]) (fun hmax => ⟨?_, Nat.min_le_left _ _⟩)
  exact Nat.le_min.2 ⟨hmax, Nat.le_succ _⟩

/-- The close update keeps the count (R127). -/
theorem closeSector (k : Nat) (o : SectorOutcome) : s.WearKept (t.closeSector k o) := by
  have hledger : ∃ c, (t.closeSector k o).ledger = t.ledger.set k { t.entry k with condition := c } := by
    unfold State.closeSector
    dsimp only
    split <;> exact ⟨_, rfl⟩
  obtain ⟨c, hc⟩ := hledger
  exact h.write hc (fun hmax => ⟨Nat.le_refl _, hmax⟩)

/-! ### The batch -/

theorem finishBatch : s.WearKept t.finishBatch := h.same t.finishBatch_work.2.2.1

theorem finishIfDone : s.WearKept t.finishIfDone := by
  unfold State.finishIfDone
  split
  · exact h
  · exact h.finishBatch

theorem abortBatch : s.WearKept t.abortBatch :=
  finishBatch (t := { t with bc := { t.bc.abortRest with held := none } }) (h.same rfl)

theorem reachFrom (ks : List Nat) : s.WearKept (reachFrom ks t) := by
  induction ks generalizing t with
  | nil => exact h.finishBatch
  | cons k rest ih =>
    unfold Machine.reachFrom
    split
    · exact h.abortBatch
    · split
      · exact ih (t := t.skipSector k) (h.same rfl)
      · exact h.openSector k

theorem beginWork : s.WearKept t.beginWork := by
  unfold State.beginWork
  split
  · split
    · exact h.abortBatch
    · exact h.same rfl
  · exact h.reachFrom _

theorem enterErasing : s.WearKept t.enterErasing := by
  have hentered : s.WearKept { t with bc := { t.bc with state := .erasing, gather := .stopped } } := h.same rfl
  unfold State.enterErasing
  dsimp only
  split
  · exact hentered.beginWork
  · exact hentered

theorem enterBatch (i : Nat) : s.WearKept (t.enterBatch i) := by
  have hadded : s.WearKept (t.addMember i) := h.same rfl
  unfold State.enterBatch
  dsimp only
  split
  · exact hadded.enterErasing
  · split
    · exact hadded.enterErasing
    · exact hadded.same rfl

/-! ### The head examination -/

theorem refuseKind {i : Nat} {kind : HeadKind} {u : State} (hu : t.refuseKind i kind = some u) : s.WearKept u := by
  cases kind <;> cases hu <;> exact h.same rfl

theorem tryStart (i : Nat) : s.WearKept (t.tryStart i).state := by
  unfold State.tryStart
  split <;> exact h.same rfl

theorem headNoBatch (i : Nat) : s.WearKept (t.headNoBatch i).state := by
  unfold State.headNoBatch
  split
  · exact h.enterBatch i
  · split
    · exact h.tryStart i
    · exact h

theorem headGathering (i : Nat) : s.WearKept (t.headGathering i).state := by
  unfold State.headGathering
  split
  · exact h.enterBatch i
  · exact h.enterErasing

theorem headErasing (i : Nat) : s.WearKept (t.headErasing i).state := by
  unfold State.headErasing
  split
  · exact h.refuseKind ‹_›
  · show s.WearKept (if t.mayYield then t.yieldBatch else t)
    split
    · exact h.same rfl
    · exact h

theorem headYielded (i : Nat) : s.WearKept (t.headYielded i).state := by
  unfold State.headYielded
  split
  · exact h.refuseKind ‹_›
  · split
    · exact h
    · split
      · have hstart := h.tryStart i
        split
        case h_1 u hu =>
          rw [hu] at hstart
          exact hstart.same rfl
        case h_2 u hu =>
          rw [hu] at hstart
          exact hstart
      · exact h.enterErasing

theorem headParked (i : Nat) : s.WearKept (t.headParked i).state := by
  unfold State.headParked
  split
  · exact h.refuseKind ‹_›
  · split
    · exact h.tryStart i
    · exact h

theorem lookAtHead : s.WearKept t.lookAtHead.state := by
  unfold State.lookAtHead
  split
  · split
    · exact h.enterErasing
    · exact h
  · split
    · exact h.headNoBatch _
    · exact h.headGathering _
    · exact h.headErasing _
    · exact h.headYielded _
    · exact h.headParked _

theorem examineFor (n : Nat) : s.WearKept (examineFor n t) := by
  induction n generalizing t with
  | zero => exact h
  | succ n ih =>
    have hlook := h.lookAtHead
    cases hu : t.lookAtHead with
    | stop u =>
      rw [hu] at hlook
      rw [examineFor_stop n hu]
      exact hlook
    | again u =>
      rw [hu] at hlook
      rw [examineFor_again n hu]
      exact ih hlook

theorem examine : s.WearKept t.examine := h.examineFor _

theorem engineFreed : s.WearKept t.engineFreed := by
  unfold State.engineFreed
  split
  · exact h.beginWork.examine
  · exact h.examine

theorem examineIfMoved (before : State) : s.WearKept (t.examineIfMoved before) := by
  unfold State.examineIfMoved
  split
  · exact h
  · exact h.examine

/-! ### The engine -/

/-- The end of a running request answers or releases its slot, then the engine is free (R100, R112). -/
theorem finishFreed (i : Nat) (st : Status) (results : List Byte) :
    s.WearKept (t.finishRunning i st results).engineFreed := by
  refine engineFreed (h.same ?_)
  cases ho : (t.slot i).orphaned with
  | true => rw [t.finishRunning_orphaned i st results ho, State.releaseSlot_eq, State.orphanResult_eq]
  | false => rw [t.finishRunning_answered i st results ho, State.answer_ledger]

theorem afterSector : s.WearKept t.afterSector := by
  have hreach := h.reachFrom t.bc.pendingSectors
  unfold State.afterSector
  split
  · dsimp only
    split
    · exact hreach.examine
    · exact hreach.examineIfMoved t
  · exact h.finishIfDone.examine

theorem sectorGoesOn (op : EraseOp) : s.WearKept (t.sectorGoesOn op) := by
  unfold State.sectorGoesOn
  split
  · exact engineFreed (h.same rfl)
  · exact h.same rfl

theorem sectorStep (op : EraseOp) (all : Bool) : s.WearKept (t.sectorStep op all) := by
  unfold State.sectorStep
  split
  · split <;> exact h.sectorGoesOn _
  · split
    · exact (h.closeSector _ _).afterSector
    · split
      · exact h.sectorGoesOn _
      · exact (h.closeSector _ _).afterSector

theorem programNext (op : ProgramOp) : s.WearKept (t.programNext op) := by
  unfold State.programNext
  split
  · exact h.same rfl
  · exact h.finishFreed _ _ _

theorem programOctet (op : ProgramOp) (d : Byte) (pulses : List Byte) : s.WearKept (t.programOctet op d pulses) := by
  have hwritten : ∀ m : Memory, s.WearKept { t with array := m } := fun m => h.same rfl
  unfold State.programOctet
  dsimp only
  split
  · exact h.programNext _
  · split
    · exact (hwritten _).programNext _
    · exact (hwritten _).finishFreed _ _ _

theorem checkLine (op : CheckOp) : s.WearKept (t.checkLine op) := by
  have hspent : s.WearKept (t.spendFree op.stepLength) := h.same rfl
  unfold State.checkLine
  dsimp only
  split
  · exact h.same rfl
  · exact hspent.finishFreed _ _ _

theorem protectStep (slot group : Nat) (bitRead : Bool) (pulses : Nat) (verified : Bool) :
    s.WearKept (t.protectStep slot group bitRead pulses verified) := by
  have hwritten : ∀ u : ProtectionUnit, s.WearKept { t with pu := u } := fun u => h.same rfl
  unfold State.protectStep
  dsimp only
  split
  · split
    · exact h.finishFreed _ _ _
    · exact h.same rfl
  · split
    · exact (hwritten _).finishFreed _ _ _
    · split
      · exact h.same rfl
      · exact (hwritten _).finishFreed _ _ _

theorem unprotectStep (slot : Nat) (opened : Bool) (pulses : Nat) (bits cells : Word16) :
    s.WearKept (t.unprotectStep slot opened pulses bits cells) := by
  have hwritten : ∀ u : ProtectionUnit, s.WearKept { t with pu := u } := fun u => h.same rfl
  unfold State.unprotectStep
  dsimp only
  split
  · exact h.same rfl
  · split
    · exact (hwritten _).finishFreed _ _ _
    · split
      · exact h.same rfl
      · exact (hwritten _).finishFreed _ _ _

theorem configStep (slot : Nat) (record : Settings) (target : CopyId) (generation : Byte) (stage : CopyStage)
    (erased : Bool) (pulses : List Byte) :
    s.WearKept (t.configStep slot record target generation stage erased pulses) := by
  have hwritten : ∀ c : StoredCopy, s.WearKept (t.setCopy target c) := fun c => h.same rfl
  cases stage with
  | clearMark => exact h.same rfl
  | eraseCopy n =>
    simp only [State.configStep]
    split
    · exact h.same rfl
    · split
      · exact h.same rfl
      · exact h.finishFreed _ _ _
  | programOctet index pulseCount =>
    simp only [State.configStep]
    split
    · exact (hwritten _).finishFreed _ _ _
    · split <;> exact h.same rfl
  | commit => exact (hwritten _).finishFreed _ _ _

/-! ### Parking and cancelling -/

theorem parkBatch : s.WearKept t.parkBatch := by
  unfold State.parkBatch
  split <;> exact h.same rfl

theorem unparkBatch : s.WearKept t.unparkBatch := by
  unfold State.unparkBatch
  split
  · dsimp only
    split
    · exact h.enterErasing.same rfl
    · exact h.enterErasing
  · exact h

theorem cancelMember (m : Member) : s.WearKept (t.cancelMember m) := by
  unfold State.cancelMember
  dsimp only
  refine h.same ((State.afterWithdrawal_work _).2.2.1.trans ?_)
  split
  · rw [State.releaseSlot_eq, State.orphanResult_eq]
  · rfl

theorem cancelQueued (i j : Nat) : s.WearKept (t.cancelQueued i j) := by
  have hanswered : s.WearKept (((t.unqueue j).answer j .cancelled []).answer i .ok [1]) := h.same rfl
  unfold State.cancelQueued
  dsimp only
  split
  · exact hanswered.examine
  · exact hanswered

theorem cancelBatched (i j : Nat) : s.WearKept (t.cancelBatched i j) := by
  unfold State.cancelBatched
  split
  · exact ((h.cancelMember _).answer i .ok [3]).examineIfMoved t
  · exact h.same rfl

/-! ### Services and requests -/

theorem enqueue (i : Nat) : s.WearKept (enqueue i t) := by
  have hqueued : s.WearKept { t.setSlotState i .queued with
      rd := { (t.setSlotState i .queued).rd with queue := (t.setSlotState i .queued).rd.queue ++ [i] } } := h.same rfl
  unfold Machine.enqueue
  dsimp only
  split
  · exact hqueued.examine
  · exact hqueued

theorem parkService (i : Nat) : s.WearKept (parkService i t) := by
  unfold Machine.parkService
  split
  · exact h.same rfl
  · exact (h.parkBatch.answer i .ok []).examineIfMoved t

theorem unparkService (i : Nat) : s.WearKept (unparkService i t) := by
  unfold Machine.unparkService
  split
  · exact h.same rfl
  · exact (h.unparkBatch.answer i .ok []).examineIfMoved t

theorem cancelService (target : Byte) (i : Nat) : s.WearKept (cancelService target i t) := by
  unfold Machine.cancelService
  split
  · exact h.same rfl
  · split
    · exact h.same rfl
    · exact h.cancelQueued i _
    · exact h.same rfl
    · exact h.cancelBatched i _
    · exact h.same rfl

/-- No request's service lowers a wear count (R93, R94). -/
theorem service (r : Request) (i : Nat) : s.WearKept (r.service i t) := by
  cases r with
  | unknown | sectorInfo | configGet | identify | ping => exact h.same rfl
  | read | program | checkRegion | eraseSectors | eraseAll | protectGroup | unprotectAll | configStore =>
    exact h.enqueue i
  | parkErase => exact h.parkService i
  | unparkErase => exact h.unparkService i
  | cancel target => exact h.cancelService target i
  | lockGroups mask => exact h.same rfl
  | configSet pairs => exact h.same (t.applySettings_work _).2.2.2
  | status flags =>
    show s.WearKept (statusService flags i t)
    unfold statusService
    dsimp only
    split <;> exact h.same rfl
  | attnControl c w e => exact h.same rfl
  | logTake maximum =>
    show s.WearKept (logTakeService maximum i t)
    unfold logTakeService
    dsimp only
    split
    · exact h.same rfl
    · rw [State.endStep_eq]
      exact h.same rfl

theorem accept (i : Nat) (tag : Byte) (r : Request) (check : Option (Status × List Byte)) :
    s.WearKept (t.accept i tag r check r.service) := by
  unfold State.accept
  dsimp only
  split
  · exact h.same rfl
  · split
    · exact h.same rfl
    · split
      · exact h.same rfl
      · exact service (t := t.takeSlot i tag r) (h.same rfl) r i

theorem classify (ns : Seq) (tag : Byte) (r : Request) (check : Option (Status × List Byte)) :
    s.WearKept (t.classify ns tag r check r.service) := by
  unfold State.classify
  dsimp only
  split
  · split
    · exact accept (t := t.acceptSequence) (h.same rfl) _ tag r check
    · exact h.same rfl
  · split
    · split <;> exact h.same rfl
    · split <;> exact h.same rfl

/-! ### The session -/

theorem teardown (r : TeardownReason) : s.WearKept (t.teardown r) := by
  have hdropped : s.WearKept t.dropSlots := h.same rfl
  unfold State.teardown
  split
  · dsimp only
    rw [State.offer_eq]
    split <;> exact hdropped.unparkBatch.same rfl
  · exact h

theorem retryOnce : s.WearKept t.retryOnce := by
  have hcounted : s.WearKept { t with su := { t.su with retry := t.su.retry + 1 } } := h.same rfl
  unfold State.retryOnce
  dsimp only
  split
  · exact hcounted.teardown _
  · exact h.same rfl

theorem appendReply (tag : Byte) (status : ReplyStatus) : s.WearKept (t.appendReply tag status) := by
  unfold State.appendReply
  split <;> exact h.same rfl

theorem touchKeepalive : s.WearKept t.touchKeepalive := by
  rw [State.touchKeepalive_eq]
  exact h.same rfl

theorem withNr (nr : Seq) {rest : State → State} (hrest : ∀ u : State, s.WearKept u → s.WearKept (rest u)) :
    s.WearKept (t.withNr nr rest) := by
  unfold State.withNr
  dsimp only
  split
  · rw [State.endStep_eq]
    refine (hrest _ ?_).same rfl
    rw [State.acknowledge_eq]
    exact h.touchKeepalive.same rfl
  · exact h.touchKeepalive.teardown _

theorem receiveHail (tag : Byte) (payload : List Byte) : s.WearKept (t.receiveHail tag payload) := by
  have htouched : s.WearKept (if t.isAttached then t.touchKeepalive else t) := by
    split
    · exact h.touchKeepalive
    · exact h
  unfold State.receiveHail
  dsimp only
  split
  · exact (htouched.teardown .rehail).same rfl
  · exact htouched.appendReply _ _

theorem receiveAck (nr : Seq) (payload : List Byte) : s.WearKept (t.receiveAck nr payload) := by
  unfold State.receiveAck
  split
  · exact h.withNr nr (fun u hu => hu.same rfl)
  · exact h.same rfl

theorem rejAfterNr : s.WearKept t.rejAfterNr := by
  have hcounted : s.WearKept { t with su := { t.su with rejReceived := t.su.rejReceived + 1 } } := h.same rfl
  unfold State.rejAfterNr
  dsimp only
  split
  · exact hcounted
  · exact hcounted.retryOnce

theorem receiveRej (nr : Seq) : s.WearKept (t.receiveRej nr) := by
  unfold State.receiveRej
  split
  · exact h.withNr nr (fun _ hu => hu.rejAfterNr)
  · exact h.same rfl

theorem receiveRequest (head : ParcelHead) (r : Request) (check : Option (Status × List Byte)) :
    s.WearKept (t.receiveRequest head r check r.service) := by
  unfold State.receiveRequest
  split
  · exact h.withNr head.nr (fun _ hu => hu.classify head.ns head.tag r check)
  · exact appendReply (t := t.countUnattached) (h.same rfl) _ _

/-! ### Characters -/

theorem receiveParcel (assembly : List Byte) : s.WearKept (t.receiveParcel assembly) := by
  unfold State.receiveParcel
  dsimp only
  split
  · exact h.receiveHail _ _
  · split
    · exact h.receiveAck _ _
    · split
      · exact h.receiveRej _
      · exact h.receiveRequest _ _ _

theorem octetEvent (b : Byte) : s.WearKept (t.octetEvent b) := by
  have hframed : s.WearKept { t with pf := (t.pf.octetEvent b).1 } := h.same rfl
  unfold State.octetEvent
  dsimp only
  split
  · exact hframed
  · unfold State.holdSignal
    split <;> exact hframed.same rfl
  · unfold State.goSignal
    split <;> exact hframed.same rfl
  · unfold State.endAssembly
    split
    · exact hframed.same rfl
    · exact hframed.receiveParcel _

theorem octetEvents (os : List Byte) : s.WearKept (t.octetEvents os) := by
  unfold State.octetEvents
  induction os generalizing t with
  | nil => exact h
  | cons b rest ih => exact ih (h.octetEvent b)

theorem characters (os : List Byte) : s.WearKept (t.characters os) := by
  unfold State.characters
  split
  · exact octetEvents (t := t.characterEnd) (h.same rfl) os
  · exact h.memory (t.unheard_sameMemory _ _)

theorem onParcel {handle : State → State} (hh : ∀ u : State, s.WearKept u → s.WearKept (handle u)) :
    s.WearKept (t.onParcel handle) := by
  unfold State.onParcel
  split
  · dsimp only
    split
    · exact h.same rfl
    · exact hh _ (h.same rfl)
  · exact h.memory (t.unheard_sameMemory _ _)

theorem sampleBit (samples : List Bool) : s.WearKept (t.sampleBit samples) := by
  unfold State.sampleBit
  split
  · exact h.same rfl
  · split
    · exact h.same rfl
    · split
      · exact octetEvent (t := t.setReceiver .idle) (h.same rfl) _
      · exact h.same rfl

theorem linkBreakReset : s.WearKept t.linkBreakReset := by
  have hbroken : ∀ (p : Pins) (c : CharacterLink) (f : ParcelFramer),
      s.WearKept (State.clearHeld { t with pins := p, cl := c, pf := f }) := fun _ _ _ => h.same rfl
  exact (hbroken _ _ _).teardown .break_

/-! ### Timers and selection -/

theorem holdExpiry : s.WearKept t.holdExpiry := by
  unfold State.holdExpiry
  split
  · exact h.teardown _
  · exact h.same rfl

theorem keepaliveExpiry (rxd : Bool) : s.WearKept (t.keepaliveExpiry rxd) := by
  have hstopped : ∀ u : SessionUnit, s.WearKept { t.wake rxd with su := u } := fun _ =>
    (h.memory (t.wake_sameMemory rxd)).same rfl
  exact (hstopped _).teardown .keepalive

theorem retransmitExpiry : s.WearKept t.retransmitExpiry :=
  retryOnce (t := { t with su := { t.su with retransmit := .stopped } }) (h.same rfl)

theorem gatherExpiry : s.WearKept t.gatherExpiry := by
  unfold State.gatherExpiry
  split
  · exact h.enterErasing.examine
  · exact h.same rfl

theorem spacingExpiry : s.WearKept t.spacingExpiry := by
  have hmature : s.WearKept { t with bc := { t.bc with spacing := .mature } } := h.same rfl
  unfold State.spacingExpiry
  dsimp only
  split
  · exact hmature.examine
  · exact hmature

theorem select {u : State} (hu : t.select = some u) : s.WearKept u := by
  unfold State.select at hu
  split at hu
  · rcases t.choose_cases u hu with ⟨r, rest, -, rfl⟩ | rfl | hagain | hnew | hack
    · exact h.same rfl
    · exact h.same rfl
    · unfold State.chooseAgain at hagain
      split at hagain
      · cases hagain
      · obtain ⟨e, -, rfl⟩ := Option.map_eq_some_iff.1 hagain
        exact h.same rfl
    · unfold State.chooseNew at hnew
      split at hnew
      · split at hnew
        · cases hnew
          rw [State.releaseSlot_eq]
          exact h.same rfl
        · split at hnew
          · obtain ⟨r, -, rfl⟩ := Option.map_eq_some_iff.1 hnew
            exact h.same rfl
          · cases hnew
      · cases hnew
    · unfold State.chooseAck at hack
      split at hack <;> cases hack
      exact h.same rfl
  · cases hu

theorem transmitterFree : s.WearKept t.transmitterFree := by
  have hfree : s.WearKept t.freeTransmitter := h.same rfl
  unfold State.transmitterFree
  cases hu : t.freeTransmitter.select with
  | none => exact hfree
  | some u => exact hfree.select hu

/-! ### Resets and the supply -/

theorem interrupted : s.WearKept t.interrupted := by
  obtain ⟨-, -, -, -, -, -, -, hledger, -⟩ := t.interrupted_frame
  exact h.same hledger

theorem powerDown : s.WearKept t.powerDown := h.same t.powerDown_kept.2

theorem resetAsserted : s.WearKept t.resetAsserted := by
  unfold State.resetAsserted
  split
  · exact h.interrupted.same rfl
  · exact h

/-- A supply-low entry stops a write or ends the batch, then the engine is free (R8, R129, R146). -/
theorem abandonWrites : s.WearKept t.abandonWrites := by
  unfold State.abandonWrites
  split
  · exact h.interrupted.finishFreed _ _ _
  · exact h.finishFreed _ _ _
  · exact (abortBatch (t := { t with ae := { t.ae with engine := .idle } }) (h.same rfl)).engineFreed
  · exact h

theorem enterInhibit : s.WearKept t.enterInhibit := by
  rw [State.enterInhibit_eq]
  exact abandonWrites (h.same rfl)

theorem supplyLowEntry (rxd : Bool) : s.WearKept (t.supplyLowEntry rxd) := by
  unfold State.supplyLowEntry
  split
  · exact (h.memory (t.wake_sameMemory rxd)).enterInhibit
  · exact h

theorem enterRunning (rxd : Bool) (vdd : SupplyBand) : s.WearKept (t.enterRunning rxd vdd) := by
  unfold State.enterRunning
  cases vdd with
  | off => exact powerDown (h.same rfl)
  | good => exact h.same rfl
  | low | middle => exact enterInhibit (h.same rfl)

/-! ### Pins and ticks -/

theorem takeInput (c : PinChange) : s.WearKept (t.takeInput c) := by
  have hmoved : ∀ p : Pins, s.WearKept { t with pins := p, inputs := t.inputs.erase c } := fun p => h.same rfl
  unfold State.takeInput State.pinEvent
  split
  · exact (hmoved _).memory (State.setRxd_sameMemory _ _)
  · split
    · exact (hmoved _).memory (State.resetReleased_sameMemory _)
    · exact hmoved _
  · exact (hmoved _).resetAsserted
  · exact hmoved _
  · exact (hmoved _).powerDown
  · exact (hmoved _).memory (State.powerUp_sameMemory _)

theorem dueSupply : s.WearKept t.dueSupply := by
  unfold State.dueSupply
  split
  · exact h.powerDown
  · exact h.supplyLowEntry _
  · exact h.memory (t.supplyLowExit_sameMemory _)
  · exact h

theorem tickOnce : s.WearKept t.tickOnce := by
  have hclocks : s.WearKept (State.advanceClocks { t with sr := { t.sr with phase := 0 } }).dozeTest.dueSupply :=
    ((h.same (u := State.advanceClocks { t with sr := { t.sr with phase := 0 } }) rfl).memory
      (State.dozeTest_sameMemory _)).dueSupply
  unfold State.tickOnce
  dsimp only
  split
  · exact h.same rfl
  · exact h.same rfl
  · exact h.same rfl
  · exact hclocks
  · exact hclocks

end State.WearKept

end Kept

/-! ### Every command -/

theorem exec_wearKept {c : Instr} {s t : State} (h : exec c s = .next t) : s.WearKept t := by
  have hs := State.WearKept.refl s
  have hpins : ∀ p : Pins, s.WearKept { s with pins := p } := fun p => hs.same rfl
  cases hr : requestOf c with
  | some hd =>
    rw [exec_request c hd.1 hd.2 hr] at h
    cases h
    exact hs.onParcel (fun _ hu => hu.receiveRequest _ _ _)
  | none =>
    by_cases he : isEngineStep c = true
    · rcases exec_engineStep_cases c s t he h with rfl | ⟨op, -, rfl⟩ | ⟨op, -, ⟨rfl, -⟩ | ⟨d, pulses, -, rfl⟩⟩ |
        ⟨op, -, rfl⟩ | ⟨slot, group, bitRead, n, verified, -, rfl⟩ | ⟨slot, opened, n, bits, cells, -, rfl⟩ |
        ⟨slot, record, target, generation, stage, erased, pulses, -, rfl⟩ | ⟨op, allErased, -, rfl⟩
      · exact hs
      · exact State.WearKept.finishFreed (t := s.spendFree op.count) (hs.same rfl) _ _ _
      · exact hs.programNext op
      · exact hs.programOctet op d pulses
      · exact hs.checkLine op
      · exact hs.protectStep slot group bitRead n verified
      · exact hs.unprotectStep slot opened n bits cells
      · exact hs.configStep slot record target generation stage erased pulses
      · exact hs.sectorStep op allErased
    · cases c with
      | powerOn rstn =>
        simp only [exec, execPowerOn] at h
        split at h <;> cases h
        · exact (hpins _).memory (State.powerUp_sameMemory _)
        · exact hs
      | powerOff => cases h; exact hs.powerDown
      | pinReset => cases h; exact hs.resetAsserted
      | resetRelease => cases h; exact hs.memory s.resetReleased_sameMemory
      | initialisationComplete maint rxd vdd =>
        simp only [exec, execInitialisationComplete] at h
        split at h
        · split at h <;> cases h
          · exact (hpins _).enterRunning _ _
          · exact (hs.memory (s.loaded_sameMemory maint)).enterRunning _ _
        · cases h; exact hs
      | supplyLowEntry rxd => cases h; exact (hpins _).supplyLowEntry rxd
      | supplyLowExit rxd => cases h; exact (hpins _).memory (State.supplyLowExit_sameMemory _ _)
      | dozeEntry =>
        simp only [exec, execDozeEntry] at h
        split at h <;> cases h <;> exact hs.same rfl
      | dozeWake => cases h; exact hs.memory (s.wake_sameMemory false)
      | settleComplete =>
        simp only [exec, execSettleComplete] at h
        split at h <;> cases h
        · exact hs.memory s.settle_sameMemory
        · exact hs
      | framingError low =>
        simp only [exec, execFramingError] at h
        split at h <;> cases h
        · exact hs.same rfl
        · exact State.WearKept.memory (t := s.spendFree _) (hs.same rfl) (State.unheard_sameMemory _ _ _)
      | longBreak =>
        simp only [exec, execLongBreak] at h
        split at h <;> cases h
        · exact hs.linkBreakReset
        · exact hs
      | hold | go | openingFence => cases h; exact hs.characters _
      | abort | escapeViolation | overlong | parcelDiscarded => cases h; exact hs.characters _
      | hail hd payload => cases h; exact hs.onParcel (fun _ hu => hu.receiveHail _ _)
      | ackReceived hd payload => cases h; exact hs.onParcel (fun _ hu => hu.receiveAck _ _)
      | rejReceived hd payload => cases h; exact hs.onParcel (fun _ hu => hu.receiveRej _)
      | holdLimitExpiry =>
        simp only [exec, execHoldLimitExpiry] at h
        split at h <;> cases h
        · exact hs.holdExpiry
        · exact hs
      | keepaliveExpiry rxd =>
        simp only [exec, execKeepaliveExpiry] at h
        split at h <;> cases h
        · exact hs.keepaliveExpiry rxd
        · exact hs
      | retransmitExpiry =>
        simp only [exec, execRetransmitExpiry] at h
        split at h <;> cases h
        · exact hs.retransmitExpiry
        · exact hs
      | gatherExpiry =>
        simp only [exec, execGatherExpiry] at h
        split at h <;> cases h
        · exact hs.gatherExpiry
        · exact hs
      | spacingExpiry =>
        simp only [exec, execSpacingExpiry] at h
        split at h <;> cases h
        · exact hs.spacingExpiry
        · exact hs
      | debouncedMaintChange rxd =>
        simp only [exec, execDebouncedMaintChange] at h
        split at h <;> cases h
        · exact (hpins _).memory (State.maintChange_sameMemory _ _)
        · exact hs
      | transmitterFree =>
        simp only [exec, execTransmitterFree] at h
        split at h <;> cases h
        · exact hs.transmitterFree
        · exact hs
      | shortBreak =>
        simp only [exec, execShortBreak] at h
        split at h <;> cases h <;> exact hs.same rfl
      | _ => simp_all [requestOf, isEngineStep]

/-! ### The device's own step -/

theorem State.handle_wearKept (s : State) (d : Due) : s.WearKept (s.handle d) := by
  have hs := State.WearKept.refl s
  cases d with
  | input c => exact hs.takeInput c
  | tick => exact hs.tickOnce
  | doze => exact hs.same rfl
  | longBreak => exact hs.linkBreakReset
  | sample samples => exact hs.sampleBit samples
  | settled => exact hs.memory s.settle_sameMemory
  | holdLimit => exact hs.holdExpiry
  | keepalive => exact hs.keepaliveExpiry _
  | retransmit => exact hs.retransmitExpiry
  | gather => exact hs.gatherExpiry
  | spacing => exact hs.spacingExpiry
  | maint => exact hs.memory (s.maintChange_sameMemory _)
  | octetSent rest => exact hs.same rfl
  | transmitterFree => exact hs.transmitterFree

theorem State.ownStep_wearKept (s : State) : s.WearKept s.ownStep := by
  have hs := State.WearKept.refl s
  have hpass := hs.memory s.passTime_sameMemory
  have hrunning : s.WearKept s.runningStep := by
    unfold State.runningStep
    split
    · exact s.handle_wearKept _
    · cases hsel : s.select with
      | none => exact hpass
      | some t => exact hs.select hsel
  unfold State.ownStep
  split
  · exact hrunning
  · exact hrunning
  · unfold State.initialisingStep
    split
    · exact s.handle_wearKept _
    · split
      · exact hs.memory (s.loaded_sameMemory _)
      · split
        · exact hs.enterRunning _ _
        · exact hpass
  all_goals
    split
    · exact s.handle_wearKept _
    · exact hpass

/-- Settles O5: the command in front and the device's own step keep every wear count that is in range. -/
theorem wearNeverFalls : Obligations.WearNeverFalls := by
  intro s t k hbound hstep
  have hk : (s.entry k).wear ≤ maxWear := by
    rw [State.entry, List.getD_eq_getElem?_getD]
    cases he : s.ledger[k]? with
    | none => exact Nat.zero_le _
    | some e => exact of_decide_eq_true (List.all_eq_true.1 hbound e (List.mem_of_getElem? he))
  have hkept : s.WearKept t := by
    unfold step at hstep
    split at hstep
    case h_1 c rest hp =>
      exact fun j hj => exec_wearKept hstep j hj
    case h_2 =>
      cases hstep
      exact s.ownStep_wearKept
  exact hkept k hk

end Sys2Proof.Machine
end

