-- ==== Sys2Proof/Proofs/BatchEnd.lean ====
section
/-!
PROOFS. The end of a batch (section 7.8): every member settled in member-list order, the orphaned ones reported once,
and the step that ends the last sector's work. Settles O53.
-/

namespace Sys2Proof.Machine

/-! ### What a member is answered (R158, R159) -/

/-- The outcome code of a role: 0 for a sector that is not done, or not in the set (R136). -/
def roleCode : Option Role → Byte
  | some (.done o) => o.code
  | some .pending | some .erasing | none => 0

/-- The outcomes have codes of their own, and none has 0 (R136). -/
theorem roleCode_eq_iff (r : Option Role) (o : SectorOutcome) : roleCode r = o.code ↔ r = some (.done o) := by
  rcases r with _ | _ | _ | o' <;> cases o
  case some.done.erased | some.done.failed | some.done.skippedProtected | some.done.abortedSupply =>
    cases o' <;> decide
  all_goals decide

/-- WITHDRAWN is the code of no role (R136, R161). -/
theorem roleCode_ne_withdrawn (r : Option Role) : roleCode r ≠ withdrawnCode := by
  rcases r with _ | _ | _ | o
  case some.done => cases o <;> decide
  all_goals decide

/-- The code of a sector is that of its role. -/
theorem Batch.codeOf_eq (b : Batch) (k : Nat) : b.codeOf k = roleCode (b.role k) := by
  simp only [Batch.codeOf, Batch.role]
  generalize b.set.find? (fun e => e.1 == k) = e
  rcases e with _ | ⟨n, _ | _ | o⟩
  · rfl
  · rfl
  · rfl
  · cases o <;> rfl

/-- At completion no sector is withdrawn, so a member is answered with the codes of its sectors (R158). -/
theorem Batch.outcomeCode_done (b : Batch) : b.outcomeCode [] = b.codeOf := by
  funext k
  rw [b.codeOf_eq]
  simp only [Batch.outcomeCode]
  generalize b.role k = r
  rcases r with _ | _ | _ | o <;> rfl

/-- The four tests of R158, in the terms of Safety.lean. -/
theorem eraseStatus_eq_tested (codes : List Byte) : eraseStatus codes = testedStatus codes := by
  simp only [eraseStatus, testedStatus, List.contains_iff_mem, List.all_eq_true, beq_iff_eq]
  rfl

/-- A member's answer at completion, in the terms of Safety.lean (R158, R159). -/
theorem Batch.memberResponse_eq (b : Batch) (m : Member) (r : Request) :
    responseOf r.code (eraseStatus (m.sectors.map (b.outcomeCode []))) (eraseResults r m.sectors (b.outcomeCode [])) =
      b.memberResponse m r := by
  have hwithdrawn : m.sectors.countP (fun k => b.codeOf k == withdrawnCode) = 0 := by
    simp [List.countP_eq_zero, b.codeOf_eq, roleCode_ne_withdrawn]
  rw [b.outcomeCode_done, eraseStatus_eq_tested]
  cases r with
  | eraseAll =>
    simp only [eraseResults, hwithdrawn]
    rfl
  | _ => rfl

/-! ### The members are settled (stage 1 of R157) -/

/-- The Dispatcher after a member of the batch `b` has been dealt with: answered, or freed if orphaned. -/
def Dispatcher.settle (d : Dispatcher) (b : Batch) (m : Member) : Dispatcher :=
  let x := d.slots.getD m.slot {}
  { d with
    slots := d.slots.set m.slot
      (if x.orphaned then {}
      else { x with
        state := .answered, completion := d.nextCompletion, response := b.memberResponse m x.request })
    nextCompletion := d.nextCompletion + if x.orphaned then 0 else 1 }

/-- Dealing with a member writes its slot, counts an answer, and may leave the busy note (R64, R89, R157). -/
theorem State.settleMember_eq (s : State) (m : Member) :
    s.settleMember m = { s with
      rd := s.rd.settle s.bc m
      su := if (s.slot m.slot).orphaned then s.su.slotFreed else s.su } := by
  cases ho : (s.slot m.slot).orphaned with
  | true =>
    have hfreed : s.settleMember m = s.releaseSlot m.slot := if_pos ho
    rw [hfreed, State.releaseSlot_eq, SessionUnit.noted_eq_slotFreed]
    simp only [State.slot] at ho
    simp only [Dispatcher.settle, ho, if_true]
    rw [show s.rd.nextCompletion + 0 = s.rd.nextCompletion from BitVec.add_zero _]
  | false =>
    have hanswered : s.settleMember m = s.answer m.slot (eraseStatus (m.sectors.map (s.bc.outcomeCode [])))
        (eraseResults (s.slot m.slot).request m.sectors (s.bc.outcomeCode [])) := if_neg (Bool.eq_false_iff.1 ho)
    simp only [hanswered, State.answer, State.setSlot, State.slot, Batch.memberResponse_eq] at ho ⊢
    simp only [Dispatcher.settle, ho, Bool.false_eq_true, if_false]

section Settle

variable (d : Dispatcher) (b : Batch) (m : Member)

theorem Dispatcher.slots_settle_length : (d.settle b m).slots.length = d.slots.length := by
  simp [Dispatcher.settle]

/-- The slots of others are as before. -/
theorem Dispatcher.slot_settle_ne {j : Nat} (hj : m.slot ≠ j) :
    (d.settle b m).slots.getD j {} = d.slots.getD j {} := getD_set_of_ne _ _ hj

theorem Dispatcher.slot_settle_self (hm : m.slot < d.slots.length) :
    (d.settle b m).slots.getD m.slot {} =
      if (d.slots.getD m.slot {}).orphaned then {}
      else { d.slots.getD m.slot {} with
        state := .answered, completion := d.nextCompletion
        response := b.memberResponse m (d.slots.getD m.slot {}).request } := getD_set_self _ _ hm

end Settle

/-- How many completion numbers some members take: one for each that is not orphaned (R89, R157). -/
def Dispatcher.answersTo (d : Dispatcher) (ms : List Member) : Word16 :=
  BitVec.ofNat 16 (ms.countP (fun m => !(d.slots.getD m.slot {}).orphaned))

theorem Dispatcher.answersTo_cons (d : Dispatcher) (m : Member) (ms : List Member) :
    d.answersTo (m :: ms) = (if (d.slots.getD m.slot {}).orphaned then 0 else 1) + d.answersTo ms := by
  cases ho : (d.slots.getD m.slot {}).orphaned with
  | true =>
    simp only [Dispatcher.answersTo, List.countP_cons, ho, Bool.not_true, Bool.false_eq_true, if_true, if_false,
      Nat.add_zero]
    exact (BitVec.zero_add _).symm
  | false =>
    simp only [Dispatcher.answersTo, List.countP_cons, ho, Bool.not_false, if_true, BitVec.ofNat_add]
    exact BitVec.add_comm _ _

/-- Dealing with a member leaves the count of the others. -/
theorem Dispatcher.answersTo_settle (d : Dispatcher) (b : Batch) (m : Member) (ms : List Member)
    (h : ∀ o ∈ ms, m.slot ≠ o.slot) : (d.settle b m).answersTo ms = d.answersTo ms := by
  refine congrArg (BitVec.ofNat 16) (List.countP_congr fun o ho => ?_)
  rw [d.slot_settle_ne b m (h o ho)]

theorem membersSettled_nil (d : Dispatcher) (b : Batch) : MembersSettled d { b with members := [] } d :=
  ⟨rfl, (BitVec.add_zero _).symm, rfl, fun _ hn => absurd hn (Nat.not_lt_zero _), fun _ _ _ => rfl⟩

/-- The first member is settled, then the others, whose slots are not its own. -/
theorem membersSettled_cons {d d' : Dispatcher} {b : Batch} {m : Member} {ms : List Member}
    (hlt : m.slot < d.slots.length) (hne : ∀ o ∈ ms, m.slot ≠ o.slot)
    (h : MembersSettled (d.settle b m) { b with members := ms } d') :
    MembersSettled d { b with members := m :: ms } d' := by
  obtain ⟨hqueue, hnext, hlen, hmem, hother⟩ := h
  rw [d.slots_settle_length] at hlen hother
  have hcount : ∀ l : List Member, (∀ o ∈ l, m.slot ≠ o.slot) →
      (d.settle b m).nextCompletion + (d.settle b m).answersTo l = d.nextCompletion + d.answersTo (m :: l) := by
    intro l hl
    rw [d.answersTo_settle b m l hl, d.answersTo_cons, ← BitVec.add_assoc]
    rfl
  refine ⟨hqueue, hnext.trans (hcount ms hne), hlen, fun n hn => ?_, fun j hj hout => ?_⟩
  · cases n with
    | zero =>
      have hfirst := (hother m.slot hlt (by simpa using fun o ho => (hne o ho).symm)).trans
        (d.slot_settle_self b m hlt)
      have hzero : d.nextCompletion + d.answersTo [] = d.nextCompletion := BitVec.add_zero _
      rw [← hzero] at hfirst
      exact hfirst
    | succ n =>
      have hn' : n < ms.length := Nat.lt_of_succ_lt_succ hn
      have hrest := hmem n hn'
      simp only [d.slot_settle_ne b m (hne _ (List.getElem_mem hn'))] at hrest
      have hc := hcount (ms.take n) (fun o ho => hne o (List.mem_of_mem_take ho))
      simp only [Dispatcher.answersTo] at hc
      rw [hc] at hrest
      exact hrest
  · rw [List.all_cons, Bool.and_eq_true, bne_iff_ne] at hout
    exact (hother j hj hout.2).trans (d.slot_settle_ne b m hout.1)

/-- A second slot that becomes Free leaves the same busy note (R64). -/
theorem SessionUnit.slotFreed_slotFreed (u : SessionUnit) : u.slotFreed.slotFreed = u.slotFreed := by
  unfold SessionUnit.slotFreed
  split <;> simp_all

/-- The busy note that the first member leaves, and then that of the others (R64, R157). -/
theorem SessionUnit.batchEnded_cons (u : SessionUnit) (d : Dispatcher) (b : Batch) {m : Member} {ms : List Member}
    (hne : ∀ o ∈ ms, m.slot ≠ o.slot) :
    (if (d.slots.getD m.slot {}).orphaned then u.slotFreed else u).batchEnded (d.settle b m) { b with members := ms } =
      u.batchEnded d { b with members := m :: ms } := by
  have hany : ms.any (fun o => ((d.settle b m).slots.getD o.slot {}).orphaned) =
      ms.any (fun o => (d.slots.getD o.slot {}).orphaned) := by
    rw [Bool.eq_iff_iff, List.any_eq_true, List.any_eq_true]
    exact exists_congr fun o => and_congr_right fun ho => by rw [d.slot_settle_ne b m (hne o ho)]
  simp only [SessionUnit.batchEnded, hany, List.any_cons]
  by_cases ho : (d.slots.getD m.slot {}).orphaned = true
  · simp only [ho, if_true, Bool.true_or, SessionUnit.slotFreed_slotFreed, ite_self]
  · rw [Bool.not_eq_true] at ho
    simp only [ho, Bool.false_eq_true, if_false, Bool.false_or]

section Members

variable (s : State) (ms : List Member) (hlt : ∀ m ∈ ms, m.slot < s.rd.slots.length)
  (hdist : (ms.map (fun m => m.slot)).Nodup)
include hlt hdist

/-- Members with a slot each are settled in their order, and what is left of the Session Unit is the busy note of an
orphaned one (R64, R157). -/
theorem State.settleMembers_settled :
    MembersSettled s.rd { s.bc with members := ms } (ms.foldl State.settleMember s).rd ∧
      (ms.foldl State.settleMember s).su = s.su.batchEnded s.rd { s.bc with members := ms } := by
  induction ms generalizing s with
  | nil => exact ⟨membersSettled_nil s.rd s.bc, rfl⟩
  | cons m rest ih =>
    rw [List.map_cons, List.nodup_cons] at hdist
    have hne : ∀ o ∈ rest, m.slot ≠ o.slot := fun o ho e => hdist.1 (e ▸ List.mem_map_of_mem ho)
    have hm := s.settleMember_eq m
    obtain ⟨hsettled, hsu⟩ := ih (s.settleMember m)
      (fun o ho => by
        rw [hm, s.rd.slots_settle_length]
        exact hlt o (List.mem_cons_of_mem m ho))
      hdist.2
    rw [List.foldl_cons]
    generalize rest.foldl State.settleMember (s.settleMember m) = t at *
    rw [hm] at hsettled hsu
    refine ⟨membersSettled_cons (hlt m List.mem_cons_self) hne hsettled, hsu.trans ?_⟩
    exact s.su.batchEnded_cons s.rd s.bc hne

end Members

/-! ### The batch ends (R157, R160, R162) -/

/-- How many sectors have an outcome, by their codes (R160). -/
theorem Batch.countOutcome_eq (b : Batch) (sectors : List Nat) (o : SectorOutcome) :
    b.countOutcome sectors o = (sectors.map b.codeOf).count o.code := by
  rw [Batch.countOutcome, List.count, List.countP_map]
  refine List.countP_congr fun k _ => ?_
  simp [b.codeOf_eq, roleCode_eq_iff]

/-- A batch with members completes: they are settled, the orphaned ones reported once, and ERASE_COMPLETE is raised
(R157, R160). -/
theorem State.completeBatch_settles (s : State) {run : Option Nat} (h : s.rd.Agrees run s.bc.members) :
    MembersSettled s.rd s.bc s.completeBatch.rd ∧
      s.completeBatch.eu = s.eu.batchEnded s.sr.tick s.rd s.bc ∧
      s.completeBatch.su = s.su.batchEnded s.rd s.bc := by
  have hlt : ∀ m ∈ s.bc.members, m.slot < s.rd.slots.length := fun m hm =>
    s.rd.lt_of_state (by rw [h.batched m hm]; decide)
  obtain ⟨hsettled, hsu⟩ := s.settleMembers_settled s.bc.members hlt h.distinct
  obtain ⟨-, hbc, -, -⟩ := s.settleMembers_work s.bc.members
  have heu := s.settleMembers_eu s.bc.members
  have hsr := (s.settleMembers_frame s.bc.members).sr
  simp only [State.completeBatch]
  generalize s.bc.members.foldl State.settleMember s = t at *
  refine ⟨by rw [State.reportOrphans_eq]; exact hsettled, ?_, by rw [State.reportOrphans_eq]; exact hsu⟩
  have hreport : (t.reportOrphans s).eu.raised 0x08 = s.eu.batchEnded s.sr.tick s.rd s.bc := by
    unfold State.reportOrphans EventUnit.batchEnded
    cases hf : s.bc.members.find? (fun m => (s.slot m.slot).orphaned) with
    | none =>
      simp only [State.slot] at hf
      simp only [hf, heu]
    | some m =>
      simp only [State.slot] at hf
      simp only [hf, State.orphanResult_eq, heu, hsr, hbc, State.slot, Batch.countOutcome_eq,
        Batch.outcomeCode_done, eraseStatus_eq_tested, List.map_map, Function.comp_def, SectorOutcome.code]
  exact hreport

/-- A batch ends: it completes, or without a member dissolves, nothing reported (R157, R162). -/
theorem State.finishBatch_ends (s : State) {run : Option Nat} (h : s.rd.Agrees run s.bc.members) :
    (s.bc.members ≠ [] → MembersSettled s.rd s.bc s.finishBatch.rd ∧
        s.finishBatch.eu = s.eu.batchEnded s.sr.tick s.rd s.bc ∧ s.finishBatch.su = s.su.batchEnded s.rd s.bc) ∧
      (s.bc.members = [] → s.finishBatch = { s with bc := {} }) := by
  refine ⟨fun hm => ?_, fun hm => if_pos hm⟩
  have hcompletes : s.finishBatch = s.completeBatch := if_neg hm
  rw [hcompletes]
  exact s.completeBatch_settles h

/-! ### The end of the last sector (R143, R145) -/

/-- With a good supply and every sector protected, all are skipped and the batch ends (R143). -/
theorem reachFrom_skipsAll {ks : List Nat} (s : State) (hlow : s.ae.supplyLow = false)
    (hk : ks.all s.isProtected = true) : reachFrom ks s = (s.skipAll ks).finishBatch := by
  induction ks generalizing s with
  | nil => rw [State.skipAll_nil, reachFrom]
  | cons n ns ih =>
    rw [List.all_cons, Bool.and_eq_true] at hk
    have hskip : reachFrom (n :: ns) s = reachFrom ns (s.skipSector n) := by simp [reachFrom, hlow, hk.1]
    rw [State.skipAll_cons, hskip]
    exact ih (s.skipSector n) hlow hk.2

/-- What the end of a sector's work leaves beside the array, the ledger and the batch: the engine Idle, and
LEDGER_ATTENTION raised if the sector has failed (R145). -/
structure State.ClosedAs (s : State) (all : Bool) (t : State) : Prop where
  sr : t.sr = s.sr
  rd : t.rd = s.rd
  ae : t.ae = { s.ae with engine := .idle }
  pu : t.pu = s.pu
  cs : t.cs = s.cs
  su : t.su = s.su
  eu : t.eu = if all then s.eu else s.eu.raised 0x20

theorem State.closeSector_closedAs (s : State) (k : Nat) (all : Bool) :
    s.ClosedAs all (s.closeSector k (eraseOutcome all)) := by
  cases all <;> exact ⟨rfl, rfl, rfl, rfl, rfl, rfl, rfl⟩

/-- Skipping sectors changes their roles alone (R143). -/
theorem State.ClosedAs.skipAll {s t : State} {all : Bool} (h : s.ClosedAs all t) (ns : List Nat) :
    s.ClosedAs all (t.skipAll ns) := ⟨h.sr, h.rd, h.ae, h.pu, h.cs, h.su, h.eu⟩

/-- A batch with no Pending sector whose one Erasing sector is done has no unfinished one. -/
theorem Batch.unfinished_setRole_done (b : Batch) {k : Nat} (hp : b.pendingSectors = [])
    (he : ∀ j, (j, Role.erasing) ∈ b.set → j = k) (o : SectorOutcome) :
    (b.setRole k (.done o)).unfinished = false := by
  simp only [Batch.unfinished, List.any_eq_false, Bool.or_eq_true, beq_iff_eq, not_or]
  rintro ⟨j, r⟩ hj
  rcases (b.mem_setRole k _ j r).1 hj with ⟨hne, hin⟩ | ⟨-, rfl, -⟩
  · refine ⟨fun hr => ?_, fun hr => hne (he j (hr ▸ hin))⟩
    have hmem : j ∈ b.pendingSectors := Batch.mem_pendingSectors.2 (hr ▸ hin)
    rw [hp] at hmem
    cases hmem
  · exact ⟨by simp, by simp⟩

section LastSector

variable {s : State} {op : EraseOp} (h : s.coherent = true) (he : s.ae.engine = .erasingSector op)
include h he

/-- The sector set when the last sector has ended and the Pending ones are skipped (R143, R145). -/
theorem State.set_lastClosed (o : SectorOutcome) :
    ((s.closeSector op.sector o).skipAll s.bc.pendingSectors).bc = { s.bc with
      set := s.bc.set.map (fun e =>
        if e.1 = op.sector then (e.1, .done o)
        else if e.2 = .pending then (e.1, .done .skippedProtected)
        else e) } := by
  have hrise := (State.agrees_of_coherent h).batch.rising
  have hpend := (s.sector_inHand h he).2.1
  simp only [State.skipAll, (s.closeSector_work op.sector o).1, Batch.setRole, List.map_map]
  refine congrArg (fun l => { s.bc with set := l }) (List.map_congr_left fun e hin => ?_)
  obtain ⟨n, old⟩ := e
  have hskip : n ∈ s.bc.pendingSectors ↔ old = .pending := by
    rw [Batch.mem_pendingSectors, ← s.bc.role_eq_some_iff hrise, (s.bc.role_eq_some_iff hrise n old).2 hin,
      Option.some.injEq]
  by_cases hn : n = op.sector
  · subst hn
    simp [hskip, show old ≠ .pending from fun e => hpend (e ▸ hin)]
  · by_cases hp : old = .pending
    · simp [hn, hskip, hp]
    · simp [hn, hskip, hp]

/-- The end of the last sector's work ends the batch, the Pending ones skipped (R143, R145, R157). -/
theorem State.afterSector_ends (all : Bool) (hq : s.rd.queue = [])
    (hlast : s.bc.pendingSectors = [] ∨ (s.bc.state = .erasing ∧ s.ae.supplyLow = false ∧
      s.bc.pendingSectors.all s.isProtected = true)) :
    (s.closeSector op.sector (eraseOutcome all)).afterSector =
      ((s.closeSector op.sector (eraseOutcome all)).skipAll s.bc.pendingSectors).finishBatch := by
  have hagrees := State.agrees_of_coherent h
  obtain ⟨hbc, -, -, -⟩ := s.closeSector_work op.sector (eraseOutcome all)
  obtain ⟨-, hrd, hae, hpu, -, -, -⟩ := s.closeSector_closedAs op.sector all
  have hpending := s.pendingSectors_closeSector h he (eraseOutcome all)
  generalize s.closeSector op.sector (eraseOutcome all) = c at *
  by_cases hst : s.bc.state = .erasing
  · rw [c.afterSector_quiet (by rw [hbc]; exact hst) (by rw [hrd, hq]), hpending]
    rcases hlast with hnone | ⟨-, hlow, hprot⟩
    · rw [hnone, State.skipAll_nil, reachFrom]
    · have hsame : c.isProtected = s.isProtected := by
        funext n
        rw [State.isProtected, State.isProtected, hpu]
      exact reachFrom_skipsAll c (by rw [hae]; exact hlow) (by rw [hsame]; exact hprot)
  · have hnone := hlast.resolve_right (fun hl => hst hl.1)
    have hdone : c.bc.unfinished = false := by
      rw [hbc]
      refine s.bc.unfinished_setRole_done hnone (fun j hj => ?_) _
      obtain ⟨op', hop, rfl⟩ := (hagrees.batch.hand j).1 hj
      rcases hop with hop | hop
      · rw [he] at hop
        cases hop
        rfl
      · rw [(s.sector_inHand h he).2.2] at hop
        cases hop
    have hend : c.finishIfDone = c.finishBatch := if_neg (by simp [hdone])
    obtain ⟨hempty, -, -, hqueue⟩ := c.finishBatch_work
    rw [State.afterSector, if_neg (by rw [hbc]; exact hst), hend, hnone, State.skipAll_nil]
    exact State.examine_empty _ (by rw [hqueue, hrd, hq]) (by rw [hempty]; rfl)

end LastSector

/-- Settles O53: the end of the last sector is the end of a batch with its outcome, which settles its members, or
dissolves without one. -/
theorem batchCompletes : Obligations.BatchCompletes := by
  intro s op all h he hp hq hend hlast
  dsimp only
  refine ⟨_, exec_sectorEraseStep_eq he all, ?_⟩
  have hslots := (State.agrees_of_coherent h).slots
  have hdone := s.set_lastClosed h he (eraseOutcome all)
  rw [s.sectorStep_closes hp hend, s.afterSector_ends h he all hq hlast]
  obtain ⟨hsr, hrd, hae, hpu, hcs, hsu, heu⟩ := (s.closeSector_closedAs op.sector all).skipAll s.bc.pendingSectors
  generalize (s.closeSector op.sector (eraseOutcome all)).skipAll s.bc.pendingSectors = v at *
  have hmembers : v.bc.members = s.bc.members := by rw [hdone]
  obtain ⟨hcompletes, hdissolves⟩ := v.finishBatch_ends (by rw [hrd, hmembers]; exact hslots)
  obtain ⟨hbc, hae', -, -⟩ := v.finishBatch_work
  rw [hmembers, hrd, hdone, heu, hsr, hsu] at hcompletes
  refine ⟨hbc, hae'.trans hae, v.finishBatch_frame.pu.trans hpu, v.finishBatch_frame.cs.trans hcs, hcompletes,
    fun hm => ?_⟩
  rw [hdissolves (hmembers.trans hm)]
  exact ⟨hrd, heu, hsu⟩

end Sys2Proof.Machine
end

