-- ==== Sys2Proof/Proofs/Parking.lean ====
section
/-!
PROOFS. PARK_ERASE and UNPARK_ERASE (section 7.7): an examination that leaves the batch where it is, the request in its
slot, and the sector work that an unpark lets go on. Settles O41.
-/

namespace Sys2Proof.Machine

/-! ### Examinations that leave the batch where it is (R96, R148, R155) -/

/-- What every look at the head keeps, the examination keeps (R97). -/
theorem examineFor_invariant {P : State → Prop} (hlook : ∀ t, P t → P t.lookAtHead.state) (n : Nat) {s : State}
    (h : P s) : P (examineFor n s) := by
  induction n generalizing s with
  | zero => exact h
  | succ n ih =>
    have hnext := hlook s h
    cases hl : s.lookAtHead with
    | stop t =>
      rw [examineFor_stop n hl]
      rw [hl] at hnext
      exact hnext
    | again t =>
      rw [examineFor_again n hl]
      rw [hl] at hnext
      exact ih hnext

/-- The batch, the ledger and the settings are as before, and so is an engine that is at work. -/
structure State.BatchKept (s t : State) : Prop where
  bc : t.bc = s.bc
  ledger : t.ledger = s.ledger
  cs : t.cs = s.cs
  ae : s.ae.engine ≠ .idle → t.ae = s.ae

theorem State.BatchKept.refl (s : State) : s.BatchKept s := ⟨rfl, rfl, rfl, fun _ => rfl⟩

theorem State.BatchKept.trans {a b c : State} (h : a.BatchKept b) (k : b.BatchKept c) : a.BatchKept c where
  bc := k.bc.trans h.bc
  ledger := k.ledger.trans h.ledger
  cs := k.cs.trans h.cs
  ae hne := (k.ae (by rwa [h.ae hne])).trans (h.ae hne)

/-- No head moves the batch: it is Parked, or Erasing with the engine at work and no yield to make (R148, R149,
R155). -/
def State.BatchStays (s : State) : Prop :=
  s.bc.state = .parked ∨ (s.bc.state = .erasing ∧ s.ae.engine ≠ .idle ∧ s.mayYield = false)

/-- No batch yields while the engine serves a request (R149). -/
theorem State.mayYield_serving {s : State} (h : s.ae.engine.slot?.isSome = true) : s.mayYield = false := by
  cases he : s.ae.engine with
  | idle | erasingSector => simp [he, Engine.slot?] at h
  | reading | programming | checking | storing => simp [State.mayYield, he]

theorem State.BatchStays.of_kept {s t : State} (h : s.BatchStays) (hk : s.BatchKept t) : t.BatchStays := by
  rcases h with hp | ⟨hst, hne, hy⟩
  · exact .inl (by rw [hk.bc, hp])
  · refine .inr ⟨by rw [hk.bc, hst], by rwa [hk.ae hne], ?_⟩
    rw [← hy, State.mayYield, State.mayYield, hk.bc, hk.cs, hk.ae hne]

theorem State.refuseKind_batchKept {s t : State} {i : Nat} {k : HeadKind} (h : s.refuseKind i k = some t) :
    s.BatchKept t := by
  cases k <;> cases h <;> exact ⟨rfl, rfl, rfl, fun _ => rfl⟩

/-- A head beside a Parked batch is refused, waits, or with the engine Idle meets its start (R148, R155). -/
theorem State.headParked_batchKept (s : State) (i : Nat) : s.BatchKept (s.headParked i).state := by
  unfold State.headParked
  split
  · exact State.refuseKind_batchKept ‹_›
  · split
    case isTrue hidle =>
      have hidle : s.ae.engine = .idle := s.engineIdle_iff.1 hidle
      unfold State.tryStart
      split
      · exact ⟨rfl, rfl, rfl, fun _ => rfl⟩
      · exact ⟨rfl, rfl, rfl, fun hne => absurd hidle hne⟩
    case isFalse => exact .refl s

/-- A head beside an Erasing batch that does not yield is refused or waits (R148, R149). -/
theorem State.headErasing_batchKept (s : State) (i : Nat) (hy : s.mayYield = false) :
    s.BatchKept (s.headErasing i).state := by
  unfold State.headErasing
  split
  · exact State.refuseKind_batchKept ‹_›
  · rw [if_neg (by simp [hy])]
    exact .refl s

theorem State.BatchStays.lookAtHead {s : State} (h : s.BatchStays) : s.BatchKept s.lookAtHead.state := by
  unfold State.lookAtHead
  split
  · have hne : s.bc.state ≠ .yielded := by rcases h with hp | ⟨hst, -⟩ <;> simp [*]
    rw [if_neg (by simp [hne])]
    exact .refl s
  · rcases h with hp | ⟨hst, -, hy⟩
    · simp only [hp]
      exact s.headParked_batchKept _
    · simp only [hst]
      exact s.headErasing_batchKept _ hy

/-- An examination beside a batch that no head moves (R96). -/
theorem State.BatchStays.examine {s : State} (h : s.BatchStays) : s.BatchKept s.examine :=
  (examineFor_invariant (P := fun t => t.BatchStays ∧ s.BatchKept t)
    (fun _ ⟨hstays, hkept⟩ => ⟨hstays.of_kept hstays.lookAtHead, hkept.trans hstays.lookAtHead⟩) _
    ⟨h, .refl s⟩).2

/-! ### The request in its slot (R91, R93) -/

/-- The state in which an immediate request is executed: its slot is taken, and counts as Answered (R91, R93). -/
def State.taken (s : State) (h : ParcelHead) (i : Nat) (r : Request) : State :=
  (s.beforeAcceptance h).takeSlot i h.tag r

section Taken

variable {s : State} {h : ParcelHead} {i : Nat} {r : Request}

theorem State.taken_frame (s : State) (h : ParcelHead) (i : Nat) (r : Request) :
    (s.taken h i r).bc = s.bc ∧ (s.taken h i r).ae = s.ae ∧ (s.taken h i r).pu = s.pu ∧ (s.taken h i r).cs = s.cs ∧
      (s.taken h i r).array = s.array ∧ (s.taken h i r).ledger = s.ledger ∧
      (s.taken h i r).rd.queue = s.rd.queue := by
  obtain ⟨hrd, hae, hbc, hpu, hcs, harray, hledger, -⟩ := s.beforeAcceptance_frame h
  exact ⟨hbc, hae, hpu, hcs, harray, hledger, (congrArg Dispatcher.queue hrd :)⟩

variable (ht : s.takes h i = true)
include ht

/-- The slot taken is of no other use (R88). -/
theorem State.taken_keeps (hc : s.coherent = true) :
    (s.taken h i r).Keeps i { state := .answered, tag := h.tag, request := r } := by
  obtain ⟨hbc, -, -, -, -, -, hqueue⟩ := s.taken_frame h i r
  obtain ⟨hq, -, hm⟩ := (State.agrees_of_coherent hc).slots.unused (.inl ((s.takes_iff h i).1 ht).1.slot.1)
  exact ⟨State.slot_setSlot_same _ _ (s.takes_lt ht), hqueue ▸ hq, hbc ▸ hm⟩

/-- An execution that only answers, in the terms of Safety.lean. -/
theorem State.answer_taken (st : Status) (results : List Byte) :
    s.atEnd h ((s.taken h i r).answer i st results) = s.answers h i r (responseOf r.code st results) :=
  congrArg (s.atEnd h) (State.answer_takeSlot _ _ _ _ _ _ (s.takes_lt ht))

end Taken

/-- A step that has served a request beside the work of `v`: the batch, the ledger and the array are those of `v`,
and so is an engine at work; slot `i` holds the response. -/
structure State.ServedBeside (v : State) (i : Nat) (response : List Byte) (t : State) : Prop where
  bc : t.bc = v.bc
  ae : v.ae.engine ≠ .idle → t.ae = v.ae
  response : (t.slot i).response = response
  array : t.array = v.array
  ledger : t.ledger = v.ledger

/-- The answer, the examination and the end of the step leave a batch that no head moves, and the answer itself (R93,
R96, R185). -/
theorem State.BatchStays.served {v : State} (hv : v.BatchStays) {i : Nat} {x : Slot} (hk : v.Keeps i x)
    (hx : x.state = .answered) (s : State) (h : ParcelHead) (st : Status) (results : List Byte) :
    v.ServedBeside i (responseOf x.request.code st results)
      (s.atEnd h (v.answer i st results).examine) := by
  have hi : i < v.rd.slots.length := v.lt_of_slot_state (by rw [hk.slot, hx]; decide)
  have hstays : (v.answer i st results).BatchStays := hv.of_kept ⟨rfl, rfl, rfl, fun _ => rfl⟩
  have hkept := hstays.examine
  have hslot := ((hk.answer_self hi st results).examineFor (4 * (v.answer i st results).rd.queue.length + 4)).slot
  have harray := (v.answer i st results).examine_frame.array
  rw [State.atEnd_eq]
  exact ⟨hkept.bc, hkept.ae, (congrArg Slot.response hslot :), harray, hkept.ledger⟩

/-! ### The two services -/

section Services

variable {u : State} (i : Nat)

theorem parkService_noBatch (h : u.bc.state = .none) : parkService i u = u.answer i .noBatch [] := if_pos h

theorem unparkService_noBatch (h : u.bc.state = .none) : unparkService i u = u.answer i .noBatch [] := if_pos h

/-- A Parked batch is left as it is by a park (R154). -/
theorem parkService_parked (h : u.bc.state = .parked) : parkService i u = u.answer i .ok [] := by
  have hpark : u.parkBatch = u := by simp only [State.parkBatch, h]
  rw [parkService, if_neg (by simp [h]), hpark]
  exact if_pos rfl

/-- A batch that is not Parked is left as it is by an unpark (R156). -/
theorem unparkService_unparked (hn : u.bc.state ≠ .none) (hp : u.bc.state ≠ .parked) :
    unparkService i u = u.answer i .ok [] := by
  rw [unparkService, if_neg hn, u.unparkBatch_of_not_parked hp]
  exact if_pos rfl

/-- The batch when it is Parked: gathering closed, the spacing timer stopped (R154). -/
def Batch.parked (b : Batch) : Batch := { b with state := .parked, gather := .stopped, spacing := .stopped }

/-- Another batch is Parked, and the head examined (R96, R154). -/
theorem parkService_parks (h : u.bc.state = .gathering ∨ u.bc.state = .erasing ∨ u.bc.state = .yielded) :
    parkService i u = (State.answer { u with bc := u.bc.parked } i .ok []).examine := by
  have hpark : u.parkBatch = { u with bc := u.bc.parked } := by
    rcases h with h | h | h <;> simp only [State.parkBatch, h, Batch.parked]
  have hmoved : ¬BatchState.parked = u.bc.state := by rcases h with h | h | h <;> simp [h]
  rw [parkService, if_neg (by rcases h with h | h | h <;> simp [h]), hpark]
  exact if_neg hmoved

/-- A Parked batch is unparked, and the head examined (R96, R156). -/
theorem unparkService_unparks (h : u.bc.state = .parked) (hmoved : u.unparkBatch.bc.state ≠ .parked) :
    unparkService i u = (u.unparkBatch.answer i .ok []).examine := by
  rw [unparkService, if_neg (by simp [h])]
  exact if_neg (by rw [State.answer_bc, h]; exact hmoved)

end Services

/-! ### What an unpark lets go on (R156) -/

section Unpark

variable {u : State} (hp : u.bc.state = .parked) (he : u.ae.engine = .idle)
include hp he

/-- On an Idle engine an unpark is the entry to Erasing. -/
theorem State.unparkBatch_idle : u.unparkBatch = u.enterErasing := by
  simp only [State.unparkBatch, hp, he, if_true]

/-- With no sector suspended the next Pending one is reached, and opened if nothing protects it (R143, R156). -/
theorem State.unparkBatch_opens {k : Nat} {rest : List Nat} (hh : u.bc.held = none) (hl : u.ae.supplyLow = false)
    (hk : u.bc.pendingSectors = k :: rest) (hprot : u.isProtected k = false) :
    u.unparkBatch = State.openSector { u with bc := { u.bc with state := .erasing, gather := .stopped } } k := by
  rw [State.unparkBatch_idle hp he, u.enterErasing_reaches he hh, hk]
  exact reachFrom_opens _ rest hl hprot

/-- On a low supply work that is unfinished is aborted, and the batch ends (R143, R146, R156). -/
theorem State.unparkBatch_aborts {k : Nat} {rest : List Nat} (hl : u.ae.supplyLow = true)
    (hwork : u.bc.held.isSome = true ∨ u.bc.pendingSectors = k :: rest) :
    u.unparkBatch = State.abortBatch { u with bc := { u.bc with state := .erasing, gather := .stopped } } := by
  have hbegin : u.enterErasing = State.beginWork { u with bc := { u.bc with state := .erasing, gather := .stopped } } :=
    if_pos (u.engineIdle_iff.2 he)
  rw [State.unparkBatch_idle hp he, hbegin, State.beginWork]
  cases hh : u.bc.held with
  | some op => exact if_pos hl
  | none =>
    have hpending : u.bc.pendingSectors = k :: rest := hwork.resolve_left (by simp [hh])
    have hreach : reachFrom (k :: rest) { u with bc := { u.bc with state := .erasing, gather := .stopped } } =
        State.abortBatch { u with bc := { u.bc with state := .erasing, gather := .stopped } } := if_pos hl
    rw [← hpending] at hreach
    exact hreach

end Unpark

/-- What the abort of a batch leaves: no batch, the engine, the ledger and the queue as before (R143, R146). -/
theorem State.abortBatch_work (s : State) :
    s.abortBatch.bc = {} ∧ s.abortBatch.ae = s.ae ∧ s.abortBatch.ledger = s.ledger ∧
      s.abortBatch.rd.queue = s.rd.queue :=
  State.finishBatch_work { s with bc := { s.bc.abortRest with held := none } }

/-- A batch with members that is aborted raises ERASE_COMPLETE (R157). -/
theorem State.abortBatch_raises (s : State) (h : s.bc.members ≠ []) : s.abortBatch.eu.latched &&& 0x08 = 0x08 := by
  have hcompletes : s.abortBatch = State.completeBatch { s with bc := { s.bc.abortRest with held := none } } := if_neg h
  rw [hcompletes]
  exact State.completeBatch_raises _

/-! ### The commands -/

section Commands

variable {s : State} {h : ParcelHead} {i : Nat} (ht : s.takes h i = true)
include ht

theorem exec_parkErase : exec (.parkErase h) s = .next (s.atEnd h (parkService i (s.taken h i .parkErase))) :=
  exec_served (r := .parkErase) ht rfl rfl rfl

theorem exec_unparkErase : exec (.unparkErase h) s = .next (s.atEnd h (unparkService i (s.taken h i .unparkErase))) :=
  exec_served (r := .unparkErase) ht rfl rfl rfl

variable (hc : s.coherent = true)
include hc

/-- A park of a batch that is not Parked (R154). -/
theorem exec_parkErase_parks (hst : s.bc.state = .gathering ∨ s.bc.state = .erasing ∨ s.bc.state = .yielded) :
    Answers (exec (.parkErase h) s)
      (State.ServedBeside { s.taken h i .parkErase with bc := s.bc.parked } i [0x06, 0]) := by
  have hbc := (s.taken_frame h i .parkErase).1
  have hkeeps := State.taken_keeps (r := .parkErase) ht hc
  refine ⟨_, exec_parkErase ht, ?_⟩
  rw [parkService_parks i (by rwa [hbc]), hbc]
  exact State.BatchStays.served (v := { s.taken h i .parkErase with bc := s.bc.parked }) (.inl rfl)
    ⟨hkeeps.slot, hkeeps.unqueued, hbc ▸ hkeeps.unbatched⟩ rfl s h .ok []

/-- An unpark that leaves the batch in a state no head moves, its members in their slots (R156). -/
theorem exec_unparkErase_unparks {v : State} (hp : s.bc.state = .parked)
    (hv : (s.taken h i .unparkErase).unparkBatch = v) (hst : v.bc.state = .erasing) (he : v.ae.engine ≠ .idle)
    (hy : v.mayYield = false) (hrd : v.rd = (s.taken h i .unparkErase).rd) (hm : v.bc.members = s.bc.members) :
    Answers (exec (.unparkErase h) s) (v.ServedBeside i [0x07, 0]) := by
  have hbc := (s.taken_frame h i .unparkErase).1
  have hkeeps := (State.taken_keeps (r := .unparkErase) ht hc).of_same (t := v) hrd (by rw [hm, hbc])
  refine ⟨_, exec_unparkErase ht, ?_⟩
  rw [unparkService_unparks i (by rw [hbc, hp]) (by rw [hv, hst]; decide), hv]
  exact State.BatchStays.served (.inr ⟨hst, he, hy⟩) hkeeps rfl s h .ok []

/-- An unpark with unfinished work on a low supply and an empty queue: the batch ends (R143, R146, R156). -/
theorem exec_unparkErase_aborts {k : Nat} {rest : List Nat} (hp : s.bc.state = .parked) (he : s.ae.engine = .idle)
    (hwork : s.bc.held.isSome = true ∨ s.bc.pendingSectors = k :: rest) (hl : s.ae.supplyLow = true)
    (hq : s.rd.queue = []) :
    Answers (exec (.unparkErase h) s) (fun t =>
      t.ae = s.ae ∧ t.bc = {} ∧ (s.bc.members ≠ [] → t.eu.latched &&& 0x08 = 0x08) ∧
      (t.slot i).response = [0x07, 0] ∧ t.array = s.array ∧ t.ledger = s.ledger) := by
  obtain ⟨hbc, hae, -, -, harray, hledger, hqueue⟩ := s.taken_frame h i .unparkErase
  have hkeeps := State.taken_keeps (r := .unparkErase) ht hc
  refine ⟨_, exec_unparkErase ht, ?_⟩
  generalize s.taken h i .unparkErase = u at *
  have hu := State.unparkBatch_aborts (u := u) (by rw [hbc, hp]) (by rw [hae, he]) (by rw [hae, hl]) (by rwa [hbc])
  have hraised := State.abortBatch_raises { u with bc := { u.bc with state := .erasing, gather := .stopped } }
  have hwork := State.abortBatch_work { u with bc := { u.bc with state := .erasing, gather := .stopped } }
  have hslot := State.Keeps.abortBatch (s := { u with bc := { u.bc with state := .erasing, gather := .stopped } })
    (hkeeps.of_same rfl rfl)
  have hframe := u.unparkBatch_frame
  rw [← hu] at hraised hwork hslot
  rw [unparkService_unparks i (by rw [hbc, hp]) (by rw [hwork.1]; decide)]
  generalize u.unparkBatch = v at *
  obtain ⟨hvbc, hvae, hvledger, hvqueue⟩ := hwork
  have hvi : i < v.rd.slots.length := v.lt_of_slot_state (by simp [hslot.slot])
  rw [State.examine_empty _ (by simpa using hvqueue.trans (hqueue.trans hq))
    (by rw [State.answer_bc, hvbc]; rfl), State.atEnd_eq]
  refine ⟨hvae.trans hae, hvbc, fun hm => ?_, (congrArg Slot.response (hslot.answer_self hvi .ok []).slot :),
    hframe.array.trans harray, hvledger.trans hledger⟩
  have hm : v.eu.latched &&& 0x08 = 0x08 := hraised (by rw [hbc]; exact hm)
  dsimp only
  split
  · rw [EventUnit.lostReported_latched]
    exact hm
  · exact hm

end Commands

/-- Settles O41: the batch that a park or an unpark leaves is one that no head moves, or has ended. -/
theorem parkAndUnpark : Obligations.ParkAndUnpark := by
  intro s h i k rest op ht hc
  dsimp only
  obtain ⟨hbc, hae, hpu, hcs, harray, hledger, -⟩ := s.taken_frame h i .unparkErase
  obtain ⟨hpbc, hpae, -, -, hparray, hpledger, -⟩ := s.taken_frame h i .parkErase
  refine ⟨fun hst => ⟨?_, ?_⟩, fun hst => ?_, fun hst => ⟨?_, ?_⟩, fun hst he hh hl => ?_,
    fun hst he hh hsp hl hk hprot => ?_, fun hst he hwork hl hq => exec_unparkErase_aborts ht hc hst he hwork hl hq,
    fun hst he => ?_, fun hst he => ?_⟩
  · rw [exec_parkErase ht, parkService_noBatch i (by rw [hpbc, hst]), State.answer_taken ht]
    rfl
  · rw [exec_unparkErase ht, unparkService_noBatch i (by rw [hbc, hst]), State.answer_taken ht]
    rfl
  · rw [exec_parkErase ht, parkService_parked i (by rw [hpbc, hst]), State.answer_taken ht]
    rfl
  · exact (exec_parkErase_parks ht hc hst).mono fun t hs =>
      ⟨hs.bc, fun hne => (hs.ae (by rwa [← hpae] at hne)).trans hpae, hs.response, hs.array.trans hparray,
        hs.ledger.trans hpledger⟩
  · rw [exec_unparkErase ht, unparkService_unparked i (by rw [hbc]; rcases hst with h | h | h <;> simp [h])
      (by rw [hbc]; rcases hst with h | h | h <;> simp [h]), State.answer_taken ht]
    rfl
  · have hu := State.unparkBatch_suspended (s.taken h i .unparkErase) op (by rw [hbc, hst]) (by rw [hae, he])
      (by rw [hbc, hh]) (by rw [hae, hl])
    refine (exec_unparkErase_unparks ht hc hst hu rfl (by simp) (by simp [State.mayYield]) rfl (by simp [hbc])).mono
      fun t hs => ⟨?_, ?_, hs.response, hs.array.trans harray, hs.ledger.trans hledger⟩
    · rw [hs.ae (by simp)]
    · rw [hs.bc, hbc, hcs]
  · have hu := State.unparkBatch_opens (u := s.taken h i .unparkErase) (by rw [hbc, hst]) (by rw [hae, he])
      (by rw [hbc, hh]) (by rw [hae, hl]) (by rw [hbc, hk])
      (by rw [State.isProtected, hpu]; exact hprot)
    rw [State.openSector_eq] at hu
    refine (exec_unparkErase_unparks ht hc hst hu rfl (by simp) ?_ rfl (by simp [hbc, Batch.setRole])).mono
      fun t hs => ⟨?_, ?_, hs.response, hs.array.trans harray, hs.ledger.trans ?_⟩
    · simp [State.mayYield, hbc, hsp]
    · rw [hs.ae (by simp)]
    · rw [hs.bc, hbc, hsp]
      simp [State.spacingTicks, hcs, Batch.setRole]
    · simp [hledger, State.entry, maxWear]
  · have hu := State.unparkBatch_serving (s.taken h i .unparkErase) (by rw [hbc, hst]) (by rw [hae]; exact he)
    have hne : s.ae.engine ≠ .idle := fun hidle => by simp [hidle, Engine.slot?] at he
    refine (exec_unparkErase_unparks ht hc hst hu rfl (by rwa [← hae] at hne) ?_ rfl (by simp [hbc])).mono
      fun t hs => ⟨(hs.ae (by rwa [← hae] at hne)).trans hae, ?_, hs.response, hs.array.trans harray,
        hs.ledger.trans hledger⟩
    · exact State.mayYield_serving (by rw [hae]; exact he)
    · rw [hs.bc, hbc]
  · have hu := State.unparkBatch_working (s.taken h i .unparkErase) op (by rw [hbc, hst]) (by rw [hae, he])
    have hne : (s.taken h i .unparkErase).ae.engine ≠ .idle := by simp [hae, he]
    refine (exec_unparkErase_unparks ht hc hst hu rfl hne (by simp [State.mayYield]) rfl (by simp [hbc])).mono
      fun t hs => ⟨(hs.ae hne).trans hae, ?_, hs.response, hs.array.trans harray, hs.ledger.trans hledger⟩
    rw [hs.bc, hbc, hcs]

end Sys2Proof.Machine
end

