-- ==== Sys2Proof/Proofs/EraseRequests.lean ====
section
/-!
PROOFS. ERASE_SECTORS and ERASE_ALL on an empty queue (sections 7.2 to 7.5): the sector set that a request makes or
joins, the batch that gathers, and the one that is Erasing in the same step. Settles O46.
-/

namespace Sys2Proof.Machine

/-! ### Sorted sector lists (R134, R136) -/

/-- A sector put into a list is in it, beside those that were. -/
theorem mem_insertSorted_iff (n : Nat) (l : List Nat) (k : Nat) : k ∈ insertSorted n l ↔ k = n ∨ k ∈ l := by
  refine ⟨mem_insertSorted n l k, fun h => ?_⟩
  induction l with
  | nil => simpa [insertSorted] using h
  | cons j rest ih =>
    simp only [insertSorted]
    split
    · simpa using h
    · split
      · rename_i hnj
        simpa [hnj] using h
      · simp only [List.mem_cons] at h ⊢
        tauto

/-- A list stays rising when a sector is put into it. -/
theorem insertSorted_rising (n : Nat) {l : List Nat} (h : l.Pairwise (· < ·)) :
    (insertSorted n l).Pairwise (· < ·) := by
  induction l with
  | nil => simp [insertSorted]
  | cons j rest ih =>
    obtain ⟨hj, hrest⟩ := List.pairwise_cons.1 h
    simp only [insertSorted]
    split
    · rename_i hlt
      refine List.pairwise_cons.2 ⟨fun k hk => ?_, h⟩
      rcases List.mem_cons.1 hk with rfl | hk
      · exact hlt
      · exact Nat.lt_trans hlt (hj k hk)
    · split
      · exact h
      · refine List.pairwise_cons.2 ⟨fun k hk => ?_, ih hrest⟩
        rcases mem_insertSorted n rest k hk with rfl | hk
        · omega
        · exact hj k hk

/-- Sectors of the array put one by one into a rising list are the sectors of the array that are in one or the other. -/
theorem foldl_insertSorted_eq (ks : List Nat) {l : List Nat} (hks : ∀ k ∈ ks, k < 64) (hl : ∀ k ∈ l, k < 64)
    (h : l.Pairwise (· < ·)) :
    ks.foldl (fun acc k => insertSorted k acc) l = (List.range 64).filter (fun k => ks.contains k || l.contains k) := by
  have hfold : (ks.foldl (fun acc k => insertSorted k acc) l).Pairwise (· < ·) ∧
      ∀ k, k ∈ ks.foldl (fun acc k => insertSorted k acc) l ↔ k ∈ ks ∨ k ∈ l := by
    clear hks hl
    induction ks generalizing l with
    | nil => simpa using h
    | cons n rest ih =>
      obtain ⟨hrise, hmem⟩ := ih (insertSorted_rising n h)
      refine ⟨hrise, fun k => ?_⟩
      rw [List.foldl_cons, hmem, mem_insertSorted_iff, List.mem_cons]
      tauto
  refine hfold.1.eq_of_mem_iff (List.pairwise_lt_range.filter _) fun k => ?_
  rw [hfold.2, List.mem_filter, List.mem_range, Bool.or_eq_true, List.contains_iff_mem, List.contains_iff_mem]
  exact ⟨fun hk => ⟨hk.elim (hks k) (hl k), hk⟩, fun hk => hk.2⟩

/-- The own list of an ERASE_SECTORS: the distinct sectors it names (R134). -/
theorem Request.sectors_eraseSectors (sectors : List Byte) (h : ∀ b ∈ sectors, b.toNat < 64) :
    (Request.eraseSectors sectors).sectors =
      (List.range 64).filter (fun n => sectors.any (fun b => b.toNat == n)) := by
  have hfold : (Request.eraseSectors sectors).sectors =
      (sectors.map (fun b => b.toNat)).foldl (fun acc k => insertSorted k acc) [] := by
    rw [List.foldl_map]
    rfl
  rw [hfold, foldl_insertSorted_eq _ (by simpa using h) (by simp) List.Pairwise.nil]
  refine List.filter_congr fun n _ => ?_
  rw [Bool.eq_iff_iff]
  simp

/-- A sector of the array is in that list if the request names it. -/
theorem Request.contains_eraseSectors (sectors : List Byte) (h : ∀ b ∈ sectors, b.toNat < 64) (n : Nat) :
    (Request.eraseSectors sectors).sectors.contains n = sectors.any (fun b => b.toNat == n) := by
  rw [Request.sectors_eraseSectors sectors h, Bool.eq_iff_iff, List.contains_iff_mem, List.mem_filter, List.mem_range]
  refine and_iff_right_of_imp fun hn => ?_
  obtain ⟨b, hb, hbn⟩ := List.any_eq_true.1 hn
  exact beq_iff_eq.1 hbn ▸ h b hb

/-! ### The sector set of a batch that gathers (R136, R138, R139) -/

/-- Sectors of one role. -/
def rolesOf (ns : List Nat) (r : Role) : List (Nat × Role) := ns.map (fun n => (n, r))

/-- The role of a sector in a set of one role. -/
theorem Batch.role_rolesOf (b : Batch) {ns : List Nat} {r : Role} (h : b.set = rolesOf ns r) (k : Nat) :
    b.role k = if k ∈ ns then some r else none := by
  rw [Batch.role, h]
  induction ns generalizing b with
  | nil => rfl
  | cons n rest ih =>
    by_cases hn : n = k
    · simp [rolesOf, hn]
    · have hkn : ¬k = n := fun e => hn e.symm
      simpa [rolesOf, hn, hkn] using ih { b with set := rolesOf rest r } rfl

/-- Sectors join a set of Pending ones in order (R138, R139). -/
theorem insertPending_rolesOf (k : Nat) (ns : List Nat) :
    insertPending k (rolesOf ns .pending) = rolesOf (insertSorted k ns) .pending := by
  induction ns with
  | nil => rfl
  | cons n rest ih =>
    simp only [rolesOf, List.map_cons, insertPending, insertSorted] at ih ⊢
    split
    · rfl
    · split
      · rfl
      · rw [ih, List.map_cons]

theorem Batch.pendingSectors_rolesOf (b : Batch) {ns : List Nat} (h : b.set = rolesOf ns .pending) :
    b.pendingSectors = ns := by
  rw [Batch.pendingSectors_eq, h]
  simp [rolesOf, List.filter_map, Function.comp_def]

/-- The sectors of the array that are of a list or in the set of the batch. -/
def Batch.sectorsWith (b : Batch) (mine : List Nat) : List Nat :=
  (List.range 64).filter (fun n => mine.contains n || (b.role n).isSome)

theorem Batch.sectorsWith_rising (b : Batch) (mine : List Nat) : (b.sectorsWith mine).Pairwise (· < ·) :=
  List.pairwise_lt_range.filter _

/-- A batch with no sector at work: none, or one that gathers, all its sectors Pending (R136). -/
theorem Batch.Agrees.set_gathering {b : Batch} {e : Engine} (h : b.Agrees e)
    (hst : b.state = .none ∨ b.state = .gathering) :
    b.set = rolesOf (b.set.map (fun x => x.1)) .pending := by
  have hall : ∀ x ∈ b.set, x.2 = .pending := by
    rcases hst with hst | hst
    · simp [h.empty hst]
    · exact h.pending hst
  rw [rolesOf, List.map_map]
  refine (List.map_id _).symm.trans (List.map_congr_left fun x hx => ?_)
  exact Prod.ext rfl (hall x hx)

/-- The sectors of a request join the batch: its set is then that of the sectors of both, Pending (R138, R139). -/
theorem Batch.Agrees.addSectors_eq {b : Batch} {e : Engine} (h : b.Agrees e)
    (hst : b.state = .none ∨ b.state = .gathering) {mine : List Nat} (hmine : ∀ k ∈ mine, k < 64) :
    b.addSectors mine = { b with set := rolesOf (b.sectorsWith mine) .pending } := by
  have hset := h.set_gathering hst
  have hfold : ∀ ks ns : List Nat, ks.foldl (fun acc n => insertPending n acc) (rolesOf ns .pending) =
      rolesOf (ks.foldl (fun acc n => insertSorted n acc) ns) .pending := by
    intro ks
    induction ks with
    | nil => exact fun _ => rfl
    | cons k rest ih => exact fun ns => by rw [List.foldl_cons, insertPending_rolesOf, ih, List.foldl_cons]
  have hlt : ∀ k ∈ b.set.map (fun x => x.1), k < 64 := fun k hk => by
    obtain ⟨x, hx, rfl⟩ := List.mem_map.1 hk
    exact h.sectors x hx
  have hwith : b.sectorsWith mine =
      (List.range 64).filter (fun k => mine.contains k || (b.set.map (fun x => x.1)).contains k) := by
    refine List.filter_congr fun k _ => ?_
    rw [b.role_rolesOf hset k]
    by_cases hk : k ∈ b.set.map (fun x => x.1) <;> simp [hk]
  rw [hwith, ← foldl_insertSorted_eq mine hmine hlt h.rising, ← hfold, ← hset]
  rfl

/-! ### A request becomes a member (R138 to R140) -/

/-- The next request is a member: its slot Batched, its sectors in the set. -/
def State.joined (s : State) (i : Nat) (tag : Byte) (r : Request) : State :=
  { s.withSlot i .batched tag r with
    bc := { s.bc with
      set := rolesOf (s.bc.sectorsWith r.sectors) .pending
      members := s.bc.members ++ [{ slot := i, sectors := r.sectors }] } }

/-- The batch that a member makes or joins, when it is Erasing, with the roles of its sectors (R138, R141). -/
def Batch.erasingWith (b : Batch) (i : Nat) (mine : List Nat) (roles : List (Nat × Role)) : Batch :=
  { b with
    state := .erasing, gather := .stopped, set := roles, members := b.members ++ [{ slot := i, sectors := mine }] }

/-- The member has made or joined a batch that is Erasing, its sectors in their roles. -/
def State.erasingWith (s : State) (i : Nat) (tag : Byte) (r : Request) (roles : List (Nat × Role)) : State :=
  { s.withSlot i .batched tag r with bc := s.bc.erasingWith i r.sectors roles }

/-- With its last member in a slot that nobody uses a batch agrees with the slots (R88, R136). -/
theorem Dispatcher.Agrees.joinUnused {d : Dispatcher} {run : Option Nat} {members : List Member}
    (h : d.Agrees run members) {i : Nat} (hun : d.Unused run members i) (hi : i < d.slots.length) {x : Slot}
    (hx : x.state = .batched) (ks : List Nat) :
    Dispatcher.Agrees { d with slots := d.slots.set i x } run (members ++ [{ slot := i, sectors := ks }]) := by
  have hset := h.set_unused hun x d.nextCompletion
  refine ⟨hset.length, hset.queued, hset.running, fun m hm => ?_, ?_⟩
  · rcases List.mem_append.1 hm with hm | hm
    · exact hset.batched m hm
    · cases List.mem_singleton.1 hm
      exact (congrArg Slot.state (getD_set_self _ _ hi)).trans hx
  · rw [List.map_append, List.nodup_append]
    refine ⟨h.distinct, by simp, fun j hj k hk => ?_⟩
    obtain ⟨m, hm, rfl⟩ := List.mem_map.1 hj
    cases List.mem_singleton.1 hk
    exact hun.2.2 m hm

/-- A batch with no suspended sector that enters Erasing leaves the queue alone, and does not yield. -/
theorem State.enterErasing_quiet (s : State) (hh : s.bc.held = none) :
    s.enterErasing.rd.queue = s.rd.queue ∧ s.enterErasing.bc.state ≠ .yielded := by
  by_cases he : s.ae.engine = .idle
  · rw [s.enterErasing_reaches he hh]
    obtain ⟨hqueue, hstate, -⟩ := reachFrom_quiet s.bc.pendingSectors
      { s with bc := { s.bc with state := .erasing, gather := .stopped } }
    exact ⟨hqueue, hstate (by simp)⟩
  · have hwaits : s.enterErasing = { s with bc := { s.bc with state := .erasing, gather := .stopped } } :=
      if_neg (by simpa [State.engineIdle] using he)
    rw [hwaits]
    exact ⟨rfl, by simp⟩

/-- On a low supply Pending sectors that are reached are aborted, and the batch ends (R143). -/
theorem reachFrom_aborts (s : State) {ks : List Nat} (hlow : s.ae.supplyLow = true)
    (hset : s.bc.set = rolesOf ks .pending) (hh : s.bc.held = none) :
    reachFrom ks s = State.finishBatch { s with bc := { s.bc with set := rolesOf ks (.done .abortedSupply) } } := by
  have habort : { s.bc.abortRest with held := none } = { s.bc with set := rolesOf ks (.done .abortedSupply) } := by
    simp only [Batch.abortRest, hset, hh]
    simp [rolesOf]
  have hend : s.abortBatch =
      State.finishBatch { s with bc := { s.bc with set := rolesOf ks (.done .abortedSupply) } } := by
    rw [State.abortBatch, habort]
  cases ks with
  | nil =>
    rw [show rolesOf [] (.done .abortedSupply) = s.bc.set from hset.symm]
    rfl
  | cons k rest =>
    rw [← hend]
    exact if_pos hlow

section Join

variable {s : State} {i : Nat} {tag : Byte} {r : Request}

/-- The slots agree with the batch that a request in a Free slot joins. -/
theorem State.erasingWith_slots (hs : s.Agrees) (hfree : (s.slot i).state = .free) (hi : i < s.rd.slots.length)
    (roles : List (Nat × Role)) :
    (s.erasingWith i tag r roles).rd.Agrees s.ae.engine.slot? (s.erasingWith i tag r roles).bc.members :=
  hs.slots.joinUnused (hs.slots.unused (.inl hfree)) hi rfl r.sectors

/-- While the engine serves a request the sector work waits for it (R141). -/
theorem State.enterErasing_joined_waits (he : s.ae.engine ≠ .idle) :
    (s.joined i tag r).enterErasing = s.erasingWith i tag r (rolesOf (s.bc.sectorsWith r.sectors) .pending) :=
  if_neg (fun h => he ((State.engineIdle_iff _).1 h))

variable (hs : s.Agrees) (hst : s.bc.state = .none ∨ s.bc.state = .gathering)
include hs hst

theorem State.held_gathering : s.bc.held = none :=
  (hs.batch.nothingInHand (by rcases hst with h | h <;> rw [h] <;> rfl)).2

/-- On an Idle engine the sectors of the set are reached in order (R141, R143). -/
theorem State.enterErasing_joined_reaches (he : s.ae.engine = .idle) :
    (s.joined i tag r).enterErasing = reachFrom (s.bc.sectorsWith r.sectors)
      (s.erasingWith i tag r (rolesOf (s.bc.sectorsWith r.sectors) .pending)) := by
  have hreach := (s.joined i tag r).enterErasing_reaches he (State.held_gathering (s := s) hs hst)
  rwa [Batch.pendingSectors_rolesOf _ rfl] at hreach

/-- The first unprotected sector is opened, those before it skipped (R126, R143). -/
theorem State.enterErasing_joined_opens (he : s.ae.engine = .idle) (hlow : s.ae.supplyLow = false) {j : Nat}
    {later : List Nat} (hj : (s.bc.sectorsWith r.sectors).dropWhile s.isProtected = j :: later) :
    (s.joined i tag r).enterErasing = { s.withSlot i .batched tag r with
      bc := { s.bc.erasingWith i r.sectors ((s.bc.sectorsWith r.sectors).map (fun n =>
          (n, if n < j then .done .skippedProtected else if n = j then .erasing else .pending))) with
        spacing := if s.bc.spacing = .stopped then .running s.cs.active.yieldSpacing.toNat else s.bc.spacing }
      ae := { s.ae with engine := .erasingSector { sector := j, phase := .preProgram, line := 0, pulses := 0 } }
      ledger := s.ledger.set j { condition := .torn, wear := min 16777215 ((s.entry j).wear + 1) } } := by
  rw [State.enterErasing_joined_reaches hs hst he,
    reachFrom_skips (s.erasingWith i tag r (rolesOf (s.bc.sectorsWith r.sectors) .pending)) hlow hj,
    State.openSector_eq]
  have hset : ((rolesOf (s.bc.sectorsWith r.sectors) .pending).map (fun e =>
      if e.1 ∈ (s.bc.sectorsWith r.sectors).takeWhile s.isProtected then (e.1, .done .skippedProtected) else e)).map
        (fun e => if e.1 = j then (e.1, .erasing) else e) =
      (s.bc.sectorsWith r.sectors).map (fun n =>
        (n, if n < j then .done .skippedProtected else if n = j then .erasing else .pending)) := by
    simp only [rolesOf, List.map_map]
    refine List.map_congr_left fun n hn => ?_
    have hskip : n ∈ (s.bc.sectorsWith r.sectors).takeWhile s.isProtected ↔ n < j :=
      (mem_takeWhile_iff_lt (s.bc.sectorsWith_rising _) hj n).trans (and_iff_right hn)
    by_cases hlt : n < j
    · simp [hskip, hlt, Nat.ne_of_lt hlt]
    · by_cases hnj : n = j
      · subst hnj
        simp [hskip]
      · simp [hskip, hlt, hnj]
  rw [← hset]
  rfl

/-- With every sector protected all are skipped, and the batch ends (R143). -/
theorem State.enterErasing_joined_skips (he : s.ae.engine = .idle) (hlow : s.ae.supplyLow = false)
    (hall : (s.bc.sectorsWith r.sectors).all s.isProtected = true) :
    (s.joined i tag r).enterErasing =
      (s.erasingWith i tag r (rolesOf (s.bc.sectorsWith r.sectors) (.done .skippedProtected))).finishBatch := by
  rw [State.enterErasing_joined_reaches hs hst he,
    reachFrom_skipsAll (s.erasingWith i tag r (rolesOf (s.bc.sectorsWith r.sectors) .pending)) hlow hall]
  have hset : (rolesOf (s.bc.sectorsWith r.sectors) .pending).map (fun e =>
      if e.1 ∈ s.bc.sectorsWith r.sectors then (e.1, .done .skippedProtected) else e) =
      rolesOf (s.bc.sectorsWith r.sectors) (.done .skippedProtected) := by
    simp only [rolesOf, List.map_map]
    exact List.map_congr_left fun n hn => if_pos hn
  rw [← hset]
  rfl

/-- On a low supply all are aborted, and the batch ends (R143). -/
theorem State.enterErasing_joined_aborts (he : s.ae.engine = .idle) (hlow : s.ae.supplyLow = true) :
    (s.joined i tag r).enterErasing =
      (s.erasingWith i tag r (rolesOf (s.bc.sectorsWith r.sectors) (.done .abortedSupply))).finishBatch := by
  rw [State.enterErasing_joined_reaches hs hst he]
  exact reachFrom_aborts _ hlow rfl (State.held_gathering (s := s) hs hst)

variable (hr : ∀ k ∈ r.sectors, k < 64)
include hr

/-- The head alone in the queue joins (R138, R139). -/
theorem State.addMember_linedUp (hi : i < s.rd.slots.length) (hq : s.rd.queue = []) :
    (s.linedUp i tag r).addMember i = s.joined i tag r := by
  have hslot : ((s.linedUp i tag r).unqueue i).slot i = { state := .queued, tag := tag, request := r } :=
    State.slot_linedUp hi
  have hadd : ((s.linedUp i tag r).unqueue i).bc.addSectors r.sectors =
      { s.bc with set := rolesOf (s.bc.sectorsWith r.sectors) .pending } := hs.batch.addSectors_eq hst hr
  simp only [State.addMember, State.setSlotState, hslot, State.slot_linedUp hi, State.setSlot, hadd]
  simp [State.unqueue, State.linedUp, State.withSlot, State.joined, hq]

/-- The head alone in the queue becomes a member, and its examination ends with the state the batch enters (R97). -/
theorem State.examine_linedUp_joins (hi : i < s.rd.slots.length) (hq : s.rd.queue = [])
    (hkind : s.headKind r = .erase) :
    (r ≠ .eraseAll → s.gatherTicks ≠ 0 → (s.linedUp i tag r).examine = (s.joined i tag r).gatherOn) ∧
      (r = .eraseAll ∨ s.gatherTicks = 0 → (s.linedUp i tag r).examine = (s.joined i tag r).enterErasing) := by
  have hhead : (s.linedUp i tag r).head = some i := by simp [State.head, State.linedUp, hq]
  have hrequest : (s.linedUp i tag r).headKind ((s.linedUp i tag r).slot i).request = .erase := by
    rw [State.slot_linedUp hi]
    exact (s.sameForStart_linedUp i tag r).headKind r ▸ hkind
  have hlook : (s.linedUp i tag r).lookAtHead = .again ((s.linedUp i tag r).enterBatch i) := by
    have hstate : (s.linedUp i tag r).bc.state = s.bc.state := rfl
    rcases hst with h | h <;> rw [h] at hstate
    · simp only [State.lookAtHead, hhead, hstate, State.headNoBatch, hrequest]
    · simp only [State.lookAtHead, hhead, hstate, State.headGathering, hrequest]
  have hends : ∀ t : State, (s.linedUp i tag r).enterBatch i = t → t.rd.queue = [] → t.bc.state ≠ .yielded →
      (s.linedUp i tag r).examine = t := fun t ht hqt hy =>
    (examineFor_again _ (ht ▸ hlook)).trans (examineFor_stop _ (State.lookAtHead_empty _ hqt (fun h => hy h.1)))
  have hadd := State.addMember_linedUp (tag := tag) hs hst hr hi hq
  have hticks : (s.linedUp i tag r).gatherTicks = s.gatherTicks := rfl
  have hjoined : (s.joined i tag r).rd.queue = [] := hq
  constructor
  · intro hne hg
    refine hends _ ?_ hjoined (by simp [State.gatherOn])
    simp only [State.enterBatch, State.slot_linedUp hi, hadd, hticks, hg, if_false]
  · intro hclose
    obtain ⟨hqueue, hstate⟩ := (s.joined i tag r).enterErasing_quiet (State.held_gathering (s := s) hs hst)
    refine hends _ ?_ (hqueue.trans hjoined) hstate
    simp only [State.enterBatch, State.slot_linedUp hi, hadd, hticks]
    rcases hclose with rfl | hg
    · rfl
    · simp only [hg, if_true]
      split <;> rfl

end Join

/-- The end of a batch that a request has made or joined: its members settled, one of them the request itself (R157). -/
theorem State.finishBatch_erasingWith {s : State} {i : Nat} {tag : Byte} {r : Request} (hs : s.Agrees)
    (hfree : (s.slot i).state = .free) (hi : i < s.rd.slots.length) (roles : List (Nat × Role)) :
    MembersSettled (s.withSlot i .batched tag r).rd (s.bc.erasingWith i r.sectors roles)
        (s.erasingWith i tag r roles).finishBatch.rd ∧
      (s.erasingWith i tag r roles).finishBatch.eu =
        s.eu.batchEnded s.sr.tick (s.withSlot i .batched tag r).rd (s.bc.erasingWith i r.sectors roles) ∧
      (s.erasingWith i tag r roles).finishBatch.su =
        s.su.batchEnded (s.withSlot i .batched tag r).rd (s.bc.erasingWith i r.sectors roles) :=
  ((s.erasingWith i tag r roles).finishBatch_ends (State.erasingWith_slots hs hfree hi roles)).1
    (List.append_ne_nil_of_right_ne_nil _ (List.cons_ne_nil _ _))

/-! ### The commands -/

/-- An erase request that passes its form and static checks (R84, R134, R135). -/
def Request.ErasesInArray (r : Request) : Prop :=
  r = .eraseAll ∨ ∃ sectors, r = .eraseSectors sectors ∧ 1 ≤ sectors.length ∧ sectors.length ≤ 16 ∧
    ∀ b ∈ sectors, b.toNat < 64

/-- It is a queued request of kind erase, and its sectors lie in the array. -/
theorem Request.ErasesInArray.facts {r : Request} (h : r.ErasesInArray) :
    r.queuedKind = true ∧ formOk r.payload = true ∧ staticCheck r = none ∧ (∀ s : State, s.headKind r = .erase) ∧
      ∀ k ∈ r.sectors, k < 64 := by
  rcases h with rfl | ⟨sectors, rfl, h1, h16, hlt⟩
  · exact ⟨rfl, rfl, rfl, fun _ => rfl, fun k hk => List.mem_range.1 hk⟩
  · refine ⟨rfl, ?_, ?_, fun _ => rfl, ?_⟩
    · rw [formOk_iff]
      simp [Request.payload, Request.code, shortestForm, longestForm]
      omega
    · exact if_pos (List.all_eq_true.2 fun b hb => decide_eq_true (hlt b hb))
    · rw [Request.sectors_eraseSectors sectors hlt]
      exact fun k hk => List.mem_range.1 (List.mem_filter.1 hk).1

/-- The hand-over state is as coherent as the state that the parcel finds, and no time has passed. -/
theorem State.agrees_beforeAcceptance {s : State} (hc : s.coherent = true) (h : ParcelHead) :
    (s.beforeAcceptance h).Agrees ∧ (s.beforeAcceptance h).sr.tick = s.sr.tick := by
  obtain ⟨hrd, hae, hbc, -, -, -, hledger, -⟩ := s.beforeAcceptance_frame h
  refine ⟨(State.agrees_of_coherent hc).congr hrd (by rw [hae]) hbc hledger, ?_⟩
  rw [State.beforeAcceptance, State.handedOver_eq]
  rfl

section Commands

variable {s : State} {h : ParcelHead} {i : Nat} (ht : s.takes h i = true) (hc : s.coherent = true)
  (hq : s.rd.queue = []) (hst : s.bc.state = .none ∨ s.bc.state = .gathering) {c : Instr} {r : Request}
  (hcr : requestOf c = some (h, r)) (hr : r.ErasesInArray)
include ht hc hq hst hcr hr

/-- On an empty queue an ERASE_SECTORS with a gather window gathers in its acceptance (R138, R139). -/
theorem exec_erase_gathers (hne : r ≠ .eraseAll) (hg : s.gatherTicks ≠ 0) :
    exec c s = .next (s.atEnd h ((s.beforeAcceptance h).joined i h.tag r).gatherOn) := by
  obtain ⟨hrd, -, hbc, -, hcs, -⟩ := s.beforeAcceptance_frame h
  obtain ⟨hk, hf, hs, hkind, hlt⟩ := hr.facts
  have hjoins := (State.examine_linedUp_joins (tag := h.tag) (State.agrees_beforeAcceptance hc h).1
    (by rwa [hbc]) hlt (s.takes_lt ht) (by rw [hrd, hq]) (hkind _)).1 hne (by rwa [State.gatherTicks, hcs])
  rw [exec_examined ht hcr hk hf hs hq, hjoins]

/-- An ERASE_ALL, or an erase request with no gather window, makes the batch Erasing in its acceptance (R138 to
R141). -/
theorem exec_erase_closes (hclose : r = .eraseAll ∨ s.gatherTicks = 0) :
    exec c s = .next (s.atEnd h ((s.beforeAcceptance h).joined i h.tag r).enterErasing) := by
  obtain ⟨hrd, -, hbc, -, hcs, -⟩ := s.beforeAcceptance_frame h
  obtain ⟨hk, hf, hs, hkind, hlt⟩ := hr.facts
  have hjoins := (State.examine_linedUp_joins (tag := h.tag) (State.agrees_beforeAcceptance hc h).1
    (by rwa [hbc]) hlt (s.takes_lt ht) (by rw [hrd, hq]) (hkind _)).2 (by rwa [State.gatherTicks, hcs])
  rw [exec_examined ht hcr hk hf hs hq, hjoins]

variable (hclose : r = .eraseAll ∨ s.gatherTicks = 0)
include hclose

theorem exec_erase_waits (he : s.ae.engine ≠ .idle) :
    exec c s = .next (s.atEnd h { (s.beforeAcceptance h).withSlot i .batched h.tag r with
      bc := s.bc.erasingWith i r.sectors (rolesOf (s.bc.sectorsWith r.sectors) .pending) }) := by
  obtain ⟨-, hae, hbc, -⟩ := s.beforeAcceptance_frame h
  rw [exec_erase_closes ht hc hq hst hcr hr hclose, State.enterErasing_joined_waits (by rwa [hae]),
    State.erasingWith, hbc]

theorem exec_erase_opens (he : s.ae.engine = .idle) (hlow : s.ae.supplyLow = false) {j : Nat} {later : List Nat}
    (hj : (s.bc.sectorsWith r.sectors).dropWhile s.isProtected = j :: later) :
    exec c s = .next (s.atEnd h { (s.beforeAcceptance h).withSlot i .batched h.tag r with
      bc := { s.bc.erasingWith i r.sectors ((s.bc.sectorsWith r.sectors).map (fun n =>
          (n, if n < j then .done .skippedProtected else if n = j then .erasing else .pending))) with
        spacing := if s.bc.spacing = .stopped then .running s.cs.active.yieldSpacing.toNat else s.bc.spacing }
      ae := { s.ae with engine := .erasingSector { sector := j, phase := .preProgram, line := 0, pulses := 0 } }
      ledger := s.ledger.set j { condition := .torn, wear := min 16777215 ((s.entry j).wear + 1) } }) := by
  have hu := s.sameForStart_beforeAcceptance h
  have hprot : (s.beforeAcceptance h).isProtected = s.isProtected := funext hu.isProtected
  rw [exec_erase_closes ht hc hq hst hcr hr hclose, State.enterErasing_joined_opens
    (State.agrees_beforeAcceptance hc h).1 (by rwa [hu.bc]) (by rwa [hu.ae]) (by rwa [hu.ae])
    (by rw [hu.bc, hprot]; exact hj), hu.bc, hu.ae, hu.cs, hu.ledger, hu.entry]

/-- With every sector protected, or on a low supply, the batch ends in the step that makes it Erasing (R143). -/
theorem exec_erase_ends (he : s.ae.engine = .idle) {o : SectorOutcome}
    (ho : (s.ae.supplyLow = false ∧ (s.bc.sectorsWith r.sectors).all s.isProtected = true ∧ o = .skippedProtected) ∨
      (s.ae.supplyLow = true ∧ o = .abortedSupply)) :
    exec c s = .next (s.atEnd h ((s.beforeAcceptance h).erasingWith i h.tag r
      (rolesOf (s.bc.sectorsWith r.sectors) (.done o))).finishBatch) := by
  have hu := s.sameForStart_beforeAcceptance h
  have hprot : (s.beforeAcceptance h).isProtected = s.isProtected := funext hu.isProtected
  have hagrees := (State.agrees_beforeAcceptance hc h).1
  rw [exec_erase_closes ht hc hq hst hcr hr hclose]
  rcases ho with ⟨hlow, hall, rfl⟩ | ⟨hlow, rfl⟩
  · rw [State.enterErasing_joined_skips hagrees (by rwa [hu.bc]) (by rwa [hu.ae]) (by rwa [hu.ae])
      (by rw [hu.bc, hprot]; exact hall), hu.bc]
  · rw [State.enterErasing_joined_aborts hagrees (by rwa [hu.bc]) (by rwa [hu.ae]) (by rwa [hu.ae]), hu.bc]

/-- A batch that ends in that step settles its members, the request itself the last of them (R157 to R160). -/
theorem exec_erase_completes (he : s.ae.engine = .idle) {o : SectorOutcome}
    (ho : (s.ae.supplyLow = false ∧ (s.bc.sectorsWith r.sectors).all s.isProtected = true ∧ o = .skippedProtected) ∨
      (s.ae.supplyLow = true ∧ o = .abortedSupply)) :
    Answers (exec c s) (fun t =>
      let d := ((s.beforeAcceptance h).withSlot i .batched h.tag r).rd
      let done := s.bc.erasingWith i r.sectors (rolesOf (s.bc.sectorsWith r.sectors) (.done o))
      let v := (s.beforeAcceptance h).eu.batchEnded s.sr.tick d done
      t.bc = {} ∧ MembersSettled d done t.rd ∧ t.eu = (if s.losesRecords h.nr then v.lostReported s.sr.tick else v) ∧
      t.su = (s.beforeAcceptance h).su.batchEnded d done ∧ t.ae = s.ae ∧ t.ledger = s.ledger ∧ t.array = s.array ∧
      t.pu = s.pu ∧ t.cs = s.cs) := by
  obtain ⟨hrd, hae, hbc, hpu, hcs, harray, hledger, -⟩ := s.beforeAcceptance_frame h
  obtain ⟨hagrees, htick⟩ := State.agrees_beforeAcceptance hc h
  have hfree : ((s.beforeAcceptance h).slot i).state = .free := by
    rw [s.slot_of_rd hrd]
    exact ((s.takes_iff h i).1 ht).1.slot.1
  refine ⟨_, exec_erase_ends ht hc hq hst hcr hr hclose he ho, ?_⟩
  obtain ⟨hsettled, heu, hsu⟩ := State.finishBatch_erasingWith (tag := h.tag) (r := r) hagrees hfree (s.takes_lt ht)
    (rolesOf (s.bc.sectorsWith r.sectors) (.done o))
  obtain ⟨hend, hend_ae, hend_ledger, -⟩ := State.finishBatch_work
    ((s.beforeAcceptance h).erasingWith i h.tag r (rolesOf (s.bc.sectorsWith r.sectors) (.done o)))
  have hframe := State.finishBatch_frame
    ((s.beforeAcceptance h).erasingWith i h.tag r (rolesOf (s.bc.sectorsWith r.sectors) (.done o)))
  have hend_tick := (congrArg SupplyReset.tick hframe.sr).trans htick
  rw [hbc] at hsettled heu hsu
  rw [State.atEnd_eq, hend_tick, heu, htick]
  exact ⟨hend, hsettled, rfl, hsu, hend_ae.trans hae, hend_ledger.trans hledger, hframe.array.trans harray,
    hframe.pu.trans hpu, hframe.cs.trans hcs⟩

end Commands

/-! ### What a member finds in the set (R138, R139) -/

/-- A sector of the set keeps its role when others join, and a new one is Pending. -/
theorem Batch.Agrees.role_sectorsWith {b : Batch} {e : Engine} (h : b.Agrees e)
    (hst : b.state = .none ∨ b.state = .gathering) {mine : List Nat} (hmine : ∀ k ∈ mine, k < 64) {b' : Batch}
    (hset : b'.set = rolesOf (b.sectorsWith mine) .pending) (k : Nat) :
    ((b.role k).isSome = true → b'.role k = b.role k) ∧
      (b.role k = none → b'.role k = if mine.contains k then some .pending else none) := by
  have hrole := b.role_rolesOf (h.set_gathering hst) k
  rw [b'.role_rolesOf hset k]
  by_cases hk : k ∈ b.set.map (fun x => x.1)
  · rw [if_pos hk] at hrole
    obtain ⟨x, hx, rfl⟩ := List.mem_map.1 hk
    have hin : x.1 ∈ b.sectorsWith mine :=
      List.mem_filter.2 ⟨List.mem_range.2 (h.sectors x hx), by simp [hrole]⟩
    simp [hrole, hin]
  · rw [if_neg hk] at hrole
    have hin : k ∈ b.sectorsWith mine ↔ mine.contains k = true := by
      rw [Batch.sectorsWith, List.mem_filter, List.mem_range, hrole, Option.isSome_none, Bool.or_false]
      exact and_iff_right_of_imp fun hm => hmine k (List.contains_iff_mem.1 hm)
    simp [hrole, hin]

/-- Without a batch the set is the request's own (R138). -/
theorem Batch.sectorsWith_empty (p : Nat → Bool) :
    Batch.sectorsWith {} ((List.range 64).filter p) = (List.range 64).filter p := by
  refine List.filter_congr fun k hk => ?_
  rw [Bool.eq_iff_iff]
  simp [Batch.role, List.mem_range.1 hk]

/-- Without a batch the request makes one that gathers its own sectors (R134, R138). -/
theorem State.gatherOn_joined_first {s : State} (hb : s.bc = {}) {i : Nat} {tag : Byte} {r : Request} {p : Nat → Bool}
    (hr : r.sectors = (List.range 64).filter p) :
    (s.joined i tag r).gatherOn = { s.withSlot i .batched tag r with
      bc := {
        state := .gathering, set := rolesOf ((List.range 64).filter p) .pending
        members := [{ slot := i, sectors := (List.range 64).filter p }], gather := .running s.gatherTicks } } := by
  simp only [State.gatherOn, State.joined, State.gatherTicks, State.withSlot, hb, hr, Batch.sectorsWith_empty,
    List.nil_append]

/-- No gather window is a period of 0 (R138). -/
theorem State.gatherTicks_eq_zero (s : State) : s.gatherTicks = 0 ↔ s.cs.active.gatherWindow = 0 := by
  simp [State.gatherTicks, ← BitVec.toNat_inj]

/-! ### An ERASE_ALL on a low supply, with no batch (R143, R159) -/

/-- The answer to an ERASE_ALL all of whose sectors are aborted. -/
theorem eraseAll_abortedResponse (b : Batch) (h : b.set = rolesOf (List.range 64) (.done .abortedSupply)) :
    responseOf 0x05 (eraseStatus ((List.range 64).map (b.outcomeCode [])))
        (eraseResults .eraseAll (List.range 64) (b.outcomeCode [])) =
      [0x05, 14, 0, 0, 0, 64, 0] ++ List.replicate 16 0 := by
  have hcode : b.outcomeCode [] = fun k => if k < 64 then 5 else 0 := by
    funext k
    rw [b.outcomeCode_done, b.codeOf_eq, b.role_rolesOf h]
    simp only [List.mem_range]
    split <;> rfl
  rw [hcode]
  decide

/-- An answer in a slot that holds its request (R86, R89). -/
theorem State.answer_withSlot (s : State) {i : Nat} (hi : i < s.rd.slots.length) (st : SlotState) (tag : Byte)
    (r : Request) (status : Status) (results : List Byte) :
    (s.withSlot i st tag r).answer i status results = s.withAnswer i tag r (responseOf r.code status results) := by
  have hslot : (s.withSlot i st tag r).slot i = { state := st, tag := tag, request := r } := getD_set_self _ _ hi
  simp only [State.answer, State.setSlot, hslot]
  simp [State.withSlot, State.withAnswer]

/-- With no batch the request is its one member, answered when the batch ends (R157, R159). -/
theorem State.finishBatch_eraseAllAborted (s : State) {i : Nat} (hi : i < s.rd.slots.length) (tag : Byte)
    (hb : s.bc = {}) :
    (s.erasingWith i tag .eraseAll (rolesOf (List.range 64) (.done .abortedSupply))).finishBatch =
      { s.withAnswer i tag .eraseAll ([0x05, 14, 0, 0, 0, 64, 0] ++ List.replicate 16 0) with
        eu := s.eu.raised 0x08 } := by
  have hslot : (s.erasingWith i tag .eraseAll (rolesOf (List.range 64) (.done .abortedSupply))).slot i =
      { state := .batched, tag := tag, request := .eraseAll } := getD_set_self _ _ hi
  have hanswer : ∀ st results,
      (s.erasingWith i tag .eraseAll (rolesOf (List.range 64) (.done .abortedSupply))).answer i st results =
        { s.withAnswer i tag .eraseAll (responseOf 0x05 st results) with
          bc := s.bc.erasingWith i (List.range 64) (rolesOf (List.range 64) (.done .abortedSupply)) } := fun st results =>
    congrArg (fun t : State =>
        { t with bc := s.bc.erasingWith i (List.range 64) (rolesOf (List.range 64) (.done .abortedSupply)) })
      (s.answer_withSlot hi .batched tag .eraseAll st results)
  rw [State.finishBatch_one _ { slot := i, sectors := List.range 64 } (congrArg (· ++ _) (congrArg Batch.members hb))
      (by rw [hslot]), hslot, hanswer,
    ← eraseAll_abortedResponse (s.bc.erasingWith i (List.range 64) (rolesOf (List.range 64) (.done .abortedSupply)))
      rfl]
  have hbatch : s = { s with bc := {} } := by rw [← hb]
  conv_rhs => rw [hbatch]
  rfl

/-- Settles O46: the head examined alone joins what the batch state allows; gathering ends the examination, Erasing goes
on to the sectors of the set, which are skipped, opened or aborted, or wait for the engine. -/
theorem eraseRequestsMakeABatch : Obligations.EraseRequestsMakeABatch := by
  intro s h i j k sectors later ht hc hq
  dsimp only
  obtain ⟨hrd, hae, hbc, -, hcs, harray, hledger, -⟩ := s.beforeAcceptance_frame h
  refine ⟨fun h1 h16 hlt => ?_, fun hst => ?_, fun hst he hlow => ?_⟩
  · have hlt : ∀ b ∈ sectors, b.toNat < 64 := fun b hb => of_decide_eq_true (List.all_eq_true.1 hlt b hb)
    have hr : (Request.eraseSectors sectors).ErasesInArray := .inr ⟨sectors, rfl, h1, h16, hlt⟩
    have hmine := Request.sectors_eraseSectors sectors hlt
    refine ⟨fun hg hst => ?_, fun hg hst => ?_, fun hg hst => ?_⟩
    · have hexec := exec_erase_gathers ht hc hq (.inl hst) (c := .eraseSectors h sectors) rfl hr (by simp)
        (mt s.gatherTicks_eq_zero.1 hg)
      rw [hexec, State.gatherOn_joined_first (hbc.trans ((State.agrees_of_coherent hc).batch.empty hst)) hmine,
        State.gatherTicks, hcs]
      rfl
    · have hexec := exec_erase_gathers ht hc hq (.inr hst) (c := .eraseSectors h sectors) rfl hr (by simp)
        (mt s.gatherTicks_eq_zero.1 hg)
      rw [hexec, ← hmine]
      obtain ⟨-, -, -, -, hsectors⟩ := hr.facts
      obtain ⟨hkeeps, hnew⟩ := (State.agrees_of_coherent hc).batch.role_sectorsWith (.inr hst) hsectors
        (b' := ((s.beforeAcceptance h).joined i h.tag (.eraseSectors sectors)).gatherOn.bc)
        (congrArg (fun b : Batch => rolesOf (b.sectorsWith _) .pending) hbc) k
      rw [Request.contains_eraseSectors sectors hlt] at hnew
      have hi := s.takes_lt ht
      refine ⟨_, rfl, ?_⟩
      rw [State.atEnd_eq]
      generalize s.beforeAcceptance h = u at *
      rw [← hcs, ← hbc, ← hae, ← hledger, ← harray]
      rw [← hbc] at hkeeps hnew
      exact ⟨rfl, rfl, rfl, hkeeps, hnew, congrArg Slot.state (getD_set_self _ _ hi),
        (congrArg Dispatcher.queue hrd).trans hq, rfl, rfl, rfl⟩
    · rw [← hmine]
      have hclose := Or.inr (a := Request.eraseSectors sectors = .eraseAll) (s.gatherTicks_eq_zero.2 hg)
      exact ⟨exec_erase_waits ht hc hq hst rfl hr hclose,
        fun he hlow hj => exec_erase_opens ht hc hq hst rfl hr hclose he hlow hj,
        fun he hlow hall => exec_erase_completes ht hc hq hst rfl hr hclose he (.inl ⟨hlow, hall, rfl⟩),
        fun he hlow => exec_erase_completes ht hc hq hst rfl hr hclose he (.inr ⟨hlow, rfl⟩)⟩
  · have hr : Request.eraseAll.ErasesInArray := .inl rfl
    have hclose := Or.inl (b := s.gatherTicks = 0) (Eq.refl Request.eraseAll)
    exact ⟨exec_erase_waits ht hc hq hst rfl hr hclose,
      fun he hlow hj => exec_erase_opens ht hc hq hst rfl hr hclose he hlow hj,
      fun he hlow hall => exec_erase_completes ht hc hq hst rfl hr hclose he (.inl ⟨hlow, hall, rfl⟩),
      fun he hlow => exec_erase_completes ht hc hq hst rfl hr hclose he (.inr ⟨hlow, rfl⟩)⟩
  · have hempty : s.bc = {} := (State.agrees_of_coherent hc).batch.empty hst
    have hevery : s.bc.sectorsWith (Request.eraseAll).sectors = List.range 64 := by
      rw [hempty]
      decide
    rw [exec_erase_ends ht hc hq (.inl hst) rfl (.inl rfl) (.inl rfl) he (.inr ⟨hlow, rfl⟩), hevery,
      State.finishBatch_eraseAllAborted _ (s.takes_lt ht) h.tag (hbc.trans hempty)]

end Sys2Proof.Machine
end

