-- ==== Sys2Proof/Proofs/Protection.lean ====
section
/-!
PROOFS. The Protection Unit (chapter 8): effective protection, LOCK_GROUPS, and each step of a PROTECT_GROUP and of an
UNPROTECT_ALL as one operation, which goes on or ends the request. Settles O37, O50 and O58.
-/

namespace Sys2Proof.Machine

/-! ### Effective protection and LOCK_GROUPS (R166, R174) -/

/-- Settles O58: the Boolean test of the model, read as the table. -/
theorem effectiveProtection : Obligations.EffectiveProtection := by
  unfold Obligations.EffectiveProtection
  intro s sector
  simp only [State.isProtected, groupOf, Bool.or_eq_true, Bool.and_eq_true, Bool.not_eq_true']

/-- Settles O37: a taken LOCK_GROUPS is served at once, from the lock mask that its acceptance has not touched. -/
theorem lockGroupsLocks : Obligations.LockGroupsLocks := by
  unfold Obligations.LockGroupsLocks
  intro s h i mask ht
  obtain ⟨-, -, -, hpu, -⟩ := s.beforeAcceptance_frame h
  refine (exec_served ht (c := .lockGroups h mask) rfl rfl rfl).trans ?_
  have hserved : Request.service (.lockGroups mask) i ((s.beforeAcceptance h).takeSlot i h.tag (.lockGroups mask)) =
      { (s.beforeAcceptance h).withAnswer i h.tag (.lockGroups mask)
          ([0x0C, 0] ++ octets16 (s.pu.lockMask ||| mask)) with
        pu := { s.pu with lockMask := s.pu.lockMask ||| mask } } := by
    rw [← hpu]
    exact State.answer_takeSlot ((s.beforeAcceptance h).lockGroups mask) i h.tag (.lockGroups mask) .ok _
      (s.takes_lt ht)
  rw [hserved, State.answers, State.atEnd_eq, State.atEnd_eq]

/-! ### The steps of a PROTECT_GROUP (R170) -/

section Steps

variable {s : State} {slot group n : Nat} {verified : Bool} {bits cells : Word16}

/-- The state whose write cell of a group has taken a pulse (R170). -/
def State.cellPulsed (s : State) (group : Nat) : State :=
  { s with pu := { s.pu with writeCells := s.pu.writeCells ||| (1 <<< group) } }

theorem exec_protectGroupStep {bitRead : Bool} (he : s.ae.engine = .storing (.protect slot group bitRead n)) :
    exec (.protectGroupStep verified) s = .next (s.protectStep slot group bitRead n verified) := by
  simp only [exec, execProtectGroupStep, he]

/-- The read of a bit that is set ends the request. -/
theorem State.protectStep_set (hbit : s.pu.protectBits.getLsbD group = true) :
    s.protectStep slot group false n verified = (s.finishRunning slot .ok []).engineFreed := by
  simp [State.protectStep, hbit]

/-- The read of a bit that is clear leads on to the pulses. -/
theorem State.protectStep_clear (hbit : s.pu.protectBits.getLsbD group = false) :
    s.protectStep slot group false n verified = s.keepEngine (.storing (.protect slot group true 0)) := by
  simp [State.protectStep, hbit]

/-- A pulse that verifies commits the bit and ends the request. -/
theorem State.protectStep_verified :
    s.protectStep slot group true n true =
      (State.finishRunning { s with pu := { (s.cellPulsed group).pu with
        protectBits := s.pu.protectBits ||| (1 <<< group) } } slot .ok []).engineFreed := rfl

/-- A pulse before the sixteenth that does not verify is followed by another. -/
theorem State.protectStep_again (hn : n + 1 < 16) :
    s.protectStep slot group true n false =
      (s.cellPulsed group).keepEngine (.storing (.protect slot group true (n + 1))) := if_pos hn

/-- The sixteenth ends the request in STORE_FAULT. -/
theorem State.protectStep_fault (hn : 16 ≤ n + 1) :
    s.protectStep slot group true n false =
      ((s.cellPulsed group).finishRunning slot .storeFault []).engineFreed := if_neg (Nat.not_lt.2 hn)

/-! ### The steps of an UNPROTECT_ALL (R172) -/

/-- The state whose protect store reads so after an erase pulse (R172). -/
def State.storePulsed (s : State) (bits cells : Word16) : State :=
  { s with pu := { s.pu with protectBits := bits, writeCells := cells } }

theorem exec_unprotectAllStep {opened : Bool} (he : s.ae.engine = .storing (.unprotect slot opened n)) :
    exec (.unprotectAllStep bits cells) s = .next (s.unprotectStep slot opened n bits cells) := by
  simp only [exec, execUnprotectAllStep, he]

/-- A pulse after which all reads clear clears the marker and ends the request. -/
theorem State.unprotectStep_erased :
    s.unprotectStep slot true n 0 0 =
      (State.finishRunning { s with pu := { (s.storePulsed 0 0).pu with marker := false } } slot .ok []).engineFreed :=
  rfl

/-- A pulse before the hundredth that leaves something is followed by another. -/
theorem State.unprotectStep_again (hleft : bits ≠ 0 ∨ cells ≠ 0) (hn : n + 1 < 100) :
    s.unprotectStep slot true n bits cells =
      (s.storePulsed bits cells).keepEngine (.storing (.unprotect slot true (n + 1))) :=
  (if_neg (not_and_or.2 hleft)).trans (if_pos hn)

/-- The hundredth ends the request in STORE_FAULT. -/
theorem State.unprotectStep_fault (hleft : bits ≠ 0 ∨ cells ≠ 0) (hn : 100 ≤ n + 1) :
    s.unprotectStep slot true n bits cells =
      ((s.storePulsed bits cells).finishRunning slot .storeFault []).engineFreed :=
  (if_neg (not_and_or.2 hleft)).trans (if_neg (Nat.not_lt.2 hn))

end Steps

/-! ### The end of a request of the protect store (R100) -/

/-- The state `t` in which the request of slot `i` has been answered with a status, the Protection Unit left as `u`. -/
structure State.StoreEnded (s : State) (i : Nat) (u : ProtectionUnit) (st : Status) (t : State) : Prop where
  pu : t.pu = u
  array : t.array = s.array
  slot : t.slot i = { s.slot i with
    state := .answered, completion := s.rd.nextCompletion
    response := [(s.slot i).request.code, st.code] }

/-- The running request ends in the Protection Unit as its last step wrote it: whatever starts then writes neither that nor
the array. -/
theorem State.finishFreed_storeEnded {s t : State} {i : Nat} {u : ProtectionUnit} {st : Status} (h : s.coherent = true)
    (hi : s.ae.engine.slot? = some i) (ho : (s.slot i).orphaned = false)
    (ht : t = (State.finishRunning { s with pu := u } i st []).engineFreed) : s.StoreEnded i u st t := by
  have hs : State.Agrees { s with pu := u } := (State.agrees_of_coherent h).congr rfl rfl rfl rfl
  have hframe := State.finishFreed_frame { s with pu := u } i st []
  rw [ht]
  exact ⟨hframe.pu, hframe.array, hs.slot_finishFreed hi ho st []⟩

/-- Settles O50: every step is one operation, which goes on with the store as written or ends the request. -/
theorem protectStoreSteps : Obligations.ProtectStoreSteps := by
  unfold Obligations.ProtectStoreSteps
  intro s slot group n verified bits cells h ho
  dsimp only
  refine ⟨fun he => ⟨_, exec_protectGroupStep he, ?_⟩, fun he => ⟨_, exec_protectGroupStep he, ?_⟩,
    fun he => exec_unprotectAllStep he, fun he => ⟨_, exec_unprotectAllStep he, ?_⟩⟩
  all_goals have hslot : s.ae.engine.slot? = some slot := by rw [he]; rfl
  case refine_1 =>
    cases hbit : s.pu.protectBits.getLsbD group with
    | true =>
      have hok := s.finishFreed_storeEnded h hslot ho (State.protectStep_set (n := n) (verified := verified) hbit)
      exact ⟨hok.pu, hok.array, fun _ => hok.slot, nofun⟩
    | false =>
      rw [State.protectStep_clear hbit]
      exact ⟨rfl, rfl, nofun, fun _ => rfl⟩
  case refine_2 =>
    cases verified with
    | true =>
      have hok := s.finishFreed_storeEnded h hslot ho (State.protectStep_verified (group := group) (n := n))
      exact ⟨congrArg (·.marker) hok.pu, congrArg (·.lockMask) hok.pu, hok.array,
        fun _ => ⟨congrArg (·.protectBits) hok.pu, hok.slot⟩, nofun⟩
    | false =>
      rcases Nat.lt_or_ge (n + 1) 16 with hn | hn
      · rw [State.protectStep_again hn]
        exact ⟨rfl, rfl, rfl, nofun, fun _ => ⟨rfl, fun _ => rfl, fun hlast => absurd hn (Nat.not_lt.2 hlast)⟩⟩
      · have hfault := s.finishFreed_storeEnded h hslot ho (State.protectStep_fault (group := group) hn)
        exact ⟨congrArg (·.marker) hfault.pu, congrArg (·.lockMask) hfault.pu, hfault.array, nofun,
          fun _ => ⟨congrArg (·.protectBits) hfault.pu, fun hmore => absurd hmore (Nat.not_lt.2 hn),
            fun _ => hfault.slot⟩⟩
  case refine_3 =>
    by_cases hclear : bits = 0 ∧ cells = 0
    · obtain ⟨rfl, rfl⟩ := hclear
      have hok := s.finishFreed_storeEnded h hslot ho (State.unprotectStep_erased (n := n))
      exact ⟨congrArg (·.protectBits) hok.pu, congrArg (·.lockMask) hok.pu, hok.array,
        fun _ => ⟨congrArg (·.marker) hok.pu, hok.slot⟩, fun hleft => absurd ⟨rfl, rfl⟩ (not_and_or.2 hleft)⟩
    · have hleft : bits ≠ 0 ∨ cells ≠ 0 := not_and_or.1 hclear
      rcases Nat.lt_or_ge (n + 1) 100 with hn | hn
      · rw [State.unprotectStep_again hleft hn]
        exact ⟨rfl, rfl, rfl, fun hall => absurd hall hclear,
          fun _ => ⟨rfl, fun _ => rfl, fun hlast => absurd hn (Nat.not_lt.2 hlast)⟩⟩
      · have hfault := s.finishFreed_storeEnded h hslot ho (State.unprotectStep_fault hleft hn)
        exact ⟨congrArg (·.protectBits) hfault.pu, congrArg (·.lockMask) hfault.pu, hfault.array,
          fun hall => absurd hall hclear,
          fun _ => ⟨congrArg (·.marker) hfault.pu, fun hmore => absurd hmore (Nat.not_lt.2 hn),
            fun _ => hfault.slot⟩⟩

end Sys2Proof.Machine
end

