-- ==== Sys2Proof/Proofs/LocksAndSettings.lean ====
section
/-!
PROOFS. What changes the lock mask and the active record (R174, R175, R198): of the services of the requests two write them,
every other operation is made of changes to other fields, and of the octets of the line only a Fence that ends a valid
assembly brings a request. Settles O8.
-/

namespace Sys2Proof.Machine

/-! ### The octets that hand a parcel over (R35, R48) -/

/-- No escaped octet is a Fence (R49). -/
theorem fenceOctet_notMem_escapeOctets (os : List Byte) : fenceOctet ∉ escapeOctets os := by
  intro hm
  obtain ⟨b, -, hb⟩ := List.mem_flatMap.1 hm
  obtain ⟨-, -, hne⟩ := escapeOctet_raw b fenceOctet hb
  exact hne rfl

namespace ParcelFramer

/-- The first octet hands a parcel over, or one of the others does. -/
theorem handsOver_cons (f : ParcelFramer) (b : Byte) (os : List Byte) :
    f.handsOver (b :: os) = (f.handsOver [b] || (f.octetEvent b).1.handsOver os) := by
  simp [handsOver, framerRun_cons]

theorem handsOver_append (f : ParcelFramer) (a b : List Byte) :
    f.handsOver (a ++ b) = (f.handsOver a || (framerRun f a).1.handsOver b) := by
  simp [handsOver, framerRun_append]

/-- An octet hands a parcel over when it ends a valid assembly. -/
theorem handsOver_of_ended {f : ParcelFramer} {b : Byte} {assembly : List Byte}
    (h : (f.octetEvent b).2 = .ended assembly) (hv : parcelFault assembly = none) : f.handsOver [b] = true := by
  simp [handsOver, framerRun_cons, h, hv]

/-- Only a Fence hands a parcel over, in an open assembly and with no Shield before it (R35, R38). -/
theorem fence_of_handsOver {f : ParcelFramer} {b : Byte} (h : f.handsOver [b] = true) :
    b = fenceOctet ∧ f.phase = .opened ∧ f.shieldPending = false := by
  have hends : ∃ assembly, (f.octetEvent b).2 = .ended assembly := by
    cases hg : (f.octetEvent b).2 with
    | ended assembly => exact ⟨assembly, rfl⟩
    | nothing | hold | go => simp [handsOver, framerRun_cons, hg] at h
  obtain ⟨assembly, hends⟩ := hends
  unfold octetEvent at hends
  grind

/-- Octets without a Fence hand nothing over. -/
theorem handsOver_of_noFence (f : ParcelFramer) {os : List Byte} (h : fenceOctet ∉ os) : f.handsOver os = false := by
  induction os generalizing f with
  | nil => rfl
  | cons b rest ih =>
    rw [List.mem_cons, not_or] at h
    obtain ⟨hb, hrest⟩ := h
    rw [handsOver_cons, ih _ hrest, Bool.or_false, Bool.eq_false_iff]
    exact fun hh => hb (fence_of_handsOver hh).1.symm

/-- After a Shield the framer is Hunting, or waits for its follower (R37, R39). -/
theorem octetEvent_shield (f : ParcelFramer) (h : (f.octetEvent shieldOctet).1.phase = .opened) :
    (f.octetEvent shieldOctet).1.shieldPending = true := by
  have hne : shieldOctet ≠ holdOctet ∧ shieldOctet ≠ goOctet ∧ shieldOctet ≠ fenceOctet := by decide
  have hform : escapedForm shieldOctet = false := by decide
  obtain ⟨hhold, hgo, hfence⟩ := hne
  unfold octetEvent at h ⊢
  simp only [hhold, hgo, hfence, hform, if_false] at h ⊢
  cases hp : f.phase with
  | hunting => simp [hp] at h
  | opened =>
    cases hs : f.shieldPending with
    | true => simp [hp, hs, countEscape, hunt] at h
    | false => simp

/-- What follows a Shield hands nothing over (R38, R39). -/
theorem handsOver_shield (f : ParcelFramer) (os : List Byte) (b : Byte) :
    f.handsOver (escapeOctets os ++ [shieldOctet, b]) = false := by
  rw [handsOver_append, handsOver_of_noFence f (fenceOctet_notMem_escapeOctets os), handsOver_cons,
    handsOver_of_noFence _ (os := [shieldOctet]) (by decide), Bool.false_or, Bool.false_or, Bool.eq_false_iff]
  intro hh
  obtain ⟨-, hopen, hclear⟩ := fence_of_handsOver hh
  rw [octetEvent_shield _ hopen] at hclear
  cases hclear

/-- The discard counters have no part in what an octet does to the assembly (R51). -/
theorem octetEvent_counters (f : ParcelFramer) (c : DiscardCounters) (b : Byte) :
    ∃ c', ({ f with counters := c } : ParcelFramer).octetEvent b =
      ({ (f.octetEvent b).1 with counters := c' }, (f.octetEvent b).2) := by
  unfold octetEvent append
  dsimp only
  repeat' split
  all_goals exact ⟨_, rfl⟩

theorem handsOver_counters (f : ParcelFramer) (c : DiscardCounters) (os : List Byte) :
    ({ f with counters := c } : ParcelFramer).handsOver os = f.handsOver os := by
  induction os generalizing f c with
  | nil => rfl
  | cons b rest ih =>
    obtain ⟨c', hc⟩ := f.octetEvent_counters c b
    rw [handsOver_cons, handsOver_cons f, hc, ih]
    congr 1
    simp [handsOver, framerRun_cons, hc]

end ParcelFramer

/-- An octet that hands nothing over takes the assembly on as the framer does, whatever it counts (R26, R43). -/
theorem State.octetEvent_handsOver (s : State) {b : Byte} (h : s.pf.handsOver [b] = false) (os : List Byte) :
    (s.octetEvent b).pf.handsOver os = (s.pf.octetEvent b).1.handsOver os := by
  unfold State.octetEvent
  dsimp only
  split
  case h_1 => rfl
  case h_2 =>
    unfold State.holdSignal
    split <;> rfl
  case h_3 =>
    unfold State.goSignal
    split <;> rfl
  case h_4 assembly hends =>
    unfold State.endAssembly
    split
    case h_1 => exact ParcelFramer.handsOver_counters _ _ os
    case h_2 hv => rw [ParcelFramer.handsOver_of_ended hends hv] at h; cases h

/-! ### The lock mask and the active record -/

/-- From `s` to `t` no lock has been cleared; the lock mask has changed only if `locks`, the active record only if
`configures`. -/
structure State.SettingsKept (locks configures : Prop) (s t : State) : Prop where
  locked : s.pu.lockMask &&& t.pu.lockMask = s.pu.lockMask
  lockMask : ¬locks → t.pu.lockMask = s.pu.lockMask
  active : ¬configures → t.cs.active = s.cs.active

theorem State.SettingsKept.refl (p q : Prop) (s : State) : s.SettingsKept p q s :=
  ⟨BitVec.and_self, fun _ => rfl, fun _ => rfl⟩

section Kept

variable {p q : Prop} {s t : State} (h : s.SettingsKept p q t)
include h

namespace State.SettingsKept

theorem same {u : State} (hl : u.pu.lockMask = t.pu.lockMask) (ha : u.cs.active = t.cs.active) :
    s.SettingsKept p q u :=
  ⟨by rw [hl]; exact h.locked, fun hp => hl.trans (h.lockMask hp), fun hq => ha.trans (h.active hq)⟩

theorem units {u : State} (hpu : u.pu = t.pu) (hcs : u.cs = t.cs) : s.SettingsKept p q u :=
  h.same (by rw [hpu]) (by rw [hcs])

/-- The batch and the service queue touch neither. -/
theorem batch {u : State} (hu : t.SameBeyondBatch u) : s.SettingsKept p q u := h.units hu.pu hu.cs

/-- A command that takes effect on a condition, and is void otherwise (assumption 1). -/
theorem of_ite {b : Prop} [Decidable b] {u v : State}
    (hu : (if b then Host.Outcome.next v else .next t : Result) = .next u) (hv : s.SettingsKept p q v) :
    s.SettingsKept p q u := by
  split at hu <;> cases hu
  · exact hv
  · exact h

/-- Groups are locked, and none is unlocked (R174, R175). -/
theorem lockGroups (hp : p) (mask : Word16) : s.SettingsKept p q (t.lockGroups mask) where
  locked := by
    rw [State.lockGroups_pu, BitVec.and_or_distrib_left, h.locked]
    ext i hi
    simp +contextual
  lockMask := fun hn => absurd hp hn
  active := h.active

theorem applySettings (hq : q) (r : Settings) : s.SettingsKept p q (t.applySettings r) := by
  have hset : (t.applySettings r).pu = t.pu := by
    unfold State.applySettings
    dsimp only
    split <;> rfl
  exact ⟨by rw [hset]; exact h.locked, fun hp => by rw [hset]; exact h.lockMask hp, fun hn => absurd hq hn⟩

/-! ### The session -/

theorem teardown (r : TeardownReason) : s.SettingsKept p q (t.teardown r) := by
  obtain ⟨-, -, -, -, hpu, hcs, -⟩ := t.teardown_frame r
  exact h.units hpu hcs

theorem retryOnce : s.SettingsKept p q t.retryOnce := by
  unfold State.retryOnce
  dsimp only
  split
  · exact teardown (t := { t with su := { t.su with retry := t.su.retry + 1 } }) (h.same rfl rfl) _
  · exact h.same rfl rfl

theorem appendReply (tag : Byte) (status : ReplyStatus) : s.SettingsKept p q (t.appendReply tag status) := by
  unfold State.appendReply
  split
  · exact h.same rfl rfl
  · exact h

theorem touchKeepalive : s.SettingsKept p q t.touchKeepalive := by
  rw [State.touchKeepalive_eq]
  exact h.same rfl rfl

theorem endStep (left : Bool) : s.SettingsKept p q (t.endStep left) := by
  rw [State.endStep_eq]
  exact h.same rfl rfl

theorem withNr (nr : Seq) {rest : State → State}
    (hrest : ∀ u : State, s.SettingsKept p q u → s.SettingsKept p q (rest u)) :
    s.SettingsKept p q (t.withNr nr rest) := by
  unfold State.withNr
  dsimp only
  split
  · refine (hrest _ ?_).endStep _
    rw [State.acknowledge_eq]
    exact h.touchKeepalive.same rfl rfl
  · exact h.touchKeepalive.teardown _

theorem receiveHail (tag : Byte) (payload : List Byte) : s.SettingsKept p q (t.receiveHail tag payload) := by
  have htouched : s.SettingsKept p q (if t.isAttached then t.touchKeepalive else t) := by
    split
    · exact h.touchKeepalive
    · exact h
  unfold State.receiveHail
  dsimp only
  split
  · exact (htouched.teardown .rehail).same rfl rfl
  · exact htouched.appendReply _ _

theorem receiveAck (nr : Seq) (payload : List Byte) : s.SettingsKept p q (t.receiveAck nr payload) := by
  unfold State.receiveAck
  split
  · exact h.withNr nr (fun _ hu => hu.same rfl rfl)
  · exact h.same rfl rfl

theorem rejAfterNr : s.SettingsKept p q t.rejAfterNr := by
  have hcounted : s.SettingsKept p q { t with su := { t.su with rejReceived := t.su.rejReceived + 1 } } :=
    h.same rfl rfl
  unfold State.rejAfterNr
  dsimp only
  split
  · exact hcounted
  · exact hcounted.retryOnce

theorem receiveRej (nr : Seq) : s.SettingsKept p q (t.receiveRej nr) := by
  unfold State.receiveRej
  split
  · exact h.withNr nr (fun _ hu => hu.rejAfterNr)
  · exact h.same rfl rfl

/-! ### Services and requests -/

theorem enqueue (i : Nat) : s.SettingsKept p q (enqueue i t) := by
  unfold Machine.enqueue
  dsimp only
  split
  · refine batch ?_ (State.examine_frame _)
    exact h.same rfl rfl
  · exact h.same rfl rfl

theorem parkService (i : Nat) : s.SettingsKept p q (parkService i t) := by
  unfold Machine.parkService
  split
  · exact h.same rfl rfl
  · exact ((h.batch t.parkBatch_frame).batch (State.answer_frame _ _ _ _)).batch (State.examineIfMoved_frame _ _)

theorem unparkService (i : Nat) : s.SettingsKept p q (unparkService i t) := by
  unfold Machine.unparkService
  split
  · exact h.same rfl rfl
  · exact ((h.batch t.unparkBatch_frame).batch (State.answer_frame _ _ _ _)).batch (State.examineIfMoved_frame _ _)

theorem cancelService (target : Byte) (i : Nat) : s.SettingsKept p q (cancelService target i t) := by
  unfold Machine.cancelService
  split
  · exact h.same rfl rfl
  · split
    · exact h.same rfl rfl
    · exact h.batch (t.cancelQueued_frame i _)
    · exact h.same rfl rfl
    · exact h.batch (t.cancelBatched_frame i _)
    · exact h.same rfl rfl

theorem statusService (flags : Byte) (i : Nat) : s.SettingsKept p q (statusService flags i t) := by
  unfold Machine.statusService
  dsimp only
  split <;> exact h.same rfl rfl

theorem logTakeService (maximum : Byte) (i : Nat) : s.SettingsKept p q (logTakeService maximum i t) := by
  unfold Machine.logTakeService
  split
  · exact h.same rfl rfl
  · refine endStep ?_ _
    exact h.same rfl rfl

section Request

variable {r : Request} (hp : ∀ mask, r = .lockGroups mask → p) (hq : ∀ pairs, r = .configSet pairs → q)
include hp hq

/-- Of the services of the requests only LOCK_GROUPS' writes the lock mask, only CONFIG_SET's the active record. -/
theorem service (i : Nat) : s.SettingsKept p q (r.service i t) := by
  cases r with
  | unknown | sectorInfo | configGet | identify | ping | attnControl => exact h.same rfl rfl
  | read | program | checkRegion | eraseSectors | eraseAll | protectGroup | unprotectAll | configStore =>
    exact h.enqueue i
  | parkErase => exact h.parkService i
  | unparkErase => exact h.unparkService i
  | cancel target => exact h.cancelService target i
  | lockGroups mask => exact (h.lockGroups (hp mask rfl) mask).batch (State.answer_frame _ _ _ _)
  | configSet pairs => exact (h.applySettings (hq pairs rfl) _).batch (State.answer_frame _ _ _ _)
  | status flags => exact h.statusService flags i
  | logTake maximum => exact h.logTakeService maximum i

theorem accept (i : Nat) (tag : Byte) (check : Option (Status × List Byte)) :
    s.SettingsKept p q (t.accept i tag r check r.service) := by
  have htaken : s.SettingsKept p q (t.takeSlot i tag r) := h.same rfl rfl
  unfold State.accept
  dsimp only
  split
  · exact h.same rfl rfl
  · split
    · exact h.same rfl rfl
    · split
      · exact h.same rfl rfl
      · exact htaken.service hp hq i

theorem classify (ns : Seq) (tag : Byte) (check : Option (Status × List Byte)) :
    s.SettingsKept p q (t.classify ns tag r check r.service) := by
  have hsequenced : s.SettingsKept p q t.acceptSequence := h.same rfl rfl
  unfold State.classify
  dsimp only
  split
  · split
    · exact hsequenced.accept hp hq _ tag check
    · exact h.same rfl rfl
  · split
    · split <;> exact h.same rfl rfl
    · split <;> exact h.same rfl rfl

theorem receiveRequest (head : ParcelHead) (check : Option (Status × List Byte)) :
    s.SettingsKept p q (t.receiveRequest head r check r.service) := by
  unfold State.receiveRequest
  split
  · exact h.withNr head.nr (fun _ hu => hu.classify hp hq head.ns head.tag check)
  · exact appendReply (t := t.countUnattached) (h.same rfl rfl) _ _

end Request

/-! ### The octets of the line -/

/-- A valid parcel may bring any request (R48). -/
theorem receiveParcel (hpq : p ∧ q) (assembly : List Byte) : s.SettingsKept p q (t.receiveParcel assembly) := by
  unfold State.receiveParcel
  dsimp only
  split
  · exact h.receiveHail _ _
  · split
    · exact h.receiveAck _ _
    · split
      · exact h.receiveRej _
      · exact h.receiveRequest (fun _ _ => hpq.1) (fun _ _ => hpq.2) _ _

theorem octetEvent {b : Byte} (hb : t.pf.handsOver [b] = true → p ∧ q) : s.SettingsKept p q (t.octetEvent b) := by
  have hframed : s.SettingsKept p q { t with pf := (t.pf.octetEvent b).1 } := h.same rfl rfl
  unfold State.octetEvent
  dsimp only
  split
  case h_1 => exact hframed
  case h_2 =>
    unfold State.holdSignal
    split <;> exact hframed.same rfl rfl
  case h_3 =>
    unfold State.goSignal
    split <;> exact hframed.same rfl rfl
  case h_4 assembly hends =>
    unfold State.endAssembly
    split
    case h_1 => exact hframed.same rfl rfl
    case h_2 hv => exact hframed.receiveParcel (hb (ParcelFramer.handsOver_of_ended hends hv)) _

theorem octetEvents {os : List Byte} (hos : t.pf.handsOver os = true → p ∧ q) :
    s.SettingsKept p q (t.octetEvents os) := by
  unfold State.octetEvents
  induction os generalizing t with
  | nil => exact h
  | cons b rest ih =>
    rw [ParcelFramer.handsOver_cons, Bool.or_eq_true] at hos
    refine ih (h.octetEvent (fun hb => hos (.inl hb))) (fun hrest => ?_)
    cases hb : t.pf.handsOver [b] with
    | true => exact hos (.inl hb)
    | false => exact hos (.inr ((t.octetEvent_handsOver hb rest).symm.trans hrest))

theorem wake (rxd : Bool) : s.SettingsKept p q (t.wake rxd) := by
  obtain ⟨-, -, -, -, -, hpu, -, hcs, -⟩ := t.wake_frame rxd
  exact h.units hpu hcs

theorem unheard (level : Bool) (b : Timer) : s.SettingsKept p q (t.unheard level b) := by
  obtain ⟨-, -, -, -, -, hpu, -, hcs, -⟩ := t.unheard_frame level b
  exact h.units hpu hcs

theorem characters {os : List Byte} (hos : t.pf.handsOver os = true → p ∧ q) :
    s.SettingsKept p q (t.characters os) := by
  unfold State.characters
  split
  · exact octetEvents (t := t.characterEnd) (h.same rfl rfl) hos
  · exact h.unheard _ _

theorem onParcel {handle : State → State} (hh : ∀ u : State, s.SettingsKept p q u → s.SettingsKept p q (handle u)) :
    s.SettingsKept p q (t.onParcel handle) := by
  unfold State.onParcel
  split
  · dsimp only
    split
    · exact h.same rfl rfl
    · exact hh _ (h.same rfl rfl)
  · exact h.unheard _ _

theorem sampleBit {samples : List Bool} (hs : t.pf.handsOver [bitsOctet samples.tail] = true → p ∧ q) :
    s.SettingsKept p q (t.sampleBit samples) := by
  unfold State.sampleBit
  split
  · exact h.same rfl rfl
  · split
    · exact h.same rfl rfl
    · split
      · exact octetEvent (t := t.setReceiver .idle) (h.same rfl rfl) hs
      · exact h.same rfl rfl

theorem setRxd (high : Bool) : s.SettingsKept p q (t.setRxd high) := by
  have hlevel : s.SettingsKept p q { t with pins := { t.pins with rxd := high } } := h.same rfl rfl
  unfold State.setRxd
  split
  · exact h
  · dsimp only
    split
    · unfold State.risingEdge
      split <;> exact hlevel.same rfl rfl
    · unfold State.fallingEdge
      split
      · exact hlevel.wake false
      all_goals exact hlevel.same rfl rfl

theorem settle : s.SettingsKept p q t.settle := by
  rw [State.settle_eq]
  exact h.same rfl rfl

theorem linkBreakReset : s.SettingsKept p q t.linkBreakReset := by
  have hbroken : ∀ (a : Pins) (c : CharacterLink) (f : ParcelFramer),
      s.SettingsKept p q (State.clearHeld { t with pins := a, cl := c, pf := f }) := fun _ _ _ => h.same rfl rfl
  exact (hbroken _ _ _).teardown .break_

/-! ### Timers, MAINT and selection -/

theorem holdExpiry : s.SettingsKept p q t.holdExpiry := by
  unfold State.holdExpiry
  split
  · exact h.teardown _
  · exact h.same rfl rfl

theorem keepaliveExpiry (rxd : Bool) : s.SettingsKept p q (t.keepaliveExpiry rxd) := by
  have hstopped : ∀ u : SessionUnit, s.SettingsKept p q { t.wake rxd with su := u } := fun _ =>
    (h.wake rxd).same rfl rfl
  exact (hstopped _).teardown .keepalive

theorem retransmitExpiry : s.SettingsKept p q t.retransmitExpiry :=
  retryOnce (t := { t with su := { t.su with retransmit := .stopped } }) (h.same rfl rfl)

theorem maintChange (rxd : Bool) : s.SettingsKept p q (t.maintChange rxd) := by
  unfold State.maintChange
  split
  · dsimp only
    rw [State.offer_eq]
    exact (h.wake rxd).same rfl rfl
  · exact h

theorem select {u : State} (hu : t.select = some u) : s.SettingsKept p q u := by
  unfold State.select at hu
  split at hu
  case isFalse => cases hu
  case isTrue =>
    rcases t.choose_cases u hu with ⟨r, rest, -, rfl⟩ | rfl | hagain | hnew | hack
    · exact h.same rfl rfl
    · exact h.same rfl rfl
    · unfold State.chooseAgain at hagain
      split at hagain
      · cases hagain
      · obtain ⟨e, -, rfl⟩ := Option.map_eq_some_iff.1 hagain
        exact h.same rfl rfl
    · unfold State.chooseNew at hnew
      split at hnew
      · split at hnew
        · cases hnew
          refine batch ?_ (State.releaseSlot_frame _ _)
          exact h.same rfl rfl
        · split at hnew
          · obtain ⟨r, -, rfl⟩ := Option.map_eq_some_iff.1 hnew
            exact h.same rfl rfl
          · cases hnew
      · cases hnew
    · unfold State.chooseAck at hack
      split at hack <;> cases hack
      exact h.same rfl rfl

theorem transmitterFree : s.SettingsKept p q t.transmitterFree := by
  have hfree : s.SettingsKept p q t.freeTransmitter := h.same rfl rfl
  unfold State.transmitterFree
  cases hu : t.freeTransmitter.select with
  | none => exact hfree
  | some u => exact hfree.select hu

/-! ### The engine's steps -/

theorem finishFreed (i : Nat) (st : Status) (results : List Byte) :
    s.SettingsKept p q (t.finishRunning i st results).engineFreed := h.batch (t.finishFreed_frame i st results)

theorem programNext (op : ProgramOp) : s.SettingsKept p q (t.programNext op) := by
  unfold State.programNext
  split
  · exact h.same rfl rfl
  · exact h.finishFreed _ _ _

theorem programOctet (op : ProgramOp) (d : Byte) (pulses : List Byte) :
    s.SettingsKept p q (t.programOctet op d pulses) := by
  have hwritten : ∀ m : Memory, s.SettingsKept p q { t with array := m } := fun _ => h.same rfl rfl
  unfold State.programOctet
  dsimp only
  split
  · exact h.programNext _
  · split
    · exact (hwritten _).programNext _
    · exact (hwritten _).finishFreed _ _ _

theorem checkLine (op : CheckOp) : s.SettingsKept p q (t.checkLine op) := by
  unfold State.checkLine
  dsimp only
  split
  · exact h.same rfl rfl
  · exact finishFreed (t := t.spendFree op.stepLength) (h.same rfl rfl) _ _ _

/-- The protect store is none of the volatile lock mask (R170, R174). -/
theorem protectStep (slot group : Nat) (bitRead : Bool) (n : Nat) (verified : Bool) :
    s.SettingsKept p q (t.protectStep slot group bitRead n verified) := by
  unfold State.protectStep
  dsimp only
  split
  · split
    · exact h.finishFreed _ _ _
    · exact h.same rfl rfl
  · split
    · refine finishFreed ?_ _ _ _
      exact h.same rfl rfl
    · split
      · exact h.same rfl rfl
      · refine finishFreed ?_ _ _ _
        exact h.same rfl rfl

theorem unprotectStep (slot : Nat) (opened : Bool) (n : Nat) (bits cells : Word16) :
    s.SettingsKept p q (t.unprotectStep slot opened n bits cells) := by
  unfold State.unprotectStep
  dsimp only
  split
  · exact h.same rfl rfl
  · split
    · refine finishFreed ?_ _ _ _
      exact h.same rfl rfl
    · split
      · exact h.same rfl rfl
      · refine finishFreed ?_ _ _ _
        exact h.same rfl rfl

/-- The stored copies are none of the active record (R198, R199). -/
theorem setCopy (id : CopyId) (c : StoredCopy) : s.SettingsKept p q (t.setCopy id c) := by
  cases id <;> exact h.same rfl rfl

theorem configStep (slot : Nat) (record : Settings) (target : CopyId) (generation : Byte) (stage : CopyStage)
    (erased : Bool) (pulses : List Byte) :
    s.SettingsKept p q (t.configStep slot record target generation stage erased pulses) := by
  have hwritten := h.setCopy target
  cases stage with
  | clearMark => exact (hwritten _).same rfl rfl
  | eraseCopy n =>
    simp only [State.configStep]
    split
    · exact (hwritten _).same rfl rfl
    · split
      · exact h.same rfl rfl
      · exact h.finishFreed _ _ _
  | programOctet index pulseCount =>
    simp only [State.configStep]
    split
    · exact (hwritten _).finishFreed _ _ _
    · split <;> exact (hwritten _).same rfl rfl
  | commit => exact (hwritten _).finishFreed _ _ _

theorem sectorGoesOn (op : EraseOp) : s.SettingsKept p q (t.sectorGoesOn op) := by
  unfold State.sectorGoesOn
  split
  · exact h.batch (t.suspendSector_frame op)
  · exact h.same rfl rfl

theorem sectorStep (op : EraseOp) (allErased : Bool) : s.SettingsKept p q (t.sectorStep op allErased) := by
  have hclosed : ∀ o, s.SettingsKept p q (t.closeSector op.sector o).afterSector := fun o => by
    refine batch (h.units ?_ ?_) (State.afterSector_frame _) <;>
      (unfold State.closeSector; dsimp only; split <;> rfl)
  unfold State.sectorStep
  split
  · split <;> exact h.sectorGoesOn _
  · split
    · exact hclosed _
    · split
      · exact h.sectorGoesOn _
      · exact hclosed _

/-! ### The supply, the pins and the ticks -/

/-- A supply-low entry abandons the work in hand: of an interrupted PROGRAM octets of the array alone are free (R8, R130). -/
theorem abandonWrites : s.SettingsKept p q t.abandonWrites := by
  unfold State.abandonWrites
  split
  case h_1 op he =>
    refine finishFreed ?_ op.slot .supplyLow []
    simp only [State.interrupted, he]
    exact h.same rfl rfl
  case h_2 => exact h.finishFreed _ _ _
  case h_3 =>
    have hidle : s.SettingsKept p q { t with ae := { t.ae with engine := .idle } } := h.same rfl rfl
    exact (hidle.batch (State.abortBatch_frame _)).batch (State.engineFreed_frame _)
  case h_4 => exact h

theorem supplyLowEntry (rxd : Bool) : s.SettingsKept p q (t.supplyLowEntry rxd) := by
  unfold State.supplyLowEntry
  split
  · rw [State.enterInhibit_eq]
    exact abandonWrites ((h.wake rxd).same rfl rfl)
  · exact h

theorem supplyLowExit (rxd : Bool) : s.SettingsKept p q (t.supplyLowExit rxd) := by
  unfold State.supplyLowExit
  split
  · dsimp only
    rw [State.offer_eq]
    exact (h.wake rxd).same rfl rfl
  · exact h

theorem dozeTest : s.SettingsKept p q t.dozeTest := by
  unfold State.dozeTest
  split
  · exact h.same rfl rfl
  · exact h

theorem dueSupply (hv : t.pins.vdd ≠ .off) : s.SettingsKept p q t.dueSupply := by
  unfold State.dueSupply
  split
  case h_1 hoff => exact absurd hoff hv
  case h_2 => exact h.supplyLowEntry _
  case h_3 => exact h.supplyLowExit _
  case h_4 => exact h

theorem tickOnce (hr : t.isRunning = true) (hv : t.pins.vdd ≠ .off) : s.SettingsKept p q t.tickOnce := by
  have hclocks : s.SettingsKept p q (State.advanceClocks { t with sr := { t.sr with phase := 0 } }) := h.same rfl rfl
  rw [State.tickOnce_running t hr]
  refine hclocks.dozeTest.dueSupply ?_
  rw [(State.dozeTest_frame _).1]
  exact hv

theorem takeInput {c : PinChange} (hc : c.event.isReset = false) : s.SettingsKept p q (t.takeInput c) := by
  have hmoved : s.SettingsKept p q { t with inputs := t.inputs.erase c } := h.same rfl rfl
  unfold State.takeInput
  cases he : c.event with
  | rxd high => exact hmoved.setRxd high
  | maint high => exact h.same rfl rfl
  | rstn high => simp [he, PinEvent.isReset] at hc
  | vdd band => simp [he, PinEvent.isReset] at hc

end State.SettingsKept

end Kept

/-! ### Every command -/

theorem isLockGroups_of_request {c : Instr} {h : ParcelHead} {mask : Word16}
    (hc : requestOf c = some (h, .lockGroups mask)) : isLockGroups c = true := by
  cases c <;> cases hc
  rfl

theorem isConfigSet_of_request {c : Instr} {h : ParcelHead} {pairs : List (Byte × Byte)}
    (hc : requestOf c = some (h, .configSet pairs)) : isConfigSet c = true := by
  cases c <;> cases hc
  rfl

theorem exec_engineStep_settingsKept (p q : Prop) {c : Instr} {s t : State} (hc : isEngineStep c = true)
    (h : exec c s = .next t) : s.SettingsKept p q t := by
  have hs := State.SettingsKept.refl p q s
  rcases exec_engineStep_cases c s t hc h with rfl | ⟨op, -, rfl⟩ | ⟨op, -, ⟨rfl, -⟩ | ⟨d, pulses, -, rfl⟩⟩ |
    ⟨op, -, rfl⟩ | ⟨slot, group, bitRead, n, verified, -, rfl⟩ | ⟨slot, opened, n, bits, cells, -, rfl⟩ |
    ⟨slot, record, target, generation, stage, erased, pulses, -, rfl⟩ | ⟨op, allErased, -, rfl⟩
  · exact hs
  · exact State.SettingsKept.finishFreed (t := s.spendFree op.count) (hs.same rfl rfl) _ _ _
  · exact hs.programNext op
  · exact hs.programOctet op d pulses
  · exact hs.checkLine op
  · exact hs.protectStep slot group bitRead n verified
  · exact hs.unprotectStep slot opened n bits cells
  · exact hs.configStep slot record target generation stage erased pulses
  · exact hs.sectorStep op allErased

/-- Apart from the resets only LOCK_GROUPS, CONFIG_SET and a Fence that ends a valid parcel may write the lock mask or the
active record, and none of them clears a lock (R174, R175, R198). -/
theorem exec_settingsKept {p q : Prop} {c : Instr} {s t : State} (hreset : resetCommand c = false)
    (hlock : isLockGroups c = true → p) (hconfig : isConfigSet c = true → q)
    (hcloses : s.closesParcel c = true → p ∧ q) (h : exec c s = .next t) : s.SettingsKept p q t := by
  have hs := State.SettingsKept.refl p q s
  have hpins : ∀ a : Pins, s.SettingsKept p q { s with pins := a } := fun _ => hs.same rfl rfl
  have hnoFence {os : List Byte} (hos : fenceOctet ∉ os) : s.SettingsKept p q (s.characters os) :=
    hs.characters (fun hh => by rw [s.pf.handsOver_of_noFence hos] at hh; cases hh)
  have hshield (os : List Byte) (b : Byte) : s.SettingsKept p q (s.characters (escapeOctets os ++ [shieldOctet, b])) :=
    hs.characters (fun hh => by rw [s.pf.handsOver_shield os b] at hh; cases hh)
  cases hr : requestOf c with
  | some hd =>
    obtain ⟨head, r⟩ := hd
    rw [exec_request c head r hr] at h
    cases h
    refine hs.onParcel (fun _ hu => hu.receiveRequest (fun mask hm => ?_) (fun pairs hm => ?_) head _)
    · exact hlock (isLockGroups_of_request (hm ▸ hr))
    · exact hconfig (isConfigSet_of_request (hm ▸ hr))
  | none =>
    by_cases he : isEngineStep c = true
    · exact exec_engineStep_settingsKept p q he h
    · cases c with
      | powerOn | powerOff | pinReset | resetRelease | initialisationComplete => cases hreset
      | supplyLowEntry rxd => cases h; exact (hpins _).supplyLowEntry rxd
      | supplyLowExit rxd => cases h; exact (hpins _).supplyLowExit rxd
      | dozeEntry => exact hs.of_ite h (hs.same rfl rfl)
      | dozeWake => cases h; exact hs.wake false
      | settleComplete => exact hs.of_ite h hs.settle
      | framingError low =>
        simp only [exec, execFramingError] at h
        split at h <;> cases h
        · exact hs.same rfl rfl
        · exact State.SettingsKept.unheard (t := s.spendFree _) (hs.same rfl rfl) _ _
      | longBreak => exact hs.of_ite h hs.linkBreakReset
      | hold | go => cases h; exact hnoFence (by decide)
      | openingFence => cases h; exact hs.characters hcloses
      | parcelDiscarded octets => cases h; exact hs.characters hcloses
      | abort octets => cases h; exact hshield octets fenceOctet
      | escapeViolation octets follower => cases h; exact hshield octets follower
      | overlong octets => cases h; exact hnoFence (fenceOctet_notMem_escapeOctets octets)
      | hail hd payload => cases h; exact hs.onParcel (fun _ hu => hu.receiveHail _ _)
      | ackReceived hd payload => cases h; exact hs.onParcel (fun _ hu => hu.receiveAck _ _)
      | rejReceived hd payload => cases h; exact hs.onParcel (fun _ hu => hu.receiveRej _)
      | holdLimitExpiry => exact hs.of_ite h hs.holdExpiry
      | keepaliveExpiry rxd => exact hs.of_ite h (hs.keepaliveExpiry rxd)
      | retransmitExpiry => exact hs.of_ite h hs.retransmitExpiry
      | gatherExpiry => exact hs.of_ite h (hs.batch s.gatherExpiry_frame)
      | spacingExpiry => exact hs.of_ite h (hs.batch s.spacingExpiry_frame)
      | debouncedMaintChange rxd =>
        cases h
        split
        · exact (hpins _).maintChange rxd
        · exact hs
      | transmitterFree => exact hs.of_ite h hs.transmitterFree
      | shortBreak => exact hs.of_ite h (hs.same rfl rfl)
      | _ => simp_all [requestOf, isEngineStep]

/-! ### The device's own step -/

/-- What is due in a Running device whose supply is not off, but for a change of RSTn or VDD and the last sample of a Fence
that ends a valid parcel, touches neither. -/
theorem State.handle_settingsKept (p q : Prop) {s : State} {d : Due} (hrun : s.isRunning = true)
    (hv : s.pins.vdd ≠ .off) (hinput : ∀ c, d = .input c → c.event.isReset = false)
    (hsample : ∀ samples, d = .sample samples → s.pf.handsOver [bitsOctet samples.tail] = false) :
    s.SettingsKept p q (s.handle d) := by
  have hs := State.SettingsKept.refl p q s
  cases d with
  | input c => exact hs.takeInput (hinput c rfl)
  | tick => exact hs.tickOnce hrun hv
  | doze => exact hs.same rfl rfl
  | longBreak => exact hs.linkBreakReset
  | sample samples => exact hs.sampleBit (fun hh => by rw [hsample samples rfl] at hh; cases hh)
  | settled => exact hs.settle
  | holdLimit => exact hs.holdExpiry
  | keepalive => exact hs.keepaliveExpiry _
  | retransmit => exact hs.retransmitExpiry
  | gather => exact hs.batch s.gatherExpiry_frame
  | spacing => exact hs.batch s.spacingExpiry_frame
  | maint => exact hs.maintChange _
  | octetSent rest => exact hs.same rfl rfl
  | transmitterFree => exact hs.transmitterFree

/-- What a plain own step excludes (R2, R48). -/
theorem State.ownStepPlain_iff (s : State) :
    s.ownStepPlain = true ↔ s.isRunning = true ∧ s.dueReset = none ∧ s.pins.vdd ≠ .off ∧
      ∀ samples, s.due = some (.sample samples) → s.pf.handsOver [bitsOctet samples.tail] = false := by
  unfold State.ownStepPlain
  rw [Bool.and_eq_true, Bool.and_eq_true, Bool.and_eq_true, Option.isNone_iff_eq_none, bne_iff_ne, and_assoc, and_assoc]
  refine and_congr_right fun _ => and_congr_right fun _ => and_congr_right fun _ => ?_
  split
  case h_1 samples hd => simp [hd]
  case h_2 hd => exact iff_of_true rfl (fun samples hs => absurd hs (hd samples))

theorem State.runningStep_settingsKept (p q : Prop) {s : State} (h : s.ownStepPlain = true) :
    s.SettingsKept p q s.runningStep := by
  obtain ⟨hrun, hreset, hv, hsample⟩ := s.ownStepPlain_iff.1 h
  have hs := State.SettingsKept.refl p q s
  unfold State.runningStep
  split
  case h_1 d hd =>
    exact State.handle_settingsKept p q hrun hv (fun c hc => State.due_input_notReset hreset (hc ▸ hd))
      (fun samples hc => hsample samples (hc ▸ hd))
  case h_2 =>
    cases hsel : s.select with
    | none => exact hs.same rfl rfl
    | some t => exact hs.select hsel

/-- Settles O8: a command keeps the lock mask and the active record unless it is one that may write them, and a plain own
step keeps both. -/
theorem locksAndSettingsPersist : Obligations.LocksAndSettingsPersist := by
  unfold Obligations.LocksAndSettingsPersist
  intro c s t
  refine ⟨fun hreset h => ?_, fun hp hplain h => ?_⟩
  · have hkept := exec_settingsKept (p := isLockGroups c = true ∨ s.closesParcel c = true)
      (q := isConfigSet c = true ∨ s.closesParcel c = true) hreset .inl .inl (fun hc => ⟨.inr hc, .inr hc⟩) h
    exact ⟨hkept.locked, fun hc hl => hkept.lockMask (by simp [hc, hl]), fun hc hl => hkept.active (by simp [hc, hl])⟩
  · obtain ⟨hrun, -⟩ := s.ownStepPlain_iff.1 hplain
    rw [s.step_running hp hrun] at h
    cases h
    have hkept := State.runningStep_settingsKept False False hplain
    exact ⟨hkept.lockMask not_false, hkept.active not_false⟩

end Sys2Proof.Machine
end

