-- ==== Sys2Proof/Proofs/EventRequests.lean ====
section
/-!
PROOFS. ATTN_CONTROL and LOG_TAKE (sections 9.5 and 9.7): each is served in its own acceptance and touches the Event Unit
alone, and what it reports is read from that block and the session as the acceptance leaves them. Settles O38 and O39.
-/

namespace Sys2Proof.Machine

section Taken

variable {s : State} {h : ParcelHead} {i : Nat} (ht : s.takes h i = true)
include ht

/-- A device that takes a request is Running-Active with its session attached, before and after the Nr (R21, R56). -/
theorem State.beforeAcceptance_takes :
    (s.beforeAcceptance h).sr.top = .active ∧ (s.beforeAcceptance h).su.link = .attached := by
  obtain ⟨⟨hears, hlink, -⟩, -⟩ := (s.takes_iff h i).1 ht
  simp only [State.hears, State.listening, Bool.and_eq_true, beq_iff_eq] at hears
  obtain ⟨⟨htop, -⟩, -⟩ := hears
  rw [State.beforeAcceptance, State.handedOver_eq]
  exact ⟨htop, (s.acknowledge_su h.nr).1.trans hlink⟩

/-- A taken request that fails its static check is answered with the failing status (R85). -/
theorem exec_checkFails {c : Instr} {r : Request} (hc : requestOf c = some (h, r)) (hf : formOk r.payload = true)
    {st : Status} {results : List Byte} (hs : staticCheck r = some (st, results)) :
    exec c s = .next (s.answers h i r (r.code :: st.code :: results)) := by
  rw [exec_request c h r hc, hs]
  exact requestStep_refused s h i r st results _ ht hf

end Taken

/-- What the hand-over of a request leaves of the clock and of the wish for notices (R54, R59). -/
theorem State.beforeAcceptance_notices (s : State) (h : ParcelHead) :
    (s.beforeAcceptance h).sr.tick = s.sr.tick ∧
      (s.beforeAcceptance h).su.noticesWanted = s.su.noticesWanted := by
  obtain ⟨-, -, -, -, -, -, -, -, hwanted, -⟩ := s.acknowledge_su h.nr
  rw [State.beforeAcceptance, State.handedOver_eq]
  exact ⟨rfl, hwanted⟩

/-! ### ATTN_CONTROL (R192) -/

/-- While ATTACHED an undelivered record raises NOTICE_WAITING just when no notices are wanted (R190). -/
theorem State.rawSet_attached {s : State} (hl : s.su.link = .attached) :
    s.rawSet = s.eu.latched |||
      (if s.eu.log.any (fun r => !r.inFlight) && !s.su.noticesWanted then 0x04 else 0) := by
  simp [State.rawSet, State.noticeWaiting, State.hasUndelivered, State.isAttached, hl, noticeMask]

/-- ATTN_CONTROL in the slot it has taken: the answer holds the sets as they stood, the Event Unit the new ones (R192). -/
theorem attnService_takeSlot {s : State} {i : Nat} (hi : i < s.rd.slots.length) (tag c w e : Byte) :
    attnService c w e i (s.takeSlot i tag (.attnControl c w e)) =
      { s.withAnswer i tag (.attnControl c w e) [0x12, 0, s.rawSet, s.eu.enable, s.rawSet &&& s.eu.enable] with
        eu := { s.eu with
          latched := s.eu.latched &&& ~~~c
          enable := if w = 1 then e else s.eu.enable } } :=
  State.answer_takeSlot (s.attnUpdate c w e) i tag (.attnControl c w e) .ok _ hi

/-- Settles O38: a taken ATTN_CONTROL whose flag is 0 or 1 is served at once, and ATTNn follows the sets of any
Running-Active state; a larger flag fails its static check. -/
theorem attnControlReadsThenClears : Obligations.AttnControlReadsThenClears := by
  unfold Obligations.AttnControlReadsThenClears
  intro s h i c w e ht
  obtain ⟨htop, hlink⟩ := State.beforeAcceptance_takes ht
  dsimp only
  rw [← State.rawSet_attached hlink]
  have hserved (hw : w.toNat ≤ 1) := (exec_served ht (c := .attnControl h c w e) rfl rfl (if_pos hw)).trans
    (congrArg (fun t => Host.Outcome.next (s.atEnd h t)) (attnService_takeSlot (s.takes_lt ht) h.tag c w e))
  refine ⟨hserved, fun hw => ⟨_, hserved hw, State.attnLevel_running _ (.inl ?_)⟩, fun hw => ?_⟩
  · rw [State.atEnd_eq]
    exact htop
  · have hcheck : staticCheck (.attnControl c w e) = some (.badParam, []) := if_neg (Nat.not_le.2 hw)
    exact exec_checkFails ht (c := .attnControl h c w e) rfl rfl hcheck

/-! ### LOG_TAKE (R188) -/

/-- LOG_TAKE while notices are wanted takes nothing (R188). -/
theorem logTakeService_wanted {s : State} {i : Nat} (hi : i < s.rd.slots.length) (hw : s.su.noticesWanted = true)
    (tag maximum : Byte) :
    logTakeService maximum i (s.takeSlot i tag (.logTake maximum)) =
      s.withAnswer i tag (.logTake maximum) [0x13, 19] :=
  (if_pos hw).trans (s.answer_takeSlot i tag (.logTake maximum) .noticesActive [] hi)

/-- LOG_TAKE in the slot it has taken: the oldest records are the answer and leave the log, and if any has left, lost
events are reported (R185, R188). -/
theorem logTakeService_takeSlot {s : State} {i : Nat} (hi : i < s.rd.slots.length) (hw : s.su.noticesWanted = false)
    (tag maximum : Byte) :
    logTakeService maximum i (s.takeSlot i tag (.logTake maximum)) =
      let taken := s.eu.log.take maximum.toNat
      let left : EventUnit := { s.eu with log := s.eu.log.drop maximum.toNat }
      { s.withAnswer i tag (.logTake maximum) ([0x13, 0, octet taken.length] ++ taken.flatMap LogRecord.octets) with
        eu := if taken = [] then left else left.lostReported s.sr.tick } := by
  have hanswer := State.answer_takeSlot (s.takeRecords maximum.toNat) i tag (.logTake maximum) .ok
    (octet (s.eu.log.take maximum.toNat).length :: (s.eu.log.take maximum.toNat).flatMap LogRecord.octets) hi
  have hservice : logTakeService maximum i (s.takeSlot i tag (.logTake maximum)) = State.endStep
      (((s.takeRecords maximum.toNat).takeSlot i tag (.logTake maximum)).answer i .ok
        (octet (s.eu.log.take maximum.toNat).length :: (s.eu.log.take maximum.toNat).flatMap LogRecord.octets))
      (s.eu.log.take maximum.toNat != []) := if_neg (by simp [hw])
  rw [hservice, hanswer, State.endStep_eq]
  by_cases htaken : s.eu.log.take maximum.toNat = []
  · simp only [htaken, bne_self_eq_false, Bool.false_eq_true, if_false, if_true]
    rfl
  · simp only [htaken, bne_iff_ne, ne_eq, not_false_eq_true, if_true, if_false]
    rfl

/-- Settles O39: a maximum outside 1 to 4 fails its static check, and the service answers the rest. A LOST_EVENTS record
that it appends leaves nothing for the end of the step to report. -/
theorem logTakeRemovesOldest : Obligations.LogTakeRemovesOldest := by
  unfold Obligations.LogTakeRemovesOldest
  intro s h i maximum ht
  obtain ⟨htick, hwanted⟩ := s.beforeAcceptance_notices h
  have hi := s.takes_lt ht
  dsimp only
  have hserved (hm : (decide (1 ≤ maximum.toNat) && decide (maximum.toNat ≤ 4)) = true) :=
    exec_served ht (c := .logTake h maximum) rfl rfl (if_pos (by simpa using hm))
  refine ⟨fun hm => ?_, fun hm hw => ?_, fun hm hw hquiet => ?_, fun hm hw htaken hlost hlen => ?_⟩
  · have hcheck : staticCheck (.logTake maximum) = some (.badParam, []) := if_neg (by simpa using hm)
    exact exec_checkFails ht (c := .logTake h maximum) rfl rfl hcheck
  · exact (hserved hm).trans (congrArg (fun t => Host.Outcome.next (s.atEnd h t))
      (logTakeService_wanted hi (hwanted.trans hw) h.tag maximum))
  · refine (hserved hm).trans (congrArg (fun t => Host.Outcome.next (s.atEnd h t))
      ((logTakeService_takeSlot hi (hwanted.trans hw) h.tag maximum).trans ?_))
    dsimp only
    split
    · rfl
    case isFalse hne => rw [EventUnit.lostReported, if_pos (.inl (hquiet.resolve_left hne))]
  · have hroom : ¬16 ≤ ((s.beforeAcceptance h).eu.log.drop maximum.toNat).length := by
      have hsum := congrArg List.length (List.take_append_drop maximum.toNat (s.beforeAcceptance h).eu.log)
      have hpos := List.length_pos_iff.2 htaken
      rw [List.length_append] at hsum
      omega
    rw [hserved hm]
    refine congrArg Host.Outcome.next ((congrArg (s.atEnd h)
      (logTakeService_takeSlot hi (hwanted.trans hw) h.tag maximum)).trans ?_)
    dsimp only
    rw [if_neg htaken, EventUnit.lostReported, if_neg (not_or.2 ⟨hlost, hroom⟩), htick]
    exact s.atEnd_silent _ h (.inr (.inl rfl))

end Sys2Proof.Machine
end

