-- ==== Sys2Proof/Proofs/Ranges.lean ====
section
/-!
PROOFS. The ranges of the bounded quantities, the form of the array and the latched causes, followed together: what it means
to keep them, the few changes that touch one of them, and the operations of the batch, the queue and the engine, which are
made of these and of changes to other fields.
-/

namespace Sys2Proof.Machine

/-! ### The ranges -/

/-- The bounded quantities other than the wear counts lie in their ranges (R10, R36, R57, R69, R176, R183, R184, R190). -/
structure State.InRange (s : State) : Prop where
  log : s.eu.log.length ≤ 16
  lost : s.eu.lost ≤ 255
  noticeBit : s.eu.latched.getLsbD 2 = false
  replies : s.su.replies.length ≤ 4
  window : s.su.window.length ≤ s.su.effWindow
  effWindow : s.su.effWindow ≤ 4
  assembly : s.pf.assembly.length ≤ 78
  idleTimer : s.sr.idleTimer ≤ 50
  phase : s.sr.phase ≤ 9216
  candidate : s.pu.candidate ≤ 10

/-- A bounded state has its quantities in range, and its wear counts (R126). -/
theorem State.bounded_iff (s : State) :
    s.bounded = true ↔ s.InRange ∧ ∀ e ∈ s.ledger, e.wear ≤ maxWear := by
  simp only [State.bounded, Bool.and_eq_true, decide_eq_true_iff, Bool.not_eq_true', List.all_eq_true]
  constructor
  · rintro ⟨⟨⟨⟨⟨⟨⟨⟨⟨⟨hlog, hlost⟩, hreplies⟩, hwindow⟩, heff⟩, hassembly⟩, hidle⟩, hphase⟩, hcandidate⟩, hbit⟩, hwear⟩
    exact ⟨⟨hlog, hlost, hbit, hreplies, hwindow, heff, hassembly, hidle, hphase, hcandidate⟩, hwear⟩
  · rintro ⟨⟨hlog, hlost, hbit, hreplies, hwindow, heff, hassembly, hidle, hphase, hcandidate⟩, hwear⟩
    exact ⟨⟨⟨⟨⟨⟨⟨⟨⟨⟨hlog, hlost⟩, hreplies⟩, hwindow⟩, heff⟩, hassembly⟩, hidle⟩, hphase⟩, hcandidate⟩, hbit⟩, hwear⟩

/-- The parts of a state in which the ranges, the array and the latched causes lie. -/
def State.gauged (s : State) :
    EventUnit × List Reply × List WindowEntry × Nat × List Byte × Nat × Nat × Nat × Memory :=
  (s.eu, s.su.replies, s.su.window, s.su.effWindow, s.pf.assembly, s.sr.idleTimer, s.sr.phase, s.pu.candidate, s.array)

/-- From `s` to `t` the quantities in range stay so, a canonical array stays canonical, and unless `clears` no latched cause
is cleared. -/
structure State.RangesKept (clears : Prop) (s t : State) : Prop where
  inRange : s.InRange → t.InRange
  array : s.array.wf = true → t.array.wf = true
  latched : ¬clears → s.eu.latched &&& t.eu.latched = s.eu.latched

theorem State.RangesKept.refl (p : Prop) (s : State) : s.RangesKept p s := ⟨id, id, fun _ => BitVec.and_self⟩

/-! ### The Event Unit -/

theorem EventUnit.offered_lost_le (u : EventUnit) (t : Word16) (e : Event) (h : u.lost ≤ 255) :
    (u.offered t e).lost ≤ 255 := by
  unfold EventUnit.offered
  split
  · exact h
  · exact Nat.min_le_left _ _

/-- A LOST_EVENTS record is appended only where the log has room (R185, assumption 16). -/
theorem EventUnit.lostReported_log_length (u : EventUnit) (t : Word16) (h : u.log.length ≤ 16) :
    (u.lostReported t).log.length ≤ 16 := by
  unfold EventUnit.lostReported
  split
  · exact h
  · simp only [List.length_append, List.length_cons, List.length_nil]
    omega

theorem EventUnit.lostReported_lost_le (u : EventUnit) (t : Word16) (h : u.lost ≤ 255) :
    (u.lostReported t).lost ≤ 255 := by
  unfold EventUnit.lostReported
  split
  · exact h
  · exact Nat.zero_le _

/-- Bit 2 is no latched cause's (R190). -/
theorem Cause.mask_noticeBit (c : Cause) : c.mask.getLsbD 2 = false := by
  cases c <;> rfl

section Kept

variable {p : Prop} {s t : State} (h : s.RangesKept p t)
include h

namespace State.RangesKept

/-! ### Changes to other fields -/

/-- Nothing that is followed has changed. -/
theorem same {u : State} (hu : u.gauged = t.gauged) : s.RangesKept p u := by
  simp only [State.gauged, Prod.mk.injEq] at hu
  obtain ⟨heu, hreplies, hwindow, heff, hassembly, hidle, hphase, hcandidate, harray⟩ := hu
  refine ⟨fun hs => ?_, fun hs => harray ▸ h.array hs, fun hp => heu ▸ h.latched hp⟩
  obtain ⟨hlog, hlost, hbit, hr, hw, he, ha, hi, hph, hc⟩ := h.inRange hs
  exact ⟨heu ▸ hlog, heu ▸ hlost, heu ▸ hbit, hreplies ▸ hr, by rw [hwindow, heff]; exact hw, heff ▸ he,
    hassembly ▸ ha, hidle ▸ hi, hphase ▸ hph, hcandidate ▸ hc⟩

/-- A change of the bounded quantities within their ranges. -/
theorem within {u : State} (hr : t.InRange → u.InRange) (ha : u.array = t.array)
    (hl : u.eu.latched = t.eu.latched) : s.RangesKept p u :=
  ⟨fun hs => hr (h.inRange hs), fun hs => ha ▸ h.array hs, fun hp => hl ▸ h.latched hp⟩

/-- The array may be replaced by one in canonical form. -/
theorem writes {u : State} (hu : u.gauged = { t with array := u.array }.gauged)
    (hm : t.array.wf = true → u.array.wf = true) : s.RangesKept p u := by
  have hwritten : s.RangesKept p { t with array := u.array } :=
    ⟨fun hs => { h.inRange hs with }, fun hs => hm (h.array hs), h.latched⟩
  exact hwritten.same hu

/-- A command that takes effect on a condition, and is void otherwise (assumption 1). -/
theorem of_ite {b : Prop} [Decidable b] {u v : State}
    (hu : (if b then Host.Outcome.next v else .next t : Result) = .next u) (hv : s.RangesKept p v) :
    s.RangesKept p u := by
  split at hu <;> cases hu
  · exact hv
  · exact h

/-! ### Events and causes -/

theorem offer (e : Event) : s.RangesKept p (t.offer e) := by
  rw [State.offer_eq]
  exact h.within (fun r => { r with
    log := t.eu.offered_log_length _ e r.log
    lost := t.eu.offered_lost_le _ e r.lost
    noticeBit := by rw [EventUnit.offered_latched]; exact r.noticeBit }) rfl (t.eu.offered_latched _ e)

/-- A raised cause is never bit 2, and clears no other (R189, R190). -/
theorem raise (c : Cause) : s.RangesKept p (t.raise c) where
  inRange := fun hs => { h.inRange hs with
    noticeBit := by
      rw [State.raise_eu, BitVec.getLsbD_or, (h.inRange hs).noticeBit, c.mask_noticeBit]
      rfl }
  array := h.array
  latched := fun hp => by
    rw [State.raise_eu, BitVec.and_or_distrib_left, h.latched hp]
    ext i hi
    simp +contextual

theorem orphanResult (code tag : Byte) (st : Status) (erased failed : Nat) :
    s.RangesKept p (t.orphanResult code tag st erased failed) := (h.offer _).raise .orphan

theorem endStep (left : Bool) : s.RangesKept p (t.endStep left) := by
  rw [State.endStep_eq]
  cases left with
  | false => exact h
  | true =>
    exact h.within (fun r => { r with
      log := t.eu.lostReported_log_length _ r.log
      lost := t.eu.lostReported_lost_le _ r.lost
      noticeBit := by rw [if_pos rfl, EventUnit.lostReported_latched]; exact r.noticeBit }) rfl
      (t.eu.lostReported_latched _)

/-! ### Slots -/

theorem answer (i : Nat) (st : Status) (results : List Byte) : s.RangesKept p (t.answer i st results) := h.same rfl

theorem releaseSlot (i : Nat) : s.RangesKept p (t.releaseSlot i) := by
  unfold State.releaseSlot State.busyNote
  split <;> exact h.same rfl

theorem finishRunning (i : Nat) (st : Status) (results : List Byte) :
    s.RangesKept p (t.finishRunning i st results) := by
  have hidle : s.RangesKept p { t with ae := { t.ae with engine := .idle } } := h.same rfl
  cases ho : (t.slot i).orphaned with
  | true =>
    rw [t.finishRunning_orphaned i st results ho]
    exact (hidle.orphanResult _ _ _ _ _).releaseSlot i
  | false =>
    rw [t.finishRunning_answered i st results ho]
    exact hidle.answer i st results

/-! ### The end of a batch -/

theorem settleMembers (ms : List Member) : s.RangesKept p (ms.foldl State.settleMember t) := by
  induction ms generalizing t with
  | nil => exact h
  | cons m rest ih =>
    refine ih (t := t.settleMember m) ?_
    unfold State.settleMember
    split
    · exact h.releaseSlot _
    · exact h.answer _ _ _

/-- Completion reports the first orphaned member and raises ERASE_COMPLETE; dissolution reports nothing (R157, R162). -/
theorem finishBatch : s.RangesKept p t.finishBatch := by
  have hsettled := h.settleMembers t.bc.members
  have hreported : s.RangesKept p ((t.bc.members.foldl State.settleMember t).reportOrphans t) := by
    unfold State.reportOrphans
    split
    · exact hsettled
    · exact hsettled.orphanResult _ _ _ _ _
  unfold State.finishBatch
  split
  · exact h.same rfl
  · exact (hreported.raise .eraseComplete).same rfl

theorem finishIfDone : s.RangesKept p t.finishIfDone := by
  unfold State.finishIfDone
  split
  · exact h
  · exact h.finishBatch

theorem abortBatch : s.RangesKept p t.abortBatch :=
  finishBatch (t := { t with bc := { t.bc.abortRest with held := none } }) (h.same rfl)

/-! ### Sector work -/

theorem openSector (k : Nat) : s.RangesKept p (t.openSector k) := by
  rw [State.openSector_eq]
  exact h.same rfl

theorem reachFrom (ks : List Nat) : s.RangesKept p (reachFrom ks t) := by
  induction ks generalizing t with
  | nil => exact h.finishBatch
  | cons k rest ih =>
    unfold Machine.reachFrom
    split
    · exact h.abortBatch
    · split
      · exact ih (t := t.skipSector k) (h.same rfl)
      · exact h.openSector k

theorem beginWork : s.RangesKept p t.beginWork := by
  unfold State.beginWork
  split
  · split
    · exact h.abortBatch
    · exact h.same rfl
  · exact h.reachFrom _

theorem enterErasing : s.RangesKept p t.enterErasing := by
  have hentered : s.RangesKept p { t with bc := { t.bc with state := .erasing, gather := .stopped } } := h.same rfl
  unfold State.enterErasing
  dsimp only
  split
  · exact hentered.beginWork
  · exact hentered

theorem enterBatch (i : Nat) : s.RangesKept p (t.enterBatch i) := by
  have hadded : s.RangesKept p (t.addMember i) := h.same rfl
  unfold State.enterBatch
  dsimp only
  split
  · exact hadded.enterErasing
  · split
    · exact hadded.enterErasing
    · exact hadded.same rfl

/-! ### The head examination -/

theorem refuseKind {i : Nat} {kind : HeadKind} {u : State} (hu : t.refuseKind i kind = some u) :
    s.RangesKept p u := by
  cases kind <;> cases hu <;> exact h.same rfl

theorem tryStart (i : Nat) : s.RangesKept p (t.tryStart i).state := by
  unfold State.tryStart
  split <;> exact h.same rfl

/-- One look at the head ends in a state of the kind that each batch state allows (R97). -/
theorem lookAtHead : s.RangesKept p t.lookAtHead.state := by
  unfold State.lookAtHead
  split
  case h_1 =>
    split
    · exact h.enterErasing
    · exact h
  case h_2 i _ =>
    split
    · unfold State.headNoBatch
      split
      · exact h.enterBatch i
      · split
        · exact h.tryStart i
        · exact h
    · unfold State.headGathering
      split
      · exact h.enterBatch i
      · exact h.enterErasing
    · unfold State.headErasing
      split
      · exact h.refuseKind ‹_›
      · dsimp only [HeadStep.state]
        split
        · exact h.same rfl
        · exact h
    · unfold State.headYielded
      split
      · exact h.refuseKind ‹_›
      · split
        · exact h
        · split
          · have hstart := h.tryStart i
            split
            case h_1 u hu =>
              rw [hu] at hstart
              exact hstart.same rfl
            case h_2 u hu =>
              rw [hu] at hstart
              exact hstart
          · exact h.enterErasing
    · unfold State.headParked
      split
      · exact h.refuseKind ‹_›
      · split
        · exact h.tryStart i
        · exact h

theorem examineFor (n : Nat) : s.RangesKept p (examineFor n t) := by
  induction n generalizing t with
  | zero => exact h
  | succ n ih =>
    have hlook := h.lookAtHead
    cases hu : t.lookAtHead with
    | stop u =>
      rw [hu] at hlook
      rw [examineFor_stop n hu]
      exact hlook
    | again u =>
      rw [hu] at hlook
      rw [examineFor_again n hu]
      exact ih hlook

theorem examine : s.RangesKept p t.examine := h.examineFor _

theorem engineFreed : s.RangesKept p t.engineFreed := by
  unfold State.engineFreed
  split
  · exact h.beginWork.examine
  · exact h.examine

theorem examineIfMoved (before : State) : s.RangesKept p (t.examineIfMoved before) := by
  unfold State.examineIfMoved
  split
  · exact h
  · exact h.examine

/-! ### Parking, cancelling and the batch timers -/

theorem unparkBatch : s.RangesKept p t.unparkBatch := by
  unfold State.unparkBatch
  split
  · dsimp only
    split
    · exact h.enterErasing.same rfl
    · exact h.enterErasing
  · exact h

theorem cancelMember (m : Member) : s.RangesKept p (t.cancelMember m) := by
  have hleft : ∀ {u : State}, s.RangesKept p u → s.RangesKept p u.afterWithdrawal := fun {u} hu => by
    unfold State.afterWithdrawal
    split
    · split
      · exact hu
      · exact hu.same rfl
    · exact hu.finishIfDone
  have hwithdrawn : s.RangesKept p { t with bc := t.bc.withdraw m } := h.same rfl
  unfold State.cancelMember
  dsimp only
  split
  · exact hleft ((hwithdrawn.orphanResult _ _ _ _ _).releaseSlot _)
  · exact hleft (hwithdrawn.answer _ _ _)

theorem cancelQueued (i j : Nat) : s.RangesKept p (t.cancelQueued i j) := by
  have hanswered : s.RangesKept p (((t.unqueue j).answer j .cancelled []).answer i .ok [1]) := h.same rfl
  unfold State.cancelQueued
  dsimp only
  split
  · exact hanswered.examine
  · exact hanswered

theorem cancelBatched (i j : Nat) : s.RangesKept p (t.cancelBatched i j) := by
  unfold State.cancelBatched
  split
  · exact ((h.cancelMember _).answer i .ok [3]).examineIfMoved t
  · exact h.same rfl

theorem gatherExpiry : s.RangesKept p t.gatherExpiry := by
  unfold State.gatherExpiry
  split
  · exact h.enterErasing.examine
  · exact h.same rfl

theorem spacingExpiry : s.RangesKept p t.spacingExpiry := by
  have hmature : s.RangesKept p { t with bc := { t.bc with spacing := .mature } } := h.same rfl
  unfold State.spacingExpiry
  dsimp only
  split
  · exact hmature.examine
  · exact hmature

/-! ### The engine's steps -/

/-- The end of a running request answers or releases its slot, then the engine is free (R100, R112). -/
theorem finishFreed (i : Nat) (st : Status) (results : List Byte) :
    s.RangesKept p (t.finishRunning i st results).engineFreed := (h.finishRunning i st results).engineFreed

theorem programNext (op : ProgramOp) : s.RangesKept p (t.programNext op) := by
  unfold State.programNext
  split
  · exact h.same rfl
  · exact h.finishFreed _ _ _

/-- A pulsed octet is stored in canonical form (R120). -/
theorem programOctet (op : ProgramOp) (d : Byte) (pulses : List Byte) :
    s.RangesKept p (t.programOctet op d pulses) := by
  have hwritten : ∀ a b, s.RangesKept p { t with array := t.array.write a b } := fun a b =>
    h.writes rfl (fun hw => Memory.write_wf hw a b)
  unfold State.programOctet
  dsimp only
  split
  · exact h.programNext _
  · split
    · exact (hwritten _ _).programNext _
    · exact (hwritten _ _).finishFreed _ _ _

theorem checkLine (op : CheckOp) : s.RangesKept p (t.checkLine op) := by
  unfold State.checkLine
  dsimp only
  split
  · exact h.same rfl
  · exact finishFreed (t := t.spendFree op.stepLength) (h.same rfl) _ _ _

/-- The protect store is none of the MAINT candidate count (R170, R176). -/
theorem protectStep (slot group : Nat) (bitRead : Bool) (n : Nat) (verified : Bool) :
    s.RangesKept p (t.protectStep slot group bitRead n verified) := by
  unfold State.protectStep
  dsimp only
  split
  · split
    · exact h.finishFreed _ _ _
    · exact h.same rfl
  · split
    · refine finishFreed ?_ _ _ _
      exact h.same rfl
    · split
      · exact h.same rfl
      · refine finishFreed ?_ _ _ _
        exact h.same rfl

theorem unprotectStep (slot : Nat) (opened : Bool) (n : Nat) (bits cells : Word16) :
    s.RangesKept p (t.unprotectStep slot opened n bits cells) := by
  unfold State.unprotectStep
  dsimp only
  split
  · exact h.same rfl
  · split
    · refine finishFreed ?_ _ _ _
      exact h.same rfl
    · split
      · exact h.same rfl
      · refine finishFreed ?_ _ _ _
        exact h.same rfl

theorem configStep (slot : Nat) (record : Settings) (target : CopyId) (generation : Byte) (stage : CopyStage)
    (erased : Bool) (pulses : List Byte) :
    s.RangesKept p (t.configStep slot record target generation stage erased pulses) := by
  have hwritten : ∀ c : StoredCopy, s.RangesKept p (t.setCopy target c) := fun _ => h.same rfl
  cases stage with
  | clearMark => exact h.same rfl
  | eraseCopy n =>
    simp only [State.configStep]
    split
    · exact h.same rfl
    · split
      · exact h.same rfl
      · exact h.finishFreed _ _ _
  | programOctet index pulseCount =>
    simp only [State.configStep]
    split
    · exact (hwritten _).finishFreed _ _ _
    · split <;> exact h.same rfl
  | commit => exact (hwritten _).finishFreed _ _ _

theorem sectorGoesOn (op : EraseOp) : s.RangesKept p (t.sectorGoesOn op) := by
  unfold State.sectorGoesOn
  split
  · exact engineFreed (h.same rfl)
  · exact h.same rfl

/-- An erased sector leaves the array in canonical form; another outcome raises LEDGER_ATTENTION (R127, R145). -/
theorem closeSector (k : Nat) (o : SectorOutcome) : s.RangesKept p (t.closeSector k o) := by
  have hfaulted : s.RangesKept p (t.ledgerClose k .faulted) := h.same rfl
  unfold State.closeSector
  dsimp only
  split
  · exact h.writes rfl (fun hw => Memory.eraseSector_wf hw k)
  · exact (hfaulted.raise .ledgerAttention).same rfl

theorem afterSector : s.RangesKept p t.afterSector := by
  have hreach := h.reachFrom t.bc.pendingSectors
  unfold State.afterSector
  split
  · dsimp only
    split
    · exact hreach.examine
    · exact hreach.examineIfMoved t
  · exact h.finishIfDone.examine

theorem sectorStep (op : EraseOp) (allErased : Bool) : s.RangesKept p (t.sectorStep op allErased) := by
  unfold State.sectorStep
  split
  · split <;> exact h.sectorGoesOn _
  · split
    · exact (h.closeSector _ _).afterSector
    · split
      · exact h.sectorGoesOn _
      · exact (h.closeSector _ _).afterSector

end State.RangesKept

end Kept

/-- A step of the engine keeps the ranges, the array's form and the latched causes (order 5 of R14). -/
theorem exec_engineStep_rangesKept (p : Prop) {c : Instr} {s t : State} (hc : isEngineStep c = true)
    (h : exec c s = .next t) : s.RangesKept p t := by
  have hs := State.RangesKept.refl p s
  rcases exec_engineStep_cases c s t hc h with rfl | ⟨op, -, rfl⟩ | ⟨op, -, ⟨rfl, -⟩ | ⟨d, pulses, -, rfl⟩⟩ |
    ⟨op, -, rfl⟩ | ⟨slot, group, bitRead, n, verified, -, rfl⟩ | ⟨slot, opened, n, bits, cells, -, rfl⟩ |
    ⟨slot, record, target, generation, stage, erased, pulses, -, rfl⟩ | ⟨op, allErased, -, rfl⟩
  · exact hs
  · exact State.RangesKept.finishFreed (t := s.spendFree op.count) (hs.same rfl) _ _ _
  · exact hs.programNext op
  · exact hs.programOctet op d pulses
  · exact hs.checkLine op
  · exact hs.protectStep slot group bitRead n verified
  · exact hs.unprotectStep slot opened n bits cells
  · exact hs.configStep slot record target generation stage erased pulses
  · exact hs.sectorStep op allErased

end Sys2Proof.Machine
end

