-- ==== Sys2Proof/Proofs/Bounds.lean ====
section
/-!
PROOFS. Every command and the device's own step keep the ranges of the bounded quantities and the form of the array, and of
them only ATTN_CONTROL, a reset and a Fence that ends a valid parcel may clear a latched cause (R189). Settles O4 and O7.
-/

namespace Sys2Proof.Machine

/-! ### The assembly and the reply list -/

theorem ParcelFramer.append_assembly_length (f : ParcelFramer) (b : Byte) :
    (f.append b).assembly.length ≤ 78 := by
  unfold append
  split
  case isTrue hlt =>
    rw [List.length_append]
    exact hlt
  case isFalse => exact Nat.zero_le _

/-- An octet leaves the assembly as it is, empties it, or is appended to it (R34 to R40). -/
theorem ParcelFramer.octetEvent_assembly (f : ParcelFramer) (b : Byte) :
    (f.octetEvent b).1.assembly = f.assembly ∨ (f.octetEvent b).1.assembly = [] ∨
      ∃ c, (f.octetEvent b).1 = f.append c := by
  unfold octetEvent countAbort countEscape openEmpty hunt
  grind

/-- No octet makes the assembly longer than 78 octets (R36, R40). -/
theorem ParcelFramer.octetEvent_assembly_length (f : ParcelFramer) (b : Byte) (h : f.assembly.length ≤ 78) :
    (f.octetEvent b).1.assembly.length ≤ 78 := by
  rcases f.octetEvent_assembly b with hsame | hempty | ⟨c, happend⟩
  · exact hsame ▸ h
  · rw [hempty]
    exact Nat.zero_le _
  · rw [happend]
    exact f.append_assembly_length c

/-- An attach makes room for its reply in a list of 4 (step 7 of R54). -/
theorem attachReplies_length {replies : List Reply} (h : replies.length ≤ 4) :
    (attachReplies replies).length ≤ 3 := by
  have hkept := (List.length_filter_le (fun r => r.status != .noSession) replies).trans h
  unfold attachReplies
  dsimp only
  split
  case isTrue hlt => exact Nat.le_of_lt_succ hlt
  case isFalse =>
    rw [List.length_tail]
    omega

section Kept

variable {p : Prop} {s t : State} (h : s.RangesKept p t)
include h

namespace State.RangesKept

/-! ### The session -/

theorem acknowledge (nr : Seq) : s.RangesKept p (t.acknowledge nr) := by
  by_cases hk : (nr - t.su.va).toNat = 0
  · rw [seq_sub_eq_zero.1 hk, State.acknowledge_none]
    exact h
  · rw [State.acknowledge_some t nr hk]
    exact h.within (fun r => { r with
      log := (List.length_filter_le _ _).trans r.log
      window := (List.drop_sublist _ _).length_le.trans r.window }) rfl rfl

theorem touchKeepalive : s.RangesKept p t.touchKeepalive := by
  rw [State.touchKeepalive_eq]
  exact h.same rfl

/-- A teardown returns the records in flight to the log and empties the window (R77, R78). -/
theorem detach (r : TeardownReason) : s.RangesKept p (t.detach r) :=
  h.within (fun hr => { hr with
    log := (List.length_map _).le.trans hr.log
    window := Nat.zero_le _ }) rfl rfl

theorem teardown (r : TeardownReason) : s.RangesKept p (t.teardown r) := by
  have hdropped : s.RangesKept p t.dropSlots := h.same rfl
  have hended := (hdropped.unparkBatch.detach r).offer (.sessionEnded r t.su.epoch t.droppedCount)
  unfold State.teardown
  split
  · dsimp only
    split
    · exact hended
    · exact hended.raise .sessionLost
  · exact h

theorem retryOnce : s.RangesKept p t.retryOnce := by
  have hcounted : s.RangesKept p { t with su := { t.su with retry := t.su.retry + 1 } } := h.same rfl
  unfold State.retryOnce
  dsimp only
  split
  · exact hcounted.teardown _
  · exact h.same rfl

theorem appendReply (tag : Byte) (status : ReplyStatus) : s.RangesKept p (t.appendReply tag status) := by
  unfold State.appendReply
  split
  case isTrue hlt =>
    exact h.within (fun r => { r with
      replies := by
        rw [List.length_append]
        exact hlt }) rfl rfl
  case isFalse => exact h

/-- An attach empties the window, of at most 4 parcels, and appends its reply (R54). -/
theorem attach (tag hostWindow options : Byte) : s.RangesKept p (t.attach tag hostWindow options) :=
  h.within (fun r => { r with
    replies := by
      have hroom := attachReplies_length r.replies
      simp only [State.attach, List.length_append, List.length_cons, List.length_nil]
      omega
    window := Nat.zero_le _
    effWindow := Nat.min_le_left _ _ }) rfl rfl

theorem withNr (nr : Seq) {rest : State → State} (hrest : ∀ u : State, s.RangesKept p u → s.RangesKept p (rest u)) :
    s.RangesKept p (t.withNr nr rest) := by
  unfold State.withNr
  dsimp only
  split
  · exact (hrest _ (h.touchKeepalive.acknowledge nr)).endStep _
  · exact h.touchKeepalive.teardown _

theorem receiveHail (tag : Byte) (payload : List Byte) : s.RangesKept p (t.receiveHail tag payload) := by
  have htouched : s.RangesKept p (if t.isAttached then t.touchKeepalive else t) := by
    split
    · exact h.touchKeepalive
    · exact h
  unfold State.receiveHail
  dsimp only
  split
  · exact (htouched.teardown .rehail).attach _ _ _
  · exact htouched.appendReply _ _

theorem receiveAck (nr : Seq) (payload : List Byte) : s.RangesKept p (t.receiveAck nr payload) := by
  unfold State.receiveAck
  split
  · exact h.withNr nr (fun _ hu => hu.same rfl)
  · exact h.same rfl

theorem rejAfterNr : s.RangesKept p t.rejAfterNr := by
  have hcounted : s.RangesKept p { t with su := { t.su with rejReceived := t.su.rejReceived + 1 } } := h.same rfl
  unfold State.rejAfterNr
  dsimp only
  split
  · exact hcounted
  · exact hcounted.retryOnce

theorem receiveRej (nr : Seq) : s.RangesKept p (t.receiveRej nr) := by
  unfold State.receiveRej
  split
  · exact h.withNr nr (fun _ hu => hu.rejAfterNr)
  · exact h.same rfl

/-! ### Services and requests -/

theorem enqueue (i : Nat) : s.RangesKept p (enqueue i t) := by
  unfold Machine.enqueue
  dsimp only
  split
  · refine examine ?_
    exact h.same rfl
  · exact h.same rfl

theorem parkService (i : Nat) : s.RangesKept p (parkService i t) := by
  have hparked : s.RangesKept p t.parkBatch := by
    unfold State.parkBatch
    split <;> exact h.same rfl
  unfold Machine.parkService
  split
  · exact h.same rfl
  · exact (hparked.answer i .ok []).examineIfMoved t

theorem unparkService (i : Nat) : s.RangesKept p (unparkService i t) := by
  unfold Machine.unparkService
  split
  · exact h.same rfl
  · exact (h.unparkBatch.answer i .ok []).examineIfMoved t

theorem cancelService (target : Byte) (i : Nat) : s.RangesKept p (cancelService target i t) := by
  unfold Machine.cancelService
  split
  · exact h.same rfl
  · split
    · exact h.same rfl
    · exact h.cancelQueued i _
    · exact h.same rfl
    · exact h.cancelBatched i _
    · exact h.same rfl

theorem configSetService (pairs : List (Byte × Byte)) (i : Nat) : s.RangesKept p (configSetService pairs i t) := by
  have hset : s.RangesKept p (t.applySettings (t.cs.active.applyPairs pairs)) := by
    unfold State.applySettings
    dsimp only
    split <;> exact h.same rfl
  exact hset.answer _ _ _

theorem statusService (flags : Byte) (i : Nat) : s.RangesKept p (statusService flags i t) := by
  unfold Machine.statusService
  dsimp only
  split <;> exact h.same rfl

/-- LOG_TAKE shortens the log before lost events are reported (R185, R188). -/
theorem logTakeService (maximum : Byte) (i : Nat) : s.RangesKept p (logTakeService maximum i t) := by
  have htaken : s.RangesKept p (t.takeRecords maximum.toNat) :=
    h.within (fun r => { r with log := (List.drop_sublist _ _).length_le.trans r.log }) rfl rfl
  unfold Machine.logTakeService
  split
  · exact h.same rfl
  · exact (htaken.answer _ _ _).endStep _

/-- ATTN_CONTROL clears latched causes, and raises none (R192). -/
theorem attnService (hp : p) (c w e : Byte) (i : Nat) : s.RangesKept p (attnService c w e i t) where
  inRange := fun hs => { h.inRange hs with
    noticeBit := by
      show (t.eu.latched &&& ~~~c).getLsbD 2 = false
      rw [BitVec.getLsbD_and, (h.inRange hs).noticeBit, Bool.false_and] }
  array := h.array
  latched := fun hn => absurd hp hn

section Request

variable {r : Request} (hp : ∀ c w e, r = .attnControl c w e → p)
include hp

/-- Of the services of the requests only ATTN_CONTROL's clears a latched cause (R189). -/
theorem service (i : Nat) : s.RangesKept p (r.service i t) := by
  cases r with
  | unknown | sectorInfo | configGet | identify | ping | lockGroups => exact h.same rfl
  | read | program | checkRegion | eraseSectors | eraseAll | protectGroup | unprotectAll | configStore =>
    exact h.enqueue i
  | parkErase => exact h.parkService i
  | unparkErase => exact h.unparkService i
  | cancel target => exact h.cancelService target i
  | configSet pairs => exact h.configSetService pairs i
  | status flags => exact h.statusService flags i
  | attnControl c w e => exact h.attnService (hp c w e rfl) c w e i
  | logTake maximum => exact h.logTakeService maximum i

theorem accept (i : Nat) (tag : Byte) (check : Option (Status × List Byte)) :
    s.RangesKept p (t.accept i tag r check r.service) := by
  have htaken : s.RangesKept p (t.takeSlot i tag r) := h.same rfl
  unfold State.accept
  dsimp only
  split
  · exact h.same rfl
  · split
    · exact h.same rfl
    · split
      · exact h.same rfl
      · exact htaken.service hp i

theorem classify (ns : Seq) (tag : Byte) (check : Option (Status × List Byte)) :
    s.RangesKept p (t.classify ns tag r check r.service) := by
  have hsequenced : s.RangesKept p t.acceptSequence := h.same rfl
  unfold State.classify
  dsimp only
  split
  · split
    · exact hsequenced.accept hp _ tag check
    · exact h.same rfl
  · split
    · split <;> exact h.same rfl
    · split <;> exact h.same rfl

theorem receiveRequest (head : ParcelHead) (check : Option (Status × List Byte)) :
    s.RangesKept p (t.receiveRequest head r check r.service) := by
  unfold State.receiveRequest
  split
  · exact h.withNr head.nr (fun _ hu => hu.classify hp head.ns head.tag check)
  · exact appendReply (t := t.countUnattached) (h.same rfl) _ _

end Request

/-! ### The octets of the line -/

/-- A valid parcel may bring any request, an ATTN_CONTROL among them (R48). -/
theorem receiveParcel (hp : p) (assembly : List Byte) : s.RangesKept p (t.receiveParcel assembly) := by
  unfold State.receiveParcel
  dsimp only
  split
  · exact h.receiveHail _ _
  · split
    · exact h.receiveAck _ _
    · split
      · exact h.receiveRej _
      · exact h.receiveRequest (fun _ _ _ _ => hp) _ _

theorem octetEvent {b : Byte} (hb : t.pf.handsOver [b] = true → p) : s.RangesKept p (t.octetEvent b) := by
  have hframed : s.RangesKept p { t with pf := (t.pf.octetEvent b).1 } :=
    h.within (fun r => { r with assembly := t.pf.octetEvent_assembly_length b r.assembly }) rfl rfl
  unfold State.octetEvent
  dsimp only
  split
  case h_1 => exact hframed
  case h_2 =>
    unfold State.holdSignal
    split <;> exact hframed.same rfl
  case h_3 =>
    unfold State.goSignal
    split <;> exact hframed.same rfl
  case h_4 assembly hends =>
    unfold State.endAssembly
    split
    case h_1 => exact hframed.same rfl
    case h_2 hv => exact hframed.receiveParcel (hb (ParcelFramer.handsOver_of_ended hends hv)) _

theorem octetEvents {os : List Byte} (hos : t.pf.handsOver os = true → p) : s.RangesKept p (t.octetEvents os) := by
  unfold State.octetEvents
  induction os generalizing t with
  | nil => exact h
  | cons b rest ih =>
    rw [ParcelFramer.handsOver_cons, Bool.or_eq_true] at hos
    refine ih (h.octetEvent (fun hb => hos (.inl hb))) (fun hrest => ?_)
    cases hb : t.pf.handsOver [b] with
    | true => exact hos (.inl hb)
    | false => exact hos (.inr ((t.octetEvent_handsOver hb rest).symm.trans hrest))

/-- An edge or a character on RXD starts the Doze idle timer afresh (R12, R26). -/
theorem idleRestarts {u : State} (hu : u.gauged = { t with sr := { t.sr with idleTimer := 0 } }.gauged) :
    s.RangesKept p u := by
  have hrestarted : s.RangesKept p { t with sr := { t.sr with idleTimer := 0 } } :=
    h.within (fun r => { r with idleTimer := Nat.zero_le _ }) rfl rfl
  exact hrestarted.same hu

theorem wake (rxd : Bool) : s.RangesKept p (t.wake rxd) := by
  unfold State.wake
  split
  · exact h.idleRestarts rfl
  · exact h

theorem unheard (level : Bool) (b : Timer) : s.RangesKept p (t.unheard level b) := by
  unfold State.unheard
  split
  · exact (h.wake false).same rfl
  · exact h.idleRestarts rfl
  · exact h

theorem characters {os : List Byte} (hos : t.pf.handsOver os = true → p) : s.RangesKept p (t.characters os) := by
  unfold State.characters
  split
  · exact octetEvents (t := t.characterEnd) (h.idleRestarts rfl) hos
  · exact h.unheard _ _

/-- The Fence that hands a parcel over opens an empty assembly (R35, R48). -/
theorem onParcel {handle : State → State} (hh : ∀ u : State, s.RangesKept p u → s.RangesKept p (handle u)) :
    s.RangesKept p (t.onParcel handle) := by
  have hopened : s.RangesKept p { t.characterEnd with pf := t.characterEnd.pf.openEmpty } :=
    h.within (fun r => { r with idleTimer := Nat.zero_le _, assembly := Nat.zero_le _ }) rfl rfl
  unfold State.onParcel
  split
  · dsimp only
    split
    · exact hopened
    · exact hh _ hopened
  · exact h.unheard _ _

/-- A framing error leaves the assembly empty (R41). -/
theorem framingEvent : s.RangesKept p t.framingEvent :=
  h.within (fun r => { r with assembly := Nat.zero_le _ }) rfl rfl

theorem sampleBit {samples : List Bool} (hs : t.pf.handsOver [bitsOctet samples.tail] = true → p) :
    s.RangesKept p (t.sampleBit samples) := by
  have hset : ∀ r, s.RangesKept p (t.setReceiver r) := fun _ => h.same rfl
  unfold State.sampleBit
  split
  · exact hset _
  · split
    · exact hset _
    · split
      · exact (hset .idle).octetEvent hs
      · exact (hset .inBreak).framingEvent

theorem setRxd (high : Bool) : s.RangesKept p (t.setRxd high) := by
  have hlevel : s.RangesKept p { t with pins := { t.pins with rxd := high } } := h.same rfl
  unfold State.setRxd
  split
  · exact h
  · dsimp only
    split
    · unfold State.risingEdge
      split <;> exact hlevel.same rfl
    · unfold State.fallingEdge
      split
      · exact hlevel.wake false
      · exact hlevel.idleRestarts rfl
      · exact hlevel.idleRestarts rfl
      · exact hlevel

theorem settle : s.RangesKept p t.settle := by
  unfold State.settle
  dsimp only
  split
  · exact h.framingEvent.same rfl
  · exact h.same rfl

/-- A Link Break Reset empties the assembly and ends the session (R25, R42). -/
theorem linkBreakReset : s.RangesKept p t.linkBreakReset := by
  have hbroken : ∀ (a : Pins) (c : CharacterLink),
      s.RangesKept p (State.clearHeld { t with pins := a, cl := c, pf := t.pf.hunt }) := fun _ _ =>
    h.within (fun r => { r with assembly := Nat.zero_le _ }) rfl rfl
  exact (hbroken _ _).teardown .break_

/-! ### Timers, MAINT and selection -/

theorem holdExpiry : s.RangesKept p t.holdExpiry := by
  unfold State.holdExpiry
  split
  · exact h.teardown _
  · exact h.same rfl

theorem keepaliveExpiry (rxd : Bool) : s.RangesKept p (t.keepaliveExpiry rxd) := by
  have hstopped : s.RangesKept p { t.wake rxd with su := { (t.wake rxd).su with keepalive := .stopped } } :=
    (h.wake rxd).same rfl
  exact hstopped.teardown .keepalive

theorem retransmitExpiry : s.RangesKept p t.retransmitExpiry :=
  retryOnce (t := { t with su := { t.su with retransmit := .stopped } }) (h.same rfl)

/-- A debounced MAINT change starts the candidate count afresh (R176, R177). -/
theorem maintChange (rxd : Bool) : s.RangesKept p (t.maintChange rxd) := by
  have hlevel : ∀ level : Bool,
      s.RangesKept p { t.wake rxd with pu := { (t.wake rxd).pu with maintLevel := level, candidate := 0 } } :=
    fun _ => (h.wake rxd).within (fun r => { r with candidate := Nat.zero_le _ }) rfl rfl
  unfold State.maintChange
  split
  · exact ((hlevel _).offer _).raise .maintChange
  · exact h

/-- A new parcel joins a window that has room for it (R69, R74). -/
theorem sendNew (hroom : t.su.window.length < t.su.effWindow) (kind : WindowKind) (tag : Byte) (payload : List Byte) :
    s.RangesKept p (t.sendNew kind tag payload) :=
  h.within (fun r => { r with
    window := by
      simp only [State.sendNew, State.transmit, List.length_append, List.length_cons, List.length_nil]
      exact hroom }) rfl rfl

theorem markInFlight (serial : Word16) : s.RangesKept p (t.markInFlight serial) :=
  h.within (fun r => { r with log := (List.length_map _).le.trans r.log }) rfl rfl

theorem chooseNew {u : State} (hu : t.chooseNew = some u) : s.RangesKept p u := by
  unfold State.chooseNew at hu
  split at hu
  case isTrue hready =>
    simp only [Bool.and_eq_true, decide_eq_true_iff] at hready
    obtain ⟨⟨-, hroom⟩, -⟩ := hready
    split at hu
    · cases hu
      exact (h.sendNew hroom _ _ _).releaseSlot _
    · split at hu
      · obtain ⟨r, -, rfl⟩ := Option.map_eq_some_iff.1 hu
        exact (h.sendNew hroom _ _ _).markInFlight _
      · cases hu
  case isFalse => cases hu

theorem select {u : State} (hu : t.select = some u) : s.RangesKept p u := by
  unfold State.select at hu
  split at hu
  case isFalse => cases hu
  case isTrue =>
    rcases t.choose_cases u hu with ⟨r, rest, hreplies, rfl⟩ | rfl | hagain | hnew | hack
    · have hshorter : rest.length ≤ t.su.replies.length := by
        rw [hreplies]
        exact Nat.le_succ _
      exact h.within (fun hr => { hr with replies := hshorter.trans hr.replies }) rfl rfl
    · exact h.same rfl
    · unfold State.chooseAgain at hagain
      split at hagain
      · cases hagain
      · obtain ⟨e, -, rfl⟩ := Option.map_eq_some_iff.1 hagain
        exact h.same rfl
    · exact h.chooseNew hnew
    · unfold State.chooseAck at hack
      split at hack <;> cases hack
      exact h.same rfl

theorem transmitterFree : s.RangesKept p t.transmitterFree := by
  have hfree : s.RangesKept p t.freeTransmitter := h.same rfl
  unfold State.transmitterFree
  cases hu : t.freeTransmitter.select with
  | none => exact hfree
  | some u => exact hfree.select hu

/-! ### Resets (R2 to R4) -/

/-- What a stopped operation leaves of the array is in canonical form (R130). -/
theorem interrupted : s.RangesKept p t.interrupted := by
  unfold State.interrupted
  split
  · exact h.writes rfl (fun hw => interruptedOctets_wf hw _ _ _ _)
  all_goals exact h.same rfl

section Reset

variable (hp : p)
include hp

/-- Outside Running the volatile quantities are cleared (R3, assumption 18). -/
theorem volatileLost {sr : SupplyReset} (hidle : sr.idleTimer ≤ 50) (hphase : sr.phase ≤ 9216) :
    s.RangesKept p (t.volatileLost sr) where
  inRange := fun _ =>
    { log := Nat.zero_le _, lost := Nat.zero_le _, noticeBit := BitVec.getLsbD_zero, replies := Nat.zero_le _, window := Nat.le_refl _
      effWindow := Nat.zero_le _, assembly := Nat.zero_le _, idleTimer := hidle, phase := hphase
      candidate := Nat.zero_le _ }
  array := h.array
  latched := fun hn => absurd hp hn

theorem enterInitialising (cause : ResetCause) : s.RangesKept p (t.enterInitialising cause) :=
  h.volatileLost hp (Nat.zero_le _) (Nat.zero_le _)

theorem powerUp : s.RangesKept p t.powerUp := by
  unfold State.powerUp
  split
  · split
    · exact h.enterInitialising hp _
    · exact h.volatileLost hp (Nat.zero_le _) (Nat.zero_le _)
  · exact h

theorem powerDown : s.RangesKept p t.powerDown := by
  refine volatileLost ?_ hp (Nat.zero_le _) (Nat.zero_le _)
  exact h.interrupted.same rfl

theorem resetAsserted : s.RangesKept p t.resetAsserted := by
  unfold State.resetAsserted
  split
  · refine volatileLost ?_ hp (Nat.zero_le _) (Nat.zero_le _)
    exact h.interrupted.same rfl
  · exact h

theorem resetReleased : s.RangesKept p t.resetReleased := by
  unfold State.resetReleased
  split
  · refine enterInitialising ?_ hp _
    exact h.same rfl
  · exact h

/-- Initialisation leaves RESET_DONE alone in the log, and none of the causes it raises is bit 2 (R4, R178). -/
theorem loaded (maint : Bool) : s.RangesKept p (t.loaded maint) where
  inRange := fun hs =>
    { log := by simp [State.loaded]
      lost := Nat.zero_le _
      noticeBit := by
        simp only [State.loaded, initialCauses]
        split <;> rfl
      replies := Nat.zero_le _, window := Nat.le_refl _, effWindow := Nat.zero_le _, assembly := Nat.zero_le _
      idleTimer := Nat.zero_le _, phase := (h.inRange hs).phase, candidate := Nat.zero_le _ }
  array := h.array
  latched := fun hn => absurd hp hn

end Reset

/-! ### The supply, the pins and the ticks -/

/-- A supply-low entry abandons the work in hand (R8, R129, R146). -/
theorem enterInhibit : s.RangesKept p t.enterInhibit := by
  have hlow : s.RangesKept p { t with
      sr := { t.sr with monitor := .inhibit }, ae := { t.ae with supplyLow := true } } := h.same rfl
  have habandon : ∀ {u : State}, s.RangesKept p u → s.RangesKept p u.abandonWrites := fun {u} hu => by
    have hidle : s.RangesKept p { u with ae := { u.ae with engine := .idle } } := hu.same rfl
    unfold State.abandonWrites
    split
    · exact hu.interrupted.finishFreed _ _ _
    · exact hu.finishFreed _ _ _
    · exact hidle.abortBatch.engineFreed
    · exact hu
  exact habandon ((hlow.offer .supplyLow).raise .supplyLow)

theorem supplyLowEntry (rxd : Bool) : s.RangesKept p (t.supplyLowEntry rxd) := by
  unfold State.supplyLowEntry
  split
  · exact (h.wake rxd).enterInhibit
  · exact h

theorem supplyLowExit (rxd : Bool) : s.RangesKept p (t.supplyLowExit rxd) := by
  unfold State.supplyLowExit
  split
  · refine offer ?_ .supplyOk
    exact (h.wake rxd).same rfl
  · exact h

theorem enterRunning (hp : p) (rxd : Bool) (vdd : SupplyBand) : s.RangesKept p (t.enterRunning rxd vdd) := by
  unfold State.enterRunning
  dsimp only
  split
  · refine powerDown ?_ hp
    exact h.idleRestarts rfl
  · exact h.idleRestarts rfl
  all_goals
    refine enterInhibit ?_
    exact h.idleRestarts rfl

/-- The clocks of a tick count up to their limits (R10, R176). -/
theorem advanceClocks : s.RangesKept p t.advanceClocks :=
  h.within (fun r => { r with
    idleTimer := Nat.min_le_left _ _
    candidate := by
      show t.sampledCandidate ≤ 10
      unfold State.sampledCandidate
      split
      · exact Nat.zero_le _
      · exact Nat.min_le_left _ _ }) rfl rfl

theorem dueSupply (hv : t.pins.vdd = .off → p) : s.RangesKept p t.dueSupply := by
  unfold State.dueSupply
  split
  case h_1 hoff => exact h.powerDown (hv hoff)
  case h_2 => exact h.supplyLowEntry _
  case h_3 => exact h.supplyLowExit _
  case h_4 => exact h

/-- A tick starts the time since the last one afresh (assumption 6). -/
theorem tickOnce (hv : t.pins.vdd = .off → p) : s.RangesKept p t.tickOnce := by
  have hticked : s.RangesKept p { t with sr := { t.sr with phase := 0 } } :=
    h.within (fun r => { r with phase := Nat.zero_le _ }) rfl rfl
  have hrunning : s.RangesKept p (State.advanceClocks { t with sr := { t.sr with phase := 0 } }).dozeTest.dueSupply := by
    refine dueSupply ?_ (fun hoff => hv ?_)
    · unfold State.dozeTest
      split
      · exact hticked.advanceClocks.same rfl
      · exact hticked.advanceClocks
    · rwa [(State.dozeTest_frame _).1] at hoff
  unfold State.tickOnce
  dsimp only
  split
  · exact hticked
  · exact hticked
  · exact hticked.same rfl
  · exact hrunning
  · exact hrunning

/-- A pin change clears no latched cause, unless it is one of RSTn or VDD (R2). -/
theorem takeInput {c : PinChange} (hc : c.event.isReset = true → p) : s.RangesKept p (t.takeInput c) := by
  have hmoved : s.RangesKept p { t with inputs := t.inputs.erase c } := h.same rfl
  have hpins : ∀ a : Pins, s.RangesKept p { t with pins := a, inputs := t.inputs.erase c } := fun _ => h.same rfl
  unfold State.takeInput State.pinEvent
  split
  case h_1 => exact hmoved.setRxd _
  case h_2 he =>
    split
    · exact hmoved.resetReleased (hc (by rw [he]; rfl))
    · exact hpins _
  case h_3 he => exact (hpins _).resetAsserted (hc (by rw [he]; rfl))
  case h_4 => exact hpins _
  case h_5 he => exact hmoved.powerDown (hc (by rw [he]; rfl))
  case h_6 he => exact (hpins _).powerUp (hc (by rw [he]; rfl))

/-- Time passes to the next tick at the latest (assumption 6). -/
theorem passTime : s.RangesKept p t.passTime :=
  h.within (fun r => { r with phase := t.passTime_phase r.phase }) rfl rfl

end State.RangesKept

end Kept

/-! ### Every command -/

theorem isAttnControl_of_request {c : Instr} {h : ParcelHead} {clear write enable : Byte}
    (hc : requestOf c = some (h, .attnControl clear write enable)) : isAttnControl c = true := by
  cases c <;> cases hc
  rfl

/-- Every command keeps the ranges and the array's form; only a reset, ATTN_CONTROL and a Fence that ends a valid parcel may
clear a latched cause (R189). -/
theorem exec_rangesKept {p : Prop} {c : Instr} {s t : State} (hreset : resetCommand c = true → p)
    (hattn : isAttnControl c = true → p) (hcloses : s.closesParcel c = true → p) (h : exec c s = .next t) :
    s.RangesKept p t := by
  have hs := State.RangesKept.refl p s
  have hpins : ∀ a : Pins, s.RangesKept p { s with pins := a } := fun _ => hs.same rfl
  have hnoFence {os : List Byte} (hos : fenceOctet ∉ os) : s.RangesKept p (s.characters os) :=
    hs.characters (fun hh => by rw [s.pf.handsOver_of_noFence hos] at hh; cases hh)
  have hshield (os : List Byte) (b : Byte) : s.RangesKept p (s.characters (escapeOctets os ++ [shieldOctet, b])) :=
    hs.characters (fun hh => by rw [s.pf.handsOver_shield os b] at hh; cases hh)
  cases hr : requestOf c with
  | some hd =>
    obtain ⟨head, r⟩ := hd
    rw [exec_request c head r hr] at h
    cases h
    exact hs.onParcel (fun _ hu => hu.receiveRequest
      (fun _ _ _ ha => hattn (isAttnControl_of_request (ha ▸ hr))) head _)
  | none =>
    by_cases he : isEngineStep c = true
    · exact exec_engineStep_rangesKept p he h
    · cases c with
      | powerOn rstn => exact hs.of_ite h ((hpins _).powerUp (hreset rfl))
      | powerOff => cases h; exact hs.powerDown (hreset rfl)
      | pinReset => cases h; exact hs.resetAsserted (hreset rfl)
      | resetRelease => cases h; exact hs.resetReleased (hreset rfl)
      | initialisationComplete maint rxd vdd =>
        refine hs.of_ite h (State.RangesKept.enterRunning ?_ (hreset rfl) rxd vdd)
        split
        · exact hpins _
        · exact hs.loaded (hreset rfl) maint
      | supplyLowEntry rxd => cases h; exact (hpins _).supplyLowEntry rxd
      | supplyLowExit rxd => cases h; exact (hpins _).supplyLowExit rxd
      | dozeEntry => exact hs.of_ite h (hs.same rfl)
      | dozeWake => cases h; exact hs.wake false
      | settleComplete => exact hs.of_ite h hs.settle
      | framingError low =>
        have hspent : s.RangesKept p (s.spendFree (if low then 1 else 0)) := hs.same rfl
        have hended : s.RangesKept p (s.spendFree (if low then 1 else 0)).characterEnd := hspent.idleRestarts rfl
        simp only [exec, execFramingError] at h
        split at h <;> cases h
        · exact hended.framingEvent.same rfl
        · exact hspent.unheard _ _
      | longBreak => exact hs.of_ite h hs.linkBreakReset
      | hold | go => cases h; exact hnoFence (by decide)
      | openingFence => cases h; exact hs.characters hcloses
      | parcelDiscarded octets => cases h; exact hs.characters hcloses
      | abort octets => cases h; exact hshield octets fenceOctet
      | escapeViolation octets follower => cases h; exact hshield octets follower
      | overlong octets => cases h; exact hnoFence (fenceOctet_notMem_escapeOctets octets)
      | hail hd payload => cases h; exact hs.onParcel (fun _ hu => hu.receiveHail _ _)
      | ackReceived hd payload => cases h; exact hs.onParcel (fun _ hu => hu.receiveAck _ _)
      | rejReceived hd payload => cases h; exact hs.onParcel (fun _ hu => hu.receiveRej _)
      | holdLimitExpiry => exact hs.of_ite h hs.holdExpiry
      | keepaliveExpiry rxd => exact hs.of_ite h (hs.keepaliveExpiry rxd)
      | retransmitExpiry => exact hs.of_ite h hs.retransmitExpiry
      | gatherExpiry => exact hs.of_ite h hs.gatherExpiry
      | spacingExpiry => exact hs.of_ite h hs.spacingExpiry
      | debouncedMaintChange rxd =>
        cases h
        split
        · exact (hpins _).maintChange rxd
        · exact hs
      | transmitterFree => exact hs.of_ite h hs.transmitterFree
      | shortBreak => exact hs.of_ite h (hs.same rfl)
      | _ => simp_all [requestOf, isEngineStep]

/-! ### The device's own step -/

/-- What is due keeps the ranges and the array's form; only a change of RSTn or VDD, a supply that is off and the last sample
of a Fence that ends a valid parcel may clear a latched cause (R189). -/
theorem State.handle_rangesKept {p : Prop} {s : State} {d : Due}
    (hinput : ∀ c, d = .input c → c.event.isReset = true → p) (hv : s.pins.vdd = .off → p)
    (hsample : ∀ samples, d = .sample samples → s.pf.handsOver [bitsOctet samples.tail] = true → p) :
    s.RangesKept p (s.handle d) := by
  have hs := State.RangesKept.refl p s
  cases d with
  | input c => exact hs.takeInput (hinput c rfl)
  | tick => exact hs.tickOnce hv
  | doze => exact hs.same rfl
  | longBreak => exact hs.linkBreakReset
  | sample samples => exact hs.sampleBit (hsample samples rfl)
  | settled => exact hs.settle
  | holdLimit => exact hs.holdExpiry
  | keepalive => exact hs.keepaliveExpiry _
  | retransmit => exact hs.retransmitExpiry
  | gather => exact hs.gatherExpiry
  | spacing => exact hs.spacingExpiry
  | maint => exact hs.maintChange _
  | octetSent rest => exact hs.same rfl
  | transmitterFree => exact hs.transmitterFree

/-- An own step that may clear latched causes may be any; a plain one of a Running device clears none (R189). -/
theorem State.runningStep_rangesKept {p : Prop} {s : State} (h : p ∨ s.ownStepPlain = true) :
    s.RangesKept p s.runningStep := by
  have hs := State.RangesKept.refl p s
  unfold State.runningStep
  split
  case h_1 d hd =>
    rcases h with hp | hplain
    · exact State.handle_rangesKept (fun _ _ _ => hp) (fun _ => hp) (fun _ _ _ => hp)
    · obtain ⟨-, hreset, hv, hsample⟩ := s.ownStepPlain_iff.1 hplain
      refine State.handle_rangesKept (fun c hc hr => ?_) (fun hoff => absurd hoff hv) (fun samples hc hh => ?_)
      · rw [State.due_input_notReset hreset (hc ▸ hd)] at hr
        cases hr
      · rw [hsample samples (hc ▸ hd)] at hh
        cases hh
  case h_2 =>
    cases hsel : s.select with
    | none => exact hs.passTime
    | some t => exact hs.select hsel

/-- Whatever the state, the own step keeps the ranges and the array's form. -/
theorem State.ownStep_rangesKept (s : State) : s.RangesKept True s.ownStep := by
  have hs := State.RangesKept.refl True s
  have hrunning : s.RangesKept True s.runningStep := State.runningStep_rangesKept (.inl trivial)
  have hhandled : ∀ d, s.RangesKept True (s.handle d) := fun _ =>
    State.handle_rangesKept (fun _ _ _ => trivial) (fun _ => trivial) (fun _ _ _ => trivial)
  unfold State.ownStep
  split
  · exact hrunning
  · exact hrunning
  · unfold State.initialisingStep
    split
    · exact hhandled _
    · split
      · exact hs.loaded trivial _
      · split
        · exact hs.enterRunning trivial _ _
        · exact hs.passTime
  all_goals
    split
    · exact hhandled _
    · exact hs.passTime

/-! ### Every step -/

/-- A wear count of the ledger is that of its sector's entry (R126). -/
theorem State.WearKept.ledger {s t : State} (h : s.WearKept t) (hs : ∀ e ∈ s.ledger, e.wear ≤ maxWear) :
    ∀ e ∈ t.ledger, e.wear ≤ maxWear := by
  intro e he
  obtain ⟨k, hk, rfl⟩ := List.mem_iff_getElem.1 he
  have hbefore : (s.entry k).wear ≤ maxWear := by
    rw [State.entry, List.getD_eq_getElem?_getD]
    cases hsk : s.ledger[k]? with
    | none => exact Nat.zero_le _
    | some e => exact hs e (List.mem_of_getElem? hsk)
  have hafter := (h k hbefore).2
  rwa [State.entry, List.getD_eq_getElem _ _ hk] at hafter

/-- A step is the front command's meaning or the own step: the ranges, the array's form and the wear counts are kept. -/
theorem step_rangesKept {s t : State} (h : step s = .next t) : s.RangesKept True t ∧ s.WearKept t := by
  unfold step at h
  split at h
  case h_1 c rest hp =>
    have hkept := exec_rangesKept (p := True) (fun _ => trivial) (fun _ => trivial) (fun _ => trivial) h
    exact ⟨⟨fun hs => hkept.inRange { hs with }, hkept.array, hkept.latched⟩, fun k => exec_wearKept h k⟩
  case h_2 =>
    cases h
    exact ⟨s.ownStep_rangesKept, s.ownStep_wearKept⟩

/-- Settles O4: every step keeps the ranges, the wear counts and the array's form. -/
theorem stepKeepsBounds : Obligations.StepKeepsBounds := by
  unfold Obligations.StepKeepsBounds
  intro s t h
  obtain ⟨hkept, hwear⟩ := step_rangesKept h
  refine ⟨fun hb => ?_, hkept.array⟩
  obtain ⟨hrange, hledger⟩ := s.bounded_iff.1 hb
  exact t.bounded_iff.2 ⟨hkept.inRange hrange, hwear.ledger hledger⟩

/-- Settles O7: with the exceptions of the statement shut out, nothing that a command or a plain own step is made of clears a
latched cause. -/
theorem latchedCausesPersist : Obligations.LatchedCausesPersist := by
  unfold Obligations.LatchedCausesPersist
  intro c s t
  refine ⟨fun hreset hattn hcloses h => ?_, fun hp hplain h => ?_⟩
  · have hkept : s.RangesKept False t := exec_rangesKept (fun hc => by rw [hreset] at hc; cases hc)
      (fun hc => by rw [hattn] at hc; cases hc) (fun hc => by rw [hcloses] at hc; cases hc) h
    exact hkept.latched not_false
  · obtain ⟨hrun, -⟩ := s.ownStepPlain_iff.1 hplain
    rw [s.step_running hp hrun] at h
    cases h
    exact (State.runningStep_rangesKept (.inr hplain)).latched not_false

end Sys2Proof.Machine
end

