-- ==== Sys2Proof/Proofs/ConfigRequests.lean ====
section
/-!
PROOFS. PING, IDENTIFY, STATUS and CONFIG_SET (sections 10.4 and 10.6 to 10.8), each served in its own acceptance: what STATUS
reports is read from the hand-over state with the slot of the request counted, and CONFIG_SET writes the active record and
the keepalive timer alone. Settles O32, O33, O35 and O36.
-/

namespace Sys2Proof.Machine

/-! ### PING and IDENTIFY (R207, R210) -/

/-- A PING has the form of the table when it carries at most 64 octets (R84, R210). -/
theorem formOk_ping (data : List Byte) : formOk (Request.ping data).payload = decide (data.length ≤ 64) := by
  rw [Bool.eq_iff_iff, formOk_iff, decide_eq_true_iff]
  simp [Request.payload, Request.code, shortestForm, longestForm, Nat.lt_succ_iff]

/-- A taken request that fails its form check is answered BAD_REQUEST (R84). -/
theorem exec_badForm {s : State} {h : ParcelHead} {i : Nat} (ht : s.takes h i = true) {c : Instr} {r : Request}
    (hc : requestOf c = some (h, r)) (hf : formOk r.payload = false) :
    exec c s = .next (s.answers h i r [r.code, 1]) := by
  obtain ⟨ha, htag⟩ := (s.takes_iff h i).1 ht
  rw [ha.exec_eq hc, State.accept_badForm _ _ _ (s.takes_lt ht) ((s.tagInUse_beforeAcceptance h i h.tag).trans htag) hf]
  rfl

/-- Settles O32: a PING of the form of the table answers with its data, a longer one fails the form check. -/
theorem pingEchoes : Obligations.PingEchoes := by
  unfold Obligations.PingEchoes
  intro s h i data ht
  refine ⟨fun hl => ?_, fun hl => ?_⟩
  · exact requestStep_respond s h i (.ping data) .ok _ ht ((formOk_ping data).trans (decide_eq_true hl))
  · exact exec_badForm ht (c := .ping h data) rfl ((formOk_ping data).trans (decide_eq_false (Nat.not_le.2 hl)))

/-- Settles O33: IDENTIFY answers with what no state decides. -/
theorem identifyReports : Obligations.IdentifyReports := by
  unfold Obligations.IdentifyReports
  exact fun s h i ht => requestStep_respond s h i .identify .ok _ ht rfl

/-! ### STATUS (R208, R209) -/

/-- A slot taken from the Free ones is one more in use (R208). -/
theorem State.slotsUsed_takeSlot {s : State} {i : Nat} (hi : i < s.rd.slots.length) (hf : (s.slot i).state = .free)
    (tag : Byte) (r : Request) : (s.takeSlot i tag r).slotsUsed = s.slotsUsed + 1 := by
  have hfree : s.rd.slots[i].state = .free := by
    rwa [State.slot, List.getD_eq_getElem _ _ hi] at hf
  simp [State.slotsUsed, State.takeSlot, State.setSlot, List.countP_set hi, hfree]

/-- An Nr counts nothing: the six counters of the Session Unit stay (R61, R81). -/
theorem State.acknowledge_counterList (s : State) (nr : Seq) : (s.acknowledge nr).su.counterList = s.su.counterList := by
  unfold State.acknowledge
  dsimp only
  split <;> rfl

/-- STATUS in the slot it has taken reports the hand-over state: V(A) is the Nr, V(R) is past the request, and its own slot
is counted (R61, R62, R208). -/
theorem State.statusResults_takeSlot {s : State} {h : ParcelHead} {i : Nat} (ht : s.takes h i = true) (flags : Byte) :
    ((s.beforeAcceptance h).takeSlot i h.tag (.status flags)).statusResults =
      [1, s.su.epoch, octet s.su.vs.toNat, octet h.nr.toNat, octet (s.su.vr + 1).toNat,
        octet (s.su.vs - h.nr).toNat, s.statusFlags, octet (s.slotsUsed + 1), octet s.rd.queue.length,
        s.ae.engine.code, s.bc.state.code, octet s.bc.pendingSectors.length, octet s.eu.lost,
        octet (s.beforeAcceptance h).eu.log.length] ++
        (s.pf.counters.list ++ s.su.counterList).flatMap octets16 := by
  obtain ⟨ha, -⟩ := (s.takes_iff h i).1 ht
  obtain ⟨hfree, hlt⟩ := ha.slot
  have hrd : (s.beforeAcceptance h).rd = s.rd := (s.beforeAcceptance_frame h).1
  have hused : ((s.beforeAcceptance h).takeSlot i h.tag (.status flags)).slotsUsed = s.slotsUsed + 1 := by
    rw [State.slotsUsed_takeSlot hlt ((congrArg Slot.state (s.slot_of_rd hrd i)).trans hfree), State.slotsUsed, hrd]
    rfl
  obtain ⟨-, hvr, hvs, -, -, hepoch, hhost, -⟩ := s.acknowledge_su h.nr
  obtain ⟨-, -, hlost, -⟩ := s.acknowledge_causes h.nr
  have hattached : ((s.beforeAcceptance h).takeSlot i h.tag (.status flags)).isAttached = true :=
    State.isAttached_of_link (State.beforeAcceptance_takes ht).2
  have hcounted : (s.beforeAcceptance h).su.counterList = s.su.counterList := by
    rw [State.beforeAcceptance, State.handedOver_eq]
    exact s.acknowledge_counterList h.nr
  rw [State.statusResults, hused, hattached]
  simp only [State.statusFlags, State.takeSlot_su, State.takeSlot_eu, hcounted]
  rw [State.beforeAcceptance, State.handedOver_eq]
  simp only [State.acceptSequence_su, State.acceptSequence_eu, hvr, hvs, hepoch, hhost, hlost,
    State.acknowledge_va]
  rfl

/-- STATUS in the slot it has taken: the answer, and with bit 0 of its flags the counters at 0 (R209). -/
theorem statusService_takeSlot {s : State} {i : Nat} (hi : i < s.rd.slots.length) (tag flags : Byte) :
    statusService flags i (s.takeSlot i tag (.status flags)) =
      if flags.getLsbD 0 then
        (s.withAnswer i tag (.status flags) (0x10 :: 0 :: (s.takeSlot i tag (.status flags)).statusResults)).clearCounters
      else s.withAnswer i tag (.status flags) (0x10 :: 0 :: (s.takeSlot i tag (.status flags)).statusResults) := by
  unfold statusService
  dsimp only
  rw [s.answer_takeSlot i tag (.status flags) .ok _ hi]
  rfl

/-- Settles O35: flags of 0 or 1 pass the check, and the service reports and, at 1, clears. -/
theorem statusReportsAndClears : Obligations.StatusReportsAndClears := by
  unfold Obligations.StatusReportsAndClears
  intro s h i flags ht
  dsimp only
  refine ⟨fun hflags => ?_, fun hflags => ?_⟩
  · have hcheck : staticCheck (.status flags) = none := by
      rcases hflags with rfl | rfl <;> rfl
    rw [exec_served ht (c := .status h flags) rfl rfl hcheck]
    refine congrArg Host.Outcome.next
      ((congrArg (s.atEnd h) (statusService_takeSlot (s.takes_lt ht) h.tag flags)).trans ?_)
    rw [State.statusResults_takeSlot ht]
    rcases hflags with rfl | rfl
    · rfl
    · rw [State.answers, State.atEnd_eq, State.atEnd_eq]
      rfl
  · have hcheck : staticCheck (.status flags) = some (.badParam, []) :=
      (staticCheck_status flags).trans (if_pos hflags)
    exact exec_checkFails ht (c := .status h flags) rfl rfl hcheck

/-! ### CONFIG_SET (R202, R203) -/

/-- A record read from its twelve octets has those octets (section 10.1). -/
theorem Settings.octets_ofOctets {os : List Byte} (h : os.length = 12) : (Settings.ofOctets os).octets = os := by
  match os, h with
  | [_, _, _, _, _, _, _, _, _, _, _, _], _ => rfl

/-- A field that is set is one octet of the record that changes (section 10.1). -/
theorem Settings.octets_setField (r : Settings) (k : Nat) (v : Byte) : (r.setField k v).octets = r.octets.set k v :=
  Settings.octets_ofOctets ((List.length_set ..).trans rfl)

/-- Of the pairs that name a field the last one wins (R203). -/
theorem Settings.octets_applyPairs (r : Settings) (pairs : List (Byte × Byte)) {k : Nat} (hk : k < 12) :
    (r.applyPairs pairs).octets.getD k 0 =
      ((pairs.reverse.find? (fun p => p.1.toNat == k)).map Prod.snd).getD (r.octets.getD k 0) := by
  induction pairs using List.reverseRecOn with
  | nil => rfl
  | append_singleton pairs p ih =>
    have hlength : (r.applyPairs pairs).octets.length = 12 := rfl
    have hlast : (r.applyPairs (pairs ++ [p])).octets = (r.applyPairs pairs).octets.set p.1.toNat p.2 := by
      rw [Settings.applyPairs, List.foldl_append]
      exact Settings.octets_setField _ _ _
    rw [hlast, List.reverse_append, List.reverse_singleton, List.singleton_append, List.find?_cons]
    by_cases hp : p.1.toNat = k
    · subst hp
      simp [hlength, hk]
    · rw [beq_false_of_ne hp, ← ih]
      simp [List.getD_eq_getElem?_getD, List.getElem?_set_ne hp]

/-- New settings are the active record, and restart, start or stop the keepalive timer if field 4 has changed (R76,
R203). -/
theorem State.applySettings_eq (s : State) (r : Settings) :
    s.applySettings r = { s with
      cs := { s.cs with active := r }
      su := { s.su with
        keepalive :=
          if r.keepalive = s.cs.active.keepalive then s.su.keepalive
          else if r.keepalive = 0 then .stopped
          else .running (r.keepalive.toNat * 1000) } } := by
  unfold State.applySettings
  dsimp only
  split
  case isTrue => rfl
  case isFalse => rw [State.start_keepaliveTicks]

/-- CONFIG_SET in the slot it has taken: the new settings, and the whole record as the answer (R203). -/
theorem configSetService_takeSlot {s : State} {i : Nat} (hi : i < s.rd.slots.length) (tag : Byte)
    (pairs : List (Byte × Byte)) :
    configSetService pairs i (s.takeSlot i tag (.configSet pairs)) =
      (s.applySettings (s.cs.active.applyPairs pairs)).withAnswer i tag (.configSet pairs)
        ([0x0E, 0] ++ (s.cs.active.applyPairs pairs).octets) := by
  have hset (r : Settings) : (s.takeSlot i tag (.configSet pairs)).applySettings r =
      (s.applySettings r).takeSlot i tag (.configSet pairs) := by
    rw [State.applySettings_eq, State.applySettings_eq]
    rfl
  have hactive (r : Settings) : (s.applySettings r).cs.active = r := by
    rw [State.applySettings_eq]
  unfold configSetService
  simp only [State.takeSlot_cs, hset, hactive]
  exact State.answer_takeSlot _ i tag (.configSet pairs) .ok _ (by rwa [(s.applySettings_work _).1])

/-- A CONFIG_SET of 1 to 8 pairs has the form of the table (R84, R202). -/
theorem formOk_configSet {pairs : List (Byte × Byte)} (h1 : 1 ≤ pairs.length) (h8 : pairs.length ≤ 8) :
    formOk (Request.configSet pairs).payload = true := by
  have hlength : (Request.configSet pairs).payload.length = 2 * pairs.length + 1 := by
    simp [Request.payload, Nat.mul_comm]
  rw [formOk_iff, hlength]
  exact ⟨List.cons_ne_nil _ _, show 1 ≤ 14 by omega, show 14 ≤ 20 by omega,
    show 3 ≤ 2 * pairs.length + 1 by omega, show 2 * pairs.length + 1 ≤ 17 by omega, fun _ => by omega⟩

/-- The first failing pair is the one the check names (R202). -/
theorem configSetCheck_first {pairs : List (Byte × Byte)} {n : Nat} (hn : n < pairs.length)
    (hbad : pairBad (pairs.getD n (0, 0)) = true) (hgood : (pairs.take n).all (fun p => !pairBad p) = true) :
    configSetCheck pairs = some (.badParam, [octet n]) := by
  have hfirst : pairs.findIdx? pairBad = some n := by
    rw [List.getD_eq_getElem _ _ hn] at hbad
    refine List.findIdx?_eq_some_iff_getElem.2 ⟨hn, hbad, fun j hj => ?_⟩
    have hmem : pairs[j] ∈ pairs.take n := List.mem_take_iff_getElem.2 ⟨j, by omega, rfl⟩
    simpa using List.all_eq_true.1 hgood _ hmem
  rw [configSetCheck, hfirst]

theorem configSetCheck_passes {pairs : List (Byte × Byte)} (hgood : pairs.all (fun p => !pairBad p) = true) :
    configSetCheck pairs = none := by
  have hnone : pairs.findIdx? pairBad = none := by
    simpa using hgood
  rw [configSetCheck, hnone]

/-- Settles O36: a failing pair fails the static check; pairs that pass are applied in the acceptance, which has touched
neither the record nor what else the statement frames. -/
theorem configSetApplies : Obligations.ConfigSetApplies := by
  unfold Obligations.ConfigSetApplies
  intro s h i id pairs ht h1 h8
  have hform := formOk_configSet h1 h8
  refine ⟨fun hid hbad hgood => ?_, fun hgood => ?_⟩
  · exact exec_checkFails ht (c := .configSet h pairs) rfl hform (configSetCheck_first hid hbad hgood)
  · obtain ⟨-, hae, hbc, hpu, hcs, harray, hledger, -⟩ := s.beforeAcceptance_frame h
    rw [exec_served ht (c := .configSet h pairs) rfl hform (configSetCheck_passes hgood)]
    refine ⟨_, congrArg (fun t => Host.Outcome.next (s.atEnd h t))
      (configSetService_takeSlot (s.takes_lt ht) h.tag pairs), ?_⟩
    simp only [State.applySettings_eq, hcs, State.answers, State.atEnd_eq]
    refine ⟨fun hid => ?_, rfl, rfl, rfl, rfl, rfl, rfl, rfl, hae, hbc, rfl, hpu, hledger, harray⟩
    refine (Settings.octets_applyPairs _ pairs hid).trans ?_
    cases pairs.reverse.find? (fun p => p.1.toNat == id) <;> rfl

end Sys2Proof.Machine
end

