-- ==== Sys2Proof/Proofs/ConfigStoreSteps.lean ====
section
/-!
PROOFS. The stages of a CONFIG_STORE (section 10.5): every step writes its target copy and goes on to a stage or ends the
request (R205), and a committed copy that holds the record's image is the current one (R199). Settles O51.
-/

namespace Sys2Proof.Machine

/-! ### The stored copies (R199) -/

@[simp] theorem ConfigStore.setCopy_copy (c : ConfigStore) (id : CopyId) : c.setCopy id (c.copy id) = c := by
  cases id <;> rfl

@[simp] theorem ConfigStore.setCopy_active (c : ConfigStore) (id : CopyId) (x : StoredCopy) :
    (c.setCopy id x).active = c.active := by cases id <;> rfl

/-- The image of a record holds its fields, its generation and their check, in that order (R199, R205). -/
theorem copyImage_facts (record : Settings) (g : Byte) :
    Settings.ofOctets (copyImage record g) = record ∧ (copyImage record g).getD 12 0 = g ∧
      octets16 (crc16 ((copyImage record g).take 13)) = (copyImage record g).drop 13 :=
  ⟨record.ofOctets_octets, rfl, rfl⟩

/-- A committed copy that holds the image of a record in range is valid (R199). -/
theorem StoredCopy.valid_committed {c : StoredCopy} {record : Settings} {g : Byte} (hc : c.octets = copyImage record g)
    (hr : record.inRange = true) : ({ c with committed := true } : StoredCopy).valid = true := by
  obtain ⟨hrecord, -, hcheck⟩ := copyImage_facts record g
  simp only [StoredCopy.valid, hc, hrecord, hcheck, hr, beq_self_eq_true, Bool.and_self]

/-- A valid copy is current if the other one is not valid, or one generation behind it; the generations wrap (R199). -/
theorem ConfigStore.current_of_newer {c : ConfigStore} {id : CopyId} (hv : (c.copy id).valid = true)
    (hg : (c.copy id.other).valid = true → (c.copy id).generation = (c.copy id.other).generation + 1) :
    c.current = some id := by
  cases id with
  | zero =>
    simp only [ConfigStore.copy, CopyId.other] at hv hg
    cases hother : c.copy1.valid with
    | false => simp only [ConfigStore.current, hv, hother]
    | true =>
      have hbehind : c.copy1.generation ≠ c.copy0.generation + 1 := by
        rw [hg hother]
        bv_omega
      simp only [ConfigStore.current, hv, hother, if_neg hbehind]
  | one =>
    simp only [ConfigStore.copy, CopyId.other] at hv hg
    cases hother : c.copy0.valid with
    | false => simp only [ConfigStore.current, hv, hother]
    | true => simp only [ConfigStore.current, hv, hother, if_pos (hg hother)]

/-! ### One octet of the target copy (R120, R205) -/

/-- What sixteen pulses leave of an octet of a copy (R110, R120). -/
def StoredCopy.leftOctet (c : StoredCopy) (n : Nat) (want : Byte) (pulses : List Byte) : Byte :=
  pulseOnce (c.octets.getD n 0xFF) (c.octets.getD n 0xFF &&& want) (clearedBy 16 pulses)

/-- A copy of which one octet has taken its pulses (R205). -/
def StoredCopy.pulsed (c : StoredCopy) (n : Nat) (want : Byte) (pulses : List Byte) : StoredCopy :=
  { c with octets := c.octets.set n (c.leftOctet n want pulses) }

/-- An octet that holds its target takes no pulse that changes it (R110, R120). -/
theorem StoredCopy.octets_pulsed_target {c : StoredCopy} {n : Nat} {want : Byte}
    (hold : c.octets.getD n 0xFF &&& want = c.octets.getD n 0xFF) (pulses : List Byte) :
    (c.pulsed n want pulses).octets = c.octets := by
  rw [StoredCopy.pulsed, StoredCopy.leftOctet, hold, pulseOnce_target]
  rcases Nat.lt_or_ge n c.octets.length with hn | hn
  · rw [List.getD_eq_getElem _ _ hn, List.set_getElem_self]
  · exact List.set_eq_of_length_le hn

/-- An octet of the copy is left as its pulses leave it, and verifies just when it then holds its target (R120). -/
theorem programCopyOctet_eq (c : StoredCopy) (n : Nat) (want : Byte) (pulses : List Byte) :
    programCopyOctet c.octets n 0 want pulses =
      ((c.pulsed n want pulses).octets, decide (c.leftOctet n want pulses = c.octets.getD n 0xFF &&& want)) := by
  unfold programCopyOctet
  dsimp only
  split
  case isTrue hold =>
    have hleft : c.leftOctet n want pulses = c.octets.getD n 0xFF &&& want := by
      rw [StoredCopy.leftOctet, hold, pulseOnce_target]
    rw [StoredCopy.octets_pulsed_target hold, decide_eq_true hleft]
  case isFalse hold =>
    have hverified := pulseOctet_verifies (c.octets.getD n 0xFF &&& want) 16 pulses _ (Ne.symm hold)
    exact Prod.ext (congrArg (c.octets.set n) (pulseOctet_fst _ 16 pulses _))
      (Bool.eq_iff_iff.2 (hverified.trans decide_eq_true_iff.symm))

/-! ### The stages (R205) -/

section Stages

variable (s : State) (slot : Nat) (record : Settings) (id : CopyId) (g : Byte)

/-- The CONFIG_STORE goes on to a stage, its target copy left so. -/
def State.storeGoesOn (x : StoredCopy) (stage : CopyStage) : State :=
  (s.setCopy id x).configStage slot record id g stage

/-- The CONFIG_STORE has ended with a status, its target copy left so. -/
def State.storeEnds (x : StoredCopy) (st : Status) : State :=
  ((s.setCopy id x).finishRunning slot st []).engineFreed

/-- The target copy of which one octet has taken its pulses toward the record's image. -/
def State.storePulses (n : Nat) (pulses : List Byte) : StoredCopy :=
  (s.cs.copy id).pulsed n ((copyImage record g).getD n 0xFF) pulses

variable {n : Nat} {pulses : List Byte}

theorem State.setCopy_copy : s.setCopy id (s.cs.copy id) = s := by
  rw [State.setCopy, ConfigStore.setCopy_copy]

/-- An erase pulse before the hundredth that leaves the copy unerased is followed by another. -/
theorem State.configStep_eraseAgain (hn : n + 1 < 100) :
    s.configStep slot record id g (.eraseCopy n) false pulses =
      s.storeGoesOn slot record id g (s.cs.copy id) (.eraseCopy (n + 1)) := by
  rw [State.storeGoesOn, s.setCopy_copy id]
  exact if_pos hn

/-- The hundredth ends the request in STORE_FAULT. -/
theorem State.configStep_eraseFault (hn : 100 ≤ n + 1) :
    s.configStep slot record id g (.eraseCopy n) false pulses = s.storeEnds slot id (s.cs.copy id) .storeFault := by
  rw [State.storeEnds, s.setCopy_copy id]
  exact if_neg (Nat.not_lt.2 hn)

/-- An octet that its pulses bring to its target leads on to the next, and the last of the fifteen to the commit. -/
theorem State.configStep_octetDone {erased : Bool} (hn : n < 15)
    (hleft : (s.cs.copy id).leftOctet n ((copyImage record g).getD n 0xFF) pulses =
      (s.cs.copy id).octets.getD n 0xFF &&& (copyImage record g).getD n 0xFF) :
    s.configStep slot record id g (.programOctet n 0) erased pulses =
      s.storeGoesOn slot record id g (s.storePulses record id g n pulses)
        (if n = 14 then .commit else .programOctet (n + 1) 0) := by
  simp only [State.configStep, programCopyOctet_eq, decide_eq_true hleft, Bool.not_true, Bool.false_eq_true, if_false]
  by_cases hlast : n = 14
  · rw [if_pos hlast, if_neg (by omega)]
    rfl
  · rw [if_neg hlast, if_pos (by omega)]
    rfl

/-- An octet that sixteen pulses leave off its target ends the request in STORE_FAULT. -/
theorem State.configStep_octetFault {erased : Bool}
    (hleft : (s.cs.copy id).leftOctet n ((copyImage record g).getD n 0xFF) pulses ≠
      (s.cs.copy id).octets.getD n 0xFF &&& (copyImage record g).getD n 0xFF) :
    s.configStep slot record id g (.programOctet n 0) erased pulses =
      s.storeEnds slot id (s.storePulses record id g n pulses) .storeFault := by
  simp only [State.configStep, programCopyOctet_eq, decide_eq_false hleft, Bool.not_false, if_true]
  rfl

/-- Whatever the stage, a step of a CONFIG_STORE writes its target copy and goes on to a stage or ends the request. -/
theorem State.configStep_cases (stage : CopyStage) (erased : Bool) :
    ∃ x, (∃ next, s.configStep slot record id g stage erased pulses = s.storeGoesOn slot record id g x next) ∨
      ∃ st, s.configStep slot record id g stage erased pulses = s.storeEnds slot id x st := by
  cases stage with
  | clearMark => exact ⟨_, .inl ⟨_, rfl⟩⟩
  | eraseCopy n =>
    cases erased with
    | true => exact ⟨_, .inl ⟨_, rfl⟩⟩
    | false =>
      rcases Nat.lt_or_ge (n + 1) 100 with hn | hn
      · exact ⟨_, .inl ⟨_, s.configStep_eraseAgain slot record id g hn⟩⟩
      · exact ⟨_, .inr ⟨_, s.configStep_eraseFault slot record id g hn⟩⟩
  | programOctet n count =>
    simp only [State.configStep]
    split
    · exact ⟨_, .inr ⟨_, rfl⟩⟩
    · split <;> exact ⟨_, .inl ⟨_, rfl⟩⟩
  | commit => exact ⟨_, .inr ⟨_, rfl⟩⟩

/-- Of the stores a step of a CONFIG_STORE writes one copy alone: whatever starts at its end writes none (R198, R205). -/
theorem State.configStep_stores (stage : CopyStage) (erased : Bool) :
    let t := s.configStep slot record id g stage erased pulses
    (∃ x, t.cs = s.cs.setCopy id x) ∧ t.array = s.array ∧ t.pu = s.pu := by
  obtain ⟨x, ⟨next, ht⟩ | ⟨st, ht⟩⟩ := s.configStep_cases slot record id g (pulses := pulses) stage erased
  · rw [ht]
    exact ⟨⟨x, rfl⟩, rfl, rfl⟩
  · have hframe := (s.setCopy id x).finishFreed_frame slot st []
    rw [ht]
    exact ⟨⟨x, hframe.cs⟩, hframe.array, hframe.pu⟩

/-- The request that ends has its answer, and the copies are as its last step has left them (R100). -/
theorem State.storeEnds_answered (h : s.coherent = true) (hi : s.ae.engine.slot? = some slot)
    (ho : (s.slot slot).orphaned = false) (x : StoredCopy) (st : Status) :
    (s.storeEnds slot id x st).slot slot =
        { s.slot slot with
          state := .answered, completion := s.rd.nextCompletion
          response := [(s.slot slot).request.code, st.code] } ∧
      (s.storeEnds slot id x st).cs = s.cs.setCopy id x :=
  ⟨State.Agrees.slot_finishFreed (s := s.setCopy id x) ((State.agrees_of_coherent h).congr rfl rfl rfl rfl) hi ho st [],
    ((s.setCopy id x).finishFreed_frame slot st []).cs⟩

end Stages

/-- Settles O51: each stage is one operation, which goes on with the target copy as written or ends the request; at the
commit the copy holds the record's image, and is judged against the other. -/
theorem configStoreSteps : Obligations.ConfigStoreSteps := by
  unfold Obligations.ConfigStoreSteps
  intro s slot n record id g stage erased pulses h ho he
  have hslot : s.ae.engine.slot? = some slot := by
    rw [he]
    rfl
  dsimp only
  rw [exec_configStoreStep he]
  refine ⟨?_, fun hs => ?_, fun hs hd => ?_, fun hs hd hn => ?_, fun hs hd hn => ?_, fun hs hn hleft => ?_,
    fun hs hleft => ?_, fun hs himage hrange hnewer => ?_⟩
  case refine_1 =>
    obtain ⟨⟨x, hcs⟩, harray, hpu⟩ := s.configStep_stores slot record id g (pulses := pulses) stage erased
    refine Answers.of_next ⟨?_, ?_, harray, hpu⟩
    · rw [hcs, ConfigStore.copy_setCopy_other]
    · rw [hcs, ConfigStore.setCopy_active]
  all_goals subst hs
  case refine_2 => rfl
  case refine_3 =>
    subst hd
    rfl
  case refine_4 =>
    subst hd
    exact congrArg Host.Outcome.next (s.configStep_eraseAgain slot record id g hn)
  case refine_5 =>
    subst hd
    obtain ⟨hanswer, hcs⟩ := s.storeEnds_answered slot id h hslot ho (s.cs.copy id) .storeFault
    refine ⟨_, congrArg Host.Outcome.next (s.configStep_eraseFault slot record id g hn), hanswer, ?_⟩
    rw [hcs, ConfigStore.copy_setCopy_same]
  case refine_6 => exact congrArg Host.Outcome.next (s.configStep_octetDone slot record id g hn hleft)
  case refine_7 =>
    obtain ⟨hanswer, hcs⟩ := s.storeEnds_answered slot id h hslot ho (s.storePulses record id g n pulses) .storeFault
    refine ⟨_, congrArg Host.Outcome.next (s.configStep_octetFault slot record id g hleft), hanswer, ?_⟩
    rw [hcs, ConfigStore.copy_setCopy_same]
    rfl
  case refine_8 =>
    obtain ⟨hrecord, hgeneration, -⟩ := copyImage_facts record g
    obtain ⟨hanswer, hcs⟩ := s.storeEnds_answered slot id h hslot ho { s.cs.copy id with committed := true } .ok
    refine Answers.of_next (t := s.storeEnds slot id { s.cs.copy id with committed := true } .ok) ⟨?_, ?_, hanswer⟩
    · rw [hcs]
      refine ConfigStore.current_of_newer ?_ ?_
      · rw [ConfigStore.copy_setCopy_same]
        exact StoredCopy.valid_committed himage hrange
      · rw [ConfigStore.copy_setCopy_same, ConfigStore.copy_setCopy_other, StoredCopy.generation, himage, hgeneration]
        exact hnewer
    · rw [hcs, ConfigStore.copy_setCopy_same, himage, hrecord]

end Sys2Proof.Machine
end
